-- ==== Sys2Proof/Word.lean ====
section
/-! DEFINITION. The plain words of the controller: octets, running times, samples, and the numbers that name its records. -/

namespace Sys2Proof

/-- An octet, the unit of the control link (00_scope.md, Conventions). -/
abbrev Octet := BitVec 8

/-- A running-time value: a 32-bit count of milliseconds that wraps (R29). -/
abbrev Time := BitVec 32

/-- A 16-bit signed linear audio sample (00_scope.md, Capacities). -/
abbrev Sample := BitVec 16

/-- A 12-bit noise sensor envelope, 0 to 4095 (R154). -/
abbrev Envelope := BitVec 12

/-- A set of zone outputs, bit n for output n (R166). -/
abbrev OutputSet := BitVec 16

/-- The host's number for a call, 1 to 65535 (R28). -/
abbrev Handle := Nat

/-- One dialled digit, 0 to 9. -/
abbrev Digit := Nat

/-- A station index, 0 to 511 (R1). -/
abbrev StationId := Fin 512

/-- A hunt group number, 0 to 31 (R42). -/
abbrev GroupId := Fin 32

/-- A pickup group number, 0 to 63 (R88). -/
abbrev PickupGroup := Fin 64

/-- A search list number, 0 to 15 (R89). -/
abbrev ListId := Fin 16

/-- A park orbit number, 0 to 19 (R100). -/
abbrev OrbitId := Fin 20

/-- A page id, 0 to 15 (R112). -/
abbrev PageId := Fin 16

/-- A zone map set number, 0 to 3 (R109). -/
abbrev MapSetId := Fin 4

/-- A logical zone number, 0 to 31 (R109). -/
abbrev ZoneId := Fin 32

/-- A zone output number, 0 to 15 (R130). -/
abbrev OutputId := Fin 16

/-- A chime pattern number, 0 to 7 (R140). -/
abbrev PatternId := Fin 8

/-- A page input, P0 to P3 (R118). -/
abbrev InputId := Fin 4

end Sys2Proof
end

