-- ==== Sys2Proof/Config.lean ====
section
/-! DEFINITION. The capacities and fixed values of the part (00_scope.md, Capacities and Fixed Values). `unreadOctet` is the one free value. -/

namespace Sys2Proof.Config

/-- Call records (R25). -/
def callRecords : Nat := 96

/-- Directory entries (R19). -/
def directoryEntries : Nat := 1024

/-- Members of one group, and hunt groups of one station, and entries of all member lists (R44). -/
def groupMembers : Nat := 32

/-- Member lists a station may appear in (R44). -/
def stationGroups : Nat := 4

/-- Entries of all 32 member lists together (R44). -/
def memberEntries : Nat := 512

/-- The hop limit of overflow (R75). -/
def hopLimit : Nat := 6

/-- Stations in a page's desk list (R116). -/
def deskStations : Nat := 32

/-- Digits of a presented number (R20). -/
def presentedDigits : Nat := 8

/-- Frames in the receive buffer (R168). -/
def receiveFrames : Nat := 4

/-- Replies in the reply queue (R169). -/
def replies : Nat := 8

/-- Advisories in the advisory queue (R175). -/
def advisories : Nat := 32

/-- The ceiling of every age, 2^30 ms (R12, R29, R120). -/
def ageCeiling : Nat := 1073741824

/-- The ring time of an attendant ring and of a recall, 30 s (R78, R103, R105). -/
def attendantRing : Nat := 30000

/-- The time a save may take, 1.5 s (R183). -/
def saveTime : Nat := 1500

/-- The noise samples a window needs for a decision (R157). -/
def starvedBelow : Nat := 16

/-- The longest gap between two octets of a frame, 5 ms (R167). -/
def octetGap : Nat := 5

/-- The two octets that follow the code of a target NONE or ATTENDANT: the manual says they are read for GROUP and STATION
alone and states no value for them (R166). A free value: nothing constrains it (log entry 14). -/
opaque unreadOctet : Nat → Octet

/-- The most octets of a frame's BODY (R165). -/
def bodyOctets : Nat := 240

end Sys2Proof.Config
end

