-- ==== Sys2Proof/Syntax.lean ====
section
/-! DEFINITION. The commands of the controller: one constructor for each row of spec/opcode_table.json. -/

namespace Sys2Proof

/-- A command. A request carries the TAG and the BODY octets of the frame that is dispatched (R165, R169); an expiry names
the record whose deadline expires. -/
inductive Instr where
  /-- Power is applied. `checkMatches`: the check value of the stored copy matches at the load (R186, R187). -/
  | powerOnReset (checkMatches : Bool)
  /-- RST_N is asserted (R187). -/
  | pinReset
  /-- The transmission of the reply to an accepted RESET ends (R187). -/
  | linkReset
  /-- The octets of one whole frame arrive back to back, the CHECK last (R165, R168). -/
  | frameReceived (kind tag : Octet) (body : List Octet) (check : BitVec 16)
  /-- More than 5 ms have passed since the last octet (R167). -/
  | rxOctetTimeout
  /-- The head frame has a KIND that names no request (R169). -/
  | unknownKind (kind tag : Octet) (body : List Octet)
  /-- CALL_IN is dispatched (R31, R32). -/
  | callIn (tag : Octet) (body : List Octet)
  /-- ANSWER is dispatched (R56). -/
  | answer (tag : Octet) (body : List Octet)
  /-- HANGUP is dispatched (R39). -/
  | hangup (tag : Octet) (body : List Octet)
  /-- STATION is dispatched with the report OFFHOOK, or with no report of the four (R6, R7). -/
  | stationOffhook (tag : Octet) (body : List Octet)
  /-- STATION is dispatched with the report ONHOOK (R8). -/
  | stationOnhook (tag : Octet) (body : List Octet)
  /-- STATION is dispatched with the report OUT_OF_SERVICE (R9). -/
  | stationOutOfService (tag : Octet) (body : List Octet)
  /-- STATION is dispatched with the report IN_SERVICE (R10). -/
  | stationInService (tag : Octet) (body : List Octet)
  /-- PICKUP is dispatched (R92). -/
  | pickup (tag : Octet) (body : List Octet)
  /-- DPICKUP is dispatched (R96). -/
  | dpickup (tag : Octet) (body : List Octet)
  /-- PARK is dispatched (R101, R102). -/
  | park (tag : Octet) (body : List Octet)
  /-- PAGE is dispatched (R114 to R117). -/
  | page (tag : Octet) (body : List Octet)
  /-- PAGE_END is dispatched (R125). -/
  | pageEnd (tag : Octet) (body : List Octet)
  /-- STATUS is dispatched (R178). -/
  | status (tag : Octet) (body : List Octet)
  /-- GET_STATION is dispatched (R178). -/
  | getStation (tag : Octet) (body : List Octet)
  /-- GET_CALL is dispatched (R178). -/
  | getCall (tag : Octet) (body : List Octet)
  /-- LIST_QUEUE is dispatched (R178). -/
  | listQueue (tag : Octet) (body : List Octet)
  /-- GET_ORBITS is dispatched (R178). -/
  | getOrbits (tag : Octet) (body : List Octet)
  /-- GET_PAGE is dispatched (R178). -/
  | getPage (tag : Octet) (body : List Octet)
  /-- GET_OUTPUT is dispatched (R161, R178). -/
  | getOutput (tag : Octet) (body : List Octet)
  /-- GET_GROUP is dispatched (R178). -/
  | getGroup (tag : Octet) (body : List Octet)
  /-- GET_DIR is dispatched (R178). -/
  | getDir (tag : Octet) (body : List Octet)
  /-- SET_SYSTEM is dispatched (R181). -/
  | setSystem (tag : Octet) (body : List Octet)
  /-- SET_DIR is dispatched with the operation ADD, or with no operation of the two (R21). -/
  | setDirAdd (tag : Octet) (body : List Octet)
  /-- SET_DIR is dispatched with the operation REMOVE (R21). -/
  | setDirRemove (tag : Octet) (body : List Octet)
  /-- SET_STATION is dispatched (R1, R3, R182). -/
  | setStation (tag : Octet) (body : List Octet)
  /-- SET_GROUP is dispatched (R64, R72 to R74, R86, R182). -/
  | setGroup (tag : Octet) (body : List Octet)
  /-- SET_MEMBERS is dispatched with the operation ADD, or with no operation of the four (R45, R63). -/
  | setMembersAdd (tag : Octet) (body : List Octet)
  /-- SET_MEMBERS is dispatched with the operation REMOVE (R45, R61). -/
  | setMembersRemove (tag : Octet) (body : List Octet)
  /-- SET_MEMBERS is dispatched with the operation LOGIN (R45, R63). -/
  | setMembersLogin (tag : Octet) (body : List Octet)
  /-- SET_MEMBERS is dispatched with the operation LOGOUT (R45, R62). -/
  | setMembersLogout (tag : Octet) (body : List Octet)
  /-- SET_PICKUP is dispatched (R88). -/
  | setPickup (tag : Octet) (body : List Octet)
  /-- SET_LIST is dispatched (R89). -/
  | setList (tag : Octet) (body : List Octet)
  /-- SET_MAP is dispatched (R110). -/
  | setMap (tag : Octet) (body : List Octet)
  /-- SET_OUTPUT is dispatched (R148). -/
  | setOutput (tag : Octet) (body : List Octet)
  /-- SET_CHIME is dispatched (R140). -/
  | setChime (tag : Octet) (body : List Octet)
  /-- SAVE is dispatched (R183). -/
  | save (tag : Octet) (body : List Octet)
  /-- RESET is dispatched (R187). -/
  | reset (tag : Octet) (body : List Octet)
  /-- The last CHECK octet of the frame on LINK_TX leaves (R173). -/
  | frameTransmitted
  /-- The ring deadline of a group offer expires (R54). -/
  | noAnswerExpiry (call : Handle)
  /-- The ring deadline of a target ring expires (R77). -/
  | targetRingExpiry (call : Handle)
  /-- The ring deadline of an attendant ring expires (R78, R105). -/
  | attendantRingExpiry (call : Handle)
  /-- The ring deadline of a recall expires (R104). -/
  | recallRingExpiry (call : Handle)
  /-- The wait deadline of a call expires (R71). -/
  | waitDeadlineExpiry (call : Handle)
  /-- The escalation deadline of a call expires (R80). -/
  | escalationDeadlineExpiry (call : Handle)
  /-- The park deadline of a call expires (R103). -/
  | parkDeadlineExpiry (call : Handle)
  /-- The repeat deadline of a group in escalation expires (R83). -/
  | repeatDeadlineExpiry (group : GroupId)
  /-- The wait deadline of a WAITING page expires (R119). -/
  | pageWaitExpiry (page : PageId)
  /-- The guard deadline of an output expires (R134). -/
  | guardExpiry (output : OutputId)
  /-- The period of a page's chime ends (R142). -/
  | chimePeriodEnd (page : PageId)
  /-- The tracking window of an output ends (R155, R157, R158). -/
  | windowEnd (output : OutputId)
  /-- The 1 ms block that begins now is built for every output: the samples on page inputs P0 to P3 in that millisecond and
  the sensor inputs NS0 to NS15 (R139, R152, R154). -/
  | outputBlock (inputs : Vector (Vector Sample 8) 4) (noise : Vector Envelope 16)
  /-- The nonvolatile write completes; `verified`: its read-back verify matches (R185). -/
  | saveWriteComplete (verified : Bool)
  /-- The save deadline expires (R185). -/
  | saveDeadlineExpiry
  /-- A station's idle age reaches 2^30 ms (R12). -/
  | idleAgeSaturated (station : StationId)
  /-- The age of a call's queue entry time reaches 2^30 ms (R29). -/
  | queueAgeSaturated (call : Handle)
  /-- The age of a call's arrival time reaches 2^30 ms (R29). -/
  | arrivalAgeSaturated (call : Handle)
  /-- The age of a page's request time reaches 2^30 ms (R120). -/
  | requestAgeSaturated (page : PageId)
  /-- An octet arrives on LINK_RX; `stopBit`: its stop bit is present (R164, R167). -/
  | octetReceived (octet : Octet) (stopBit : Bool)
  /-- RST_N is released (R187). -/
  | leavesReset
  /-- Power is lost (R186). -/
  | lossOfPower
  deriving DecidableEq, Repr

end Sys2Proof
end

