-- ==== Sys2Proof/Machine/Records.lean ====
section
/-! DEFINITION. The records the controller keeps (chapters 1 to 10): the working configuration with its defaults, and the run-time records of each block. -/

namespace Sys2Proof.Machine

/-! ## Names shared by the blocks -/

/-- The four page classes (6.2). -/
inductive PageClass where
  | background | voice | alert | emergency
  deriving DecidableEq, Repr

/-- The class number, BACKGROUND 0 to EMERGENCY 3 (6.2). -/
def PageClass.num : PageClass → Nat
  | .background => 0
  | .voice => 1
  | .alert => 2
  | .emergency => 3

/-- What a page plays: a page input or a chime pattern (R112). -/
inductive Source where
  | input (i : InputId)
  | chime (p : PatternId)
  deriving DecidableEq, Repr

/-- A page reference: page id and generation (R113). -/
structure PageRef where
  id : PageId
  gen : BitVec 8
  deriving DecidableEq, Repr

/-- The four selection algorithms (R42). -/
inductive Algorithm where
  | linear | circular | longestIdle | simultaneous
  deriving DecidableEq, Repr

/-- An overflow target (R73); `nowhere` is the manual's NONE. -/
inductive Target where
  | nowhere
  | group (g : GroupId)
  | station (s : StationId)
  | attendant
  deriving DecidableEq, Repr

/-- The kind and target of a directory entry (R19). -/
inductive DirTarget where
  | station (s : StationId)
  | pilot (g : GroupId)
  | orbit (o : OrbitId)
  deriving DecidableEq, Repr

/-- How a page starts (R117). -/
inductive PageMode where
  | allOrWait | partialStart
  deriving DecidableEq, Repr

/-! ## The working configuration -/

/-- One directory entry: a number of exactly D digits with its kind and target (R19). -/
structure DirEntry where
  number : List Digit
  target : DirTarget
  deriving DecidableEq, Repr

/-- The configuration fields of a station (R1). -/
structure StationCfg where
  inUse : Bool
  pickupGroup : Option PickupGroup
  searchList : Option ListId
  override : Bool
  directAny : Bool
  classLimit : PageClass
  defaultMapSet : MapSetId
  deriving DecidableEq, Repr

/-- A member of a group: a station and its logged-in flag (R44). -/
structure Member where
  station : StationId
  loggedIn : Bool
  deriving DecidableEq, Repr

/-- The configuration fields of a group (R42). Times are in seconds. -/
structure GroupCfg where
  enabled : Bool
  algorithm : Algorithm
  members : List Member
  noAnswer : Nat
  queueLimit : Nat
  maxWait : Nat
  target : Target
  escDelay : Nat
  escMapSet : MapSetId
  escZones : List ZoneId
  chime : PatternId
  repeatInterval : Nat
  deriving DecidableEq, Repr

/-- What an entry of a search list looks in (R89). -/
inductive SearchKey where
  | pg (n : PickupGroup)
  | hq (g : GroupId)
  deriving DecidableEq, Repr

/-- An entry of a search list (R89). -/
structure SearchEntry where
  key : SearchKey
  enabled : Bool
  deriving DecidableEq, Repr

/-- A zone map entry (R109); the manual's "protected" flag is `reserved`. -/
structure ZoneEntry where
  valid : Bool
  outputs : OutputSet
  desks : List StationId
  reserved : Bool
  deriving DecidableEq, Repr

/-- A chime pattern: ON_p in ms and N_p (R140). -/
structure ChimePattern where
  on : Nat
  repeats : Nat
  deriving DecidableEq, Repr

/-- The configuration fields of an output (R147). W is in ms. -/
structure OutputCfg where
  gmin : Nat
  gmax : Nat
  gceil : Nat
  stepSize : Nat
  ut : Nat
  lt : Nat
  ct : Nat
  window : Nat
  settle : Bool
  hold : Bool
  deriving DecidableEq, Repr

/-- The four class offsets (R151). -/
structure ClassOffsets where
  emergency : Int
  alert : Int
  voice : Int
  background : Int
  deriving DecidableEq, Repr

/-- The offset of a class (R151). -/
def ClassOffsets.of (o : ClassOffsets) : PageClass → Int
  | .emergency => o.emergency
  | .alert => o.alert
  | .voice => o.voice
  | .background => o.background

/-- The working configuration: every settable value (10.1). Park time is in seconds, guard interval and CP in ms. -/
structure WorkingConfig where
  digitWidth : Nat
  directory : List DirEntry
  stations : Vector StationCfg 512
  attendant : Option StationId
  groups : Vector GroupCfg 32
  lists : Vector (List SearchEntry) 16
  parkTime : Nat
  maps : Vector (Vector ZoneEntry 32) 4
  guardInterval : Nat
  chimePeriod : Nat
  patterns : Vector ChimePattern 8
  outputs : Vector OutputCfg 16
  offsets : ClassOffsets
  deriving DecidableEq, Repr

/-- A station at its defaults: not in use (R14, R23). -/
def StationCfg.defaults : StationCfg :=
  { inUse := false, pickupGroup := none, searchList := none, override := false, directAny := false,
    classLimit := .background, defaultMapSet := 0 }

/-- A group at its defaults, which the configuration calls "no group" (R42). -/
def GroupCfg.defaults : GroupCfg :=
  { enabled := false, algorithm := .linear, members := [], noAnswer := 15, queueLimit := 8, maxWait := 0,
    target := .nowhere, escDelay := 0, escMapSet := 0, escZones := [], chime := 0, repeatInterval := 30 }

/-- A zone map entry at its defaults (R109). -/
def ZoneEntry.defaults : ZoneEntry :=
  { valid := false, outputs := 0, desks := [], reserved := false }

/-- An output at its defaults (R147). -/
def OutputCfg.defaults : OutputCfg :=
  { gmin := 32, gmax := 160, gceil := 255, stepSize := 4, ut := 1800, lt := 1200, ct := 40, window := 1000,
    settle := true, hold := false }

/-- Every field at its default (R187). -/
def WorkingConfig.defaults : WorkingConfig :=
  { digitWidth := 4
    directory := []
    stations := Vector.replicate 512 StationCfg.defaults
    attendant := none
    groups := Vector.replicate 32 GroupCfg.defaults
    lists := Vector.replicate 16 []
    parkTime := 120
    maps := Vector.replicate 4 (Vector.replicate 32 ZoneEntry.defaults)
    guardInterval := 30
    chimePeriod := 500
    patterns := Vector.replicate 8 { on := 200, repeats := 3 }
    outputs := Vector.replicate 16 OutputCfg.defaults
    offsets := { emergency := 32, alert := 16, voice := 0, background := -16 } }

/-! ## Stations -/

/-- A station's state, with the reference of RINGING and PAGE_LISTEN inside it, so that the reference is present exactly in
those two states (R1, R2). -/
inductive StationState where
  | unused
  | outOfService
  | idle
  | ringing (call : Handle)
  | busy
  | pageListen (page : PageRef)
  deriving DecidableEq, Repr

/-- What a station must show (R16). In RING: the handle, the ring kind (`isRecall`: RECALL, else NORMAL), and the caller
number, empty when absent. -/
inductive Presentation where
  | quiet
  | ring (call : Handle) (isRecall : Bool) (caller : List Digit)
  | desk (page : PageRef) (source : Source)
  deriving DecidableEq, Repr

/-- The run-time fields of a station record (R1). Its mark stands in the station order set (R17). -/
structure Station where
  state : StationState
  idleSince : Time
  saturated : Bool
  lastSent : Presentation
  deriving DecidableEq, Repr

/-! ## Calls -/

/-- The states of a record in use (2.3). -/
inductive CallState where
  | queued | offering | parked | recalling | ending
  deriving DecidableEq, Repr

/-- The kind of ring of an offer (R26). -/
inductive OfferKind where
  | group | target | attendant | recalling
  deriving DecidableEq, Repr

/-- How a call ended (R36). -/
inductive CallOutcome where
  | answered | picked | retrieved | abandoned | noRoute
  deriving DecidableEq, Repr

/-- Whether the outcome is that of a call answered or picked up, which keeps its wait-passed note (R71). -/
def CallOutcome.takesRing : CallOutcome → Bool
  | .answered | .picked => true
  | .retrieved | .abandoned | .noRoute => false

/-- A station ringing for a call, with its offer start time (R33). -/
structure Offer where
  station : StationId
  start : Time
  deriving DecidableEq, Repr

/-- A call record in use (R26). An absent caller number is the empty one. The manual's "private" flag is `noPickup`. -/
structure Call where
  handle : Handle
  caller : List Digit
  noPickup : Bool
  state : CallState
  currentGroup : Option GroupId
  originGroup : Option GroupId
  hops : Nat
  offered : List Offer
  tried : List StationId
  arrival : Time
  queueEntry : Option Time
  queueAgeMark : Bool
  arrivalAgeMark : Bool
  ringDeadline : Option Time
  waitDeadline : Option Time
  escDeadline : Option Time
  parkDeadline : Option Time
  escalated : Bool
  waitPassed : Bool
  /-- The MODEL's own field: the maximum wait of the current group as it stood when the call arrived there, until the call first
  enters that group's queue; absent from then on, when its wait deadline is the one kept from the queue (R68, R73; log entry
  27). -/
  arrivalWait : Option Nat
  offerKind : Option OfferKind
  orbit : Option OrbitId
  parker : Option StationId
  outcome : Option CallOutcome
  outcomeStation : Option StationId
  deriving DecidableEq, Repr

/-! ## Groups -/

/-- The run-time fields of a group record (R42, R66, R81). -/
structure Group where
  cursor : Option StationId
  queue : List Handle
  escPage : Option PageRef
  repeatDeadline : Option Time
  repeatDue : Bool
  deriving DecidableEq, Repr

/-- A group after every reset (R65, R87). -/
def Group.afterReset : Group :=
  { cursor := none, queue := [], escPage := none, repeatDeadline := none, repeatDue := false }

/-! ## Pages, outputs, chimes -/

/-- The states of a page record in use (R112). -/
inductive PageState where
  | waiting | starting | live
  deriving DecidableEq, Repr

/-- Why a page ends (R126). -/
inductive EndReason where
  | endedByHost | complete | waitExpired | preempted | escalationCleared
  deriving DecidableEq, Repr

/-- A chime in play (R141): the pattern, the start of its period, the periods completed, and the length and sounding length
in force for the period. -/
structure Chime where
  pattern : PatternId
  periodStart : Time
  completed : Nat
  length : Nat
  sounding : Nat
  deriving DecidableEq, Repr

/-- A page in use (R112). `waitLimit` is in seconds, none for UNLIMITED. Its held and wanted outputs and its joined stations
are views of the output and station records (`State.held`, `State.wanted`, `State.joined`). -/
structure Page where
  state : PageState
  cls : PageClass
  requester : Option StationId
  escGroup : Option GroupId
  source : Source
  preAnnounce : Option PatternId
  mapSet : MapSetId
  zones : List ZoneId
  mode : PageMode
  started : Bool
  waitLimit : Option Nat
  waitDeadline : Option Time
  requestTime : Time
  requestAgeMark : Bool
  zoneOutputs : OutputSet
  deskList : List StationId
  chime : Option Chime
  deriving DecidableEq, Repr

/-- A page record: its generation, kept also while FREE, and the page it holds (R112, R113). -/
structure PageRec where
  gen : BitVec 8
  page : Option Page
  deriving DecidableEq, Repr

/-- The state of an output, with its holder and guard deadline (R130). -/
inductive OutputState where
  | free
  | guard (page : PageRef) (deadline : Time)
  | audible (page : PageRef)
  deriving DecidableEq, Repr

/-- What a window's end decided (R158). -/
inductive Decision where
  | clipDown | starved | up | atLimit | quietDown | steady | frozen
  deriving DecidableEq, Repr

/-- The run-time fields of an output record (R130, R147), with the samples of its block now on the audio bus and their mark
(R139). -/
structure Output where
  state : OutputState
  gt : Nat
  windowStart : Time
  settling : Bool
  sum : Nat
  count : Nat
  clips : Nat
  lastCount : Option Nat
  lastMean : Option Nat
  lastClips : Option Nat
  lastDecision : Option Decision
  atLimit : Bool
  samples : Vector Sample 8
  sounding : Bool
  deriving DecidableEq, Repr

/-- An output after a reset that leaves it the tracked gain `gt` (R146, R163). -/
def Output.afterReset (gt : Nat) : Output :=
  { state := .free, gt := gt, windowStart := 0, settling := false, sum := 0, count := 0, clips := 0, lastCount := none,
    lastMean := none, lastClips := none, lastDecision := none, atLimit := false, samples := Vector.replicate 8 0,
    sounding := false }

/-! ## The control link -/

/-- A frame without its SYNC, LEN and CHECK (R165). -/
structure Frame where
  kind : Octet
  tag : Octet
  body : List Octet
  deriving DecidableEq, Repr

/-- The receiver (R167): hunting, or in a frame with the octets after SYNC taken so far and the time of the last octet. -/
inductive Receiver where
  | hunting
  | inFrame (octets : List Octet) (last : Time)
  deriving DecidableEq, Repr

/-- The result codes of a reply (R170); `ok` to `unknownKind` are codes 0 to 16. -/
inductive Result where
  | ok | tooLate | nothing | denied | full | duplicate | unknown | notPilot | badValue | badZone | inputBusy | noOutputs
  | refusedState | saving | notEmpty | badLength | unknownKind
  deriving DecidableEq, Repr

/-- A reply in the queue (R170): all but the status flags, which are written at the take (R172). -/
structure Reply where
  kind : Octet
  tag : Octet
  result : Result
  content : List Octet
  deriving DecidableEq, Repr

/-- The cause in START (R187). -/
inductive StartCause where
  | power | pin | link
  deriving DecidableEq, Repr

/-- The origin of the configuration in START (R187). -/
inductive StartOrigin where
  | stored | defaults | retained
  deriving DecidableEq, Repr

/-- The outcome of a save (R185). -/
inductive SaveOutcome where
  | ok | failed | timeout
  deriving DecidableEq, Repr

/-- Why a call was routed (R79). -/
inductive RouteReason where
  | queueFull | displaced | waitExpired | limitLowered | groupDisabled | loop | targetBusy | targetNoAnswer
  deriving DecidableEq, Repr

/-- The report of an ESCALATE advisory (R85). -/
inductive EscReport where
  | started (page : PageRef)
  | skipped
  | badZone
  | cleared
  deriving DecidableEq, Repr

/-- What a PAGE_STATE advisory reports (R127). -/
inductive PageEvent where
  | entered (state : PageState)
  | ended (reason : EndReason)
  deriving DecidableEq, Repr

/-- An advisory, its contents fixed when it is placed (R175, R176). -/
inductive Advisory where
  | routed (call : Handle) (left : Option GroupId) (reason : RouteReason) (dest : Target) (hops : Nat)
  | escalate (group : GroupId) (report : EscReport) (escalated : Nat)
  | pageState (page : PageRef) (cls : PageClass) (event : PageEvent) (held : Nat) (escGroup : Option GroupId)
  | noiseLimit (output : OutputId) (gt : Nat) (mean : Nat) (ut : Nat)
  deriving DecidableEq, Repr

/-- A station in the station order set, with its mark time (R17). -/
structure Mark where
  station : StationId
  time : Time
  deriving DecidableEq, Repr

/-- What the frame on the line is, so far as the end of its transmission acts on it (R38, R187, R188). -/
inductive TxItem where
  | reply
  | resetReply
  | start
  | callEnd (call : Handle)
  | other
  deriving DecidableEq, Repr

/-- The frame on the line: every octet from SYNC to CHECK (R165, R173). -/
structure TxFrame where
  item : TxItem
  octets : List Octet
  deriving DecidableEq, Repr

/-- The control link (chapter 9). -/
structure Link where
  receiver : Receiver
  rxBuffer : List Frame
  replies : List Reply
  start : Option (StartCause × StartOrigin)
  saveDone : Option SaveOutcome
  callOrders : List Handle
  stationOrders : List Mark
  advisories : List Advisory
  rxError : Bool
  rxOverrun : Bool
  advLost : Bool
  tx : Option TxFrame
  startSent : Bool
  resetAwaited : Bool
  deriving DecidableEq, Repr

/-- The control link after every reset (R180, R188). -/
def Link.afterReset (cause : StartCause) (origin : StartOrigin) : Link :=
  { receiver := .hunting, rxBuffer := [], replies := [], start := some (cause, origin), saveDone := none, callOrders := [],
    stationOrders := [], advisories := [], rxError := false, rxOverrun := false, advLost := false, tx := none,
    startSent := false, resetAwaited := false }

/-! ## Configuration Store, supply and pins -/

/-- A save in progress: the configuration taken and the save deadline (R183). -/
structure SaveRun where
  config : WorkingConfig
  deadline : Time
  deriving DecidableEq, Repr

/-- Whether the part runs, is held in reset by RST_N, or has no power (R186, R187). -/
inductive Power where
  | running | heldInReset | unpowered
  deriving DecidableEq, Repr

/-- The input pins of the audio side: the millisecond's samples of P0 to P3 and the noise sensors NS0 to NS15. -/
structure Pins where
  inputs : Vector (Vector Sample 8) 4
  noise : Vector Envelope 16
  deriving DecidableEq, Repr

/-- The pins of the audio side at reset: all zero (DESIGN CHOICE, log entry 7). -/
def Pins.zero : Pins :=
  { inputs := Vector.replicate 4 (Vector.replicate 8 0), noise := Vector.replicate 16 0 }

end Sys2Proof.Machine
end

