-- ==== Sys2Proof/Machine/Rows.lean ====
section
/-! DEFINITION. The request rows of the command table: which row a frame is dispatched by, and the frame of a request command (9.4). -/

namespace Sys2Proof.Machine

/-! ## Which request a frame is (9.4) -/

/-- The request rows of the command table. STATION, SET_DIR and SET_MEMBERS have one row for each report or operation. -/
inductive Row where
  | unknownKind | callIn | answer | hangup | stationOffhook | stationOnhook | stationOutOfService | stationInService | pickup
  | dpickup | park | page | pageEnd | status | getStation | getCall | listQueue | getOrbits | getPage | getOutput | getGroup
  | getDir | setSystem | setDirAdd | setDirRemove | setStation | setGroup | setMembersAdd | setMembersRemove
  | setMembersLogin | setMembersLogout | setPickup | setList | setMap | setOutput | setChime | save | reset
  deriving DecidableEq, Repr

/-- The row of a STATION frame, by its report octet; a report that is none of the four is taken by the OFFHOOK row, which
answers it BAD_VALUE (R6). -/
def stationRow (body : List Octet) : Row :=
  match (body.getD 2 0).toNat with
  | 1 => .stationOnhook
  | 2 => .stationOutOfService
  | 3 => .stationInService
  | _ => .stationOffhook

/-- The row of a SET_DIR frame, by its operation octet; an operation that is neither is taken by the ADD row, which answers
it BAD_VALUE (R21). -/
def setDirRow (body : List Octet) : Row :=
  match (body.getD 0 0).toNat with
  | 1 => .setDirRemove
  | _ => .setDirAdd

/-- The row of a SET_MEMBERS frame, by its operation octet; an operation that is none of the four is taken by the ADD row,
which answers it BAD_VALUE (R45). -/
def setMembersRow (body : List Octet) : Row :=
  match (body.getD 1 0).toNat with
  | 1 => .setMembersRemove
  | 2 => .setMembersLogin
  | 3 => .setMembersLogout
  | _ => .setMembersAdd

/-- The row that a frame is dispatched by: the table of message kinds (9.4). -/
def Frame.row (f : Frame) : Row :=
  match f.kind.toNat with
  | 0x01 => .callIn
  | 0x02 => .answer
  | 0x03 => .hangup
  | 0x04 => stationRow f.body
  | 0x10 => .pickup
  | 0x11 => .dpickup
  | 0x12 => .park
  | 0x18 => .page
  | 0x19 => .pageEnd
  | 0x20 => .status
  | 0x21 => .getStation
  | 0x22 => .getCall
  | 0x23 => .listQueue
  | 0x24 => .getOrbits
  | 0x25 => .getPage
  | 0x26 => .getOutput
  | 0x27 => .getGroup
  | 0x28 => .getDir
  | 0x30 => .setSystem
  | 0x31 => setDirRow f.body
  | 0x32 => .setStation
  | 0x33 => .setGroup
  | 0x34 => setMembersRow f.body
  | 0x35 => .setPickup
  | 0x36 => .setList
  | 0x37 => .setMap
  | 0x38 => .setOutput
  | 0x39 => .setChime
  | 0x3E => .save
  | 0x3F => .reset
  | _ => .unknownKind

/-- The command that the dispatch of a frame is. -/
def Frame.request (f : Frame) : Instr :=
  match f.row with
  | .unknownKind => .unknownKind f.kind f.tag f.body
  | .callIn => .callIn f.tag f.body
  | .answer => .answer f.tag f.body
  | .hangup => .hangup f.tag f.body
  | .stationOffhook => .stationOffhook f.tag f.body
  | .stationOnhook => .stationOnhook f.tag f.body
  | .stationOutOfService => .stationOutOfService f.tag f.body
  | .stationInService => .stationInService f.tag f.body
  | .pickup => .pickup f.tag f.body
  | .dpickup => .dpickup f.tag f.body
  | .park => .park f.tag f.body
  | .page => .page f.tag f.body
  | .pageEnd => .pageEnd f.tag f.body
  | .status => .status f.tag f.body
  | .getStation => .getStation f.tag f.body
  | .getCall => .getCall f.tag f.body
  | .listQueue => .listQueue f.tag f.body
  | .getOrbits => .getOrbits f.tag f.body
  | .getPage => .getPage f.tag f.body
  | .getOutput => .getOutput f.tag f.body
  | .getGroup => .getGroup f.tag f.body
  | .getDir => .getDir f.tag f.body
  | .setSystem => .setSystem f.tag f.body
  | .setDirAdd => .setDirAdd f.tag f.body
  | .setDirRemove => .setDirRemove f.tag f.body
  | .setStation => .setStation f.tag f.body
  | .setGroup => .setGroup f.tag f.body
  | .setMembersAdd => .setMembersAdd f.tag f.body
  | .setMembersRemove => .setMembersRemove f.tag f.body
  | .setMembersLogin => .setMembersLogin f.tag f.body
  | .setMembersLogout => .setMembersLogout f.tag f.body
  | .setPickup => .setPickup f.tag f.body
  | .setList => .setList f.tag f.body
  | .setMap => .setMap f.tag f.body
  | .setOutput => .setOutput f.tag f.body
  | .setChime => .setChime f.tag f.body
  | .save => .save f.tag f.body
  | .reset => .reset f.tag f.body

/-- The frame whose dispatch a request command is, none for a command that is no request (9.4). -/
def requestFrame : Instr → Option Frame
  | .powerOnReset _ => none
  | .pinReset => none
  | .linkReset => none
  | .frameReceived _ _ _ _ => none
  | .rxOctetTimeout => none
  | .unknownKind kind tag body => some { kind := kind, tag := tag, body := body }
  | .callIn tag body => some { kind := 0x01, tag := tag, body := body }
  | .answer tag body => some { kind := 0x02, tag := tag, body := body }
  | .hangup tag body => some { kind := 0x03, tag := tag, body := body }
  | .stationOffhook tag body => some { kind := 0x04, tag := tag, body := body }
  | .stationOnhook tag body => some { kind := 0x04, tag := tag, body := body }
  | .stationOutOfService tag body => some { kind := 0x04, tag := tag, body := body }
  | .stationInService tag body => some { kind := 0x04, tag := tag, body := body }
  | .pickup tag body => some { kind := 0x10, tag := tag, body := body }
  | .dpickup tag body => some { kind := 0x11, tag := tag, body := body }
  | .park tag body => some { kind := 0x12, tag := tag, body := body }
  | .page tag body => some { kind := 0x18, tag := tag, body := body }
  | .pageEnd tag body => some { kind := 0x19, tag := tag, body := body }
  | .status tag body => some { kind := 0x20, tag := tag, body := body }
  | .getStation tag body => some { kind := 0x21, tag := tag, body := body }
  | .getCall tag body => some { kind := 0x22, tag := tag, body := body }
  | .listQueue tag body => some { kind := 0x23, tag := tag, body := body }
  | .getOrbits tag body => some { kind := 0x24, tag := tag, body := body }
  | .getPage tag body => some { kind := 0x25, tag := tag, body := body }
  | .getOutput tag body => some { kind := 0x26, tag := tag, body := body }
  | .getGroup tag body => some { kind := 0x27, tag := tag, body := body }
  | .getDir tag body => some { kind := 0x28, tag := tag, body := body }
  | .setSystem tag body => some { kind := 0x30, tag := tag, body := body }
  | .setDirAdd tag body => some { kind := 0x31, tag := tag, body := body }
  | .setDirRemove tag body => some { kind := 0x31, tag := tag, body := body }
  | .setStation tag body => some { kind := 0x32, tag := tag, body := body }
  | .setGroup tag body => some { kind := 0x33, tag := tag, body := body }
  | .setMembersAdd tag body => some { kind := 0x34, tag := tag, body := body }
  | .setMembersRemove tag body => some { kind := 0x34, tag := tag, body := body }
  | .setMembersLogin tag body => some { kind := 0x34, tag := tag, body := body }
  | .setMembersLogout tag body => some { kind := 0x34, tag := tag, body := body }
  | .setPickup tag body => some { kind := 0x35, tag := tag, body := body }
  | .setList tag body => some { kind := 0x36, tag := tag, body := body }
  | .setMap tag body => some { kind := 0x37, tag := tag, body := body }
  | .setOutput tag body => some { kind := 0x38, tag := tag, body := body }
  | .setChime tag body => some { kind := 0x39, tag := tag, body := body }
  | .save tag body => some { kind := 0x3E, tag := tag, body := body }
  | .reset tag body => some { kind := 0x3F, tag := tag, body := body }
  | .frameTransmitted => none
  | .noAnswerExpiry _ => none
  | .targetRingExpiry _ => none
  | .attendantRingExpiry _ => none
  | .recallRingExpiry _ => none
  | .waitDeadlineExpiry _ => none
  | .escalationDeadlineExpiry _ => none
  | .parkDeadlineExpiry _ => none
  | .repeatDeadlineExpiry _ => none
  | .pageWaitExpiry _ => none
  | .guardExpiry _ => none
  | .chimePeriodEnd _ => none
  | .windowEnd _ => none
  | .outputBlock _ _ => none
  | .saveWriteComplete _ => none
  | .saveDeadlineExpiry => none
  | .idleAgeSaturated _ => none
  | .queueAgeSaturated _ => none
  | .arrivalAgeSaturated _ => none
  | .requestAgeSaturated _ => none
  | .octetReceived _ _ => none
  | .leavesReset => none
  | .lossOfPower => none

end Sys2Proof.Machine
end

