-- ==== Sys2Proof/WellFormed.lean ====
section
/-! DEFINITION. Which commands are well formed: what the tables of the link and the ranges of the operands admit. -/

namespace Sys2Proof
open Sys2Proof.Machine

/-- A body fits a frame (R165). -/
def goodBody (body : List Octet) : Bool := decide (body.length ≤ Config.bodyOctets)

/-- A handle is 1 to 65535 (R28). -/
def goodHandle (h : Handle) : Bool := decide (1 ≤ h) && decide (h ≤ 65535)

/-- A request is well formed when its body fits a frame and the frame is dispatched by its own row (9.4, R165). -/
def goodRequest (i : Instr) (f : Frame) : Bool := goodBody f.body && decide (f.request = i)

/-- Whether a command is well formed. -/
def Instr.wellFormed (i : Instr) : Bool :=
  match requestFrame i with
  | some f => goodRequest i f
  | none =>
    match i with
    | .frameReceived _ _ body _ => goodBody body
    | .noAnswerExpiry h | .targetRingExpiry h | .attendantRingExpiry h | .recallRingExpiry h | .waitDeadlineExpiry h
    | .escalationDeadlineExpiry h | .parkDeadlineExpiry h | .queueAgeSaturated h | .arrivalAgeSaturated h => goodHandle h
    | _ => true

end Sys2Proof
end

