-- ==== Sys2Proof/Machine/State.lean ====
section
/-! DEFINITION. The whole state of the controller, the reasons a step can stop, and the state right after reset. -/

namespace Sys2Proof.Machine

/-- The faults of the machine: there are none. The manual gives no command that stops the controller; what goes wrong is a
reply, a status flag or a lost advisory, and those are state. -/
inductive Fault : Type
  deriving DecidableEq, Repr

/-- The refusals of the machine. -/
inductive Refusal where
  /-- Raised by exec alone, for a command that has no meaning yet. Safe: the model stops. No arm of exec raises it now. -/
  | notModelled (mnemonic : String)
  deriving DecidableEq, Repr

/-- The state of the controller. -/
structure State where
  /-- Running, held in reset, or without power (R186, R187). -/
  power : Power
  /-- The running time (R29): the millisecond whose audio block has not been built yet (log entry 7). -/
  now : Time
  /-- The working configuration (10.1). -/
  cfg : WorkingConfig
  /-- The stored copy: its configuration if it is valid, none if it is not (R186). -/
  stored : Option WorkingConfig
  /-- The save in progress, if any (R183, R184). -/
  save : Option SaveRun
  /-- The run-time fields of the 512 station records (R1). -/
  stations : Vector Station 512
  /-- The call records in use, oldest record first (R25, R26). -/
  calls : List Call
  /-- The run-time fields of the 32 group records (R42, R81). -/
  groups : Vector Group 32
  /-- The 16 page records (R112). -/
  pages : Vector PageRec 16
  /-- The run-time fields of the 16 output records (R130, R147). -/
  outputs : Vector Output 16
  /-- The control link (chapter 9). -/
  link : Link
  /-- The audio-side input pins as last presented. -/
  pins : Pins
  /-- The MODEL's own field: stations released by a page whose availability events are held back within the event (R84,
  R124; log entry 10). -/
  heldAvail : List StationId
  /-- The commands that wait, first in, first out. -/
  pending : List Instr
  deriving DecidableEq, Repr

/-- The controller right after a power-on reset of a part that has never completed a save: the stored copy is not valid and
every field is at its default (R23, R41, R65, R87, R108, R129, R146, R163, R180, R186 to R188; log entry 8). -/
def State.reset : State :=
  { power := .running
    now := 0
    cfg := WorkingConfig.defaults
    stored := none
    save := none
    stations := Vector.replicate 512 { state := .unused, idleSince := 0, saturated := false, lastSent := .quiet }
    calls := []
    groups := Vector.replicate 32 Group.afterReset
    pages := Vector.replicate 16 { gen := 0, page := none }
    outputs := Vector.replicate 16 (Output.afterReset 64)
    link := Link.afterReset .power .defaults
    pins := Pins.zero
    heldAvail := []
    pending := [] }

end Sys2Proof.Machine
end

