-- ==== Sys2Proof/Machine/Ops.lean ====
section
/-! DEFINITION. The named operations over the records: reading and writing each table, ages and deadlines, what a station presents and its order mark, advisories, and the views of pages and outputs. -/

namespace Sys2Proof.Machine

/-! ## Lists -/

/-- Insert `x` before the first element that `before` puts after it. -/
def insertBy {α : Type} (before : α → α → Bool) (x : α) : List α → List α
  | [] => [x]
  | y :: ys => if before x y then x :: y :: ys else y :: insertBy before x ys

/-- The list in the order of `before`. -/
def sortBy {α : Type} (before : α → α → Bool) : List α → List α
  | [] => []
  | x :: xs => insertBy before x (sortBy before xs)

/-- The list with every later repeat of an element left out. -/
def keepFirst {α : Type} [DecidableEq α] (xs : List α) : List α :=
  xs.foldl (fun acc x => if x ∈ acc then acc else acc ++ [x]) []

/-- The first of the elements with the greatest measure. -/
def firstGreatest {α : Type} (measure : α → Nat) : List α → Option α
  | [] => none
  | x :: xs =>
    match firstGreatest measure xs with
    | none => some x
    | some y => if measure x < measure y then some y else some x

/-! ## Times (R12, R29, R30) -/

/-- The age of a running-time value: now minus the value, modulo 2^32 (R29). -/
def ageOf (now t : Time) : Nat := (now - t).toNat

/-- An age that saturates at 2^30 ms, and stays there while its mark is set (R12, R29, R120). -/
def saturatedAge (now t : Time) (mark : Bool) : Nat :=
  if mark then Config.ageCeiling else min (ageOf now t) Config.ageCeiling

/-- The running time `ms` milliseconds after `t`. -/
def later (t : Time) (ms : Nat) : Time := t + BitVec.ofNat 32 ms

/-- The milliseconds of `s` seconds. -/
def seconds (s : Nat) : Nat := s * 1000

/-! ## Reading and writing the tables -/

namespace State

/-- The run-time record of a station. -/
def station (s : State) (i : StationId) : Station := s.stations[i]

/-- The configured fields of a station. -/
def stationCfg (s : State) (i : StationId) : StationCfg := s.cfg.stations[i]

/-- The run-time record of a group. -/
def group (s : State) (g : GroupId) : Group := s.groups[g]

/-- The configured fields of a group. -/
def groupCfg (s : State) (g : GroupId) : GroupCfg := s.cfg.groups[g]

/-- The run-time record of an output. -/
def output (s : State) (o : OutputId) : Output := s.outputs[o]

/-- The configured fields of an output. -/
def outputCfg (s : State) (o : OutputId) : OutputCfg := s.cfg.outputs[o]

/-- The page that the record `p` holds, none while it is FREE. -/
def page (s : State) (p : PageId) : Option Page := s.pages[p].page

/-- The reference that the record `p` gives its page: its id with its generation (R113). -/
def refOf (s : State) (p : PageId) : PageRef := { id := p, gen := s.pages[p].gen }

/-- The page in use that a reference names, if any (R113). -/
def pageAt (s : State) (r : PageRef) : Option Page :=
  if s.pages[r.id].gen = r.gen then s.page r.id else none

/-- The record in use that holds the handle, if any (R28). -/
def findCall (s : State) (h : Handle) : Option Call := s.calls.find? fun c => c.handle == h

/-- Change the run-time record of a station. -/
def updStation (s : State) (i : StationId) (f : Station → Station) : State :=
  { s with stations := s.stations.set i.val (f s.stations[i]) i.isLt }

/-- Change the run-time record of a group. -/
def updGroup (s : State) (g : GroupId) (f : Group → Group) : State :=
  { s with groups := s.groups.set g.val (f s.groups[g]) g.isLt }

/-- Change the run-time record of an output. -/
def updOutput (s : State) (o : OutputId) (f : Output → Output) : State :=
  { s with outputs := s.outputs.set o.val (f s.outputs[o]) o.isLt }

/-- Change a page record. -/
def updPageRec (s : State) (p : PageId) (f : PageRec → PageRec) : State :=
  { s with pages := s.pages.set p.val (f s.pages[p]) p.isLt }

/-- Change the page that the record `p` holds; nothing while it is FREE. -/
def updPage (s : State) (p : PageId) (f : Page → Page) : State :=
  s.updPageRec p fun r => { r with page := r.page.map f }

/-- Change the call record that holds the handle. -/
def updCall (s : State) (h : Handle) (f : Call → Call) : State :=
  { s with calls := s.calls.map fun c => if c.handle == h then f c else c }

/-- Take a FREE record for a call (R25). -/
def addCall (s : State) (c : Call) : State := { s with calls := s.calls ++ [c] }

/-- The record that holds the handle becomes FREE (R38). -/
def dropCall (s : State) (h : Handle) : State := { s with calls := s.calls.filter fun c => !(c.handle == h) }

/-- Change the control link. -/
def updLink (s : State) (f : Link → Link) : State := { s with link := f s.link }

/-- Change the working configuration. -/
def updCfg (s : State) (f : WorkingConfig → WorkingConfig) : State := { s with cfg := f s.cfg }

/-- Hold back the availability events of stations that a page has released (R84, R124). -/
def holdAvail (s : State) (l : List StationId) : State := { s with heldAvail := s.heldAvail ++ l }

/-- STORE_INVALID: the stored copy is not valid (R186). -/
def storeInvalid (s : State) : Bool := s.stored.isNone

/-! ## Ages (R12, R29, R120) -/

/-- The idle age of a station (R12). -/
def idleAge (s : State) (i : StationId) : Nat :=
  saturatedAge s.now (s.station i).idleSince (s.station i).saturated

/-- The queue age of a call, 0 for one that has entered no queue (R29). -/
def queueAge (s : State) (c : Call) : Nat :=
  match c.queueEntry with
  | none => 0
  | some t => saturatedAge s.now t c.queueAgeMark

/-- The arrival age of a call (R29). -/
def arrivalAge (s : State) (c : Call) : Nat := saturatedAge s.now c.arrival c.arrivalAgeMark

/-- The request age of a page (R120). -/
def requestAge (s : State) (p : Page) : Nat := saturatedAge s.now p.requestTime p.requestAgeMark

/-! ## Presentation and the station order mark (R16, R17) -/

/-- What a station in the given state presents (R16). -/
def present (s : State) : StationState → Presentation
  | .ringing h =>
    match s.findCall h with
    | some c => .ring h (decide (c.state = .recalling)) c.caller
    | none => .ring h false []
  | .pageListen r =>
    match s.pageAt r with
    | some p => .desk r p.source
    | none => .quiet
  | _ => .quiet

/-- Whether a station stands in the station order set (R17). -/
def marked (s : State) (i : StationId) : Bool := s.link.stationOrders.any fun m => m.station == i

/-- Compare a station's presentation with its last sent presentation and mark or unmark it, as the table of R17 gives. -/
def markStation (s : State) (i : StationId) : State :=
  if s.present (s.station i).state = (s.station i).lastSent then
    s.updLink fun l => { l with stationOrders := l.stationOrders.filter fun m => !(m.station == i) }
  else if s.marked i then s
  else s.updLink fun l => { l with stationOrders := l.stationOrders ++ [{ station := i, time := s.now }] }

/-- A station's change of state, made whole: state, reference and presentation together (R4, R17). -/
def enterState (s : State) (i : StationId) (st : StationState) : State :=
  (s.updStation i fun r => { r with state := st }).markStation i

/-- A station becomes IDLE with idle-since set to now and the saturated mark cleared (R3, R8, R10, R11). -/
def enterFreshIdle (s : State) (i : StationId) : State :=
  (s.updStation i fun r => { r with idleSince := s.now, saturated := false }).enterState i .idle

/-- Whether a station is IDLE and in use. -/
def isIdle (s : State) (i : StationId) : Bool :=
  (s.stationCfg i).inUse && decide ((s.station i).state = .idle)

/-- Whether a station is free for an offer: IDLE, or listening to a page whose class is not EMERGENCY (R46). -/
def freeForOffer (s : State) (i : StationId) : Bool :=
  (s.stationCfg i).inUse &&
    match (s.station i).state with
    | .idle => true
    | .pageListen r =>
      match s.pageAt r with
      | some p => decide (p.cls ≠ .emergency)
      | none => true
    | _ => false

/-! ## Advisories (R175) -/

/-- Place an advisory: a full queue discards it and sets ADV_LOST (R175). -/
def advise (s : State) (a : Advisory) : State :=
  s.updLink fun l =>
    if l.advisories.length < Config.advisories then { l with advisories := l.advisories ++ [a] }
    else { l with advLost := true }

end State

/-! ## Output sets -/

/-- The outputs of a set, ascending. -/
def outputsOf (m : OutputSet) : List OutputId := (List.finRange 16).filter fun o => m.getLsbD o.val

/-- The set of a list of outputs. -/
def outputSetOf (l : List OutputId) : OutputSet := l.foldl (fun m o => m ||| (1#16 <<< o.val)) 0

/-- The holder of an output: present in GUARD and AUDIBLE (R130). -/
def OutputState.holder : OutputState → Option PageRef
  | .free => none
  | .guard r _ => some r
  | .audible r => some r

namespace State

/-! ## Views of pages (R112, R118, R120) -/

/-- The page records in use, by id. -/
def pagesInUse (s : State) : List PageId := (List.finRange 16).filter fun p => (s.page p).isSome

/-- The held outputs of a page: those whose holder names it (R112, R130), ascending. -/
def held (s : State) (p : PageId) : List OutputId :=
  (List.finRange 16).filter fun o => (s.output o).state.holder = some (s.refOf p)

/-- The wanted outputs of a page: its zone outputs not held (R112), ascending. -/
def wanted (s : State) (p : PageId) : List OutputId :=
  match s.page p with
  | none => []
  | some pg => (outputsOf pg.zoneOutputs).filter fun o => ¬ (s.output o).state.holder = some (s.refOf p)

/-- The joined stations of a page, in desk list order (R112, R124). -/
def joined (s : State) (p : PageId) : List StationId :=
  match s.page p with
  | none => []
  | some pg => pg.deskList.filter fun i => (s.station i).state = .pageListen (s.refOf p)

/-- Whether page `p` stands before page `q` in the wait order: by class, then by request age, then by page id (R120). -/
def pageBefore (s : State) (p q : PageId) : Bool :=
  match s.page p, s.page q with
  | some a, some b =>
    if a.cls.num ≠ b.cls.num then decide (b.cls.num < a.cls.num)
    else if s.requestAge a ≠ s.requestAge b then decide (s.requestAge b < s.requestAge a)
    else decide (p.val < q.val)
  | _, _ => decide (p.val < q.val)

/-- The wait order: every page in use with a wanted output (R120). -/
def waitOrder (s : State) : List PageId :=
  sortBy s.pageBefore (s.pagesInUse.filter fun p => s.wanted p ≠ [])

/-- Whether a page input is bound: the source of a page in use (R118). -/
def inputBound (s : State) (i : InputId) : Bool :=
  s.pagesInUse.any fun p => (s.page p).any fun pg => pg.source = .input i

/-- Whether an output is grabbable by a page of the class: FREE, or held by a page of strictly lower class (R117). -/
def grabbable (s : State) (cls : PageClass) (o : OutputId) : Bool :=
  match (s.output o).state.holder with
  | none => true
  | some r =>
    match s.pageAt r with
    | some pg => decide (pg.cls.num < cls.num)
    | none => true

/-- The lowest-numbered FREE page record (R113). -/
def freePage (s : State) : Option PageId := (List.finRange 16).find? fun p => (s.page p).isNone

/-! ## Views of calls (R81, R100) -/

/-- The call that holds an orbit, none for a free orbit (R100). -/
def orbitHolder (s : State) (o : OrbitId) : Option Call := s.calls.find? fun c => c.orbit = some o

/-- The escalated calls of a group's queue (R81). -/
def escalatedCalls (s : State) (g : GroupId) : List Handle :=
  (s.group g).queue.filter fun h => (s.findCall h).any fun c => c.escalated

/-- Whether a group is in escalation: its queue holds an escalated call (R81). -/
def inEscalation (s : State) (g : GroupId) : Bool := (s.escalatedCalls g) ≠ []

end State
end Sys2Proof.Machine
end

