-- ==== Sys2Proof/Machine/Operands.lean ====
section
/-! DEFINITION. The operand forms of the control link (R166): reading the fields of a request body (R171) and writing the fields of a message (R174, R176, R179), with the codes of the named values. -/

namespace Sys2Proof.Machine

/-! ## Reading a body (R166, R171) -/

/-- A reader of body octets: it takes octets from the front, or finds too few of them. -/
abbrev Reader (α : Type) : Type := StateT (List Octet) Option α

/-- One octet, as a number. -/
def readOctet : Reader Nat := fun
  | [] => none
  | o :: rest => some (o.toNat, rest)

/-- `n` octets, most significant first, as a number (R166). -/
def readNumber : Nat → Nat → Reader Nat
  | 0, acc => pure acc
  | n + 1, acc => do
    let o ← readOctet
    readNumber n (acc * 256 + o)

/-- A field of 2 octets. -/
def readWide : Reader Nat := readNumber 2 0

/-- `n` fields of one form. -/
def readMany {α : Type} (r : Reader α) : Nat → Reader (List α)
  | 0 => pure []
  | n + 1 => do
    let x ← r
    let xs ← readMany r n
    pure (x :: xs)

/-- A count octet and then that many fields (digits, zones, entries, stations). -/
def readCounted {α : Type} (r : Reader α) : Reader (List α) := do
  let n ← readOctet
  readMany r n

/-- Digits: a count n, then n octets (R166). -/
def readDigits : Reader (List Nat) := readCounted readOctet

/-- A field that a presence-mask bit marks: read when the bit is set (R171). -/
def readIf {α : Type} (mask bit : Nat) (r : Reader α) : Reader (Option α) :=
  if mask.testBit bit then do
    let x ← r
    pure (some x)
  else pure none

/-- A value of `Fin n`, none out of range. -/
def finOf (n v : Nat) : Option (Fin n) := if h : v < n then some ⟨v, h⟩ else none

/-- A flag: 0 no, 1 yes (R166). -/
def flagOf : Nat → Option Bool
  | 0 => some false
  | 1 => some true
  | _ => none

/-- A number that may be none, carried as `absent`: the outer option is none out of range. -/
def finOrNone (n absent v : Nat) : Option (Option (Fin n)) :=
  if v = absent then some none else (finOf n v).map some

/-- A page class by its number. -/
def classOf : Nat → Option PageClass
  | 0 => some .background
  | 1 => some .voice
  | 2 => some .alert
  | 3 => some .emergency
  | _ => none

/-- A source: 0 to 3 for P0 to P3, 16 to 23 for chime patterns 0 to 7 (R166). -/
def sourceOf (v : Nat) : Option Source :=
  if v < 16 then (finOf 4 v).map .input else (finOf 8 (v - 16)).map .chime

/-- An algorithm by its code (R166). -/
def algorithmOf : Nat → Option Algorithm
  | 0 => some .linear
  | 1 => some .circular
  | 2 => some .longestIdle
  | 3 => some .simultaneous
  | _ => none

/-- A page mode by its code (R166). -/
def modeOf : Nat → Option PageMode
  | 0 => some .allOrWait
  | 1 => some .partialStart
  | _ => none

/-- A target: its code, then a group or station, read for GROUP and STATION alone (R166). -/
def targetOf (code v : Nat) : Option Target :=
  match code with
  | 0 => some .nowhere
  | 1 => (finOf 32 v).map .group
  | 2 => (finOf 512 v).map .station
  | 3 => some .attendant
  | _ => none

/-- A directory kind with its target (R21, R166). -/
def dirTargetOf (kind v : Nat) : Option DirTarget :=
  match kind with
  | 0 => (finOf 512 v).map .station
  | 1 => (finOf 32 v).map .pilot
  | 2 => (finOf 20 v).map .orbit
  | _ => none

/-- A search list entry: kind, number, enabled flag (R89, R171). -/
def searchEntryOf (kind n flag : Nat) : Option SearchEntry :=
  match kind, flagOf flag with
  | 0, some e => (finOf 64 n).map fun k => { key := .pg k, enabled := e }
  | 1, some e => (finOf 32 n).map fun k => { key := .hq k, enabled := e }
  | _, _ => none

/-- A signed octet in two's complement (R166). -/
def signedOf (v : Nat) : Int := (BitVec.ofNat 8 v).toInt

/-- Every value of a list, none if one is out of range. -/
def allOf {α β : Type} (f : α → Option β) : List α → Option (List β)
  | [] => some []
  | x :: xs =>
    match f x, allOf f xs with
    | some y, some ys => some (y :: ys)
    | _, _ => none

/-- A present field must be in range, an absent one stays absent: the outer option is none out of range. -/
def presentOf {α β : Type} (f : α → Option β) : Option α → Option (Option β)
  | none => some none
  | some x => (f x).map some

/-- A number within `[lo, hi]` that is a multiple of `unit`. -/
def stepped (lo hi unit v : Nat) : Option Nat := if lo ≤ v ∧ v ≤ hi ∧ v % unit = 0 then some v else none

/-- 0, or a number within `[lo, hi]`. -/
def zeroOr (lo hi v : Nat) : Option Nat := if v = 0 ∨ (lo ≤ v ∧ v ≤ hi) then some v else none

/-- Whether presented digits are good: at most 8, each 0 to 9 (R20). -/
def goodDigits (d : List Nat) : Bool := decide (d.length ≤ Config.presentedDigits) && d.all (· ≤ 9)

/-- A presented number reduced to D digits: cut to its last D, or padded with leading zeros (R20). -/
def reduceDigits (width : Nat) (d : List Digit) : List Digit :=
  if width ≤ d.length then d.drop (d.length - width) else List.replicate (width - d.length) 0 ++ d

/-- The decimal value of a number's digits. -/
def decimalOf (d : List Digit) : Nat := d.foldl (fun acc x => acc * 10 + x) 0

/-- The resolution of a presented number by the Directory (R20). -/
def State.resolve (s : State) (d : List Digit) : Option DirTarget :=
  (s.cfg.directory.find? fun e => e.number = reduceDigits s.cfg.digitWidth d).map DirEntry.target

/-! ## Writing fields (R166) -/

/-- `n` octets of a number, most significant first. -/
def putNumber : Nat → Nat → List Octet
  | 0, _ => []
  | n + 1, v => putNumber n (v / 256) ++ [BitVec.ofNat 8 v]

/-- A number of one octet. -/
def put1 (v : Nat) : List Octet := putNumber 1 v

/-- A field of 2 octets. -/
def put2 (v : Nat) : List Octet := putNumber 2 v

/-- A flag. -/
def putFlag (b : Bool) : List Octet := put1 b.toNat

/-- A number, 255 for none. -/
def putOpt1 (v : Option Nat) : List Octet := put1 (v.getD 255)

/-- A wide number or a station, 65535 for none. -/
def putOpt2 (v : Option Nat) : List Octet := put2 (v.getD 65535)

/-- A time, 4,294,967,295 for none. -/
def putTime (v : Option Nat) : List Octet := putNumber 4 (v.getD 4294967295)

/-- The milliseconds until a deadline, 16,777,215 for none. -/
def putRemaining (now : Time) (d : Option Time) : List Octet :=
  putNumber 3 ((d.map fun t => (t - now).toNat).getD 16777215)

/-- A page reference; page id 255 with generation 0 for none. -/
def putRef : Option PageRef → List Octet
  | some r => [BitVec.ofNat 8 r.id.val, r.gen]
  | none => [255, 0]

/-- Digits: a count, then the digits in dialling order. -/
def putDigits (d : List Digit) : List Octet := put1 d.length ++ d.flatMap put1

/-- A source. -/
def putSource : Source → List Octet
  | .input i => put1 i.val
  | .chime p => put1 (16 + p.val)

/-- A station list: a count, then the stations. -/
def putStations (l : List StationId) : List Octet := put1 l.length ++ l.flatMap fun i => put2 i.val

/-- A target: its code, then the group or station in 2 octets; the two octets of NONE and ATTENDANT are free values (R166,
log entry 14). -/
def putTarget : Target → List Octet
  | .nowhere => put1 0 ++ [Config.unreadOctet 0, Config.unreadOctet 1]
  | .group g => put1 1 ++ put2 g.val
  | .station i => put1 2 ++ put2 i.val
  | .attendant => put1 3 ++ [Config.unreadOctet 0, Config.unreadOctet 1]

/-- An output set. -/
def putSet (m : OutputSet) : List Octet := put2 m.toNat

/-! ## Codes of named values (R166) -/

/-- Station state codes. -/
def StationState.code : StationState → Nat
  | .unused => 0
  | .outOfService => 1
  | .idle => 2
  | .ringing _ => 3
  | .busy => 4
  | .pageListen _ => 5

/-- Presentation kind codes. -/
def Presentation.code : Presentation → Nat
  | .quiet => 0
  | .ring _ _ _ => 1
  | .desk _ _ => 2

/-- Call state codes. -/
def CallState.code : CallState → Nat
  | .queued => 0
  | .offering => 1
  | .parked => 2
  | .recalling => 3
  | .ending => 4

/-- Offer kind codes. -/
def OfferKind.code : OfferKind → Nat
  | .group => 0
  | .target => 1
  | .attendant => 2
  | .recalling => 3

/-- Outcome codes. -/
def CallOutcome.code : CallOutcome → Nat
  | .answered => 0
  | .picked => 1
  | .retrieved => 2
  | .abandoned => 3
  | .noRoute => 4

/-- Algorithm codes. -/
def Algorithm.code : Algorithm → Nat
  | .linear => 0
  | .circular => 1
  | .longestIdle => 2
  | .simultaneous => 3

/-- ROUTED reason codes. -/
def RouteReason.code : RouteReason → Nat
  | .queueFull => 0
  | .displaced => 1
  | .waitExpired => 2
  | .limitLowered => 3
  | .groupDisabled => 4
  | .loop => 5
  | .targetBusy => 6
  | .targetNoAnswer => 7

/-- ESCALATE report codes. -/
def EscReport.code : EscReport → Nat
  | .started _ => 0
  | .skipped => 1
  | .badZone => 2
  | .cleared => 3

/-- Page state codes; ENDED is 3 and FREE 4. -/
def PageState.code : PageState → Nat
  | .waiting => 0
  | .starting => 1
  | .live => 2

/-- Page end reason codes. -/
def EndReason.code : EndReason → Nat
  | .endedByHost => 0
  | .complete => 1
  | .waitExpired => 2
  | .preempted => 3
  | .escalationCleared => 4

/-- Page mode codes. -/
def PageMode.code : PageMode → Nat
  | .allOrWait => 0
  | .partialStart => 1

/-- Output state codes. -/
def OutputState.code : OutputState → Nat
  | .free => 0
  | .guard _ _ => 1
  | .audible _ => 2

/-- Window decision codes. -/
def Decision.code : Decision → Nat
  | .clipDown => 0
  | .starved => 1
  | .up => 2
  | .atLimit => 3
  | .quietDown => 4
  | .steady => 5
  | .frozen => 6

/-- START cause codes. -/
def StartCause.code : StartCause → Nat
  | .power => 0
  | .pin => 1
  | .link => 2

/-- START origin codes. -/
def StartOrigin.code : StartOrigin → Nat
  | .stored => 0
  | .defaults => 1
  | .retained => 2

/-- SAVE_DONE outcome codes. -/
def SaveOutcome.code : SaveOutcome → Nat
  | .ok => 0
  | .failed => 1
  | .timeout => 2

/-- Result codes (R170). -/
def Result.code : Result → Nat
  | .ok => 0
  | .tooLate => 1
  | .nothing => 2
  | .denied => 3
  | .full => 4
  | .duplicate => 5
  | .unknown => 6
  | .notPilot => 7
  | .badValue => 8
  | .badZone => 9
  | .inputBusy => 10
  | .noOutputs => 11
  | .refusedState => 12
  | .saving => 13
  | .notEmpty => 14
  | .badLength => 15
  | .unknownKind => 16

/-- The kind code and the target of a directory entry (R179). -/
def putDirTarget : DirTarget → List Octet
  | .station i => put1 0 ++ put2 i.val
  | .pilot g => put1 1 ++ put2 g.val
  | .orbit o => put1 2 ++ put2 o.val

end Sys2Proof.Machine
end

