-- ==== Sys2Proof/Machine/Flags.lean ====
section
/-! DEFINITION. The CHECK of a frame (R165) and the status flags octet (R172). -/

namespace Sys2Proof.Machine

/-- One shift of the CRC-16 register with generator x^16 + x^12 + x^5 + 1 (R165). -/
def crcShift (r : BitVec 16) : BitVec 16 := if r.msb then (r <<< 1) ^^^ 0x1021#16 else r <<< 1

/-- `n` shifts of the register. -/
def crcShifts : Nat → BitVec 16 → BitVec 16
  | 0, r => r
  | n + 1, r => crcShifts n (crcShift r)

/-- Feed one octet, most significant bit first. -/
def crcFeed (r : BitVec 16) (o : Octet) : BitVec 16 := crcShifts 8 (r ^^^ (o.setWidth 16 <<< 8))

/-- The CHECK over octets: the register starts at 0xFFFF and is not inverted (R165). -/
def checkOf (os : List Octet) : BitVec 16 := os.foldl crcFeed 0xFFFF#16

/-- The two octets of a CHECK, high octet first. -/
def putCheck (c : BitVec 16) : List Octet := [c.extractLsb' 8 8, c.extractLsb' 0 8]

/-- SYNC (R165). -/
def syncOctet : Octet := 0xB7

/-- LEN, KIND, TAG and BODY of a frame, over which the CHECK is computed (R165). -/
def Frame.covered (f : Frame) : List Octet := BitVec.ofNat 8 (f.body.length + 2) :: f.kind :: f.tag :: f.body

/-- Every octet of a frame with a given CHECK, SYNC first (R165). -/
def Frame.octetsWith (f : Frame) (check : BitVec 16) : List Octet := syncOctet :: (f.covered ++ putCheck check)

/-- Every octet of a frame as it is sent (R165). -/
def Frame.octets (f : Frame) : List Octet := f.octetsWith (checkOf f.covered)

/-- The status flags octet: RX_ERROR, RX_OVERRUN, ADV_LOST and STORE_INVALID from the least significant bit (R172). -/
def statusFlags (s : State) : Octet :=
  BitVec.ofNat 8 (s.link.rxError.toNat + 2 * s.link.rxOverrun.toNat + 4 * s.link.advLost.toNat + 8 * s.storeInvalid.toNat)

end Sys2Proof.Machine
end

