-- ==== Sys2Proof/Machine/Paging.lean ====
section
/-! DEFINITION. The Page Arbiter with the Output Bank and the Chime Generator (chapters 6 and 7): grants, takes, losses, the review of the wait order, desk speakers, the end of a page, escalation pages and chimes. -/

namespace Sys2Proof.Machine
namespace State

/-! ## PAGE_STATE advisories -/

/-- Place the PAGE_STATE advisory of a page in use (R127). -/
def advisePage (s : State) (p : PageId) (e : PageEvent) : State :=
  match s.page p with
  | none => s
  | some pg => s.advise (.pageState (s.refOf p) pg.cls e (s.held p).length pg.escGroup)

/-! ## Desk speakers (6.6) -/

/-- One desk station at its page's entry to STARTING: joined when IDLE, or when listening to a page of strictly lower class;
otherwise left as it is (R122). -/
def joinDesk (p : PageId) (cls : PageClass) (s : State) (i : StationId) : State :=
  if s.isIdle i then s.enterState i (.pageListen (s.refOf p))
  else
    match (s.station i).state with
    | .pageListen r =>
      match s.pageAt r with
      | some other => if other.cls.num < cls.num then s.enterState i (.pageListen (s.refOf p)) else s
      | none => s
    | _ => s

/-- The page joins its desk stations, in desk list order (R122). -/
def joinDesks (s : State) (p : PageId) : State :=
  match s.page p with
  | none => s
  | some pg => pg.deskList.foldl (joinDesk p pg.cls) s

/-- The page releases its joined stations to IDLE, in desk list order; their availability events are held back (R124). Between
pages that one event releases the manual gives no order: the events follow in the order of the releases (DESIGN CHOICE, log entry
10). -/
def releaseJoined (s : State) (p : PageId) : State :=
  ((s.joined p).foldl (fun s i => s.enterState i .idle) s).holdAvail (s.joined p)

/-! ## Takes (7.2) -/

/-- The grant of one output to a page: GUARD with a fresh guard deadline, whatever the output was (R132). -/
def grant (r : PageRef) (s : State) (o : OutputId) : State :=
  s.updOutput o fun x => { x with state := .guard r (later s.now s.cfg.guardInterval) }

/-- The pages that lose an output when `outs` are taken, in the order of the lowest output each loses (R133 step 3). -/
def losersOf (s : State) (outs : List OutputId) : List PageRef :=
  keepFirst (outs.filterMap fun o => (s.output o).state.holder)

/-- The page enters STARTING: wait deadline cleared, started, PAGE_STATE placed, desk stations joined (R133 step 2). -/
def enterStarting (s : State) (p : PageId) : State :=
  ((s.updPage p fun pg => { pg with state := .starting, waitDeadline := none, started := true, chime := none }).advisePage p
    (.entered .starting)).joinDesks p

/-- The deadline of a wait limit: now plus the limit, or absent for UNLIMITED (R119). -/
def waitDeadlineOf (s : State) (limit : Option Nat) : Option Time := limit.map fun w => later s.now (seconds w)

/-- The page enters WAITING: its wait deadline is set and its chime, if any, abandoned (R119, R136). -/
def toWaiting (s : State) (p : PageId) : State :=
  s.updPage p fun pg => { pg with state := .waiting, waitDeadline := s.waitDeadlineOf pg.waitLimit, chime := none }

/-- An output held by the page is released and becomes FREE (R137). -/
def release (s : State) (o : OutputId) : State := s.updOutput o fun x => { x with state := .free }

/-- Steps 1 to 6 of R126: the page leaves the wait order, its outputs become FREE, its joined stations IDLE, its input
unbound, its record FREE with the generation one higher, and a PAGE_STATE advisory reports the end. -/
def endPageRecord (s : State) (p : PageId) (reason : EndReason) : State :=
  match s.page p with
  | none => s
  | some pg =>
    let r := s.refOf p
    let s1 := ((s.held p).foldl release s).releaseJoined p
    let s2 := s1.updPageRec p fun x => { gen := x.gen + 1, page := none }
    s2.advise (.pageState r pg.cls (.ended reason) 0 pg.escGroup)

/-- The Hunt Engine forgets an escalation page that has ended (R83). -/
def forgetEscPage (s : State) (r : PageRef) (g : Option GroupId) : State :=
  match g with
  | none => s
  | some g => if (s.group g).escPage = some r then s.updGroup g fun x => { x with escPage := none } else s

/-- A page that has lost its last held output is stripped (R136): with wait limit 0 it ends PREEMPTED; otherwise it returns to
WAITING, releases its joined stations and places PAGE_STATE. An escalation page has a wait limit of 10 s or more, so its end
here is never reached; forgetting its reference keeps R83 all the same. -/
def strip (s : State) (p : PageId) (pg : Page) : State :=
  if pg.waitLimit = some 0 then (s.endPageRecord p .preempted).forgetEscPage (s.refOf p) pg.escGroup
  else ((s.toWaiting p).releaseJoined p).advisePage p (.entered .waiting)

/-- A losing page is dealt with once for all it lost in the take: it keeps its state while it holds an output (R135), and is
stripped when it holds none (R136). -/
def settleLoss (s : State) (r : PageRef) : State :=
  match s.pageAt r with
  | none => s
  | some pg => if s.held r.id = [] then s.strip r.id pg else s

/-- Steps 1 to 3 of a take (R133): the grants in ascending output number, the entry to STARTING, the losses page by page. -/
def takeSteps (s : State) (p : PageId) (outs : List OutputId) : State :=
  let losers := s.losersOf outs
  let s1 := outs.foldl (grant (s.refOf p)) s
  let s2 := if (s.page p).any (fun pg => pg.state = .waiting) then s1.enterStarting p else s1
  losers.foldl settleLoss s2

/-- The outputs among `outs` that a page of this class may take by its mode: all of them or none for a page that starts
ALL_OR_WAIT, otherwise every grabbable one (R117, R121). -/
def takeableOf (s : State) (cls : PageClass) (whole : Bool) (outs : List OutputId) : List OutputId :=
  if whole then (if outs.all (s.grabbable cls) then outs else []) else outs.filter (s.grabbable cls)

/-- The outputs that a page in the wait order takes in its turn of the review (R121). -/
def takeable (s : State) (p : PageId) : List OutputId :=
  match s.page p with
  | none => []
  | some pg =>
    s.takeableOf pg.cls (decide (pg.state = .waiting) && !pg.started && decide (pg.mode = .allOrWait)) (s.wanted p)

/-- The first page of the wait order that can take something, with what it takes. -/
def firstTaker (s : State) : Option (PageId × List OutputId) :=
  s.waitOrder.findSome? fun p =>
    match s.takeable p with
    | [] => none
    | outs => some (p, outs)

/-- The walks of the review of the wait order, each begun again from the first page after a take (R121, R133 step 4). -/
def reviewWalks : Nat → State → State
  | 0, s => s
  | n + 1, s =>
    match s.firstTaker with
    | none => s
    | some (p, outs) => reviewWalks n (s.takeSteps p outs)

/-- More walks than a review can make. A take moves an output from FREE to a page or to a page of higher class, and nothing
in a review frees an output, so sixteen outputs allow at most 64 takes (R121; log entry 17). -/
def reviewBound : Nat := 65

/-- The review of the wait order (R121). -/
def reviewPages (s : State) : State := reviewWalks reviewBound s

/-- A take with the review that follows it (R133). -/
def take (s : State) (p : PageId) (outs : List OutputId) : State := (s.takeSteps p outs).reviewPages

/-! ## Pages accepted -/

/-- The union of the output sets of the zones (R116). -/
def zoneOutputs (s : State) (m : MapSetId) (zs : List ZoneId) : OutputSet :=
  zs.foldl (fun acc z => acc ||| (s.cfg.maps[m])[z].outputs) 0

/-- The union of the desk stations of the zones, in the order of the zones, cut after the thirty-second (R116). -/
def zoneDesks (s : State) (m : MapSetId) (zs : List ZoneId) : List StationId :=
  (keepFirst (zs.flatMap fun z => (s.cfg.maps[m])[z].desks)).take Config.deskStations

/-- The record `p` takes the accepted page `pg` (set up WAITING, holding nothing), which is started on the outputs it may
take, or made to wait with its PAGE_STATE advisory (R116, R117, R119). -/
def acceptPage (s : State) (p : PageId) (pg : Page) : State :=
  let outs := s.takeableOf pg.cls (decide (pg.mode = .allOrWait)) (outputsOf pg.zoneOutputs)
  let s1 := s.updPageRec p fun r => { r with page := some pg }
  if outs = [] then (s1.toWaiting p).advisePage p (.entered .waiting) else s1.take p outs

/-! ## Escalation pages (4.5, 6.8) -/

/-- The zones of an escalation page: those listed that are valid and not protected (R82 step 1). A zone the group lists twice
stays twice (DESIGN CHOICE, log entry 29); the outputs and desk stations of the page do not depend on it. -/
def escZones (s : State) (g : GroupId) : List ZoneId :=
  let c := s.groupCfg g
  c.escZones.filter fun z => (s.cfg.maps[c.escMapSet])[z].valid && !(s.cfg.maps[c.escMapSet])[z].reserved

/-- The page that a page attempt of group `g` builds on the zones (R82, R128). -/
def escPageOf (s : State) (g : GroupId) (zs : List ZoneId) : Page :=
  let c := s.groupCfg g
  { state := .waiting, cls := .alert, requester := none, escGroup := some g, source := .chime c.chime, preAnnounce := none,
    mapSet := c.escMapSet, zones := zs, mode := .partialStart, started := false, waitLimit := some c.repeatInterval,
    waitDeadline := none, requestTime := s.now, requestAgeMark := false, zoneOutputs := s.zoneOutputs c.escMapSet zs,
    deskList := s.zoneDesks c.escMapSet zs, chime := none }

/-- Place an ESCALATE advisory with the number of escalated calls in the group's queue (R85). -/
def adviseEscalate (s : State) (g : GroupId) (r : EscReport) : State :=
  s.advise (.escalate g r (s.escalatedCalls g).length)

/-- A page attempt of group `g` (R82). -/
def pageAttempt (s : State) (g : GroupId) : State :=
  let zs := s.escZones g
  if zs = [] then s.adviseEscalate g .badZone
  else
    match s.freePage with
    | none => s.adviseEscalate g .skipped
    | some p =>
      let r := s.refOf p
      ((s.acceptPage p (s.escPageOf g zs)).updGroup g fun x => { x with escPage := some r }).adviseEscalate g (.started r)

/-- The repeat deadline of a group from now (R81, R83). -/
def repeatFrom (s : State) (g : GroupId) : Time := later s.now (seconds (s.groupCfg g).repeatInterval)

/-- Escalation starts: repeat due cleared, repeat deadline set, a page attempt made (R81). -/
def escalationStart (s : State) (g : GroupId) : State :=
  (s.updGroup g fun x => { x with repeatDue := false, repeatDeadline := some (s.repeatFrom g) }).pageAttempt g

/-- The Hunt Engine is told of the end of an escalation page for a reason other than ESCALATION_CLEARED: it forgets the page,
and a repeat that was due makes its attempt at once (R83, R126 step 7). -/
def escPageEnded (s : State) (r : PageRef) (g : GroupId) : State :=
  if (s.group g).escPage = some r then
    let s1 := s.updGroup g fun x => { x with escPage := none }
    if (s.group g).repeatDue then
      ((s1.updGroup g fun x => { x with repeatDue := false }).pageAttempt g).updGroup g
        fun x => { x with repeatDeadline := some (s.repeatFrom g) }
    else s1
  else s

/-- A page ends: steps 1 to 8 of R126. The availability events of the released desk stations are held back (R124, R84). -/
def endPage (s : State) (p : PageId) (reason : EndReason) : State :=
  match s.page p with
  | none => s
  | some pg =>
    let r := s.refOf p
    let s1 := s.endPageRecord p reason
    let s2 :=
      match pg.escGroup with
      | none => s1
      | some g => if reason = .escalationCleared then s1 else s1.escPageEnded r g
    if s.held p = [] then s2 else s2.reviewPages

/-- Escalation is cleared: its page in use ends ESCALATION_CLEARED, the escalation state is cleared, and an ESCALATE
advisory reports it (R84). -/
def escalationClear (s : State) (g : GroupId) : State :=
  let s1 :=
    match (s.group g).escPage with
    | some r => if (s.pageAt r).isSome then s.endPage r.id .escalationCleared else s
    | none => s
  (s1.updGroup g fun x => { x with escPage := none, repeatDeadline := none, repeatDue := false }).adviseEscalate g .cleared

/-! ## Chimes (7.4) -/

/-- A period of a chime that begins now, with the settings as they stand (R142). -/
def chimePeriod (s : State) (p : PatternId) (completed : Nat) : Chime :=
  { pattern := p, periodStart := s.now, completed := completed, length := s.cfg.chimePeriod,
    sounding := min s.cfg.patterns[p].on s.cfg.chimePeriod }

/-- The opening step of a page that is STARTING with no chime in play, at its first audible output (R134). -/
def openingStep (s : State) (p : PageId) : State :=
  match s.page p with
  | none => s
  | some pg =>
    if pg.state = .starting ∧ pg.chime = none then
      match pg.source, pg.preAnnounce with
      | .input _, some a => s.updPage p fun x => { x with chime := some (s.chimePeriod a 0) }
      | .input _, none => (s.updPage p fun x => { x with state := .live }).advisePage p (.entered .live)
      | .chime c, _ =>
        (s.updPage p fun x => { x with state := .live, chime := some (s.chimePeriod c 0) }).advisePage p (.entered .live)
    else s

/-- The chime of a page completes: a pre-announce leaves the page LIVE, a source pattern ends it COMPLETE (R145). -/
def chimeComplete (s : State) (p : PageId) (pg : Page) : State :=
  let s1 := s.updPage p fun x => { x with chime := none }
  match pg.source with
  | .input _ => (s1.updPage p fun x => { x with state := .live }).advisePage p (.entered .live)
  | .chime _ => s1.endPage p .complete

end State
end Sys2Proof.Machine
end

