-- ==== Sys2Proof/Machine/Hunt.lean ====
section
/-! DEFINITION. The Call Table and the Hunt Engine (chapters 2 to 4): selection, offers, queues, the teardown of a call, overflow hop by hop, no-answer, the arbiter; and the recall of chapter 5. -/

namespace Sys2Proof.Machine
namespace State

/-! ## Selection (3.3, 3.4) -/

/-- Whether a member of the call's group is available to the call (R46). -/
def available (s : State) (c : Call) (m : Member) : Bool :=
  m.loggedIn && s.freeForOffer m.station && !c.tried.contains m.station

/-- The stations of the members available to the call, in the order of `ms`. -/
def candidates (s : State) (c : Call) (ms : List Member) : List StationId :=
  (ms.filter (s.available c)).map Member.station

/-- The member list as CIRCULAR selection walks it: from the member after the cursor, round to the cursor's own (R49). -/
def circularWalk (ms : List Member) (cursor : Option StationId) : List Member :=
  match cursor with
  | none => ms
  | some k =>
    let upTo := ms.takeWhile fun m => !(m.station == k)
    ms.drop (upTo.length + 1) ++ ms.take (upTo.length + 1)

/-- The stations that selection by the group's algorithm yields for the call, none when no member is available: one station
by LINEAR, CIRCULAR and LONGEST_IDLE, every available one by SIMULTANEOUS (R47 to R52). -/
def select (s : State) (g : GroupId) (c : Call) : List StationId :=
  let ms := (s.groupCfg g).members
  match (s.groupCfg g).algorithm with
  | .linear => (s.candidates c ms).take 1
  | .circular => (s.candidates c (circularWalk ms (s.group g).cursor)).take 1
  | .longestIdle => (firstGreatest s.idleAge (s.candidates c ms)).toList
  | .simultaneous => s.candidates c ms

/-! ## Leaving a queue (4.1) -/

/-- The call leaves the group's list; escalation is cleared when it was the last escalated call there (R70 steps 1 and 2). The
deadlines and the flag are the business of the departure's own cause. -/
def leaveQueue (s : State) (h : Handle) (g : GroupId) : State :=
  let s1 := s.updGroup g fun x => { x with queue := x.queue.filter fun k => !(k == h) }
  if (s.findCall h).any (fun c => c.escalated) && !s1.inEscalation g then s1.escalationClear g else s1

/-- Whether the call stands at the head of the group's queue. -/
def atHead (s : State) (h : Handle) (g : GroupId) : Bool := (s.group g).queue.head? = some h

/-! ## Offers (3.5) -/

/-- Stations begin to ring for a call, in order (R33, R53 step 2). -/
def ringAll (s : State) (h : Handle) (sts : List StationId) : State := sts.foldl (fun s i => s.enterState i (.ringing h)) s

/-- The offer of a call at a group to the stations of a selection, or to the one station of the arbiter (R53). -/
def offerGroup (s : State) (h : Handle) (g : GroupId) (sts : List StationId) : State :=
  match s.findCall h with
  | none => s
  | some c =>
    let cfg := s.groupCfg g
    let fromQueue : Bool := c.state = .queued
    let s1 := s.updCall h fun c =>
      { c with
        offered := c.offered ++ sts.map fun i => { station := i, start := s.now }
        tried := if fromQueue then sts else c.tried ++ sts
        state := .offering
        currentGroup := some g
        offerKind := some .group
        ringDeadline := some (later s.now (seconds cfg.noAnswer))
        escDeadline := none }
    let s2 := s1.ringAll h sts
    let s3 := if fromQueue then s2.leaveQueue h g else s2
    match cfg.algorithm, sts with
    | .circular, i :: _ => s3.updGroup g fun x => { x with cursor := some i }
    | _, _ => s3

/-- The review of a queue's head: a selection for it, an offer when a member is available, and again for the next head, for
at most `n` heads (R60). A disabled group's queue is not reviewed (R70 step 3). -/
def reviewHeads : Nat → GroupId → State → State
  | 0, _, s => s
  | n + 1, g, s =>
    if (s.groupCfg g).enabled then
      match (s.group g).queue.head? with
      | none => s
      | some h =>
        match s.findCall h with
        | none => s
        | some c =>
          match s.select g c with
          | [] => s
          | sts => reviewHeads n g (s.offerGroup h g sts)
    else s

/-- The review of R60, of every head the queue can bring up. -/
def reviewQueue (s : State) (g : GroupId) : State := reviewHeads (s.group g).queue.length g s

/-- The review that the departure of a head starts (R70 step 3). -/
def reviewIf (s : State) (b : Bool) (g : GroupId) : State := if b then s.reviewQueue g else s

/-! ## The arbiter (3.7) -/

/-- The head call of a group that competes for a station: the station is a logged-in member, and the head has not tried it
(R58). -/
def competing (s : State) (i : StationId) (g : GroupId) : Option Call :=
  if (s.groupCfg g).members.any (fun m => m.station == i && m.loggedIn) then
    ((s.group g).queue.head?.bind s.findCall).filter fun c => !c.tried.contains i
  else none

/-- The competing groups with their head calls, by group number. -/
def competitors (s : State) (i : StationId) : List (GroupId × Call) :=
  (List.finRange 32).filterMap fun g => (s.competing i g).map fun c => (g, c)

/-- An availability event: a station that is free for an offer is given to the oldest competing head call, between equal ages
that of the lower group number, and the review of that group follows (R58 to R60). -/
def availability (s : State) (i : StationId) : State :=
  if s.freeForOffer i then
    match firstGreatest (fun gc => s.queueAge gc.2) (s.competitors i) with
    | none => s
    | some (g, c) => (s.offerGroup c.handle g [i]).reviewQueue g
  else s

/-- Availability events in list order. -/
def availAll (s : State) (l : List StationId) : State := l.foldl availability s

/-- Rounds of the availability events held back for stations released by pages: each round takes those held so far, and
offers made in it may clear an escalation whose page releases more (R84, R124). The last round is never reached. -/
def flushRounds : Nat → State → State
  | 0, s => { s with heldAvail := [] }
  | n + 1, s =>
    match s.heldAvail with
    | [] => s
    | l => flushRounds n (({ s with heldAvail := [] } : State).availAll l)

/-- More rounds than an event can need: a round after the first follows a clearing, and no call joins a queue in a flush, so
the 32 groups allow at most 32 clearings (log entry 17). -/
def flushBound : Nat := 34

/-- The held-back availability events are handed to the Hunt Engine, last in the event (R84, R124). -/
def flush (s : State) : State := flushRounds flushBound s

/-! ## The end of a call (2.8) -/

/-- A call ends: the teardown of R35, with the review of its queue before the availability events of step 6 (R60). The
wait-passed note goes into ENDING with a call answered or picked up, and is cleared by every other end (R71; log entry 15). -/
def endCall (s : State) (h : Handle) (o : CallOutcome) (st : Option StationId) : State :=
  match s.findCall h with
  | none => s
  | some c =>
    let s1 := (s.updCall h fun c => { c with state := .ending, outcome := some o, outcomeStation := st }).updLink fun l =>
      { l with callOrders := l.callOrders ++ [h] }
    let queuedAt : Option GroupId := if c.state = .queued then c.currentGroup else none
    let head : Bool := queuedAt.any fun g => s.atHead h g
    let s2 := match queuedAt with
      | some g => s1.leaveQueue h g
      | none => s1
    let s3 := c.offered.foldl (fun s x => s.enterState x.station (if some x.station = st then .busy else .idle)) s2
    let s4 := s3.updCall h fun c =>
      { c with
        offered := [], currentGroup := none, tried := [], ringDeadline := none, waitDeadline := none, escDeadline := none,
        parkDeadline := none, escalated := false, waitPassed := c.waitPassed && o.takesRing, offerKind := none, orbit := none,
        parker := none }
    let s5 := match queuedAt with
      | some g => s4.reviewIf head g
      | none => s4
    s5.availAll ((c.offered.map Offer.station).filter fun i => ¬ some i = st)

/-! ## Rings outside the groups (4.4, 5.6) -/

/-- The call rings at one station that is no member ring: OFFERING with no current group (R77, R78, R105). -/
def ringOne (s : State) (h : Handle) (i : StationId) (k : OfferKind) (ms : Nat) : State :=
  (s.updCall h fun c =>
    { c with
      state := .offering, currentGroup := none, tried := [], offered := [{ station := i, start := s.now }],
      offerKind := some k, ringDeadline := some (later s.now ms), waitDeadline := none, escDeadline := none,
      parkDeadline := none, orbit := none, parker := none }).enterState i (.ringing h)

/-- The attendant when it is present and IDLE (R15, R78). -/
def idleAttendant (s : State) : Option StationId := s.cfg.attendant.filter s.isIdle

/-- The call goes to the attendant: rung for 30 s, or the call ends NO_ROUTE (R78). -/
def toAttendant (s : State) (h : Handle) : State :=
  match s.idleAttendant with
  | some a => s.ringOne h a .attendant Config.attendantRing
  | none => s.endCall h .noRoute none

/-- The fall of a target ring to the attendant, with its ROUTED advisory; no hop (R77, R79). -/
def fallToAttendant (s : State) (h : Handle) (r : RouteReason) : State :=
  match s.findCall h with
  | none => s
  | some c => (s.advise (.routed h none r .attendant c.hops)).toAttendant h

/-- A call from park expiry or recall loses its orbit and goes to the attendant, unless that is absent, not IDLE or its own
parker: then it ends NO_ROUTE (R105). -/
def recallToAttendant (s : State) (h : Handle) : State :=
  match s.findCall h with
  | none => s
  | some c =>
    match s.idleAttendant with
    | some a =>
      if c.parker = some a then s.endCall h .noRoute none else s.ringOne h a .attendant Config.attendantRing
    | none => s.endCall h .noRoute none

/-! ## Overflow (4.4) -/

/-- Steps 2 to 5 of one overflow hop of a call from group `g` (R75): the destination and the hop count, the fields cleared,
the ROUTED advisory, and the delivery. For a GROUP destination it answers the group the call arrives at next. -/
def hop (s : State) (h : Handle) (g : GroupId) (reason : RouteReason) : State × Option GroupId :=
  match s.findCall h with
  | none => (s, none)
  | some c =>
    let cfg := s.groupCfg g
    let looped : Bool := Config.hopLimit ≤ c.hops
    let dest := if looped ∨ (cfg.enabled = false ∧ cfg.target = .group g) then Target.attendant else cfg.target
    let hops := if looped then c.hops else c.hops + 1
    let s1 := (s.updCall h fun c =>
      { c with
        state := .offering, currentGroup := none, tried := [], waitDeadline := none, waitPassed := false,
        arrivalWait := none, escDeadline := none, escalated := false, hops := hops }).advise
      (.routed h (some g) (if looped then .loop else reason) dest hops)
    match dest with
    | .nowhere => (s1.endCall h .noRoute none, none)
    | .attendant => (s1.toAttendant h, none)
    | .station t =>
      if s1.freeForOffer t then (s1.ringOne h t .target (seconds cfg.noAnswer), none)
      else (s1.fallToAttendant h .targetBusy, none)
    | .group k =>
      (s1.updCall h fun c => { c with currentGroup := some k, arrivalWait := some (s.groupCfg k).maxWait }, some k)

/-- What a new arrival meets at a group (R47, R67, R68, R76). -/
inductive Arrival where
  | offer (sts : List StationId)
  | join
  | overflow (reason : RouteReason)

/-- The call, which has not yet stood in its group's queue, has reached the maximum wait it arrived under: the wait test of R68 for
a new arrival. -/
def waitReached (s : State) (c : Call) : Bool :=
  c.arrivalWait.any fun m => decide (m ≠ 0) && decide (seconds m ≤ s.queueAge c)

/-- A new arrival that is not offered joins the queue or overflows: the limit (R67), then the wait test (R68). -/
def entryTest (s : State) (g : GroupId) (c : Call) : Arrival :=
  let cfg := s.groupCfg g
  if cfg.queueLimit ≤ (s.group g).queue.length then .overflow .queueFull
  else if s.waitReached c then .overflow .waitExpired
  else .join

/-- What a new arrival meets at a group: a disabled group overflows it, a queue that is not empty takes no selection, and an
empty one makes a selection (R47, R67, R76). -/
def arrivalAt (s : State) (g : GroupId) (c : Call) : Arrival :=
  if (s.groupCfg g).enabled = false then .overflow .groupDisabled
  else if (s.group g).queue ≠ [] then s.entryTest g c
  else
    match s.select g c with
    | [] => s.entryTest g c
    | sts => .offer sts

/-- The wait deadline of a call that enters its group's queue. One that has stood there retains the deadline kept from it (R68,
R69). One that has not takes it from its queue entry time and the maximum wait it arrived under, which no later edit changes (R27,
R68, R73), where that lies ahead of now (R30); none otherwise (log entry 27). -/
def waitOnEntry (s : State) (c : Call) : Option Time :=
  match c.arrivalWait with
  | none => c.waitDeadline
  | some m => if m = 0 ∨ s.waitReached c = true then none else some (later (c.queueEntry.getD s.now) (seconds m))

/-- A call enters its group's queue: at the head when it returns from an offer, at the tail as a new arrival. Its entry fields
are set (R68), its tried set becomes `tried` (R34), and escalation starts when it is the first escalated call there (R81): for a
returning call, before the displacement of the tail that R69 step 4 may bring, an order that the manual leaves open (DESIGN
CHOICE, log entry 26). -/
def enterQueue (s : State) (h : Handle) (g : GroupId) (returning : Bool) (tried : List StationId) : State :=
  match s.findCall h with
  | none => s
  | some c =>
    let cfg := s.groupCfg g
    let entry := c.queueEntry.getD s.now
    let wait := s.waitOnEntry c
    let flag : Bool := c.escalated || (decide (cfg.escDelay ≠ 0) && decide (seconds cfg.escDelay ≤ s.queueAge c))
    let s1 := s.updCall h fun c =>
      { c with
        state := .queued, currentGroup := some g, offered := [], tried := tried, ringDeadline := none, offerKind := none,
        queueEntry := some entry, queueAgeMark := c.queueAgeMark && c.queueEntry.isSome,
        waitDeadline := wait, arrivalWait := none,
        escDeadline := if flag ∨ cfg.escDelay = 0 then none else some (later entry (seconds cfg.escDelay)),
        escalated := flag }
    let s2 := s1.updGroup g fun x => { x with queue := if returning then h :: x.queue else x.queue ++ [h] }
    if flag && !s.inEscalation g then s2.escalationStart g else s2

/-- A call arrives at a group, and passes on hop by hop where it overflows, until it rings, waits or ends (R47, R75, R76). -/
def arrive : Nat → State → Handle → GroupId → State
  | 0, s, _, _ => s
  | n + 1, s, h, g =>
    match s.findCall h with
    | none => s
    | some c =>
      match s.arrivalAt g c with
      | .offer sts => s.offerGroup h g sts
      | .join => s.enterQueue h g false []
      | .overflow r =>
        match s.hop h g r with
        | (s1, none) => s1
        | (s1, some k) => arrive n s1 h k

/-- More arrivals than a call can make: the hop count rises with each, and at 6 the next hop goes to the attendant (R75). -/
def arriveBound : Nat := 8

/-- A call that holds no queue place and no ring overflows from `g` (R75 steps 2 to 5). -/
def route (s : State) (h : Handle) (g : GroupId) (r : RouteReason) : State :=
  match s.hop h g r with
  | (s1, none) => s1
  | (s1, some k) => arrive arriveBound s1 h k

/-- The stations that ring for a call. -/
def ringingFor (s : State) (h : Handle) : List StationId :=
  match s.findCall h with
  | none => []
  | some c => c.offered.map Offer.station

/-- Every offered station of a call leaves RINGING and becomes IDLE, in list order, and the call rings nowhere (R54 step 1,
R75 step 1). -/
def stopRings (s : State) (h : Handle) : State :=
  ((s.ringingFor h).foldl (fun s i => s.enterState i .idle) s).updCall h fun c =>
    { c with offered := [], ringDeadline := none }

/-- Steps 1 to 6 of an overflow: the call leaves its group, is delivered, and the review of its queue follows when it was the
head (R75). The availability events of step 7 are left to the caller. -/
def overflowMove (s : State) (h : Handle) (g : GroupId) (r : RouteReason) : State :=
  match s.findCall h with
  | none => s
  | some c =>
    if c.state = .queued then ((s.leaveQueue h g).route h g r).reviewIf (s.atHead h g) g
    else (s.stopRings h).route h g r

/-- An overflow of a queued or offering call from its group (R75). -/
def overflow (s : State) (h : Handle) (g : GroupId) (r : RouteReason) : State :=
  (s.overflowMove h g r).availAll (s.ringingFor h)

/-! ## No answer (3.5, 4.1) -/

/-- A call returns to its group's queue from an offer, its tried set reduced to `left`: it overflows when it carries the
wait-passed note or the group queues no calls, and otherwise takes the head; the tail is displaced when the limit is passed (R34,
R69). -/
def returnToQueue (s : State) (h : Handle) (g : GroupId) (left : List StationId) : State :=
  match s.findCall h with
  | none => s
  | some c =>
    let limit := (s.groupCfg g).queueLimit
    if c.waitPassed then s.route h g .waitExpired
    else if limit = 0 then s.route h g .queueFull
    else
      let s1 := s.enterQueue h g true (c.tried.filter fun i => left.contains i)
      if limit < (s1.group g).queue.length then
        match (s1.group g).queue.getLast? with
        | some t => s1.overflow t g .displaced
        | none => s1
      else s1

/-- A group call with no station left ringing looks again: a new selection unless the group is SIMULTANEOUS, and otherwise the
return to the queue (R54 steps 2 and 3, R55). `left`: the stations whose rings ended in this event. -/
def lookAgain (s : State) (h : Handle) (left : List StationId) : State :=
  match s.findCall h with
  | none => s
  | some c =>
    match c.currentGroup with
    | none => s
    | some g =>
      let sts := if (s.groupCfg g).algorithm = .simultaneous then [] else s.select g c
      if sts = [] then s.returnToQueue h g left else s.offerGroup h g sts

/-- A call with no station left ringing proceeds as on no-answer, by its kind of ring (R33, R54, R55, R77, R78, R104). -/
def ringEnded (s : State) (h : Handle) (left : List StationId) : State :=
  match s.findCall h with
  | none => s
  | some c =>
    match c.offerKind with
    | some .group => s.lookAgain h left
    | some .target => s.fallToAttendant h .targetNoAnswer
    | some .attendant => s.endCall h .noRoute none
    | some .recalling => s.recallToAttendant h
    | none => s

/-- The ring deadline of a call has expired: its stations become IDLE, the call proceeds, and the availability events of those
stations follow (R54, R77, R104). -/
def ringExpired (s : State) (h : Handle) : State :=
  ((s.stopRings h).ringEnded h (s.ringingFor h)).availAll (s.ringingFor h)

/-- One station leaves the ring of a call and takes the state the cause gives it; the call rings on at the others, or proceeds
as on no-answer; an availability event follows when the station became IDLE (R7, R9, R33, R55). -/
def leaveRing (s : State) (i : StationId) (h : Handle) (st : StationState) : State :=
  let s1 := (s.updCall h fun c => { c with offered := c.offered.filter fun x => !(x.station == i) }).enterState i st
  let s2 :=
    if s1.ringingFor h = [] then (s1.updCall h fun c => { c with ringDeadline := none }).ringEnded h [i] else s1
  if st = .idle then s2.availability i else s2

end State
end Sys2Proof.Machine
end

