-- ==== Sys2Proof/Machine/Exchange.lean ====
section
/-! DEFINITION. The control link (chapter 9): the receiver, the dispatch of the head frame, replies, and the transmitter's take; and the resets of chapter 10. -/

namespace Sys2Proof.Machine

/-! ## Frames the controller sends (9.5) -/

/-- The body of a station order (R174). -/
def stationOrderBody (i : StationId) (p : Presentation) : List Octet :=
  put2 i.val ++ put1 p.code ++
    match p with
    | .quiet => []
    | .ring h isRecall caller => put2 h ++ putFlag isRecall ++ putDigits caller
    | .desk r src => putRef (some r) ++ putSource src

/-- The KIND and body of an advisory (R176). -/
def Advisory.frame : Advisory → Frame
  | .routed h left r dest hops =>
    { kind := 0x68, tag := 0, body := put2 h ++ putOpt1 (left.map Fin.val) ++ put1 r.code ++ putTarget dest ++ put1 hops }
  | .escalate g r n =>
    { kind := 0x69, tag := 0,
      body := put1 g.val ++ put1 r.code ++ putRef (match r with | .started p => some p | _ => none) ++ put1 n }
  | .pageState p c e held g =>
    { kind := 0x6A, tag := 0,
      body := putRef (some p) ++ put1 c.num ++
        (match e with
          | .entered st => put1 st.code ++ putOpt1 none
          | .ended r => put1 3 ++ put1 r.code) ++ put1 held ++ putOpt1 (g.map Fin.val) }
  | .noiseLimit o gt mean ut =>
    { kind := 0x6B, tag := 0, body := put1 o.val ++ put1 gt ++ put2 mean ++ put2 ut }

/-- The frame of a reply, with the status flags of the moment (R170, R172). -/
def Reply.frame (r : Reply) (flags : Octet) : Frame :=
  { kind := 0x80, tag := r.tag, body := r.kind :: (put1 r.result.code ++ flags :: r.content) }

/-- The frame of a START notice (R176, R187). -/
def startFrame (c : StartCause) (o : StartOrigin) : Frame := { kind := 0x60, tag := 0, body := put1 c.code ++ put1 o.code }

/-- The frame of a SAVE_DONE notice (R176, R185). -/
def saveDoneFrame (o : SaveOutcome) : Frame := { kind := 0x61, tag := 0, body := put1 o.code }

/-- The frame of the CALL_END order of a record (R37, R176). -/
def callEndFrame (c : Call) : Frame :=
  { kind := 0x62, tag := 0,
    body := put2 c.handle ++ putOpt1 (c.outcome.map CallOutcome.code) ++ putOpt2 (c.outcomeStation.map Fin.val) }

namespace State

/-! ## The transmitter (R173 to R175) -/

/-- Put a frame on the line. -/
def sendFrame (s : State) (item : TxItem) (f : Frame) : State :=
  s.updLink fun l => { l with tx := some { item := item, octets := f.octets } }

/-- Take the oldest reply: the status flags are written, and those of the three written as set are cleared (R172). -/
def takeReply (s : State) (r : Reply) (rest : List Reply) : State :=
  (s.sendFrame (if r.kind = 0x3F ∧ r.result = .ok then .resetReply else .reply) (r.frame (statusFlags s))).updLink fun l =>
    { l with replies := rest, rxError := false, rxOverrun := false, advLost := false }

/-- Take a station from the station order set: its order is built from its presentation at this moment, which becomes its
last sent presentation, and its mark is removed (R18, R174). -/
def takeStationOrder (s : State) (m : Mark) (rest : List Mark) : State :=
  let p := s.present (s.station m.station).state
  ((s.sendFrame .other { kind := 0x63, tag := 0, body := stationOrderBody m.station p }).updStation m.station
    fun r => { r with lastSent := p }).updLink fun l => { l with stationOrders := rest }

/-- Take a pending notice, order or advisory, in the order of R173: START, SAVE_DONE, a CALL_END (which stays in its set until
its transmission ends, R174), a station order, an advisory. -/
def takeOther (s : State) : State :=
  match s.link.start, s.link.saveDone, s.link.callOrders.head?.bind s.findCall, s.link.stationOrders, s.link.advisories with
  | some (c, o), _, _, _, _ => (s.sendFrame .start (startFrame c o)).updLink fun l => { l with start := none }
  | none, some o, _, _, _ => (s.sendFrame .other (saveDoneFrame o)).updLink fun l => { l with saveDone := none }
  | none, none, some c, _, _ => s.sendFrame (.callEnd c.handle) (callEndFrame c)
  | none, none, none, m :: rest, _ => s.takeStationOrder m rest
  | none, none, none, [], a :: rest => (s.sendFrame .other a.frame).updLink fun l => { l with advisories := rest }
  | none, none, none, [], [] => s

/-- The idle transmitter takes the first pending item: a reply, or else, unless a RESET has been accepted (R187), what
`takeOther` gives (R173). -/
def transmitTake (s : State) : State :=
  match s.link.tx, s.link.replies with
  | some _, _ => s
  | none, r :: rest => s.takeReply r rest
  | none, [] => if s.link.resetAwaited then s else s.takeOther

/-- The end of every event: the availability events held back are handed over, and the idle transmitter takes. -/
def finish (s : State) : State := s.flush.transmitTake

/-! ## Requests (9.4) -/

/-- Whether the head frame can be dispatched now: the part runs, no RESET has been accepted, and the reply queue has room
(R169, R187). -/
def dispatchOpen (s : State) : Bool :=
  decide (s.power = .running) && !s.link.resetAwaited && decide (s.link.replies.length < Config.replies)

end State

/-- What the handling of a request gives: its result, the content of an OK reply, and the state. -/
structure Handled where
  result : Result
  content : List Octet
  st : State

/-- A request answered with a result other than OK, which changes no state (R170). -/
def refuse (s : State) (r : Result) : Handled := { result := r, content := [], st := s }

/-- A request answered OK. -/
def accept (s : State) (content : List Octet) : Handled := { result := .ok, content := content, st := s }

/-- The body length check: a body that its layout does not fit is answered BAD_LENGTH before any other check (R169, R171). -/
def withBody {α : Type} (r : Reader α) (body : List Octet) (s : State) (k : α → Handled) : Handled :=
  match r.run body with
  | some (v, []) => k v
  | _ => refuse s .badLength

/-- The second check of a configuration edit: a save in progress answers SAVING (R181, R184). -/
def unlessSaving (s : State) (k : Handled) : Handled := if s.save.isSome then refuse s .saving else k

/-- A field value out of its range is answered BAD_VALUE. -/
def orBadValue {α : Type} (s : State) (o : Option α) (k : α → Handled) : Handled :=
  match o with
  | none => refuse s .badValue
  | some v => k v

/-- A reply is placed at the tail of the reply queue, and the idle transmitter takes (R169, R173). -/
def State.answer (s : State) (f : Frame) (r : Result) (content : List Octet) : State :=
  (s.updLink fun l =>
    { l with replies := l.replies ++ [{ kind := f.kind, tag := f.tag, result := r, content := content }] }).transmitTake

/-- The head frame leaves the receive buffer. -/
def State.takeHead (s : State) (rest : List Frame) : State := s.updLink fun l => { l with rxBuffer := rest }

/-- The head frame is taken and handled whole, and its reply is placed (R169). -/
def serve (f : Frame) (rest : List Frame) (handle : State → Handled) (s : State) : State :=
  let a := handle (s.takeHead rest)
  a.st.flush.answer f a.result a.content

/-- The dispatch of a request. It can happen only when the frame stands at the head of the receive buffer and dispatch is
open; otherwise nothing happens (R169; log entries 1 and 3). -/
def dispatch (row : Row) (f : Frame) (handle : State → Handled) (s : State) : Host.Outcome State Fault Refusal :=
  match s.link.rxBuffer with
  | [] => .next s
  | head :: rest => if head = f ∧ f.row = row ∧ s.dispatchOpen = true then .next (serve f rest handle s) else .next s

/-- An event of the running part: it happens when its condition holds, and otherwise nothing happens (log entry 1). -/
def event (s : State) (happens : Bool) (effect : State → State) : Host.Outcome State Fault Refusal :=
  if s.power = .running ∧ happens = true then .next (effect s).finish else .next s

namespace State

/-! ## The receiver (9.3) -/

/-- The frame is abandoned: RX_ERROR is set and the receiver hunts (R167). -/
def abandonFrame (s : State) : State := s.updLink fun l => { l with receiver := .hunting, rxError := true }

/-- A complete frame: discarded before START's transmission has ended (R188), joined to the receive buffer when it holds fewer
than 4 frames, and otherwise discarded with RX_OVERRUN (R168). -/
def completeFrame (s : State) (f : Frame) : State :=
  s.updLink fun l =>
    if l.startSent then
      if l.rxBuffer.length < Config.receiveFrames then { l with rxBuffer := l.rxBuffer ++ [f] } else { l with rxOverrun := true }
    else l

/-- The receiver hunts again. -/
def huntAgain (s : State) : State := s.updLink fun l => { l with receiver := .hunting }

/-- The octets after SYNC of a frame whose last octet has arrived: a CHECK that matches completes the frame, one that differs
abandons it (R167). -/
def closeFrame (s : State) (os : List Octet) : State :=
  match os with
  | len :: kind :: tag :: rest =>
    let body := rest.take (len.toNat - 2)
    if rest.drop (len.toNat - 2) = putCheck (checkOf (len :: kind :: tag :: body)) then
      s.huntAgain.completeFrame { kind := kind, tag := tag, body := body }
    else s.abandonFrame
  | _ => s.abandonFrame

/-- Whether a LEN is in range, 2 to 242 (R165, R167). -/
def lenInRange (len : Octet) : Bool := decide (2 ≤ len.toNat) && decide (len.toNat ≤ 242)

/-- A good octet within a frame: a LEN out of range abandons the frame at that octet, and the octet that makes LEN plus the
three octets of LEN and CHECK closes it (R167). -/
def frameOctet (s : State) (os : List Octet) (o : Octet) : State :=
  match os ++ [o] with
  | [] => s
  | len :: rest =>
    if lenInRange len = false then s.abandonFrame
    else if rest.length = len.toNat + 2 then s.closeFrame (len :: rest)
    else s.updLink fun l => { l with receiver := .inFrame (len :: rest) s.now }

/-- An octet while hunting: 0xB7 starts a frame, every other octet is discarded, a broken one too (R167). -/
def huntOctet (s : State) (o : Octet) (stopBit : Bool) : State :=
  if o = syncOctet ∧ stopBit = true then s.updLink fun l => { l with receiver := .inFrame [] s.now } else s

/-- Whether more than 5 ms have passed since the last octet of the frame being received (R167). -/
def gapPassed (s : State) (last : Time) : Bool := decide (Config.octetGap < ageOf s.now last)

/-- An octet arrives on LINK_RX (R164, R167). A frame whose last octet is more than 5 ms old is abandoned first, and the octet
is then met hunting. -/
def receiveOctet (s : State) (o : Octet) (stopBit : Bool) : State :=
  match s.link.receiver with
  | .hunting => s.huntOctet o stopBit
  | .inFrame os last =>
    if s.gapPassed last then s.abandonFrame.huntOctet o stopBit
    else if stopBit = false then s.abandonFrame
    else s.frameOctet os o

/-- Octets arrive back to back. -/
def receiveAll (s : State) (os : List Octet) : State := os.foldl (fun s o => s.receiveOctet o true) s

/-! ## Resets (10.3) -/

/-- A station record after a reset (R23). -/
def stationAfterReset (c : StationCfg) : Station :=
  { state := if c.inUse then .idle else .unused, idleSince := 0, saturated := false, lastSent := .quiet }

/-- The state that every reset leaves, for the configuration in force, the tracked gains, the cause and the origin (R23, R41,
R65, R87, R108, R129, R146, R163, R180, R187, R188). The waiting commands are the outside's and stay. -/
def afterReset (s : State) (power : Power) (cfg : WorkingConfig) (gains : Vector Nat 16) (cause : StartCause)
    (origin : StartOrigin) : State :=
  { s with
    power := power
    now := 0
    cfg := cfg
    save := none
    stations := cfg.stations.map stationAfterReset
    calls := []
    groups := Vector.replicate 32 Group.afterReset
    pages := Vector.replicate 16 { gen := 0, page := none }
    outputs := gains.map Output.afterReset
    link := Link.afterReset cause origin
    heldAvail := [] }

/-- A value clamped into `[lo, hi]`. -/
def clampNat (lo hi v : Nat) : Nat := max lo (min hi v)

/-- A power-on reset: the working configuration is loaded from a valid stored copy whose check value matches, and is otherwise
every field at its default; GT is 64 clamped into the loaded limits; a copy whose check value does not match counts as not
valid (R163, R186, R187). The part runs at once: the manual does not say what power applied while RST_N is asserted gives,
and the model keeps no level of that pin (DESIGN CHOICE, log entry 9). -/
def powerOn (s : State) (checkMatches : Bool) : State :=
  let stored := if checkMatches then s.stored else none
  let cfg := stored.getD WorkingConfig.defaults
  { s.afterReset .running cfg (cfg.outputs.map fun o => clampNat o.gmin o.gmax 64) .power
      (if stored.isSome then .stored else .defaults) with stored := stored }

/-- A pin or link reset: the working configuration and GT are retained. A save in progress leaves the stored copy not valid,
as its start left it (R183, R186, R187). -/
def warmReset (s : State) (power : Power) (cause : StartCause) : State :=
  s.afterReset power s.cfg (s.outputs.map Output.gt) cause .retained

/-- The transmission of the frame on the line ends (R38, R173, R187, R188): the record of a CALL_END becomes FREE, the end of
START opens the receive buffer, and the end of the reply to an accepted RESET is the link reset. The transmitter is then idle
and takes again. -/
def transmissionEnds (s : State) (f : TxFrame) : State :=
  match f.item with
  | .resetReply => s.warmReset .running .link
  | .callEnd h =>
    ((s.dropCall h).updLink fun l => { l with tx := none, callOrders := l.callOrders.filter fun k => !(k == h) }).finish
  | .start => (s.updLink fun l => { l with tx := none, startSent := true }).finish
  | .reply | .other => (s.updLink fun l => { l with tx := none }).finish

end State
end Sys2Proof.Machine
end

