-- ==== Sys2Proof/Machine/Audio.lean ====
section
/-! DEFINITION. Output gain, sample scaling, noise sampling and the tracking window (chapters 7.3 and 8), with WINDOW_END. -/

namespace Sys2Proof.Machine

/-! ## Effective gain and scaling (8.2, 8.3) -/

/-- The effective gain: GT plus the class offset, clamped to 0 to Gceil (R151). -/
def effectiveGain (gt : Nat) (offset : Int) (gceil : Nat) : Nat := min (Int.toNat (gt + offset)) gceil

/-- The scaled value before saturation: |q| plus 32 over 64, with the sign of q = x times GE (R152 steps 1 and 2). -/
def scaledValue (x : Int) (ge : Nat) : Int :=
  let q := x * ge
  let m : Int := ((q.natAbs + 32) / 64 : Nat)
  if q < 0 then -m else m

/-- A scaled sample, saturated to 16 bits, and whether it was replaced (R152 step 3). -/
def scaleSample (x : Sample) (ge : Nat) : Sample × Bool :=
  let y := scaledValue x.toInt ge
  if 32767 < y then (BitVec.ofInt 16 32767, true)
  else if y < -32768 then (BitVec.ofInt 16 (-32768), true)
  else (BitVec.ofInt 16 y, false)

/-- One sounding block of a chime: a whole cycle of the 1 kHz square wave (R139, R142). -/
def chimeBlock : Vector Sample 8 :=
  #v[8192, 8192, 8192, 8192, BitVec.ofInt 16 (-8192), BitVec.ofInt 16 (-8192), BitVec.ofInt 16 (-8192),
    BitVec.ofInt 16 (-8192)]

/-- Eight zeros. -/
def silentBlock : Vector Sample 8 := Vector.replicate 8 0

/-! ## Blocks (7.3) -/

/-- Whether the block that begins now is a sounding block of the chime (R142). -/
def Chime.soundsAt (c : Chime) (now : Time) : Bool := decide (ageOf now c.periodStart < c.sounding)

namespace State

/-- The source samples of the block that begins now on an AUDIBLE output of the page, none when the block is silent (R138,
R139). Before its opening step a page plays nothing. -/
def audibleSource (s : State) (inputs : Vector (Vector Sample 8) 4) (pg : Page) : Option (Vector Sample 8) :=
  match pg.chime with
  | some c => if c.soundsAt s.now then some chimeBlock else none
  | none =>
    match pg.state, pg.source with
    | .live, .input i => some inputs[i]
    | _, _ => none

/-- The source samples of an output's block with the class of its page, none for a silent block (R139). -/
def blockSource (s : State) (inputs : Vector (Vector Sample 8) 4) (o : OutputId) : Option (Vector Sample 8 × PageClass) :=
  match (s.output o).state with
  | .audible r =>
    match s.pageAt r with
    | some pg => (s.audibleSource inputs pg).map fun x => (x, pg.cls)
    | none => none
  | _ => none

/-- The effective gain of the block that begins now for a page of the class on the output (R151). -/
def gainOf (s : State) (o : OutputId) (c : PageClass) : Nat :=
  effectiveGain (s.output o).gt (s.cfg.offsets.of c) (s.outputCfg o).gceil

/-- Whether the block that begins now lies in the settling half of the output's window (R156). -/
def inSettlingHalf (s : State) (o : OutputId) : Bool :=
  (s.output o).settling && decide (ageOf s.now (s.output o).windowStart < (s.outputCfg o).window / 2)

/-- The block that begins now on one output: a sounding block is scaled by GE and its clips counted; a silent one emits zeros
and takes one noise sample, discarded in a settling half (R139, R152 to R154). -/
def buildBlock (s : State) (inputs : Vector (Vector Sample 8) 4) (noise : Vector Envelope 16) (o : OutputId) : Output :=
  let x := s.output o
  match s.blockSource inputs o with
  | some (src, c) =>
    let ys := src.map fun v => scaleSample v (s.gainOf o c)
    { x with samples := ys.map Prod.fst, sounding := true, clips := x.clips + ys.toList.countP Prod.snd }
  | none =>
    if s.inSettlingHalf o then { x with samples := silentBlock, sounding := false }
    else
      { x with samples := silentBlock, sounding := false, sum := x.sum + noise[o].toNat, count := x.count + 1 }

/-- The blocks of every output for the millisecond that begins now, built from the pins presented (R139, R162). -/
def buildBlocks (s : State) (inputs : Vector (Vector Sample 8) 4) (noise : Vector Envelope 16) : State :=
  { s with
    outputs := Vector.ofFn fun o => s.buildBlock inputs noise o
    pins := { inputs := inputs, noise := noise } }

/-! ## The window (8.5, 8.6) -/

/-- The mean of a window, absent for a starved one (R157). -/
def windowMean (x : Output) : Option Nat := if x.count < Config.starvedBelow then none else some (x.sum / x.count)

/-- The decision at a window's end with hold off, and the tracked gain after it (R158). -/
def decideWindow (c : OutputCfg) (x : Output) : Decision × Nat :=
  if c.ct < x.clips then (.clipDown, max c.gmin (x.gt - c.stepSize))
  else
    match windowMean x with
    | none => (.starved, x.gt)
    | some mean =>
      if c.ut < mean then
        if x.gt < c.gmax then (.up, min c.gmax (x.gt + c.stepSize)) else (.atLimit, x.gt)
      else if mean < c.lt then (.quietDown, max c.gmin (x.gt - c.stepSize))
      else (.steady, x.gt)

/-- The decision at a window's end: FROZEN with hold on (R158). -/
def windowDecision (c : OutputCfg) (x : Output) : Decision × Nat := if c.hold then (.frozen, x.gt) else decideWindow c x

/-- The at-limit field after a decision (R159). -/
def atLimitAfter (d : Decision) (before : Bool) : Bool :=
  match d with
  | .atLimit => true
  | .steady | .clipDown | .quietDown => false
  | .up | .starved | .frozen => before

/-- An output whose window ends now: the last fields recorded, the decision made, the next window started (R155 to R159). -/
def closeWindow (now : Time) (c : OutputCfg) (x : Output) : Output :=
  let d := windowDecision c x
  { x with
    gt := d.2, lastCount := some x.count, lastClips := some x.clips, lastMean := windowMean x, lastDecision := some d.1,
    atLimit := atLimitAfter d.1 x.atLimit, windowStart := now, settling := decide (d.2 ≠ x.gt) && c.settle && !c.hold,
    sum := 0, count := 0, clips := 0 }

/-- The end of an output's window, with the NOISE_LIMIT advisory of the first AT_LIMIT decision of a stay (R155 to R159). -/
def endWindow (s : State) (o : OutputId) : State :=
  let x := s.output o
  let c := s.outputCfg o
  let s1 := s.updOutput o (closeWindow s.now c)
  if (windowDecision c x).1 = .atLimit ∧ x.atLimit = false then
    s1.advise (.noiseLimit o x.gt ((windowMean x).getD 0) c.ut)
  else s1

/-- A window that starts now by an edit: it measures from its first block (R149, R156). -/
def restartWindow (now : Time) (x : Output) : Output :=
  { x with windowStart := now, settling := false, sum := 0, count := 0, clips := 0 }

/-- Whether the window of an output ends now: W after its start (R155). -/
def windowDue (s : State) (o : OutputId) : Bool :=
  decide (s.now = later (s.output o).windowStart (s.outputCfg o).window)

end State

/-- WINDOW_END: at the end of the output's window (R155, R158). -/
def execWindowEnd (o : OutputId) (s : State) : Host.Outcome State Fault Refusal :=
  event s (s.windowDue o) fun s => s.endWindow o

end Sys2Proof.Machine
end

