-- ==== Sys2Proof/Machine/Expiries.lean ====
section
/-! DEFINITION. The deadlines of calls, groups, pages, outputs and chimes, and the age marks (R12, R29, R54, R71, R77 to R83, R103 to R105, R119, R120, R134, R142 to R145). -/

namespace Sys2Proof.Machine
namespace State

/-! ## When a deadline expires -/

/-- Whether a deadline expires now. -/
def due (s : State) (d : Option Time) : Bool := decide (d = some s.now)

/-- Whether a call rings by the given kind of ring and its ring deadline expires now. -/
def ringDueFor (s : State) (k : OfferKind) (c : Call) : Bool := decide (c.offerKind = some k) && s.due c.ringDeadline

/-- Whether the ring deadline of the call, which rings by the given kind of ring, expires now. -/
def ringDue (s : State) (k : OfferKind) (h : Handle) : Bool := (s.findCall h).any (s.ringDueFor k)

/-- Whether a wait deadline expires now, of a call that is queued or offering. -/
def waitDueFor (s : State) (c : Call) : Bool :=
  (decide (c.state = .queued) || decide (c.state = .offering)) && s.due c.waitDeadline

/-- Whether an escalation deadline expires now, of a queued call. -/
def escDueFor (s : State) (c : Call) : Bool := decide (c.state = .queued) && s.due c.escDeadline

/-- Whether a park deadline expires now, of a parked call. -/
def parkDueFor (s : State) (c : Call) : Bool := decide (c.state = .parked) && s.due c.parkDeadline

/-- Whether the repeat deadline of a group expires now. -/
def repeatDue (s : State) (g : GroupId) : Bool := s.due (s.group g).repeatDeadline

/-- Whether the wait deadline of a WAITING page expires now. -/
def pageWaitDue (s : State) (p : PageId) : Bool :=
  (s.page p).any fun pg => decide (pg.state = .waiting) && s.due pg.waitDeadline

/-- Whether a page's period of its chime ends now. -/
def periodDue (s : State) (p : PageId) : Bool :=
  (s.page p).any fun pg => pg.chime.any fun c => decide (s.now = later c.periodStart c.length)

/-- Whether the guard of an output ends now. -/
def guardDue (s : State) (o : OutputId) : Bool :=
  match (s.output o).state with
  | .guard _ d => decide (d = s.now)
  | _ => false

/-! ## What each expiry does -/

/-- The wait deadline of a call expires: a queued call overflows, a ringing one takes the wait-passed note (R71). -/
def waitExpired (s : State) (h : Handle) : State :=
  match s.findCall h with
  | none => s
  | some c =>
    match c.state, c.currentGroup with
    | .queued, some g => s.overflow h g .waitExpired
    | _, _ => s.updCall h fun c => { c with waitDeadline := none, waitPassed := true }

/-- The escalation deadline of a queued call expires: its flag is set, and escalation starts when it is the first (R80,
R81). -/
def escExpired (s : State) (h : Handle) : State :=
  match s.findCall h with
  | none => s
  | some c =>
    let s1 := s.updCall h fun c => { c with escDeadline := none, escalated := true }
    match c.currentGroup with
    | some g => if s.inEscalation g then s1 else s1.escalationStart g
    | none => s1

/-- The park deadline of a call expires: an IDLE parker is rung for 30 s in RECALL, and otherwise the call goes to the
attendant (R103, R105). -/
def parkExpired (s : State) (h : Handle) : State :=
  match s.findCall h with
  | none => s
  | some c =>
    match c.parker.filter s.isIdle with
    | some i =>
      (s.updCall h fun c =>
        { c with
          state := .recalling, offerKind := some .recalling, offered := [{ station := i, start := s.now }],
          ringDeadline := some (later s.now Config.attendantRing), parkDeadline := none }).enterState i (.ringing h)
    | none => (s.updCall h fun c => { c with parkDeadline := none }).recallToAttendant h

/-- The repeat deadline of a group expires (R83). -/
def repeatExpired (s : State) (g : GroupId) : State :=
  match (s.group g).escPage with
  | none =>
    ((s.updGroup g fun x => { x with repeatDeadline := none }).pageAttempt g).updGroup g
      fun x => { x with repeatDeadline := some (s.repeatFrom g) }
  | some _ => s.updGroup g fun x => { x with repeatDeadline := none, repeatDue := true }

/-- The guard of an output ends: it becomes audible, and its page makes its opening step when it is STARTING with no chime in
play (R134). -/
def guardEnds (s : State) (o : OutputId) : State :=
  match (s.output o).state with
  | .guard r _ =>
    let s1 := s.updOutput o fun x => { x with state := .audible r }
    if (s1.pageAt r).isSome then s1.openingStep r.id else s1
  | _ => s

/-- A period of a page's chime ends: the count of periods rises by 1, and the chime completes when it has reached N_p, or its
next period begins (R142, R144). -/
def periodEnds (s : State) (p : PageId) : State :=
  match s.page p with
  | none => s
  | some pg =>
    match pg.chime with
    | none => s
    | some c =>
      if s.cfg.patterns[c.pattern].repeats ≤ c.completed + 1 then s.chimeComplete p pg
      else s.updPage p fun x => { x with chime := some (s.chimePeriod c.pattern (c.completed + 1)) }

/-! ## Age marks -/

/-- Whether an age has reached 2^30 ms. -/
def ageReached (s : State) (t : Time) : Bool := decide (Config.ageCeiling ≤ ageOf s.now t)

/-- Whether the idle age of a configured station reaches 2^30 ms, its mark not yet set (R12). -/
def idleAgeDueFor (s : State) (inUse : Bool) (x : Station) : Bool := inUse && !x.saturated && s.ageReached x.idleSince

/-- Whether the queue age mark of a call is to be set (R29). -/
def queueAgeDueFor (s : State) (c : Call) : Bool :=
  decide (c.state ≠ .ending) && !c.queueAgeMark && c.queueEntry.any s.ageReached

/-- Whether the arrival age mark of a call is to be set (R29). -/
def arrivalAgeDueFor (s : State) (c : Call) : Bool :=
  decide (c.state ≠ .ending) && !c.arrivalAgeMark && s.ageReached c.arrival

/-- Whether the request age mark of a page is to be set (R120). -/
def requestAgeDue (s : State) (p : PageId) : Bool :=
  (s.page p).any fun pg => !pg.requestAgeMark && s.ageReached pg.requestTime

end State

/-! ## The commands -/

/-- NO_ANSWER_EXPIRY: the ring deadline of a group offer (R54). -/
def execNoAnswerExpiry (h : Handle) (s : State) : Host.Outcome State Fault Refusal :=
  event s (s.ringDue .group h) fun s => s.ringExpired h

/-- TARGET_RING_EXPIRY: the ring deadline of a target ring (R77). -/
def execTargetRingExpiry (h : Handle) (s : State) : Host.Outcome State Fault Refusal :=
  event s (s.ringDue .target h) fun s => s.ringExpired h

/-- ATTENDANT_RING_EXPIRY: the call ends NO_ROUTE, and the attendant becomes IDLE in the teardown (R78, R105). -/
def execAttendantRingExpiry (h : Handle) (s : State) : Host.Outcome State Fault Refusal :=
  event s (s.ringDue .attendant h) fun s => s.endCall h .noRoute none

/-- RECALL_RING_EXPIRY: the parker becomes IDLE and the call goes to the attendant (R104). -/
def execRecallRingExpiry (h : Handle) (s : State) : Host.Outcome State Fault Refusal :=
  event s (s.ringDue .recalling h) fun s => s.ringExpired h

/-- WAIT_DEADLINE_EXPIRY (R71). -/
def execWaitDeadlineExpiry (h : Handle) (s : State) : Host.Outcome State Fault Refusal :=
  event s ((s.findCall h).any s.waitDueFor) fun s => s.waitExpired h

/-- ESCALATION_DEADLINE_EXPIRY (R80). -/
def execEscalationDeadlineExpiry (h : Handle) (s : State) : Host.Outcome State Fault Refusal :=
  event s ((s.findCall h).any s.escDueFor) fun s => s.escExpired h

/-- PARK_DEADLINE_EXPIRY (R103). -/
def execParkDeadlineExpiry (h : Handle) (s : State) : Host.Outcome State Fault Refusal :=
  event s ((s.findCall h).any s.parkDueFor) fun s => s.parkExpired h

/-- REPEAT_DEADLINE_EXPIRY (R83). -/
def execRepeatDeadlineExpiry (g : GroupId) (s : State) : Host.Outcome State Fault Refusal :=
  event s (s.repeatDue g) fun s => s.repeatExpired g

/-- PAGE_WAIT_EXPIRY: the page ends WAIT_EXPIRED (R119). -/
def execPageWaitExpiry (p : PageId) (s : State) : Host.Outcome State Fault Refusal :=
  event s (s.pageWaitDue p) fun s => s.endPage p .waitExpired

/-- GUARD_EXPIRY (R134). -/
def execGuardExpiry (o : OutputId) (s : State) : Host.Outcome State Fault Refusal :=
  event s (s.guardDue o) fun s => s.guardEnds o

/-- CHIME_PERIOD_END (R142, R144, R145). -/
def execChimePeriodEnd (p : PageId) (s : State) : Host.Outcome State Fault Refusal :=
  event s (s.periodDue p) fun s => s.periodEnds p

/-- IDLE_AGE_SATURATED (R12). -/
def execIdleAgeSaturated (i : StationId) (s : State) : Host.Outcome State Fault Refusal :=
  event s (s.idleAgeDueFor (s.stationCfg i).inUse (s.station i)) fun s =>
    s.updStation i fun x => { x with saturated := true }

/-- QUEUE_AGE_SATURATED (R29). -/
def execQueueAgeSaturated (h : Handle) (s : State) : Host.Outcome State Fault Refusal :=
  event s ((s.findCall h).any s.queueAgeDueFor) fun s => s.updCall h fun c => { c with queueAgeMark := true }

/-- ARRIVAL_AGE_SATURATED (R29). -/
def execArrivalAgeSaturated (h : Handle) (s : State) : Host.Outcome State Fault Refusal :=
  event s ((s.findCall h).any s.arrivalAgeDueFor) fun s => s.updCall h fun c => { c with arrivalAgeMark := true }

/-- REQUEST_AGE_SATURATED (R120). -/
def execRequestAgeSaturated (p : PageId) (s : State) : Host.Outcome State Fault Refusal :=
  event s (s.requestAgeDue p) fun s => s.updPage p fun x => { x with requestAgeMark := true }

end Sys2Proof.Machine
end

