-- ==== Sys2Proof/Machine/LinkCommands.lean ====
section
/-! DEFINITION. The events of the line (OCTET_RECEIVED, FRAME_RECEIVED, RX_OCTET_TIMEOUT, FRAME_TRANSMITTED) and the resets (chapters 9 and 10). -/

namespace Sys2Proof.Machine

/-! ## The line -/

/-- OCTET_RECEIVED (R164, R167). -/
def execOctetReceived (octet : Octet) (stopBit : Bool) (s : State) : Host.Outcome State Fault Refusal :=
  event s true fun s => s.receiveOctet octet stopBit

/-- FRAME_RECEIVED: the octets of one whole frame, SYNC to CHECK, back to back (R165, R167, R168; log entry 4). -/
def execFrameReceived (kind tag : Octet) (body : List Octet) (check : BitVec 16) (s : State) :
    Host.Outcome State Fault Refusal :=
  event s true fun s => s.receiveAll (({ kind := kind, tag := tag, body := body } : Frame).octetsWith check)

/-- Whether the receiver is in a frame whose last octet is more than 5 ms old (R167). -/
def rxTimeoutDue (s : State) : Bool :=
  match s.link.receiver with
  | .hunting => false
  | .inFrame _ last => s.gapPassed last

/-- RX_OCTET_TIMEOUT: the frame in progress is abandoned (R167). -/
def execRxOctetTimeout (s : State) : Host.Outcome State Fault Refusal := event s (rxTimeoutDue s) State.abandonFrame

/-- FRAME_TRANSMITTED: the last CHECK octet of the frame on LINK_TX leaves; nothing while the transmitter is idle (R173,
R174; log entry 6). -/
def execFrameTransmitted (s : State) : Host.Outcome State Fault Refusal :=
  match s.power, s.link.tx with
  | .running, some f => .next (s.transmissionEnds f)
  | _, _ => .next s

/-! ## Resets and supply (R186, R187) -/

/-- POWER_ON_RESET: power is applied (R186, R187). -/
def execPowerOnReset (checkMatches : Bool) (s : State) : Host.Outcome State Fault Refusal := .next (s.powerOn checkMatches)

/-- PIN_RESET: RST_N is asserted; the controller is held in reset while it stays asserted (R187). -/
def execPinReset (s : State) : Host.Outcome State Fault Refusal :=
  match s.power with
  | .running => .next (s.warmReset .heldInReset .pin)
  | _ => .next s

/-- LINK_RESET: the transmission of the reply to an accepted RESET ends (R187; log entry 6). -/
def execLinkReset (s : State) : Host.Outcome State Fault Refusal :=
  match s.power, s.link.tx with
  | .running, some f => if f.item = .resetReply then .next (s.transmissionEnds f) else .next s
  | _, _ => .next s

/-- LEAVES_RESET: RST_N is released, and the running time starts at 0 (R187). -/
def execLeavesReset (s : State) : Host.Outcome State Fault Refusal :=
  match s.power with
  | .heldInReset => .next { s with power := .running, now := 0 }
  | _ => .next s

/-- LOSS_OF_POWER: a save in progress is abandoned, which leaves the stored copy not valid, and nothing more happens until
power is applied (R186; log entry 9). -/
def execLossOfPower (s : State) : Host.Outcome State Fault Refusal := .next { s with power := .unpowered, save := none }

end Sys2Proof.Machine
end

