-- ==== Sys2Proof/Machine/SaveCommands.lean ====
section
/-! DEFINITION. SAVE, the end of a save, and RESET (R183 to R187). -/

namespace Sys2Proof.Machine

/-- The body of a request with no fields (R171). -/
def readEmpty : Reader Unit := pure ()

/-- A save begins: the working configuration is taken, the stored copy is not valid, and the save deadline runs (R183). -/
def beginSave (s : State) : State :=
  { s with stored := none, save := some { config := s.cfg, deadline := later s.now Config.saveTime } }

/-- SAVE: SAVING while a save is in progress or an outcome waits in its slot (R183). -/
def handleSave (body : List Octet) (s : State) : Handled :=
  withBody readEmpty body s fun _ =>
    if s.save.isSome ∨ s.link.saveDone.isSome then refuse s .saving else accept (beginSave s) []

/-- SAVE is dispatched. -/
def execSave (tag : Octet) (body : List Octet) (s : State) : Host.Outcome State Fault Refusal :=
  dispatch .save { kind := 0x3E, tag := tag, body := body } (handleSave body) s

/-- The save ends with an outcome, which fills the SAVE_DONE slot; OK makes the stored copy valid (R185). -/
def endSave (s : State) (o : SaveOutcome) : State :=
  match s.save with
  | none => s
  | some r =>
    ({ s with save := none, stored := if o = .ok then some r.config else none } : State).updLink fun l =>
      { l with saveDone := some o }

/-- SAVE_WRITE_COMPLETE: a completion that finds no save in progress changes nothing (R185). -/
def execSaveWriteComplete (verified : Bool) (s : State) : Host.Outcome State Fault Refusal :=
  event s s.save.isSome fun s => endSave s (if verified then .ok else .failed)

/-- Whether the save deadline expires now. -/
def saveDue (s : State) : Bool := s.save.any fun r => decide (r.deadline = s.now)

/-- SAVE_DEADLINE_EXPIRY (R185). -/
def execSaveDeadlineExpiry (s : State) : Host.Outcome State Fault Refusal :=
  event s (saveDue s) fun s => endSave s .timeout

/-- RESET: accepted in every state; from here until the link reset nothing more is dispatched (R187). -/
def handleReset (body : List Octet) (s : State) : Handled :=
  withBody readEmpty body s fun _ => accept (s.updLink fun l => { l with resetAwaited := true }) []

/-- RESET is dispatched. -/
def execReset (tag : Octet) (body : List Octet) (s : State) : Host.Outcome State Fault Refusal :=
  dispatch .reset { kind := 0x3F, tag := tag, body := body } (handleReset body) s

end Sys2Proof.Machine
end

