-- ==== Sys2Proof/Machine/Clock.lean ====
section
/-! DEFINITION. The course of one millisecond: the events that the running time has brought, the audio block with OUTPUT_BLOCK, which comes last and passes the millisecond (log entry 7), and what the controller does when no command waits (log entry 2). -/

namespace Sys2Proof.Machine
namespace State

/-- The dispatch of the head frame, when dispatch is open (R169). -/
def dispatchDue (s : State) : Option Instr := if s.dispatchOpen then s.link.rxBuffer.head?.map Frame.request else none

/-- The due event of one call: its ring, wait, escalation and park deadlines, then its age marks. -/
def dueOfCall (s : State) (c : Call) : Option Instr :=
  let h := c.handle
  if s.ringDueFor .group c then some (.noAnswerExpiry h)
  else if s.ringDueFor .target c then some (.targetRingExpiry h)
  else if s.ringDueFor .attendant c then some (.attendantRingExpiry h)
  else if s.ringDueFor .recalling c then some (.recallRingExpiry h)
  else if s.waitDueFor c then some (.waitDeadlineExpiry h)
  else if s.escDueFor c then some (.escalationDeadlineExpiry h)
  else if s.parkDueFor c then some (.parkDeadlineExpiry h)
  else if s.queueAgeDueFor c then some (.queueAgeSaturated h)
  else if s.arrivalAgeDueFor c then some (.arrivalAgeSaturated h)
  else none

/-- The due event of one group. -/
def dueOfGroup (s : State) (g : GroupId) : Option Instr := if s.repeatDue g then some (.repeatDeadlineExpiry g) else none

/-- The due event of one page. -/
def dueOfPage (s : State) (p : PageId) : Option Instr :=
  if s.pageWaitDue p then some (.pageWaitExpiry p)
  else if s.periodDue p then some (.chimePeriodEnd p)
  else if s.requestAgeDue p then some (.requestAgeSaturated p)
  else none

/-- The due event of one output: its guard, then its window. -/
def dueOfOutput (s : State) (o : OutputId) : Option Instr :=
  if s.guardDue o then some (.guardExpiry o) else if s.windowDue o then some (.windowEnd o) else none

/-- The first station, counting from `i`, whose idle age mark is to be set. -/
def firstAged (s : State) : Nat → List StationCfg → List Station → Option Nat
  | i, c :: cs, x :: xs => if s.idleAgeDueFor c.inUse x then some i else firstAged s (i + 1) cs xs
  | _, _, _ => none

/-- The due event of the stations. -/
def dueOfStations (s : State) : Option Instr :=
  ((s.firstAged 0 s.cfg.stations.toList s.stations.toList).bind (finOf 512)).map .idleAgeSaturated

/-- The first event that the running time has brought: of calls, groups, pages, outputs, the save, stations, the receiver. -/
def timedEvent (s : State) : Option Instr :=
  s.calls.findSome? s.dueOfCall <|>
    (List.finRange 32).findSome? s.dueOfGroup <|>
    (List.finRange 16).findSome? s.dueOfPage <|>
    (List.finRange 16).findSome? s.dueOfOutput <|>
    (if saveDue s then some .saveDeadlineExpiry else none) <|>
    s.dueOfStations <|>
    (if rxTimeoutDue s then some .rxOctetTimeout else none)

/-- The next event of the controller's own: the dispatch of the head frame, then what the running time has brought, and with
nothing due the audio block of the millisecond, on the pins as last presented. -/
def nextEvent (s : State) : Instr := (s.dispatchDue <|> s.timedEvent).getD (.outputBlock s.pins.inputs s.pins.noise)

/-- One millisecond passes (R29). -/
def tick (s : State) : State := { s with now := s.now + 1 }

/-- What the controller does when no command waits. -/
def idle (s : State) : State :=
  if s.power ≠ .running then s
  else if s.link.tx.isNone && s.transmitTake.link.tx.isSome then s.transmitTake
  else { s with pending := [s.nextEvent] }

end State

/-- OUTPUT_BLOCK: the blocks that begin at the running time, which every change made at that time reaches and which lie in the
window that holds that time (R139, R151, R153 to R155, R160). So it is the last event of its millisecond: it happens when
nothing that the running time has brought is left, and the millisecond passes with it (R29; log entry 7). -/
def execOutputBlock (inputs : Vector (Vector Sample 8) 4) (noise : Vector Envelope 16) (s : State) :
    Host.Outcome State Fault Refusal :=
  event s s.timedEvent.isNone fun s => (s.buildBlocks inputs noise).tick
end Sys2Proof.Machine
end

