-- ==== Sys2Proof/Machine/CallCommands.lean ====
section
/-! DEFINITION. The call requests CALL_IN, ANSWER and HANGUP (chapters 2 and 3) and the STATION reports (chapter 1), with UNKNOWN_KIND. -/

namespace Sys2Proof.Machine

/-! ## UNKNOWN_KIND -/

/-- A KIND that names no request: UNKNOWN_KIND, before every other check and with no change of state (R169). -/
def execUnknownKind (kind tag : Octet) (body : List Octet) (s : State) : Host.Outcome State Fault Refusal :=
  dispatch .unknownKind { kind := kind, tag := tag, body := body } (fun s => refuse s .unknownKind) s

/-! ## CALL_IN (R31, R32) -/

/-- A record as an accepted CALL_IN sets it up at a group with maximum wait `wait`. It is in no queue and rings nowhere until the
Hunt Engine has handled it (R32). -/
def arrivedCall (h : Handle) (caller : List Digit) (noPickup : Bool) (g : GroupId) (wait : Nat) (now : Time) : Call :=
  { handle := h, caller := caller, noPickup := noPickup, state := .offering, currentGroup := some g, originGroup := some g,
    hops := 0, offered := [], tried := [], arrival := now, queueEntry := none, queueAgeMark := false,
    arrivalAgeMark := false, ringDeadline := none, waitDeadline := none, escDeadline := none, parkDeadline := none,
    escalated := false, waitPassed := false, arrivalWait := some wait, offerKind := none, orbit := none, parker := none,
    outcome := none, outcomeStation := none }

/-- The body of CALL_IN: handle, pilot number, caller number, private flag (R171). -/
def readCallIn : Reader (Nat × List Nat × List Nat × Nat) := do
  let h ← readWide
  let pilot ← readDigits
  let caller ← readDigits
  let flag ← readOctet
  pure (h, pilot, caller, flag)

/-- An accepted CALL_IN: a record, the arrival at the group, and the state the call has reached (R32). -/
def acceptCallIn (s : State) (c : Call) (g : GroupId) : Handled :=
  let s1 := (State.arrive State.arriveBound (s.addCall c) c.handle g).flush
  accept s1 (putOpt1 ((s1.findCall c.handle).map fun c => c.state.code))

/-- The checks of CALL_IN in the order of R31, and its handling. -/
def handleCallIn (body : List Octet) (s : State) : Handled :=
  withBody readCallIn body s fun (h, pilot, caller, flag) =>
    orBadValue s (flagOf flag) fun noPickup =>
      if h = 0 ∨ goodDigits pilot = false ∨ goodDigits caller = false then refuse s .badValue
      else if (s.findCall h).isSome then refuse s .duplicate
      else
        match s.resolve pilot with
        | none => refuse s .unknown
        | some (.pilot g) =>
          if Config.callRecords ≤ s.calls.length then refuse s .full
          else acceptCallIn s (arrivedCall h caller noPickup g (s.groupCfg g).maxWait s.now) g
        | some _ => refuse s .notPilot

/-- CALL_IN is dispatched. -/
def execCallIn (tag : Octet) (body : List Octet) (s : State) : Host.Outcome State Fault Refusal :=
  dispatch .callIn { kind := 0x01, tag := tag, body := body } (handleCallIn body) s

/-! ## ANSWER (R56) -/

/-- The body of ANSWER: station, handle (R171). -/
def readAnswer : Reader (Nat × Nat) := do
  let i ← readWide
  let h ← readWide
  pure (i, h)

/-- The checks of ANSWER in the order of R56, and the end of the call ANSWERED. -/
def handleAnswer (body : List Octet) (s : State) : Handled :=
  withBody readAnswer body s fun (i, h) =>
    orBadValue s (if h = 0 then none else finOf 512 i) fun i =>
      match s.findCall h with
      | none => refuse s .unknown
      | some c =>
        if (c.state = .offering ∨ c.state = .recalling) ∧ c.offered.any (fun x => x.station == i) then
          accept (s.endCall h .answered (some i)) []
        else refuse s .tooLate

/-- ANSWER is dispatched. -/
def execAnswer (tag : Octet) (body : List Octet) (s : State) : Host.Outcome State Fault Refusal :=
  dispatch .answer { kind := 0x02, tag := tag, body := body } (handleAnswer body) s

/-! ## HANGUP (R39) -/

/-- The checks of HANGUP, and the end of the call ABANDONED (R28, R39). -/
def handleHangup (body : List Octet) (s : State) : Handled :=
  withBody readWide body s fun h =>
    if h = 0 then refuse s .badValue
    else
      match s.findCall h with
      | none => refuse s .unknown
      | some c => if c.state = .ending then refuse s .unknown else accept (s.endCall h .abandoned none) []

/-- HANGUP is dispatched. -/
def execHangup (tag : Octet) (body : List Octet) (s : State) : Host.Outcome State Fault Refusal :=
  dispatch .hangup { kind := 0x03, tag := tag, body := body } (handleHangup body) s

/-! ## STATION reports (R6 to R10) -/

/-- The body of STATION: station, report code (R171). -/
def readReport : Reader (Nat × Nat) := do
  let i ← readWide
  let r ← readOctet
  pure (i, r)

/-- The checks of a STATION request (R6), and the report's effect. A report code that is none of the four is BAD_VALUE. -/
def handleReport (effect : State → StationId → State) (body : List Octet) (s : State) : Handled :=
  withBody readReport body s fun (i, r) =>
    orBadValue s (if 3 < r then none else finOf 512 i) fun i =>
      if (s.station i).state = .unused then refuse s .unknown else accept (effect s i) []

/-- The effect of an OFFHOOK report in each state (R7). -/
def reportOffhook (s : State) (i : StationId) : State :=
  match (s.station i).state with
  | .idle => s.enterState i .busy
  | .ringing h => s.leaveRing i h .busy
  | .pageListen _ => s.enterState i .busy
  | .busy => s
  | .outOfService => s
  | .unused => s

/-- The effect of an ONHOOK report in each state (R8). -/
def reportOnhook (s : State) (i : StationId) : State :=
  match (s.station i).state with
  | .busy => (s.enterFreshIdle i).availability i
  | .idle => s
  | .ringing _ => s
  | .pageListen _ => s
  | .outOfService => s
  | .unused => s

/-- The effect of an OUT_OF_SERVICE report in each state (R9). -/
def reportOutOfService (s : State) (i : StationId) : State :=
  match (s.station i).state with
  | .idle => s.enterState i .outOfService
  | .busy => s.enterState i .outOfService
  | .ringing h => s.leaveRing i h .outOfService
  | .pageListen _ => s.enterState i .outOfService
  | .outOfService => s
  | .unused => s

/-- The effect of an IN_SERVICE report in each state (R10). -/
def reportInService (s : State) (i : StationId) : State :=
  match (s.station i).state with
  | .outOfService => (s.enterFreshIdle i).availability i
  | .idle => s
  | .ringing _ => s
  | .busy => s
  | .pageListen _ => s
  | .unused => s

/-- STATION OFFHOOK is dispatched, or a STATION whose report is none of the four. -/
def execStationOffhook (tag : Octet) (body : List Octet) (s : State) : Host.Outcome State Fault Refusal :=
  dispatch .stationOffhook { kind := 0x04, tag := tag, body := body } (handleReport reportOffhook body) s

/-- STATION ONHOOK is dispatched. -/
def execStationOnhook (tag : Octet) (body : List Octet) (s : State) : Host.Outcome State Fault Refusal :=
  dispatch .stationOnhook { kind := 0x04, tag := tag, body := body } (handleReport reportOnhook body) s

/-- STATION OUT_OF_SERVICE is dispatched. -/
def execStationOutOfService (tag : Octet) (body : List Octet) (s : State) : Host.Outcome State Fault Refusal :=
  dispatch .stationOutOfService { kind := 0x04, tag := tag, body := body } (handleReport reportOutOfService body) s

/-- STATION IN_SERVICE is dispatched. -/
def execStationInService (tag : Octet) (body : List Octet) (s : State) : Host.Outcome State Fault Refusal :=
  dispatch .stationInService { kind := 0x04, tag := tag, body := body } (handleReport reportInService body) s

end Sys2Proof.Machine
end

