-- ==== Sys2Proof/Machine/EditCommands.lean ====
section
/-! DEFINITION. The configuration edits of one record or of plain fields: SET_SYSTEM, SET_DIR, SET_STATION, SET_PICKUP, SET_LIST, SET_MAP, SET_OUTPUT and SET_CHIME (R181, R182). -/

namespace Sys2Proof.Machine

/-- A presence mask or a count out of its range is answered BAD_VALUE (R171). -/
def orBadUnless (s : State) (good : Bool) (k : Handled) : Handled := if good then k else refuse s .badValue

/-! ## SET_SYSTEM (R181) -/

/-- The octets of a SET_SYSTEM body. -/
structure RawSystem where
  mask : Nat
  width : Option Nat
  attendant : Option Nat
  park : Option Nat
  guard : Option Nat
  period : Option Nat
  emergency : Option Nat
  alert : Option Nat
  voice : Option Nat
  background : Option Nat
  deriving DecidableEq, Repr

/-- The body of SET_SYSTEM (R171). -/
def readSystem : Reader RawSystem := do
  let mask ← readWide
  let width ← readIf mask 0 readOctet
  let attendant ← readIf mask 1 readWide
  let park ← readIf mask 2 readWide
  let guard ← readIf mask 3 readWide
  let period ← readIf mask 4 readWide
  let emergency ← readIf mask 5 readOctet
  let alert ← readIf mask 6 readOctet
  let voice ← readIf mask 7 readOctet
  let background ← readIf mask 8 readOctet
  pure { mask, width, attendant, park, guard, period, emergency, alert, voice, background }

/-- The fields of a SET_SYSTEM request in range. -/
structure SystemFields where
  width : Option Nat
  attendant : Option (Option StationId)
  park : Option Nat
  guard : Option Nat
  period : Option Nat
  emergency : Option Int
  alert : Option Int
  voice : Option Int
  background : Option Int
  deriving DecidableEq, Repr

/-- A class offset: -64 to 64 (R151). -/
def offsetOf (v : Nat) : Option Int := if -64 ≤ signedOf v ∧ signedOf v ≤ 64 then some (signedOf v) else none

/-- The range checks of SET_SYSTEM: D 3 to 6 (R22), attendant (R15), park time (R100), guard interval (R131), CP (R140) and
class offsets (R151). -/
def RawSystem.fields (q : RawSystem) : Option SystemFields := do
  let width ← presentOf (stepped 3 6 1) q.width
  let attendant ← presentOf (finOrNone 512 65535) q.attendant
  let park ← presentOf (stepped 30 600 1) q.park
  let guard ← presentOf (stepped 0 150 10) q.guard
  let period ← presentOf (stepped 100 1000 10) q.period
  let emergency ← presentOf offsetOf q.emergency
  let alert ← presentOf offsetOf q.alert
  let voice ← presentOf offsetOf q.voice
  let background ← presentOf offsetOf q.background
  if q.mask < 2 ^ 9 then
    some { width, attendant, park, guard, period, emergency, alert, voice, background }
  else none

/-- The working configuration with the present fields of a SET_SYSTEM written. -/
def SystemFields.write (f : SystemFields) (c : WorkingConfig) : WorkingConfig :=
  { c with
    digitWidth := f.width.getD c.digitWidth
    attendant := f.attendant.getD c.attendant
    parkTime := f.park.getD c.parkTime
    guardInterval := f.guard.getD c.guardInterval
    chimePeriod := f.period.getD c.chimePeriod
    offsets :=
      { emergency := f.emergency.getD c.offsets.emergency
        alert := f.alert.getD c.offsets.alert
        voice := f.voice.getD c.offsets.voice
        background := f.background.getD c.offsets.background } }

/-- SET_SYSTEM: the ranges, then the D rule, then the writes (R22, R181). -/
def handleSetSystem (body : List Octet) (s : State) : Handled :=
  withBody readSystem body s fun q =>
    unlessSaving s <|
      orBadValue s q.fields fun f =>
        if f.width.isSome ∧ s.cfg.directory ≠ [] then refuse s .notEmpty else accept (s.updCfg f.write) []

/-- SET_SYSTEM is dispatched. -/
def execSetSystem (tag : Octet) (body : List Octet) (s : State) : Host.Outcome State Fault Refusal :=
  dispatch .setSystem { kind := 0x30, tag := tag, body := body } (handleSetSystem body) s

/-! ## SET_DIR (R21) -/

/-- The body of SET_DIR: operation, number, kind, target (R171). -/
def readSetDir : Reader (Nat × List Nat × Nat × Nat) := do
  let op ← readOctet
  let number ← readDigits
  let kind ← readOctet
  let target ← readWide
  pure (op, number, kind, target)

/-- Whether a number in an edit is good: exactly D digits, each 0 to 9 (R21). -/
def exactNumber (s : State) (d : List Nat) : Bool := decide (d.length = s.cfg.digitWidth) && d.all (· ≤ 9)

/-- Whether an entry already names the pilot's group or the orbit of a new entry (R21 check 2). -/
def targetTaken (s : State) (t : DirTarget) : Bool :=
  match t with
  | .station _ => false
  | .pilot _ | .orbit _ => s.cfg.directory.any fun e => decide (e.target = t)

/-- Whether the directory holds a number. -/
def numberHeld (s : State) (d : List Nat) : Bool := s.cfg.directory.any fun e => decide (e.number = d)

/-- SET_DIR with the operation ADD, or with an operation of neither kind (R21). -/
def handleSetDirAdd (body : List Octet) (s : State) : Handled :=
  withBody readSetDir body s fun (op, number, kind, target) =>
    unlessSaving s <|
      orBadUnless s (decide (op = 0) && exactNumber s number) <|
        orBadValue s (dirTargetOf kind target) fun t =>
          if numberHeld s number ∨ targetTaken s t then refuse s .duplicate
          else if Config.directoryEntries ≤ s.cfg.directory.length then refuse s .full
          else accept (s.updCfg fun c => { c with directory := c.directory ++ [{ number := number, target := t }] }) []

/-- SET_DIR ADD is dispatched. -/
def execSetDirAdd (tag : Octet) (body : List Octet) (s : State) : Host.Outcome State Fault Refusal :=
  dispatch .setDirAdd { kind := 0x31, tag := tag, body := body } (handleSetDirAdd body) s

/-- SET_DIR with the operation REMOVE; its kind and target are not read (R21, R171). -/
def handleSetDirRemove (body : List Octet) (s : State) : Handled :=
  withBody readSetDir body s fun (_, number, _, _) =>
    unlessSaving s <|
      orBadUnless s (exactNumber s number) <|
        if numberHeld s number then
          accept (s.updCfg fun c => { c with directory := c.directory.filter fun e => decide (e.number ≠ number) }) []
        else refuse s .unknown

/-- SET_DIR REMOVE is dispatched. -/
def execSetDirRemove (tag : Octet) (body : List Octet) (s : State) : Host.Outcome State Fault Refusal :=
  dispatch .setDirRemove { kind := 0x31, tag := tag, body := body } (handleSetDirRemove body) s

/-! ## SET_STATION (R1, R3, R182) -/

/-- The octets of a SET_STATION body. -/
structure RawStation where
  first : Nat
  last : Nat
  mask : Nat
  inUse : Option Nat
  pickupGroup : Option Nat
  searchList : Option Nat
  override : Option Nat
  directAny : Option Nat
  classLimit : Option Nat
  mapSet : Option Nat
  deriving DecidableEq, Repr

/-- The body of SET_STATION (R171). -/
def readSetStation : Reader RawStation := do
  let first ← readWide
  let last ← readWide
  let mask ← readOctet
  let inUse ← readIf mask 0 readOctet
  let pickupGroup ← readIf mask 1 readOctet
  let searchList ← readIf mask 2 readOctet
  let override ← readIf mask 3 readOctet
  let directAny ← readIf mask 4 readOctet
  let classLimit ← readIf mask 5 readOctet
  let mapSet ← readIf mask 6 readOctet
  pure { first, last, mask, inUse, pickupGroup, searchList, override, directAny, classLimit, mapSet }

/-- The fields of a SET_STATION request in range. -/
structure StationFields where
  inUse : Option Bool
  pickupGroup : Option (Option PickupGroup)
  searchList : Option (Option ListId)
  override : Option Bool
  directAny : Option Bool
  classLimit : Option PageClass
  mapSet : Option MapSetId
  deriving DecidableEq, Repr

/-- The range checks of SET_STATION (R1). -/
def RawStation.fields (q : RawStation) : Option StationFields := do
  let inUse ← presentOf flagOf q.inUse
  let pickupGroup ← presentOf (finOrNone 64 255) q.pickupGroup
  let searchList ← presentOf (finOrNone 16 255) q.searchList
  let override ← presentOf flagOf q.override
  let directAny ← presentOf flagOf q.directAny
  let classLimit ← presentOf classOf q.classLimit
  let mapSet ← presentOf (finOf 4) q.mapSet
  if q.mask < 2 ^ 7 then some { inUse, pickupGroup, searchList, override, directAny, classLimit, mapSet } else none

/-- A station's configuration with the present fields written. -/
def StationFields.write (f : StationFields) (c : StationCfg) : StationCfg :=
  { inUse := f.inUse.getD c.inUse
    pickupGroup := f.pickupGroup.getD c.pickupGroup
    searchList := f.searchList.getD c.searchList
    override := f.override.getD c.override
    directAny := f.directAny.getD c.directAny
    classLimit := f.classLimit.getD c.classLimit
    defaultMapSet := f.mapSet.getD c.defaultMapSet }

/-- Whether a range of stations passes the addressing check: first not above last, last not above 511 (R182). -/
def goodRange (first last : Nat) : Bool := decide (first ≤ last) && decide (last ≤ 511)

/-- The stations of a range, ascending. -/
def stationsIn (first last : Nat) : List StationId :=
  (List.finRange 512).filter fun i => decide (first ≤ i.val) && decide (i.val ≤ last)

namespace State

/-- Write the configuration of the stations of a range (R182, first pass). -/
def writeStations (s : State) (first last : Nat) (f : StationCfg → StationCfg) : State :=
  s.updCfg fun c =>
    { c with
      stations := c.stations.mapFinIdx fun i x _ => if first ≤ i ∧ i ≤ last then f x else x }

/-- A station is brought into use from UNUSED (R3). -/
def bringIntoUse (s : State) (i : StationId) : State :=
  if (s.station i).state = .unused then (s.enterFreshIdle i).availability i else s

/-- A station is taken out of use: its ring or its page is left, and it enters UNUSED (R3). -/
def takeOutOfUse (s : State) (i : StationId) : State :=
  match (s.station i).state with
  | .unused => s
  | .ringing h => s.leaveRing i h .unused
  | .outOfService => s.enterState i .unused
  | .idle => s.enterState i .unused
  | .busy => s.enterState i .unused
  | .pageListen _ => s.enterState i .unused

/-- The live effect of a written "in use" on one station (R3). -/
def applyInUse (inUse : Bool) (s : State) (i : StationId) : State := if inUse then s.bringIntoUse i else s.takeOutOfUse i

end State

/-- An accepted SET_STATION: every field written, then the live effects in ascending order (R182). -/
def acceptSetStation (s : State) (first last : Nat) (f : StationFields) : State :=
  let s1 := s.writeStations first last f.write
  match f.inUse with
  | none => s1
  | some b => (stationsIn first last).foldl (State.applyInUse b) s1

/-- SET_STATION (R181, R182). -/
def handleSetStation (body : List Octet) (s : State) : Handled :=
  withBody readSetStation body s fun q =>
    unlessSaving s <|
      orBadUnless s (goodRange q.first q.last) <|
        orBadValue s q.fields fun f => accept (acceptSetStation s q.first q.last f) []

/-- SET_STATION is dispatched. -/
def execSetStation (tag : Octet) (body : List Octet) (s : State) : Host.Outcome State Fault Refusal :=
  dispatch .setStation { kind := 0x32, tag := tag, body := body } (handleSetStation body) s

/-! ## SET_PICKUP (R88) -/

/-- The body of SET_PICKUP: first station, last station, pickup group (R171). -/
def readSetPickup : Reader (Nat × Nat × Nat) := do
  let first ← readWide
  let last ← readWide
  let group ← readOctet
  pure (first, last, group)

/-- SET_PICKUP (R88). -/
def handleSetPickup (body : List Octet) (s : State) : Handled :=
  withBody readSetPickup body s fun (first, last, group) =>
    unlessSaving s <|
      orBadUnless s (goodRange first last) <|
        orBadValue s (finOrNone 64 255 group) fun g =>
          accept (s.writeStations first last fun c => { c with pickupGroup := g }) []

/-- SET_PICKUP is dispatched. -/
def execSetPickup (tag : Octet) (body : List Octet) (s : State) : Host.Outcome State Fault Refusal :=
  dispatch .setPickup { kind := 0x35, tag := tag, body := body } (handleSetPickup body) s

/-! ## SET_LIST (R89) -/

/-- One entry of a SET_LIST body: kind, number, enabled flag (R171). -/
def readSearchEntry : Reader (Nat × Nat × Nat) := do
  let kind ← readOctet
  let n ← readOctet
  let flag ← readOctet
  pure (kind, n, flag)

/-- The body of SET_LIST: list number, entry count, entries (R171). -/
def readSetList : Reader (Nat × List (Nat × Nat × Nat)) := do
  let l ← readOctet
  let es ← readCounted readSearchEntry
  pure (l, es)

/-- SET_LIST (R89). -/
def handleSetList (body : List Octet) (s : State) : Handled :=
  withBody readSetList body s fun (l, raw) =>
    unlessSaving s <|
      orBadValue s (finOf 16 l) fun l =>
        orBadUnless s (decide (raw.length ≤ 8)) <|
          orBadValue s (allOf (fun (k, n, f) => searchEntryOf k n f) raw) fun es =>
            if (es.map SearchEntry.key).Nodup then
              accept (s.updCfg fun c => { c with lists := c.lists.set l.val es l.isLt }) []
            else refuse s .duplicate

/-- SET_LIST is dispatched. -/
def execSetList (tag : Octet) (body : List Octet) (s : State) : Host.Outcome State Fault Refusal :=
  dispatch .setList { kind := 0x36, tag := tag, body := body } (handleSetList body) s

/-! ## SET_MAP (R110, R111) -/

/-- The octets of a SET_MAP body. -/
structure RawMap where
  mapSet : Nat
  zone : Nat
  valid : Nat
  outputs : Nat
  reserved : Nat
  desks : List Nat
  deriving DecidableEq, Repr

/-- The body of SET_MAP (R171). -/
def readSetMap : Reader RawMap := do
  let mapSet ← readOctet
  let zone ← readOctet
  let valid ← readOctet
  let outputs ← readWide
  let reserved ← readOctet
  let desks ← readCounted readWide
  pure { mapSet, zone, valid, outputs, reserved, desks }

/-- The entry of a SET_MAP request in range, with its place (R110 check 1). -/
def RawMap.entry (q : RawMap) : Option (MapSetId × ZoneId × ZoneEntry) := do
  let m ← finOf 4 q.mapSet
  let z ← finOf 32 q.zone
  let valid ← flagOf q.valid
  let reserved ← flagOf q.reserved
  let desks ← allOf (finOf 512) q.desks
  if desks.length ≤ 8 ∧ ¬ (valid = true ∧ q.outputs = 0) then
    some (m, z, { valid := valid, outputs := BitVec.ofNat 16 q.outputs, desks := desks, reserved := reserved })
  else none

/-- Whether a page in use whose class is not EMERGENCY names the zone (R110 check 3, R111). -/
def zoneInLesserUse (s : State) (m : MapSetId) (z : ZoneId) : Bool :=
  s.pagesInUse.any fun p =>
    (s.page p).any fun pg => decide (pg.cls ≠ .emergency) && decide (pg.mapSet = m) && pg.zones.contains z

/-- SET_MAP (R110). -/
def handleSetMap (body : List Octet) (s : State) : Handled :=
  withBody readSetMap body s fun q =>
    unlessSaving s <|
      orBadValue s q.entry fun (m, z, e) =>
        if ¬ e.desks.Nodup then refuse s .duplicate
        else if e.valid = true ∧ e.reserved = true ∧ zoneInLesserUse s m z = true then refuse s .refusedState
        else accept (s.updCfg fun c => { c with maps := c.maps.set m.val ((c.maps[m]).set z.val e z.isLt) m.isLt }) []

/-- SET_MAP is dispatched. -/
def execSetMap (tag : Octet) (body : List Octet) (s : State) : Host.Outcome State Fault Refusal :=
  dispatch .setMap { kind := 0x37, tag := tag, body := body } (handleSetMap body) s

/-! ## SET_OUTPUT (R148 to R150, R182) -/

/-- The octets of a SET_OUTPUT body. -/
structure RawOutput where
  outputs : Nat
  mask : Nat
  gt : Option Nat
  gmin : Option Nat
  gmax : Option Nat
  gceil : Option Nat
  stepSize : Option Nat
  ut : Option Nat
  lt : Option Nat
  ct : Option Nat
  window : Option Nat
  settle : Option Nat
  hold : Option Nat
  deriving DecidableEq, Repr

/-- The body of SET_OUTPUT (R171). -/
def readSetOutput : Reader RawOutput := do
  let outputs ← readWide
  let mask ← readWide
  let gt ← readIf mask 0 readOctet
  let gmin ← readIf mask 1 readOctet
  let gmax ← readIf mask 2 readOctet
  let gceil ← readIf mask 3 readOctet
  let stepSize ← readIf mask 4 readOctet
  let ut ← readIf mask 5 readWide
  let lt ← readIf mask 6 readWide
  let ct ← readIf mask 7 readWide
  let window ← readIf mask 8 readWide
  let settle ← readIf mask 9 readOctet
  let hold ← readIf mask 10 readOctet
  pure { outputs, mask, gt, gmin, gmax, gceil, stepSize, ut, lt, ct, window, settle, hold }

/-- The fields of a SET_OUTPUT request in range. -/
structure OutputFields where
  gt : Option Nat
  gmin : Option Nat
  gmax : Option Nat
  gceil : Option Nat
  stepSize : Option Nat
  ut : Option Nat
  lt : Option Nat
  ct : Option Nat
  window : Option Nat
  settle : Option Bool
  hold : Option Bool
  deriving DecidableEq, Repr

/-- The range checks of SET_OUTPUT (R147, R148 check 1). -/
def RawOutput.fields (q : RawOutput) : Option OutputFields := do
  let gt ← presentOf (stepped 0 255 1) q.gt
  let gmin ← presentOf (stepped 0 255 1) q.gmin
  let gmax ← presentOf (stepped 0 255 1) q.gmax
  let gceil ← presentOf (stepped 0 255 1) q.gceil
  let stepSize ← presentOf (stepped 1 32 1) q.stepSize
  let ut ← presentOf (stepped 0 4095 1) q.ut
  let lt ← presentOf (stepped 0 4095 1) q.lt
  let ct ← presentOf (stepped 0 1000 1) q.ct
  let window ← presentOf (stepped 250 4000 250) q.window
  let settle ← presentOf flagOf q.settle
  let hold ← presentOf flagOf q.hold
  if q.mask < 2 ^ 11 then
    some { gt, gmin, gmax, gceil, stepSize, ut, lt, ct, window, settle, hold }
  else none

/-- An output's configuration with the present fields written. -/
def OutputFields.write (f : OutputFields) (c : OutputCfg) : OutputCfg :=
  { gmin := f.gmin.getD c.gmin
    gmax := f.gmax.getD c.gmax
    gceil := f.gceil.getD c.gceil
    stepSize := f.stepSize.getD c.stepSize
    ut := f.ut.getD c.ut
    lt := f.lt.getD c.lt
    ct := f.ct.getD c.ct
    window := f.window.getD c.window
    settle := f.settle.getD c.settle
    hold := f.hold.getD c.hold }

/-- Whether an output's values fit together: LT below UT, Gmin not above Gmax (R148 check 2). -/
def OutputCfg.fits (c : OutputCfg) : Bool := decide (c.lt < c.ut) && decide (c.gmin ≤ c.gmax)

/-- Whether the fields present restart the window (R149). -/
def OutputFields.restarts (f : OutputFields) : Bool :=
  f.gmin.isSome || f.gmax.isSome || f.gt.isSome || f.ut.isSome || f.lt.isSome || f.window.isSome || f.hold.isSome

/-- GT after the edit: clamped into the limits when one of them is present, then the value written, clamped (R149). -/
def OutputFields.gain (f : OutputFields) (c : OutputCfg) (gt : Nat) : Nat :=
  let g := if f.gmin.isSome ∨ f.gmax.isSome then State.clampNat c.gmin c.gmax gt else gt
  match f.gt with
  | none => g
  | some v => State.clampNat c.gmin c.gmax v

/-- The live effects of SET_OUTPUT on one output, in the order of R149; `c` is the output's configuration as written. -/
def OutputFields.live (f : OutputFields) (now : Time) (c : OutputCfg) (x : Output) : Output :=
  let y := { x with gt := f.gain c x.gt }
  if f.restarts then State.restartWindow now y else y

/-- An accepted SET_OUTPUT: every field written, then the live effects in ascending order (R182). -/
def acceptSetOutput (s : State) (m : OutputSet) (f : OutputFields) : State :=
  let s1 := s.updCfg fun c =>
    { c with outputs := c.outputs.mapFinIdx fun i x _ => if m.getLsbD i then f.write x else x }
  (outputsOf m).foldl (fun s o => s.updOutput o (f.live s.now (s.outputCfg o))) s1

/-- SET_OUTPUT (R148, R181, R182). -/
def handleSetOutput (body : List Octet) (s : State) : Handled :=
  withBody readSetOutput body s fun q =>
    unlessSaving s <|
      orBadUnless s (decide (q.outputs ≠ 0)) <|
        orBadValue s q.fields fun f =>
          let m := BitVec.ofNat 16 q.outputs
          orBadUnless s ((outputsOf m).all fun o => (f.write (s.outputCfg o)).fits) <|
            accept (acceptSetOutput s m f) []

/-- SET_OUTPUT is dispatched. -/
def execSetOutput (tag : Octet) (body : List Octet) (s : State) : Host.Outcome State Fault Refusal :=
  dispatch .setOutput { kind := 0x38, tag := tag, body := body } (handleSetOutput body) s

/-! ## SET_CHIME (R140) -/

/-- The body of SET_CHIME: pattern, ON_p, N_p (R171). -/
def readSetChime : Reader (Nat × Nat × Nat) := do
  let p ← readOctet
  let on ← readWide
  let n ← readOctet
  pure (p, on, n)

/-- SET_CHIME (R140). -/
def handleSetChime (body : List Octet) (s : State) : Handled :=
  withBody readSetChime body s fun (p, on, n) =>
    unlessSaving s <|
      orBadValue s (finOf 8 p) fun p =>
        orBadValue s (stepped 0 1000 10 on) fun on =>
          orBadValue s (stepped 1 8 1 n) fun n =>
            accept (s.updCfg fun c => { c with patterns := c.patterns.set p.val { on := on, repeats := n } p.isLt }) []

/-- SET_CHIME is dispatched. -/
def execSetChime (tag : Octet) (body : List Octet) (s : State) : Host.Outcome State Fault Refusal :=
  dispatch .setChime { kind := 0x39, tag := tag, body := body } (handleSetChime body) s

end Sys2Proof.Machine
end

