-- ==== Sys2Proof/Machine/GroupCommands.lean ====
section
/-! DEFINITION. The edits of hunt groups: SET_GROUP (R64, R72 to R74, R86, R182) and SET_MEMBERS (R45, R61 to R63). -/

namespace Sys2Proof.Machine

/-! ## SET_GROUP -/

/-- The octets of a SET_GROUP body. -/
structure RawGroup where
  groups : Nat
  mask : Nat
  enabled : Option Nat
  algorithm : Option Nat
  noAnswer : Option Nat
  queueLimit : Option Nat
  maxWait : Option Nat
  target : Option (Nat × Nat)
  escDelay : Option Nat
  escZones : Option (Nat × List Nat)
  chime : Option Nat
  repeatInterval : Option Nat
  deriving DecidableEq, Repr

/-- A target of 3 octets (R166). -/
def readTarget : Reader (Nat × Nat) := do
  let code ← readOctet
  let v ← readWide
  pure (code, v)

/-- The escalation zones field: map set, zone count, zones (R171). -/
def readZones : Reader (Nat × List Nat) := do
  let m ← readOctet
  let zs ← readCounted readOctet
  pure (m, zs)

/-- The body of SET_GROUP (R171). -/
def readSetGroup : Reader RawGroup := do
  let groups ← readNumber 4 0
  let mask ← readWide
  let enabled ← readIf mask 0 readOctet
  let algorithm ← readIf mask 1 readOctet
  let noAnswer ← readIf mask 2 readOctet
  let queueLimit ← readIf mask 3 readOctet
  let maxWait ← readIf mask 4 readWide
  let target ← readIf mask 5 readTarget
  let escDelay ← readIf mask 6 readWide
  let escZones ← readIf mask 7 readZones
  let chime ← readIf mask 8 readOctet
  let repeatInterval ← readIf mask 9 readOctet
  pure { groups, mask, enabled, algorithm, noAnswer, queueLimit, maxWait, target, escDelay, escZones, chime, repeatInterval }

/-- The fields of a SET_GROUP request in range. -/
structure GroupFields where
  enabled : Option Bool
  algorithm : Option Algorithm
  noAnswer : Option Nat
  queueLimit : Option Nat
  maxWait : Option Nat
  target : Option Target
  escDelay : Option Nat
  escZones : Option (MapSetId × List ZoneId)
  chime : Option PatternId
  repeatInterval : Option Nat
  deriving DecidableEq, Repr

/-- The escalation zones in range: a map set, and 0 to 4 zones (R86). DESIGN CHOICE (log entry 29): a zone named twice is kept as
carried and counts twice toward the 4; the rule that it counts once (R114) is given for PAGE alone. -/
def escZonesOf (q : Nat × List Nat) : Option (MapSetId × List ZoneId) := do
  let m ← finOf 4 q.1
  let zs ← allOf (finOf 32) q.2
  if zs.length ≤ 4 then some (m, zs) else none

/-- The range checks of SET_GROUP (R42, R64, R72, R73, R86). -/
def RawGroup.fields (q : RawGroup) : Option GroupFields := do
  let enabled ← presentOf flagOf q.enabled
  let algorithm ← presentOf algorithmOf q.algorithm
  let noAnswer ← presentOf (stepped 5 60 1) q.noAnswer
  let queueLimit ← presentOf (stepped 0 24 1) q.queueLimit
  let maxWait ← presentOf (zeroOr 10 900) q.maxWait
  let target ← presentOf (fun t => targetOf t.1 t.2) q.target
  let escDelay ← presentOf (zeroOr 10 600) q.escDelay
  let escZones ← presentOf escZonesOf q.escZones
  let chime ← presentOf (finOf 8) q.chime
  let repeatInterval ← presentOf (stepped 10 120 1) q.repeatInterval
  if q.mask < 2 ^ 10 then
    some { enabled, algorithm, noAnswer, queueLimit, maxWait, target, escDelay, escZones, chime, repeatInterval }
  else none

/-- A group's configuration with the present fields written. -/
def GroupFields.write (f : GroupFields) (c : GroupCfg) : GroupCfg :=
  { enabled := f.enabled.getD c.enabled
    algorithm := f.algorithm.getD c.algorithm
    members := c.members
    noAnswer := f.noAnswer.getD c.noAnswer
    queueLimit := f.queueLimit.getD c.queueLimit
    maxWait := f.maxWait.getD c.maxWait
    target := f.target.getD c.target
    escDelay := f.escDelay.getD c.escDelay
    escMapSet := (f.escZones.map Prod.fst).getD c.escMapSet
    escZones := (f.escZones.map Prod.snd).getD c.escZones
    chime := f.chime.getD c.chime
    repeatInterval := f.repeatInterval.getD c.repeatInterval }

/-- The groups of a mask, ascending. -/
def groupsIn (mask : Nat) : List GroupId := (List.finRange 32).filter fun g => mask.testBit g.val

namespace State

/-! ### Disabling a group (R74) -/

/-- The calls that ring for a group, in the order a disable moves them: oldest arrival first, then the lower handle (R74). -/
def offeringAt (s : State) (g : GroupId) : List Handle :=
  (sortBy
    (fun a b =>
      if s.arrivalAge a ≠ s.arrivalAge b then decide (s.arrivalAge b < s.arrivalAge a) else decide (a.handle < b.handle))
    (s.calls.filter fun c => decide (c.state = .offering) && decide (c.currentGroup = some g))).map Call.handle

/-- The queued calls of a group that is disabled overflow, head to tail (R74). -/
def overflowQueue (s : State) (g : GroupId) : State :=
  (s.group g).queue.foldl (fun s h => s.overflowMove h g .groupDisabled) s

/-- The calls ringing for a group that is disabled overflow one by one; their stations' availability events are handed over
after the last call has been moved, in the order the stations were freed (R74). -/
def overflowOffers (s : State) (g : GroupId) : State :=
  let hs := s.offeringAt g
  (hs.foldl (fun s h => s.overflowMove h g .groupDisabled) s).availAll (hs.flatMap s.ringingFor)

/-- A group that has become disabled loses its calls (R74). -/
def disableGroup (s : State) (g : GroupId) : State := (s.overflowQueue g).overflowOffers g

/-! ### Lowering the queue limit (R72) -/

/-- The tail call overflows LIMIT_LOWERED until the queue holds as many calls as the limit, for at most `n` calls (R72). -/
def lowerLimit : Nat → GroupId → State → State
  | 0, _, s => s
  | n + 1, g, s =>
    if (s.groupCfg g).queueLimit < (s.group g).queue.length then
      match (s.group g).queue.getLast? with
      | some h => lowerLimit n g (s.overflow h g .limitLowered)
      | none => s
    else s

/-! ### Changing the escalation delay (R86) -/

/-- A queued call of the group under a new delay: a fresh deadline from its queue entry time, or the flag at once. -/
def redelayed (s : State) (delay : Nat) (c : Call) : Call :=
  if c.escalated then c
  else if seconds delay ≤ s.queueAge c then { c with escalated := true, escDeadline := none }
  else { c with escDeadline := c.queueEntry.map fun t => later t (seconds delay) }

/-- The escalation delay becomes 10 to 600 s: each queued call takes a new deadline or its flag, and escalation may start
(R86). -/
def delaySet (s : State) (g : GroupId) (delay : Nat) : State :=
  let s1 := (s.group g).queue.foldl (fun s h => s.updCall h (s.redelayed delay)) s
  if s1.inEscalation g && !s.inEscalation g then s1.escalationStart g else s1

/-- The escalation delay becomes 0: deadlines and flags of the group's calls are cleared, and its escalation with them
(R86). -/
def delayCleared (s : State) (g : GroupId) : State :=
  let s1 : State :=
    { s with
      calls := s.calls.map fun c =>
        if c.currentGroup = some g ∧ (c.state = .queued ∨ c.state = .offering) then
          { c with escalated := false, escDeadline := none }
        else c }
  if s.inEscalation g then s1.escalationClear g else s1

end State

/-- The live effects of a SET_GROUP on one group: disabling, then the queue limit, then the escalation delay (R72, R74, R86;
log entry 11). `wasEnabled`: the group was enabled before the edit. -/
def GroupFields.live (f : GroupFields) (wasEnabled : Bool) (s : State) (g : GroupId) : State :=
  let s1 := if wasEnabled = true ∧ f.enabled = some false then s.disableGroup g else s
  let s2 := if f.queueLimit.isSome then State.lowerLimit (s1.group g).queue.length g s1 else s1
  match f.escDelay with
  | none => s2
  | some 0 => s2.delayCleared g
  | some (d + 1) => s2.delaySet g (d + 1)

/-- An accepted SET_GROUP: every field written, then the live effects in ascending order (R182). -/
def acceptSetGroup (s : State) (mask : Nat) (f : GroupFields) : State :=
  let s1 := s.updCfg fun c =>
    { c with groups := c.groups.mapFinIdx fun i x _ => if mask.testBit i then f.write x else x }
  (groupsIn mask).foldl (fun t g => f.live (s.groupCfg g).enabled t g) s1

/-- SET_GROUP (R181, R182). -/
def handleSetGroup (body : List Octet) (s : State) : Handled :=
  withBody readSetGroup body s fun q =>
    unlessSaving s <|
      orBadUnless s (decide (q.groups ≠ 0)) <|
        orBadValue s q.fields fun f => accept (acceptSetGroup s q.groups f) []

/-- SET_GROUP is dispatched. -/
def execSetGroup (tag : Octet) (body : List Octet) (s : State) : Host.Outcome State Fault Refusal :=
  dispatch .setGroup { kind := 0x33, tag := tag, body := body } (handleSetGroup body) s

/-! ## SET_MEMBERS -/

/-- The body of SET_MEMBERS: group, operation, station, position, logged-in flag (R171). -/
def readSetMembers : Reader (Nat × Nat × Nat × Nat × Nat) := do
  let g ← readOctet
  let op ← readOctet
  let i ← readWide
  let pos ← readOctet
  let flag ← readOctet
  pure (g, op, i, pos, flag)

namespace State

/-- Change the member list of a group. -/
def updMembers (s : State) (g : GroupId) (f : List Member → List Member) : State :=
  s.updCfg fun c =>
    { c with groups := c.groups.set g.val { c.groups[g] with members := f c.groups[g].members } g.isLt }

/-- Whether a station is a member of a group. -/
def isMember (s : State) (g : GroupId) (i : StationId) : Bool := (s.groupCfg g).members.any fun m => m.station == i

/-- The number of member lists that hold a station (R44). -/
def listsWith (s : State) (i : StationId) : Nat := (List.finRange 32).countP fun g => s.isMember g i

/-- The entries of all member lists together (R44). -/
def memberCount (s : State) : Nat := ((List.finRange 32).map fun g => (s.groupCfg g).members.length).sum

/-- Whether the limits of R44 leave no room for the station in the group's list (R45 check 3). -/
def membersFull (s : State) (g : GroupId) (i : StationId) : Bool :=
  decide (Config.groupMembers ≤ (s.groupCfg g).members.length) || decide (Config.stationGroups ≤ s.listsWith i) ||
    decide (Config.memberEntries ≤ s.memberCount)

/-- A station's ring for a call of the group is cancelled: it becomes IDLE and the call rings on or proceeds as on no-answer,
with the availability event after it (R55, R61 steps 3 and 4, R62). -/
def cancelGroupRing (s : State) (g : GroupId) (i : StationId) : State :=
  match (s.station i).state with
  | .ringing h => if (s.findCall h).any (fun c => decide (c.currentGroup = some g)) then s.leaveRing i h .idle else s
  | _ => s

/-- A station leaves the tried set of every call of the group, queued or offering (R61 step 2). -/
def untry (s : State) (g : GroupId) (i : StationId) : State :=
  { s with
    calls := s.calls.map fun c =>
      if c.currentGroup = some g ∧ (c.state = .queued ∨ c.state = .offering) then
        { c with tried := c.tried.filter fun k => !(k == i) }
      else c }

end State

/-- The cursor after the member `i` is removed from the list `ms` (R50). -/
def cursorAfter (ms : List Member) (i : StationId) (cursor : Option StationId) : Option StationId :=
  if cursor = some i then
    let before := ms.takeWhile fun m => !(m.station == i)
    let left := ms.filter fun m => !(m.station == i)
    match before.getLast? with
    | some m => some m.station
    | none => left.getLast?.map Member.station
  else cursor

/-- An accepted ADD (R45, R63). -/
def acceptAdd (s : State) (g : GroupId) (i : StationId) (pos : Nat) (flag : Bool) : State :=
  let s1 := s.updMembers g fun ms => ms.take pos ++ { station := i, loggedIn := flag } :: ms.drop pos
  if flag then s1.availability i else s1

/-- An accepted REMOVE (R61). -/
def acceptRemove (s : State) (g : GroupId) (i : StationId) : State :=
  let s1 := s.updGroup g fun x => { x with cursor := cursorAfter (s.groupCfg g).members i x.cursor }
  let s2 := s1.updMembers g fun ms => ms.filter fun m => !(m.station == i)
  (s2.untry g i).cancelGroupRing g i

/-- Set the logged-in flag of a member. -/
def setLoggedIn (i : StationId) (flag : Bool) (ms : List Member) : List Member :=
  ms.map fun m => if m.station == i then { m with loggedIn := flag } else m

/-- Whether a member of the group is logged in. -/
def isLoggedIn (s : State) (g : GroupId) (i : StationId) : Bool :=
  (s.groupCfg g).members.any fun m => m.station == i && m.loggedIn

/-- An accepted LOGIN: an availability event follows a change of the flag (R45, R63). -/
def acceptLogin (s : State) (g : GroupId) (i : StationId) : State :=
  if isLoggedIn s g i then s else (s.updMembers g (setLoggedIn i true)).availability i

/-- An accepted LOGOUT: a ring for the group is cancelled (R45, R62). -/
def acceptLogout (s : State) (g : GroupId) (i : StationId) : State :=
  if isLoggedIn s g i then (s.updMembers g (setLoggedIn i false)).cancelGroupRing g i else s

/-- The checks of a REMOVE, LOGIN or LOGOUT (R45 checks 1 and 4), and its effect. -/
def handleMember (effect : State → GroupId → StationId → State) (body : List Octet) (s : State) : Handled :=
  withBody readSetMembers body s fun (g, _, i, _, _) =>
    unlessSaving s <|
      orBadValue s (finOf 32 g) fun g =>
        orBadValue s (finOf 512 i) fun i => if s.isMember g i then accept (effect s g i) [] else refuse s .unknown

/-- SET_MEMBERS with the operation ADD, or with no operation of the four (R45). -/
def handleSetMembersAdd (body : List Octet) (s : State) : Handled :=
  withBody readSetMembers body s fun (g, op, i, pos, flag) =>
    unlessSaving s <|
      orBadValue s (finOf 32 g) fun g =>
        orBadValue s (finOf 512 i) fun i =>
          orBadValue s (flagOf flag) fun flag =>
            orBadUnless s (decide (op = 0) && decide (pos ≤ (s.groupCfg g).members.length)) <|
              if s.isMember g i then refuse s .duplicate
              else if s.membersFull g i then refuse s .full
              else accept (acceptAdd s g i pos flag) []

/-- SET_MEMBERS ADD is dispatched. -/
def execSetMembersAdd (tag : Octet) (body : List Octet) (s : State) : Host.Outcome State Fault Refusal :=
  dispatch .setMembersAdd { kind := 0x34, tag := tag, body := body } (handleSetMembersAdd body) s

/-- SET_MEMBERS REMOVE is dispatched. -/
def execSetMembersRemove (tag : Octet) (body : List Octet) (s : State) : Host.Outcome State Fault Refusal :=
  dispatch .setMembersRemove { kind := 0x34, tag := tag, body := body } (handleMember acceptRemove body) s

/-- SET_MEMBERS LOGIN is dispatched. -/
def execSetMembersLogin (tag : Octet) (body : List Octet) (s : State) : Host.Outcome State Fault Refusal :=
  dispatch .setMembersLogin { kind := 0x34, tag := tag, body := body } (handleMember acceptLogin body) s

/-- SET_MEMBERS LOGOUT is dispatched. -/
def execSetMembersLogout (tag : Octet) (body : List Octet) (s : State) : Host.Outcome State Fault Refusal :=
  dispatch .setMembersLogout { kind := 0x34, tag := tag, body := body } (handleMember acceptLogout body) s

end Sys2Proof.Machine
end

