-- ==== Sys2Proof/Machine/PageCommands.lean ====
section
/-! DEFINITION. The page requests PAGE and PAGE_END (chapter 6). -/

namespace Sys2Proof.Machine

/-- The octets of a PAGE body, as numbers. -/
structure RawPage where
  requester : Nat
  cls : Nat
  source : Nat
  pre : Nat
  mapSet : Nat
  mode : Nat
  wait : Nat
  zones : List Nat
  deriving DecidableEq, Repr

/-- The body of PAGE (R171). -/
def readPage : Reader RawPage := do
  let requester ← readWide
  let cls ← readOctet
  let source ← readOctet
  let pre ← readOctet
  let mapSet ← readOctet
  let mode ← readOctet
  let wait ← readOctet
  let zones ← readCounted readOctet
  pure { requester, cls, source, pre, mapSet, mode, wait, zones }

/-- The fields of a PAGE request in range (R114). -/
structure PageFields where
  requester : StationId
  cls : PageClass
  source : Source
  pre : Option PatternId
  mapSet : Option MapSetId
  mode : PageMode
  wait : Option Nat
  zones : List ZoneId
  deriving DecidableEq, Repr

/-- A wait limit: 0 to 120 s, or 255 for UNLIMITED (R114, R171). -/
def waitLimitOf (v : Nat) : Option (Option Nat) := if v = 255 then some none else if v ≤ 120 then some (some v) else none

/-- Whether a pre-announce is in range for the source: none for a chime source (R114). -/
def preFits (pre : Option PatternId) : Source → Bool
  | .input _ => true
  | .chime _ => pre.isNone

/-- The range checks of PAGE: none when a field is out of range. A zone named twice counts once (R114); the count of zones is checked
as the body carries it (R171; DEDUCED, log entry 28). -/
def RawPage.fields (q : RawPage) : Option PageFields := do
  let requester ← finOf 512 q.requester
  let cls ← classOf q.cls
  let source ← sourceOf q.source
  let pre ← finOrNone 8 255 q.pre
  let mapSet ← finOrNone 4 255 q.mapSet
  let mode ← modeOf q.mode
  let wait ← waitLimitOf q.wait
  let zones ← allOf (finOf 32) q.zones
  if preFits pre source = true ∧ 1 ≤ zones.length ∧ zones.length ≤ 8 then
    some { requester, cls, source, pre, mapSet, mode, wait, zones := keepFirst zones }
  else none

/-- The page of an accepted request as R116 sets it up, before it starts or waits. -/
def pageOf (s : State) (f : PageFields) (m : MapSetId) : Page :=
  { state := .waiting, cls := f.cls, requester := some f.requester, escGroup := none, source := f.source,
    preAnnounce := f.pre, mapSet := m, zones := f.zones, mode := f.mode, started := false, waitLimit := f.wait,
    waitDeadline := none, requestTime := s.now, requestAgeMark := false, zoneOutputs := s.zoneOutputs m f.zones,
    deskList := s.zoneDesks m f.zones, chime := none }

/-- Whether the source is a page input that is already bound (R115 check 5, R118). -/
def sourceBusy (s : State) : Source → Bool
  | .input i => s.inputBound i
  | .chime _ => false

/-- The seven checks of R115 in their order; the result of the first that fails. -/
def pageRefusal (s : State) (f : PageFields) (m : MapSetId) : Option Result :=
  let st := (s.station f.requester).state
  if st = .unused ∨ st = .outOfService then some .unknown
  else if (s.stationCfg f.requester).classLimit.num < f.cls.num then some .denied
  else if f.zones.any (fun z => !(s.cfg.maps[m])[z].valid) then some .badZone
  else if f.cls ≠ .emergency ∧ f.zones.any (fun z => (s.cfg.maps[m])[z].reserved) then some .denied
  else if sourceBusy s f.source then some .inputBusy
  else if s.freePage.isNone then some .full
  else if f.wait = none ∧ f.cls ≠ .background then some .badValue
  else none

/-- An accepted page starts, waits, or, when it would wait with a wait limit of 0, is answered NO_OUTPUTS (R117). -/
def startPage (s : State) (pg : Page) : Handled :=
  let outs := s.takeableOf pg.cls (decide (pg.mode = .allOrWait)) (outputsOf pg.zoneOutputs)
  match s.freePage with
  | none => refuse s .full
  | some p =>
    if outs = [] ∧ pg.waitLimit = some 0 then refuse s .noOutputs
    else
      accept (s.acceptPage p pg)
        (putRef (some (s.refOf p)) ++ put1 (if outs = [] then PageState.waiting else .starting).code)

/-- PAGE: the range checks, the checks of R115, and the start or the wait (R114 to R117). -/
def handlePage (body : List Octet) (s : State) : Handled :=
  withBody readPage body s fun q =>
    orBadValue s q.fields fun f =>
      let m := f.mapSet.getD (s.stationCfg f.requester).defaultMapSet
      match pageRefusal s f m with
      | some r => refuse s r
      | none => startPage s (pageOf s f m)

/-- PAGE is dispatched. -/
def execPage (tag : Octet) (body : List Octet) (s : State) : Host.Outcome State Fault Refusal :=
  dispatch .page { kind := 0x18, tag := tag, body := body } (handlePage body) s

/-! ## PAGE_END (R125) -/

/-- The body of PAGE_END: page id and generation (R166, R171). -/
def readPageEnd : Reader (Nat × Nat) := do
  let p ← readOctet
  let g ← readOctet
  pure (p, g)

/-- PAGE_END: the page that the reference names ends ENDED_BY_HOST (R125). -/
def handlePageEnd (body : List Octet) (s : State) : Handled :=
  withBody readPageEnd body s fun (p, g) =>
    orBadValue s (finOf 16 p) fun p =>
      if (s.pageAt { id := p, gen := BitVec.ofNat 8 g }).isSome then accept (s.endPage p .endedByHost) []
      else refuse s .unknown

/-- PAGE_END is dispatched. -/
def execPageEnd (tag : Octet) (body : List Octet) (s : State) : Host.Outcome State Fault Refusal :=
  dispatch .pageEnd { kind := 0x19, tag := tag, body := body } (handlePageEnd body) s

end Sys2Proof.Machine
end

