-- ==== Sys2Proof/Machine/PickupCommands.lean ====
section
/-! DEFINITION. The requests of the Pickup and Park Unit: PICKUP, DPICKUP and PARK (chapter 5). -/

namespace Sys2Proof.Machine

/-- The check of the requester: above 511 BAD_VALUE, in any state but BUSY REFUSED_STATE (R90). -/
def withRequester (s : State) (i : Nat) (k : StationId → Handled) : Handled :=
  orBadValue s (finOf 512 i) fun i => if (s.station i).state = .busy then k i else refuse s .refusedState

namespace State

/-- Whether a call is eligible to a requester: not private, or the requester holds OVERRIDE (R91). -/
def eligible (s : State) (r : StationId) (c : Call) : Bool := !c.noPickup || (s.stationCfg r).override

/-- The ages of the offers of a call at stations of pickup group `n` (R93). -/
def pgAges (s : State) (n : PickupGroup) (c : Call) : List Nat :=
  (c.offered.filter fun x => (s.stationCfg x.station).pickupGroup = some n).map fun x => ageOf s.now x.start

/-- Whether a call is a candidate at an entry PG(n) (R93). -/
def pgCandidate (s : State) (n : PickupGroup) (c : Call) : Bool :=
  (decide (c.state = .offering) || decide (c.state = .recalling)) && decide (s.pgAges n c ≠ [])

/-- The ranking age of a candidate: the greatest age of its offers in the group, that of its earliest offer start (R93). -/
def pgRank (s : State) (n : PickupGroup) (c : Call) : Nat := (s.pgAges n c).foldl max 0

/-- Whether call `a` is taken before call `b` at PG(n): the older ranking time, then the older arrival, then the lower handle
(R93). -/
def pgBefore (s : State) (n : PickupGroup) (a b : Call) : Bool :=
  if s.pgRank n a ≠ s.pgRank n b then decide (s.pgRank n b < s.pgRank n a)
  else if s.arrivalAge a ≠ s.arrivalAge b then decide (s.arrivalAge b < s.arrivalAge a)
  else decide (a.handle < b.handle)

/-- The call that an entry PG(n) yields (R93). -/
def pgCall (s : State) (r : StationId) (n : PickupGroup) : Option Handle :=
  ((sortBy (s.pgBefore n) (s.calls.filter fun c => s.pgCandidate n c && s.eligible r c)).head?).map Call.handle

/-- The call that an entry HQ(g) or a pilot yields: the eligible call nearest the head (R94, R98). -/
def hqCall (s : State) (r : StationId) (g : GroupId) : Option Handle :=
  (s.group g).queue.find? fun h => (s.findCall h).any (s.eligible r)

/-- The call that one entry of a search list yields; a disabled entry is passed over (R92). -/
def entryCall (s : State) (r : StationId) (e : SearchEntry) : Option Handle :=
  if e.enabled then
    match e.key with
    | .pg n => s.pgCall r n
    | .hq g => s.hqCall r g
  else none

/-- The call that the walk of a search list takes: that of the first entry that yields one (R92). -/
def walkList (s : State) (r : StationId) (l : ListId) : Option Handle := s.cfg.lists[l].findSome? (s.entryCall r)

/-- Whether a requester sees a station by DIRECT_ANY or by an enabled PG entry of its search list (R97 check 1). -/
def sees (s : State) (r t : StationId) : Bool :=
  (s.stationCfg r).directAny ||
    match (s.stationCfg t).pickupGroup, (s.stationCfg r).searchList with
    | some n, some l => s.cfg.lists[l].any fun e => e.enabled && decide (e.key = .pg n)
    | _, _ => false

end State

/-- The call is taken: it ends PICKED by the requester, and the reply carries its handle (R95). -/
def pickCall (s : State) (r : StationId) (h : Handle) : Handled := accept (s.endCall h .picked (some r)) (put2 h)

/-! ## PICKUP (R92) -/

/-- The checks of PICKUP and the walk of the requester's search list (R90, R92). -/
def handlePickup (body : List Octet) (s : State) : Handled :=
  withBody readWide body s fun i =>
    withRequester s i fun r =>
      match (s.stationCfg r).searchList with
      | none => refuse s .denied
      | some l =>
        match s.walkList r l with
        | none => refuse s .nothing
        | some h => pickCall s r h

/-- PICKUP is dispatched. -/
def execPickup (tag : Octet) (body : List Octet) (s : State) : Host.Outcome State Fault Refusal :=
  dispatch .pickup { kind := 0x10, tag := tag, body := body } (handlePickup body) s

/-! ## DPICKUP (R96 to R99) -/

/-- The body of DPICKUP: requester station, number (R171). -/
def readDpickup : Reader (Nat × List Nat) := do
  let i ← readWide
  let d ← readDigits
  pure (i, d)

/-- Directed pickup of a station number (R97). -/
def dpickupStation (s : State) (r t : StationId) : Handled :=
  if s.sees r t = false then refuse s .denied
  else
    match (s.station t).state with
    | .ringing h =>
      match s.findCall h with
      | none => refuse s .nothing
      | some c => if s.eligible r c then pickCall s r h else refuse s .denied
    | _ => refuse s .nothing

/-- Directed pickup of a pilot number (R98). -/
def dpickupPilot (s : State) (r : StationId) (g : GroupId) : Handled :=
  match s.hqCall r g with
  | none => refuse s .nothing
  | some h => pickCall s r h

/-- Retrieval of the call that holds an orbit (R99). -/
def dpickupOrbit (s : State) (r : StationId) (o : OrbitId) : Handled :=
  match s.orbitHolder o with
  | none => refuse s .nothing
  | some c =>
    if s.eligible r c then accept (s.endCall c.handle .retrieved (some r)) (put2 c.handle) else refuse s .denied

/-- The checks of DPICKUP, and its handling by the kind that the number resolves to (R90, R96). -/
def handleDpickup (body : List Octet) (s : State) : Handled :=
  withBody readDpickup body s fun (i, d) =>
    withRequester s i fun r =>
      if goodDigits d = false then refuse s .badValue
      else
        match s.resolve d with
        | none => refuse s .unknown
        | some (.station t) => dpickupStation s r t
        | some (.pilot g) => dpickupPilot s r g
        | some (.orbit o) => dpickupOrbit s r o

/-- DPICKUP is dispatched. -/
def execDpickup (tag : Octet) (body : List Octet) (s : State) : Host.Outcome State Fault Refusal :=
  dispatch .dpickup { kind := 0x11, tag := tag, body := body } (handleDpickup body) s

/-! ## PARK (R100 to R102) -/

/-- A record as an accepted PARK sets it up (R102). -/
def parkedCall (s : State) (h : Handle) (caller : List Digit) (noPickup : Bool) (r : StationId) (o : OrbitId) : Call :=
  { handle := h, caller := caller, noPickup := noPickup, state := .parked, currentGroup := none, originGroup := none,
    hops := 0, offered := [], tried := [], arrival := s.now, queueEntry := none, queueAgeMark := false,
    arrivalAgeMark := false, ringDeadline := none, waitDeadline := none, escDeadline := none,
    parkDeadline := some (later s.now (seconds s.cfg.parkTime)), escalated := false, waitPassed := false, arrivalWait := none,
    offerKind := none, orbit := some o, parker := some r, outcome := none, outcomeStation := none }

/-- The body of PARK: parker, handle, orbit, private flag, caller number (R171). -/
def readPark : Reader (Nat × Nat × Nat × Nat × List Nat) := do
  let i ← readWide
  let h ← readWide
  let o ← readOctet
  let f ← readOctet
  let d ← readDigits
  pure (i, h, o, f, d)

/-- The orbit a PARK takes: the one named when it is free, or the lowest free one for ANY; the refusal otherwise (R101 checks
4 and 5, R102). -/
def chooseOrbit (s : State) (asked : Option OrbitId) : Option OrbitId × Result :=
  match asked with
  | some o => (if (s.orbitHolder o).isNone then some o else none, .refusedState)
  | none => ((List.finRange 20).find? fun o => (s.orbitHolder o).isNone, .full)

/-- The checks of PARK in the order of R90 and R101, and the new PARKED record (R102). -/
def handlePark (body : List Octet) (s : State) : Handled :=
  withBody readPark body s fun (i, h, o, f, d) =>
    withRequester s i fun r =>
      orBadValue s (finOrNone 20 255 o) fun asked =>
        orBadValue s (flagOf f) fun noPickup =>
          if h = 0 ∨ goodDigits d = false then refuse s .badValue
          else if (s.findCall h).isSome then refuse s .duplicate
          else if Config.callRecords ≤ s.calls.length then refuse s .full
          else
            match chooseOrbit s asked with
            | (some o, _) => accept (s.addCall (parkedCall s h d noPickup r o)) (put1 o.val)
            | (none, why) => refuse s why

/-- PARK is dispatched. -/
def execPark (tag : Octet) (body : List Octet) (s : State) : Host.Outcome State Fault Refusal :=
  dispatch .park { kind := 0x12, tag := tag, body := body } (handlePark body) s

end Sys2Proof.Machine
end

