-- ==== Sys2Proof/Machine/QueryCommands.lean ====
section
/-! DEFINITION. The queries (9.6): STATUS, GET_STATION, GET_CALL, LIST_QUEUE, GET_ORBITS, GET_PAGE, GET_OUTPUT, GET_GROUP and GET_DIR. Each reads state and changes none (R177). -/

namespace Sys2Proof.Machine

/-- A body with no fields. -/
def readNothing : Reader Unit := pure ()

/-- A query whose body is one number of `n` octets that names a record (R177). -/
def queryBy (n k : Nat) (content : State → Fin k → List Octet) (body : List Octet) (s : State) : Handled :=
  withBody (readNumber n 0) body s fun v => orBadValue s (finOf k v) fun i => accept s (content s i)

/-! ## STATUS -/

/-- The content of STATUS (R178, R179). -/
def statusContent (s : State) : List Octet :=
  putTime (some s.now.toNat) ++ put1 s.calls.length ++ put1 (s.calls.countP fun c => c.state = .ending) ++
    put1 s.pagesInUse.length ++ put1 s.waitOrder.length ++
    put1 ((List.finRange 20).countP fun o => (s.orbitHolder o).isSome) ++ putFlag s.save.isSome ++ put1 s.cfg.digitWidth ++
    put2 s.cfg.directory.length ++ put1 s.link.rxBuffer.length ++ put1 s.link.replies.length ++
    put1 s.link.callOrders.length ++ put2 s.link.stationOrders.length ++ put1 s.link.advisories.length

/-- STATUS (R178). -/
def handleStatus (body : List Octet) (s : State) : Handled :=
  withBody readNothing body s fun _ => accept s (statusContent s)

/-- STATUS is dispatched. -/
def execStatus (tag : Octet) (body : List Octet) (s : State) : Host.Outcome State Fault Refusal :=
  dispatch .status { kind := 0x20, tag := tag, body := body } (handleStatus body) s

/-! ## GET_STATION -/

/-- The reference of a station in 2 octets: the handle, the page reference, or 0 (R179). -/
def putReference : StationState → List Octet
  | .ringing h => put2 h
  | .pageListen r => putRef (some r)
  | _ => put2 0

/-- The hunt groups of which a station is a member, with its logged-in flag in each. -/
def membershipsOf (s : State) (i : StationId) : List (GroupId × Bool) :=
  (List.finRange 32).filterMap fun g =>
    ((s.groupCfg g).members.find? fun m => m.station == i).map fun m => (g, m.loggedIn)

/-- The content of GET_STATION (R178, R179). -/
def stationContent (s : State) (i : StationId) : List Octet :=
  let r := s.station i
  let c := s.stationCfg i
  let ms := membershipsOf s i
  put1 r.state.code ++ putReference r.state ++ putTime (some (s.idleAge i)) ++ putFlag r.saturated ++
    put1 r.lastSent.code ++ putFlag (s.marked i) ++ putFlag c.inUse ++ putOpt1 (c.pickupGroup.map Fin.val) ++
    putOpt1 (c.searchList.map Fin.val) ++ putFlag c.override ++ putFlag c.directAny ++ put1 c.classLimit.num ++
    put1 c.defaultMapSet.val ++ put1 ms.length ++ ms.flatMap fun m => put1 m.1.val ++ putFlag m.2

/-- GET_STATION is dispatched. -/
def execGetStation (tag : Octet) (body : List Octet) (s : State) : Host.Outcome State Fault Refusal :=
  dispatch .getStation { kind := 0x21, tag := tag, body := body } (queryBy 2 512 stationContent body) s

/-! ## GET_CALL -/

/-- The content of GET_CALL (R178, R179). -/
def callContent (s : State) (c : Call) : List Octet :=
  put1 c.state.code ++ putOpt1 (c.offerKind.map OfferKind.code) ++ putDigits c.caller ++ putFlag c.noPickup ++
    putOpt1 (c.currentGroup.map Fin.val) ++ putOpt1 (c.originGroup.map Fin.val) ++ put1 c.hops ++ put1 c.offered.length ++
    (c.offered.flatMap fun x => put2 x.station.val ++ put2 (ageOf s.now x.start)) ++ putStations c.tried ++
    putTime (some (s.arrivalAge c)) ++ putTime (if c.queueEntry.isSome then some (s.queueAge c) else none) ++
    putRemaining s.now c.ringDeadline ++ putRemaining s.now c.waitDeadline ++ putRemaining s.now c.escDeadline ++
    putRemaining s.now c.parkDeadline ++ putFlag c.escalated ++ putFlag c.waitPassed ++ putOpt1 (c.orbit.map Fin.val) ++
    putOpt2 (c.parker.map Fin.val) ++ putOpt1 (c.outcome.map CallOutcome.code) ++ putOpt2 (c.outcomeStation.map Fin.val)

/-- GET_CALL, answered for handles as R28 gives (R177, R178). -/
def handleGetCall (body : List Octet) (s : State) : Handled :=
  withBody readWide body s fun h =>
    if h = 0 then refuse s .badValue
    else
      match s.findCall h with
      | none => refuse s .unknown
      | some c => accept s (callContent s c)

/-- GET_CALL is dispatched. -/
def execGetCall (tag : Octet) (body : List Octet) (s : State) : Host.Outcome State Fault Refusal :=
  dispatch .getCall { kind := 0x22, tag := tag, body := body } (handleGetCall body) s

/-! ## LIST_QUEUE -/

/-- The content of LIST_QUEUE: the group's queue, head first (R178, R179). -/
def queueContent (s : State) (g : GroupId) : List Octet :=
  let cs := (s.group g).queue.filterMap s.findCall
  put1 cs.length ++ cs.flatMap fun c =>
    put2 c.handle ++ putTime (some (s.queueAge c)) ++ putFlag c.escalated ++ putFlag c.noPickup

/-- LIST_QUEUE is dispatched. -/
def execListQueue (tag : Octet) (body : List Octet) (s : State) : Host.Outcome State Fault Refusal :=
  dispatch .listQueue { kind := 0x23, tag := tag, body := body } (queryBy 1 32 queueContent body) s

/-! ## GET_ORBITS -/

/-- The entry of one orbit; a free one carries handle 0 and the none values of the other forms (R166, R178, R179; log entry
13). -/
def orbitContent (s : State) (o : OrbitId) : List Octet :=
  match s.orbitHolder o with
  | none => put2 0 ++ putOpt1 none ++ putOpt2 none ++ putRemaining s.now none
  | some c => put2 c.handle ++ put1 c.state.code ++ putOpt2 (c.parker.map Fin.val) ++ putRemaining s.now c.parkDeadline

/-- GET_ORBITS (R178). -/
def handleGetOrbits (body : List Octet) (s : State) : Handled :=
  withBody readNothing body s fun _ => accept s ((List.finRange 20).flatMap (orbitContent s))

/-- GET_ORBITS is dispatched. -/
def execGetOrbits (tag : Octet) (body : List Octet) (s : State) : Host.Outcome State Fault Refusal :=
  dispatch .getOrbits { kind := 0x24, tag := tag, body := body } (handleGetOrbits body) s

/-! ## GET_PAGE -/

/-- The place of a page in the wait order, counted from 1, absent when it stands in none (R178). -/
def waitPlace (s : State) (p : PageId) : Option Nat :=
  if s.waitOrder.contains p then some (s.waitOrder.idxOf p + 1) else none

/-- The content of GET_PAGE for a page in use (R179). -/
def pageInUseContent (s : State) (p : PageId) (pg : Page) : List Octet :=
  put1 pg.state.code ++ put1 pg.cls.num ++ putOpt2 (pg.requester.map Fin.val) ++ putOpt1 (pg.escGroup.map Fin.val) ++
    putSource pg.source ++ putOpt1 (pg.preAnnounce.map Fin.val) ++ put1 pg.mode.code ++ putFlag pg.started ++
    putRemaining s.now pg.waitDeadline ++ putTime (some (s.requestAge pg)) ++ putSet pg.zoneOutputs ++
    putSet (outputSetOf (s.held p)) ++ putSet (outputSetOf (s.wanted p)) ++ putStations (s.joined p) ++
    putOpt1 (waitPlace s p) ++ putOpt1 (pg.chime.map fun c => c.pattern.val) ++ putOpt2 (pg.chime.map Chime.length) ++
    putOpt1 (pg.chime.map Chime.completed)

/-- The content of GET_PAGE (R178, R179). -/
def pageContent (s : State) (p : PageId) : List Octet :=
  put1 p.val ++ [s.pages[p].gen] ++
    match s.page p with
    | none => put1 4
    | some pg => pageInUseContent s p pg

/-- GET_PAGE is dispatched. -/
def execGetPage (tag : Octet) (body : List Octet) (s : State) : Host.Outcome State Fault Refusal :=
  dispatch .getPage { kind := 0x25, tag := tag, body := body } (queryBy 1 16 pageContent body) s

/-! ## GET_OUTPUT -/

/-- The guard deadline of an output, absent but in GUARD (R130). -/
def OutputState.deadline : OutputState → Option Time
  | .guard _ d => some d
  | _ => none

/-- The GE of the current block of an AUDIBLE output (R151, R161). -/
def currentGain (s : State) (o : OutputId) : Option Nat :=
  match (s.output o).state with
  | .audible r => (s.pageAt r).map fun pg => s.gainOf o pg.cls
  | _ => none

/-- The content of GET_OUTPUT (R161, R179). -/
def outputContent (s : State) (o : OutputId) : List Octet :=
  let x := s.output o
  let c := s.outputCfg o
  put1 x.state.code ++ putRef x.state.holder ++ putRemaining s.now x.state.deadline ++ put1 x.gt ++ put1 c.gmin ++
    put1 c.gmax ++ put1 c.gceil ++ put1 c.stepSize ++ put2 c.ut ++ put2 c.lt ++ put2 c.ct ++ put2 c.window ++
    putFlag c.settle ++ putFlag c.hold ++ putOpt2 (currentGain s o) ++ putTime (some (ageOf s.now x.windowStart)) ++
    putFlag x.settling ++ put2 x.count ++ put2 x.clips ++ putOpt2 x.lastCount ++ putOpt2 x.lastMean ++
    putOpt2 x.lastClips ++ putOpt1 (x.lastDecision.map Decision.code) ++ putFlag x.atLimit

/-- GET_OUTPUT is dispatched. -/
def execGetOutput (tag : Octet) (body : List Octet) (s : State) : Host.Outcome State Fault Refusal :=
  dispatch .getOutput { kind := 0x26, tag := tag, body := body } (queryBy 1 16 outputContent body) s

/-! ## GET_GROUP -/

/-- The content of GET_GROUP (R178, R179). -/
def groupContent (s : State) (g : GroupId) : List Octet :=
  let r := s.group g
  let c := s.groupCfg g
  putFlag c.enabled ++ put1 c.algorithm.code ++ put1 c.noAnswer ++ put1 c.queueLimit ++ put2 c.maxWait ++
    putTarget c.target ++ put2 c.escDelay ++ put1 c.escMapSet.val ++ put1 c.escZones.length ++
    (c.escZones.flatMap fun z => put1 z.val) ++ put1 c.chime.val ++ put1 c.repeatInterval ++ put1 c.members.length ++
    (c.members.flatMap fun m => put2 m.station.val ++ putFlag m.loggedIn) ++ putOpt2 (r.cursor.map Fin.val) ++
    put1 r.queue.length ++ putRef r.escPage ++ putRemaining s.now r.repeatDeadline ++ putFlag r.repeatDue

/-- GET_GROUP is dispatched. -/
def execGetGroup (tag : Octet) (body : List Octet) (s : State) : Host.Outcome State Fault Refusal :=
  dispatch .getGroup { kind := 0x27, tag := tag, body := body } (queryBy 1 32 groupContent body) s

/-! ## GET_DIR -/

/-- The directory entries at or above a starting number, in ascending order of number (R178). -/
def entriesFrom (s : State) (start : Nat) : List DirEntry :=
  sortBy (fun a b => decide (decimalOf a.number < decimalOf b.number))
    (s.cfg.directory.filter fun e => decide (start ≤ decimalOf e.number))

/-- The content of GET_DIR (R178, R179). -/
def directoryContent (s : State) (start : Nat) : List Octet :=
  let all := entriesFrom s start
  let es := all.take 32
  put1 es.length ++ (es.flatMap fun e => putNumber 3 (decimalOf e.number) ++ putDirTarget e.target) ++
    putFlag (decide (32 < all.length))

/-- GET_DIR: a starting number of other than D digits, or with a digit above 9, is BAD_VALUE (R178). -/
def handleGetDir (body : List Octet) (s : State) : Handled :=
  withBody readDigits body s fun d =>
    if d.length = s.cfg.digitWidth ∧ d.all (· ≤ 9) then accept s (directoryContent s (decimalOf d)) else refuse s .badValue

/-- GET_DIR is dispatched. -/
def execGetDir (tag : Octet) (body : List Octet) (s : State) : Host.Outcome State Fault Refusal :=
  dispatch .getDir { kind := 0x28, tag := tag, body := body } (handleGetDir body) s

end Sys2Proof.Machine
end

