-- ==== Sys2Proof/Machine/Dispatch.lean ====
section
/-! DEFINITION. The dispatch of commands to their meanings: one arm for each constructor of Instr. -/

namespace Sys2Proof.Machine

def exec (i : Instr) (s : State) : Host.Outcome State Fault Refusal :=
  match i with
  | .powerOnReset checkMatches => Sys2Proof.Machine.execPowerOnReset checkMatches s
  | .pinReset => Sys2Proof.Machine.execPinReset s
  | .linkReset => Sys2Proof.Machine.execLinkReset s
  | .frameReceived kind tag body check => Sys2Proof.Machine.execFrameReceived kind tag body check s
  | .rxOctetTimeout => Sys2Proof.Machine.execRxOctetTimeout s
  | .unknownKind kind tag body => Sys2Proof.Machine.execUnknownKind kind tag body s
  | .callIn tag body => Sys2Proof.Machine.execCallIn tag body s
  | .answer tag body => Sys2Proof.Machine.execAnswer tag body s
  | .hangup tag body => Sys2Proof.Machine.execHangup tag body s
  | .stationOffhook tag body => Sys2Proof.Machine.execStationOffhook tag body s
  | .stationOnhook tag body => Sys2Proof.Machine.execStationOnhook tag body s
  | .stationOutOfService tag body => Sys2Proof.Machine.execStationOutOfService tag body s
  | .stationInService tag body => Sys2Proof.Machine.execStationInService tag body s
  | .pickup tag body => Sys2Proof.Machine.execPickup tag body s
  | .dpickup tag body => Sys2Proof.Machine.execDpickup tag body s
  | .park tag body => Sys2Proof.Machine.execPark tag body s
  | .page tag body => Sys2Proof.Machine.execPage tag body s
  | .pageEnd tag body => Sys2Proof.Machine.execPageEnd tag body s
  | .status tag body => Sys2Proof.Machine.execStatus tag body s
  | .getStation tag body => Sys2Proof.Machine.execGetStation tag body s
  | .getCall tag body => Sys2Proof.Machine.execGetCall tag body s
  | .listQueue tag body => Sys2Proof.Machine.execListQueue tag body s
  | .getOrbits tag body => Sys2Proof.Machine.execGetOrbits tag body s
  | .getPage tag body => Sys2Proof.Machine.execGetPage tag body s
  | .getOutput tag body => Sys2Proof.Machine.execGetOutput tag body s
  | .getGroup tag body => Sys2Proof.Machine.execGetGroup tag body s
  | .getDir tag body => Sys2Proof.Machine.execGetDir tag body s
  | .setSystem tag body => Sys2Proof.Machine.execSetSystem tag body s
  | .setDirAdd tag body => Sys2Proof.Machine.execSetDirAdd tag body s
  | .setDirRemove tag body => Sys2Proof.Machine.execSetDirRemove tag body s
  | .setStation tag body => Sys2Proof.Machine.execSetStation tag body s
  | .setGroup tag body => Sys2Proof.Machine.execSetGroup tag body s
  | .setMembersAdd tag body => Sys2Proof.Machine.execSetMembersAdd tag body s
  | .setMembersRemove tag body => Sys2Proof.Machine.execSetMembersRemove tag body s
  | .setMembersLogin tag body => Sys2Proof.Machine.execSetMembersLogin tag body s
  | .setMembersLogout tag body => Sys2Proof.Machine.execSetMembersLogout tag body s
  | .setPickup tag body => Sys2Proof.Machine.execSetPickup tag body s
  | .setList tag body => Sys2Proof.Machine.execSetList tag body s
  | .setMap tag body => Sys2Proof.Machine.execSetMap tag body s
  | .setOutput tag body => Sys2Proof.Machine.execSetOutput tag body s
  | .setChime tag body => Sys2Proof.Machine.execSetChime tag body s
  | .save tag body => Sys2Proof.Machine.execSave tag body s
  | .reset tag body => Sys2Proof.Machine.execReset tag body s
  | .frameTransmitted => Sys2Proof.Machine.execFrameTransmitted s
  | .noAnswerExpiry call => Sys2Proof.Machine.execNoAnswerExpiry call s
  | .targetRingExpiry call => Sys2Proof.Machine.execTargetRingExpiry call s
  | .attendantRingExpiry call => Sys2Proof.Machine.execAttendantRingExpiry call s
  | .recallRingExpiry call => Sys2Proof.Machine.execRecallRingExpiry call s
  | .waitDeadlineExpiry call => Sys2Proof.Machine.execWaitDeadlineExpiry call s
  | .escalationDeadlineExpiry call => Sys2Proof.Machine.execEscalationDeadlineExpiry call s
  | .parkDeadlineExpiry call => Sys2Proof.Machine.execParkDeadlineExpiry call s
  | .repeatDeadlineExpiry group => Sys2Proof.Machine.execRepeatDeadlineExpiry group s
  | .pageWaitExpiry page => Sys2Proof.Machine.execPageWaitExpiry page s
  | .guardExpiry output => Sys2Proof.Machine.execGuardExpiry output s
  | .chimePeriodEnd page => Sys2Proof.Machine.execChimePeriodEnd page s
  | .windowEnd output => Sys2Proof.Machine.execWindowEnd output s
  | .outputBlock inputs noise => Sys2Proof.Machine.execOutputBlock inputs noise s
  | .saveWriteComplete verified => Sys2Proof.Machine.execSaveWriteComplete verified s
  | .saveDeadlineExpiry => Sys2Proof.Machine.execSaveDeadlineExpiry s
  | .idleAgeSaturated station => Sys2Proof.Machine.execIdleAgeSaturated station s
  | .queueAgeSaturated call => Sys2Proof.Machine.execQueueAgeSaturated call s
  | .arrivalAgeSaturated call => Sys2Proof.Machine.execArrivalAgeSaturated call s
  | .requestAgeSaturated page => Sys2Proof.Machine.execRequestAgeSaturated page s
  | .octetReceived octet stopBit => Sys2Proof.Machine.execOctetReceived octet stopBit s
  | .leavesReset => Sys2Proof.Machine.execLeavesReset s
  | .lossOfPower => Sys2Proof.Machine.execLossOfPower s

end Sys2Proof.Machine
end

