-- ==== Sys2Proof/Safety.lean ====
section
/-! DEFINITION. What counts as a safe run, and the conditions and outcomes that the claims are stated in. -/

namespace Sys2Proof.Machine

/-! ## Safe runs -/

/-- The first `n` steps from a state all answer next states. -/
def RunsFor : Nat → State → Prop
  | 0, _ => True
  | n + 1, s => ∃ t, step s = .next t ∧ RunsFor n t

/-- The stores of the control link hold no more than their places: 4 frames, 8 replies, 32 advisories (R168, R169, R175). -/
def Link.Bounded (l : Link) : Prop :=
  l.rxBuffer.length ≤ Config.receiveFrames ∧ l.replies.length ≤ Config.replies ∧
    l.advisories.length ≤ Config.advisories

/-- A configuration whose outputs have Gmin not above Gmax (R147). -/
def WorkingConfig.GainsFit (c : WorkingConfig) : Prop := ∀ o : OutputId, c.outputs[o].gmin ≤ c.outputs[o].gmax

/-- Every output's GT stands within its limits, and every configuration the part holds has limits that fit (R147, R158). -/
def GainsWithin (s : State) : Prop :=
  s.cfg.GainsFit ∧ (∀ c, s.stored = some c → c.GainsFit) ∧ (∀ r, s.save = some r → r.config.GainsFit) ∧
    ∀ o : OutputId, (s.outputCfg o).gmin ≤ (s.output o).gt ∧ (s.output o).gt ≤ (s.outputCfg o).gmax

/-- The call table: at most 96 records, no two with one handle, every handle 1 to 65535, no hop count above 6 (R25, R28, R75). -/
def CallTableFits (s : State) : Prop :=
  s.calls.length ≤ Config.callRecords ∧ (s.calls.map Call.handle).Nodup ∧
    ∀ c ∈ s.calls, 1 ≤ c.handle ∧ c.handle ≤ 65535 ∧ c.hops ≤ Config.hopLimit

/-- While a save is in progress the stored copy is not valid (R183, R186). -/
def SaveClearsStore (s : State) : Prop := s.save.isSome = true → s.stored = none

/-- The fields of a call record by its state: the table of R27, its escalation deadline of a QUEUED call through every edit of the
delay (R68, R80, R86), and the list of an OFFERING call with 1 to 32 stations, each once (R33). Left out of that table is whether a
QUEUED call has a wait deadline: edits of the group's maximum wait do not follow the calls they find (R73). -/
def CallFits (s : State) (c : Call) : Prop :=
  match c.state with
  | .queued =>
    (∃ g, c.currentGroup = some g ∧ c.handle ∈ (s.group g).queue ∧
        (c.escDeadline.isSome = true ↔ (s.groupCfg g).escDelay ≠ 0 ∧ c.escalated = false)) ∧ c.offered = [] ∧ c.queueEntry.isSome = true ∧
      c.ringDeadline = none ∧ c.parkDeadline = none ∧ c.orbit = none ∧ c.parker = none ∧ c.outcome = none ∧
      c.offerKind = none
  | .offering =>
    c.offered ≠ [] ∧ (c.offered.map Offer.station).Nodup ∧ c.offered.length ≤ 32 ∧ c.ringDeadline.isSome = true ∧
      c.escDeadline = none ∧ c.parkDeadline = none ∧ c.orbit = none ∧ c.parker = none ∧ c.outcome = none ∧
      (c.offerKind = some .group ∧ c.currentGroup.isSome = true ∨
        (c.offerKind = some .target ∨ c.offerKind = some .attendant) ∧ c.currentGroup = none ∧ c.waitDeadline = none)
  | .parked =>
    c.currentGroup = none ∧ c.offered = [] ∧ c.ringDeadline = none ∧ c.waitDeadline = none ∧ c.escDeadline = none ∧
      c.parkDeadline.isSome = true ∧ c.orbit.isSome = true ∧ c.parker.isSome = true ∧ c.outcome = none ∧
      c.offerKind = none
  | .recalling =>
    c.currentGroup = none ∧ (∃ x, c.offered = [x] ∧ c.parker = some x.station) ∧ c.ringDeadline.isSome = true ∧
      c.waitDeadline = none ∧ c.escDeadline = none ∧ c.parkDeadline = none ∧ c.orbit.isSome = true ∧ c.outcome = none ∧
      c.offerKind = some .recalling
  | .ending =>
    c.currentGroup = none ∧ c.offered = [] ∧ c.ringDeadline = none ∧ c.waitDeadline = none ∧ c.escDeadline = none ∧
      c.parkDeadline = none ∧ c.orbit = none ∧ c.parker = none ∧ c.outcome.isSome = true ∧ c.offerKind = none

/-- A configuration whose member lists keep the three limits of R44: a list holds each station once and at most 32 members, a station
stands in at most 4 lists, and the 32 lists hold at most 512 entries in all. -/
def WorkingConfig.MembersFit (c : WorkingConfig) : Prop :=
  (∀ g : GroupId, (c.groups[g].members.map Member.station).Nodup ∧ c.groups[g].members.length ≤ 32) ∧
    (∀ i, (List.finRange 32).countP (fun g => decide (i ∈ c.groups[g].members.map Member.station)) ≤ 4) ∧
    ((List.finRange 32).map fun g => c.groups[g].members.length).sum ≤ 512

/-- The records of the calls agree with each other: handles are distinct, each record fits its state, a queue holds within its
limit and once each the calls QUEUED at its group, an orbit holds one call, a station rings for a call exactly when the call lists
it, the call order set holds the ENDING calls, the one on the line among them, and the member lists of every configuration held keep
their limits (R27, R28, R33, R37, R44, R66, R100). -/
def CallsAgree (s : State) : Prop :=
  (s.calls.map Call.handle).Nodup ∧ (∀ c ∈ s.calls, CallFits s c) ∧
    (∀ g, (s.group g).queue.Nodup ∧ (s.group g).queue.length ≤ (s.groupCfg g).queueLimit ∧
      ∀ h ∈ (s.group g).queue, ∃ c, s.findCall h = some c ∧ c.state = .queued ∧ c.currentGroup = some g) ∧
    (∀ c ∈ s.calls, ∀ d ∈ s.calls, c.orbit.isSome = true → c.orbit = d.orbit → c = d) ∧
    (∀ i h, (s.station i).state = .ringing h ↔ ∃ c, s.findCall h = some c ∧ i ∈ c.offered.map Offer.station) ∧
    s.link.callOrders.Nodup ∧
    (∀ h, h ∈ s.link.callOrders ↔ ∃ c, s.findCall h = some c ∧ c.state = .ending) ∧
    (∀ x h, s.link.tx = some x → x.item = .callEnd h → h ∈ s.link.callOrders) ∧
    s.cfg.MembersFit ∧ (∀ c, s.stored = some c → c.MembersFit) ∧ ∀ r, s.save = some r → r.config.MembersFit

/-- A configuration whose groups repeat no sooner than after 10 s (R82). -/
def WorkingConfig.RepeatsFit (c : WorkingConfig) : Prop := ∀ g : GroupId, 10 ≤ c.groups[g].repeatInterval

/-- The records of the pages agree with those they name: an output is held by a page in use that has started and wants it, a page
that has started holds an output, one that waits has no chime in play, a station listens to a page in use that names it as a desk
station, a group's escalation page is a page in use made by that group, no other page is made by a group, a group with an escalation
page or a repeat to come has an escalated call in its queue, and every configuration held has repeat intervals of 10 s or more (R81,
R82, R84, R112, R124, R128, R130, R138). -/
def PagesAgree (s : State) : Prop :=
  (∀ o r, (s.output o).state.holder = some r →
    ∃ pg, s.pageAt r = some pg ∧ pg.state ≠ .waiting ∧ o ∈ outputsOf pg.zoneOutputs) ∧
    (∀ p pg, s.page p = some pg → (pg.state = .waiting ↔ s.held p = [])) ∧
    (∀ i r, (s.station i).state = .pageListen r → ∃ pg, s.pageAt r = some pg ∧ i ∈ pg.deskList) ∧
    (∀ g r, (s.group g).escPage = some r →
      s.inEscalation g = true ∧ ∃ pg, s.pageAt r = some pg ∧ pg.escGroup = some g) ∧
    (∀ g, (s.group g).repeatDeadline.isSome = true ∨ (s.group g).repeatDue = true → s.inEscalation g = true) ∧
    (∀ p pg g, s.page p = some pg → pg.escGroup = some g → (s.group g).escPage = some (s.refOf p)) ∧
    (∀ p pg, s.page p = some pg → pg.state = .waiting → pg.chime = none) ∧
    s.cfg.RepeatsFit ∧ (∀ c, s.stored = some c → c.RepeatsFit) ∧ ∀ r, s.save = some r → r.config.RepeatsFit

/-- A station is UNUSED exactly when it is not in use, and stands in the station order set, once, exactly when its presentation
differs from the last sent one (R3, R17). -/
def StationsAgree (s : State) : Prop :=
  (∀ i, (s.station i).state = .unused ↔ (s.stationCfg i).inUse = false) ∧
    (s.link.stationOrders.map Mark.station).Nodup ∧
    ∀ i, s.marked i = true ↔ s.present (s.station i).state ≠ (s.station i).lastSent

/-- A configuration whose windows are at most 4 s long (R147). -/
def WorkingConfig.WindowsFit (c : WorkingConfig) : Prop := ∀ o : OutputId, c.outputs[o].window ≤ 4000

/-- Every output's window has counted no more than the blocks that began in it: at most one noise sample and eight clips for each
millisecond since its start, which lies at most W back; and no time has passed in a part held in reset (R147, R154, R155, R187). -/
def WindowsHoldTheirBlocks (s : State) : Prop :=
  (s.power = .heldInReset → s.now = 0) ∧ s.cfg.WindowsFit ∧ (∀ c, s.stored = some c → c.WindowsFit) ∧
    (∀ r, s.save = some r → r.config.WindowsFit) ∧
    ∀ o : OutputId, ageOf s.now (s.output o).windowStart ≤ (s.outputCfg o).window ∧
      (s.output o).count ≤ ageOf s.now (s.output o).windowStart ∧
      (s.output o).clips ≤ 8 * ageOf s.now (s.output o).windowStart ∧ (s.output o).sum ≤ 4095 * (s.output o).count

/-! ## Groups of commands -/

/-- The KINDs that name a request (9.4). -/
def requestKinds : List Nat :=
  [0x01, 0x02, 0x03, 0x04, 0x10, 0x11, 0x12, 0x18, 0x19, 0x20, 0x21, 0x22, 0x23, 0x24, 0x25, 0x26, 0x27, 0x28, 0x30, 0x31,
    0x32, 0x33, 0x34, 0x35, 0x36, 0x37, 0x38, 0x39, 0x3E, 0x3F]

/-- The octets of a request body whose length its KIND alone fixes (R171). -/
def fixedLength (kind : Octet) : Option Nat :=
  match kind.toNat with
  | 0x20 | 0x24 | 0x3E | 0x3F => some 0
  | 0x23 | 0x25 | 0x26 | 0x27 => some 1
  | 0x03 | 0x10 | 0x19 | 0x21 | 0x22 => some 2
  | 0x04 => some 3
  | 0x02 | 0x39 => some 4
  | 0x35 => some 5
  | 0x34 => some 6
  | _ => none

/-! ## Bodies of requests by their octets (R166, R171) -/

/-- A list of numbers that a body can carry behind a count: at most 255 of them, each within an octet. -/
def Carried (l : List Nat) : Prop := l.length < 256 ∧ ∀ x ∈ l, x < 256

/-- The octets of a field that may be absent: those of its value, and none when it is absent. -/
def octetsOf {α : Type} (spell : α → List Octet) (x : Option α) : List Octet := (x.map spell).getD []

/-- A presence mask marks the fields that are present: its bit at the place of each in the list, from bit 0 (R166, R171). -/
def Marks (mask : Nat) (present : List Bool) : Prop := ∀ i b, present[i]? = some b → mask.testBit i = b

/-- The octets spell the body of PAGE with these fields. -/
def RawPage.Spells (q : RawPage) (body : List Octet) : Prop :=
  q.requester < 65536 ∧ (∀ v ∈ [q.cls, q.source, q.pre, q.mapSet, q.mode, q.wait], v < 256) ∧ Carried q.zones ∧
    body = put2 q.requester ++ put1 q.cls ++ put1 q.source ++ put1 q.pre ++ put1 q.mapSet ++ put1 q.mode ++ put1 q.wait ++
      put1 q.zones.length ++ q.zones.flatMap put1

/-- The octets spell the body of SET_SYSTEM with these fields. -/
def RawSystem.Spells (q : RawSystem) (body : List Octet) : Prop :=
  q.mask < 65536 ∧
    Marks q.mask [q.width.isSome, q.attendant.isSome, q.park.isSome, q.guard.isSome, q.period.isSome, q.emergency.isSome,
      q.alert.isSome, q.voice.isSome, q.background.isSome] ∧
    (∀ x ∈ [q.width, q.emergency, q.alert, q.voice, q.background], ∀ v, x = some v → v < 256) ∧
    (∀ x ∈ [q.attendant, q.park, q.guard, q.period], ∀ v, x = some v → v < 65536) ∧
    body = put2 q.mask ++ octetsOf put1 q.width ++ octetsOf put2 q.attendant ++ octetsOf put2 q.park ++ octetsOf put2 q.guard ++
      octetsOf put2 q.period ++ octetsOf put1 q.emergency ++ octetsOf put1 q.alert ++ octetsOf put1 q.voice ++
      octetsOf put1 q.background

/-- The octets spell the body of SET_STATION with these fields. -/
def RawStation.Spells (q : RawStation) (body : List Octet) : Prop :=
  q.first < 65536 ∧ q.last < 65536 ∧ q.mask < 256 ∧
    Marks q.mask [q.inUse.isSome, q.pickupGroup.isSome, q.searchList.isSome, q.override.isSome, q.directAny.isSome,
      q.classLimit.isSome, q.mapSet.isSome] ∧
    (∀ x ∈ [q.inUse, q.pickupGroup, q.searchList, q.override, q.directAny, q.classLimit, q.mapSet], ∀ v, x = some v → v < 256) ∧
    body = put2 q.first ++ put2 q.last ++ put1 q.mask ++ octetsOf put1 q.inUse ++ octetsOf put1 q.pickupGroup ++
      octetsOf put1 q.searchList ++ octetsOf put1 q.override ++ octetsOf put1 q.directAny ++ octetsOf put1 q.classLimit ++
      octetsOf put1 q.mapSet

/-- The octets spell the body of SET_GROUP with these fields; a target is its code and a group or station in 2 octets, the
escalation zones a map set and the zones behind their count. -/
def RawGroup.Spells (q : RawGroup) (body : List Octet) : Prop :=
  q.groups < 2 ^ 32 ∧ q.mask < 65536 ∧
    Marks q.mask [q.enabled.isSome, q.algorithm.isSome, q.noAnswer.isSome, q.queueLimit.isSome, q.maxWait.isSome,
      q.target.isSome, q.escDelay.isSome, q.escZones.isSome, q.chime.isSome, q.repeatInterval.isSome] ∧
    (∀ x ∈ [q.enabled, q.algorithm, q.noAnswer, q.queueLimit, q.chime, q.repeatInterval], ∀ v, x = some v → v < 256) ∧
    (∀ x ∈ [q.maxWait, q.escDelay], ∀ v, x = some v → v < 65536) ∧
    (∀ code v, q.target = some (code, v) → code < 256 ∧ v < 65536) ∧
    (∀ m zs, q.escZones = some (m, zs) → m < 256 ∧ Carried zs) ∧
    body = putNumber 4 q.groups ++ put2 q.mask ++ octetsOf put1 q.enabled ++ octetsOf put1 q.algorithm ++
      octetsOf put1 q.noAnswer ++ octetsOf put1 q.queueLimit ++ octetsOf put2 q.maxWait ++
      octetsOf (fun t => put1 t.1 ++ put2 t.2) q.target ++ octetsOf put2 q.escDelay ++
      octetsOf (fun z => put1 z.1 ++ put1 z.2.length ++ z.2.flatMap put1) q.escZones ++ octetsOf put1 q.chime ++
      octetsOf put1 q.repeatInterval

/-- The octets spell the body of SET_OUTPUT with these fields. -/
def RawOutput.Spells (q : RawOutput) (body : List Octet) : Prop :=
  q.outputs < 65536 ∧ q.mask < 65536 ∧
    Marks q.mask [q.gt.isSome, q.gmin.isSome, q.gmax.isSome, q.gceil.isSome, q.stepSize.isSome, q.ut.isSome, q.lt.isSome,
      q.ct.isSome, q.window.isSome, q.settle.isSome, q.hold.isSome] ∧
    (∀ x ∈ [q.gt, q.gmin, q.gmax, q.gceil, q.stepSize, q.settle, q.hold], ∀ v, x = some v → v < 256) ∧
    (∀ x ∈ [q.ut, q.lt, q.ct, q.window], ∀ v, x = some v → v < 65536) ∧
    body = put2 q.outputs ++ put2 q.mask ++ octetsOf put1 q.gt ++ octetsOf put1 q.gmin ++ octetsOf put1 q.gmax ++
      octetsOf put1 q.gceil ++ octetsOf put1 q.stepSize ++ octetsOf put2 q.ut ++ octetsOf put2 q.lt ++ octetsOf put2 q.ct ++
      octetsOf put2 q.window ++ octetsOf put1 q.settle ++ octetsOf put1 q.hold

/-- The body of a request has the layout that R171 gives its KIND, with no octet left over: its fields in order, each in its
octets, whatever their values. -/
def WholeBody (f : Frame) : Prop :=
  match f.kind.toNat with
  | 0x01 => ∃ (h : Nat) (pilot caller : List Nat) (flag : Nat), h < 65536 ∧ Carried pilot ∧ Carried caller ∧ flag < 256 ∧
      f.body = put2 h ++ putDigits pilot ++ putDigits caller ++ put1 flag
  | 0x11 => ∃ (v : Nat) (d : List Nat), v < 65536 ∧ Carried d ∧ f.body = put2 v ++ putDigits d
  | 0x12 => ∃ (v h o flag : Nat) (d : List Nat), v < 65536 ∧ h < 65536 ∧ o < 256 ∧ flag < 256 ∧ Carried d ∧
      f.body = put2 v ++ put2 h ++ put1 o ++ put1 flag ++ putDigits d
  | 0x18 => ∃ q : RawPage, q.Spells f.body
  | 0x28 => ∃ d : List Nat, Carried d ∧ f.body = putDigits d
  | 0x30 => ∃ q : RawSystem, q.Spells f.body
  | 0x31 => ∃ (op : Nat) (d : List Nat) (kind target : Nat), op < 256 ∧ Carried d ∧ kind < 256 ∧ target < 65536 ∧
      f.body = put1 op ++ putDigits d ++ put1 kind ++ put2 target
  | 0x32 => ∃ q : RawStation, q.Spells f.body
  | 0x33 => ∃ q : RawGroup, q.Spells f.body
  | 0x36 => ∃ (v : Nat) (es : List (Nat × Nat × Nat)), v < 256 ∧ es.length < 256 ∧
      (∀ e ∈ es, e.1 < 256 ∧ e.2.1 < 256 ∧ e.2.2 < 256) ∧
      f.body = put1 v ++ put1 es.length ++ es.flatMap fun e => put1 e.1 ++ put1 e.2.1 ++ put1 e.2.2
  | 0x37 => ∃ (m z valid outputs reserved : Nat) (desks : List Nat), m < 256 ∧ z < 256 ∧ valid < 256 ∧ outputs < 65536 ∧
      reserved < 256 ∧ desks.length < 256 ∧ (∀ d ∈ desks, d < 65536) ∧
      f.body = put1 m ++ put1 z ++ put1 valid ++ put2 outputs ++ put1 reserved ++ put1 desks.length ++ desks.flatMap put2
  | 0x38 => ∃ q : RawOutput, q.Spells f.body
  | _ => fixedLength f.kind = some f.body.length

/-- The configuration edits (R181): KINDs 0x30 to 0x39. -/
def editKind (kind : Octet) : Prop := 0x30 ≤ kind.toNat ∧ kind.toNat ≤ 0x39

/-- A command that may write the working configuration: the dispatch of a configuration edit, or a power-on reset (R181,
R187). -/
def writesConfiguration (i : Instr) : Prop := (∃ b, i = .powerOnReset b) ∨ ∃ f, requestFrame i = some f ∧ editKind f.kind

/-- A command that may write the stored copy: SAVE, the end of a save, or a power-on reset (R186). -/
def writesStore (i : Instr) : Prop :=
  (∃ b, i = .powerOnReset b) ∨ (∃ tag body, i = .save tag body) ∨ (∃ b, i = .saveWriteComplete b) ∨ i = .saveDeadlineExpiry

/-! ## Conditions -/

/-- A frame can be dispatched now: it stands at the head of the receive buffer, dispatch is open, and no availability event
is held back from an earlier event (R169, R187). -/
def Ready (s : State) (f : Frame) (rest : List Frame) : Prop :=
  s.link.rxBuffer = f :: rest ∧ s.dispatchOpen = true ∧ s.heldAvail = []

/-- An event of the running part can be taken now. -/
def Runs (s : State) : Prop := s.power = .running ∧ s.heldAvail = []

/-- The request `i` of a frame ready in `s` is answered with a result and content, and changes no other state. -/
def Answers (s : State) (rest : List Frame) (i : Instr) (f : Frame) (r : Result) (content : List Octet) : Prop :=
  Ready s f rest → exec i s = .next ((s.takeHead rest).answer f r content)

/-- The edit `i` of a frame ready in `s` is answered OK, writes the working configuration by `w`, and changes no other state. -/
def Edits (s : State) (rest : List Frame) (i : Instr) (f : Frame) (w : WorkingConfig → WorkingConfig) : Prop :=
  Ready s f rest → exec i s = .next (((s.takeHead rest).updCfg w).answer f .ok [])

/-- No call waits in any queue. -/
def NoCallWaits (s : State) : Prop := ∀ g : GroupId, (s.group g).queue = []

/-- The page `p` is the one page in use. -/
def OnlyPage (s : State) (p : PageId) : Prop := ∀ q : PageId, (s.page q).isSome ↔ q = p

/-! ## Outcomes -/

/-- A call record after its end (R35 steps 1, 4 and 5). A call answered or picked up keeps its wait-passed note (R71, log entry
15). -/
def Call.ended (c : Call) (o : CallOutcome) (st : Option StationId) : Call :=
  { c with
    state := .ending, outcome := some o, outcomeStation := st, offered := [], currentGroup := none, tried := [],
    ringDeadline := none, waitDeadline := none, escDeadline := none, parkDeadline := none, escalated := false,
    waitPassed := c.waitPassed && (decide (o = .answered) || decide (o = .picked)), offerKind := none, orbit := none,
    parker := none }

/-- From `s` to `u` stations have changed state, and with them the station order set; nothing else has. -/
def OnlyStations (s u : State) : Prop :=
  u = { s with stations := u.stations, link := u.link } ∧
    u.link = { s.link with stationOrders := u.link.stationOrders }

/-- From `s` to `u` calls, stations and groups have changed, and with them the order sets; nothing else has. -/
def OnlyHunting (s u : State) : Prop :=
  u = { s with calls := u.calls, stations := u.stations, groups := u.groups, link := u.link } ∧
    u.link = { s.link with callOrders := u.link.callOrders, stationOrders := u.link.stationOrders }

/-- From `s` to `u` calls and stations have changed, and with them the order sets; nothing else has. -/
def OnlyCalls (s u : State) : Prop :=
  u = { s with calls := u.calls, stations := u.stations, link := u.link } ∧
    u.link = { s.link with callOrders := u.link.callOrders, stationOrders := u.link.stationOrders }

/-- The stations of a list are in the state `st`, every other station is as it was, and no idle-since time has changed. -/
def StationsIn (s u : State) (l : List StationId) (st : StationId → StationState) : Prop :=
  (∀ i ∈ l, (u.station i).state = st i) ∧ (∀ i, i ∉ l → u.station i = s.station i) ∧
    ∀ i, (u.station i).idleSince = (s.station i).idleSince ∧ (u.station i).saturated = (s.station i).saturated

/-- The record of the call `c` has become `c'`, and no other record has changed. -/
def CallBecomes (s u : State) (c c' : Call) : Prop :=
  u.findCall c.handle = some c' ∧ ∀ k, k ≠ c.handle → u.findCall k = s.findCall k

/-- A call that stood in no queue has ended: the teardown of R35. -/
def TornDown (s u : State) (c : Call) (o : CallOutcome) (st : Option StationId) : Prop :=
  CallBecomes s u c (c.ended o st) ∧
    StationsIn s u (c.offered.map Offer.station) (fun i => if some i = st then .busy else .idle) ∧
    u.link.callOrders = s.link.callOrders ++ [c.handle]

/-- A call that rings nowhere and waits in no queue has ended NO_ROUTE, and nothing else has changed. -/
def EndsNoRoute (s u : State) (c : Call) : Prop :=
  OnlyCalls s u ∧ CallBecomes s u c (c.ended .noRoute none) ∧ (∀ i, u.station i = s.station i) ∧
    u.link.callOrders = s.link.callOrders ++ [c.handle]

/-- The record of a call that rings at the attendant for 30 s, in no group and with no orbit (R78, R105). -/
def Call.atAttendant (c : Call) (a : StationId) (now : Time) : Call :=
  { c with
    state := .offering, currentGroup := none, tried := [], offered := [{ station := a, start := now }],
    offerKind := some .attendant, ringDeadline := some (later now 30000), waitDeadline := none, escDeadline := none,
    parkDeadline := none, orbit := none, parker := none }

/-- The record of a call that rings at an overflow station, the target of the group it came from (R77). -/
def Call.atTarget (c : Call) (i : StationId) (now : Time) (ms : Nat) : Call :=
  { c.atAttendant i now with offerKind := some .target, ringDeadline := some (later now ms) }

/-- The record of a call that has left its group by an overflow, its hop count now `n`, before it is delivered (R75 steps 1 to
3). -/
def Call.leftGroup (c : Call) (n : Nat) : Call :=
  { c with
    state := .offering, currentGroup := none, tried := [], waitDeadline := none, waitPassed := false, arrivalWait := none,
    escDeadline := none, escalated := false, hops := n }

/-- The record of a call offered at its group to the stations `sts`, its tried set now `tried` (R33, R34, R53). -/
def Call.offeredAt (c : Call) (g : GroupId) (sts tried : List StationId) (now : Time) (ms : Nat) : Call :=
  { c with
    state := .offering, currentGroup := some g, offered := sts.map fun i => { station := i, start := now }, tried := tried,
    offerKind := some .group, ringDeadline := some (later now ms), escDeadline := none }

/-- The record of a call that stands in the queue of group `g` since `entry`, its tried set now `tried`, escalated or below the
group's escalation delay (R34, R68). -/
def Call.queuedAt (c : Call) (g : GroupId) (tried : List StationId) (entry : Time) (wait : Option Time) (delay : Nat)
    (flag : Bool) : Call :=
  { c with
    state := .queued, currentGroup := some g, offered := [], tried := tried, ringDeadline := none, offerKind := none,
    queueEntry := some entry, queueAgeMark := c.queueAgeMark && c.queueEntry.isSome, waitDeadline := wait, arrivalWait := none,
    escDeadline := if flag = true ∨ delay = 0 then none else some (later entry (seconds delay)), escalated := flag }

/-- The call goes to the attendant from `s`: the attendant rings for 30 s when it is present and IDLE, and otherwise the call, which
rings nowhere, ends NO_ROUTE (R78). -/
def GoesToAttendant (s : State) (h : Handle) (t : State) : Prop :=
  (∀ a, s.idleAttendant = some a → t = (s.updCall h fun c => c.atAttendant a s.now).enterState a (.ringing h)) ∧
    (s.idleAttendant = none →
      t = (s.updCall h fun c => c.ended .noRoute none).updLink fun l => { l with callOrders := l.callOrders ++ [h] })

/-- The page `p` has ended for a reason: its record is FREE with the generation one higher, its outputs are FREE, its joined
stations IDLE, and the end is advised; nothing else has changed (R124, R126, R127, R137). -/
def PageGone (s u : State) (p : PageId) (pg : Page) (why : EndReason) : Prop :=
  u = { s with pages := u.pages, outputs := u.outputs, stations := u.stations, link := u.link } ∧
    u.link = { (s.advise (.pageState (s.refOf p) pg.cls (.ended why) 0 pg.escGroup)).link with
      stationOrders := u.link.stationOrders } ∧
    u.pages[p] = { gen := s.pages[p].gen + 1, page := none } ∧ (∀ q : PageId, q ≠ p → u.pages[q] = s.pages[q]) ∧
    (∀ o, u.output o =
      if (s.output o).state.holder = some (s.refOf p) then { s.output o with state := .free } else s.output o) ∧
    StationsIn s u (s.joined p) (fun _ => .idle)

/-! ## Checks in order -/

/-- `r` is the reply of the first check that fails, in a list of conditions with the reply each gives. -/
def FirstFailure : List (Prop × Result) → Result → Prop
  | [], _ => False
  | (p, x) :: rest, r => (p ∧ r = x) ∨ (¬ p ∧ FirstFailure rest r)

/-- No check fails. -/
def NoFailure : List (Prop × Result) → Prop
  | [] => True
  | (p, _) :: rest => ¬ p ∧ NoFailure rest

/-- The kind code and the target of a directory entry, as SET_DIR carries them (R166, R171). -/
def DirTarget.codes : DirTarget → Nat × Nat
  | .station i => (0, i.val)
  | .pilot g => (1, g.val)
  | .orbit o => (2, o.val)

/-- The three octets of a search list entry, as SET_LIST carries it (R171). -/
def SearchEntry.octets (e : SearchEntry) : List Octet :=
  (match e.key with
    | .pg n => put1 0 ++ put1 n.val
    | .hq g => put1 1 ++ put1 g.val) ++ putFlag e.enabled

/-- The seven checks of PAGE on a map set, in the order of R115. -/
def pageChecks (s : State) (f : PageFields) (m : MapSetId) : List (Prop × Result) :=
  [ ((s.station f.requester).state = .unused ∨ (s.station f.requester).state = .outOfService, .unknown),
    ((s.stationCfg f.requester).classLimit.num < f.cls.num, .denied),
    (∃ z ∈ f.zones, (s.cfg.maps[m])[z].valid = false, .badZone),
    (f.cls ≠ .emergency ∧ ∃ z ∈ f.zones, (s.cfg.maps[m])[z].reserved = true, .denied),
    (∃ i p pg, f.source = .input i ∧ s.page p = some pg ∧ pg.source = .input i, .inputBusy),
    (∀ p, (s.page p).isSome = true, .full),
    (f.wait = none ∧ f.cls ≠ .background, .badValue) ]

/-! ## Audio -/

/-- An output after the end of its window with decision `d`, gain `gt` and at-limit field `b` (R155 to R157). -/
def Output.closed (x : Output) (c : OutputCfg) (now : Time) (d : Decision) (gt : Nat) (b : Bool) : Output :=
  { x with
    gt := gt, lastCount := some x.count, lastClips := some x.clips,
    lastMean := if x.count < 16 then none else some (x.sum / x.count), lastDecision := some d, atLimit := b,
    windowStart := now, settling := decide (gt ≠ x.gt ∧ c.settle = true ∧ c.hold = false), sum := 0, count := 0,
    clips := 0 }

/-- An output with a silent block: eight zeros, and one noise sample unless its window is in its settling half (R139, R154,
R156). -/
def Output.silentBlock (x : Output) (now : Time) (window : Nat) (noise : Envelope) : Output :=
  if x.settling = true ∧ ageOf now x.windowStart < window / 2 then
    { x with samples := Vector.replicate 8 0, sounding := false }
  else
    { x with samples := Vector.replicate 8 0, sounding := false, sum := x.sum + noise.toNat, count := x.count + 1 }

/-- An output with a sounding block: each sample scaled by the effective gain, each one saturated a clip (R152, R153). -/
def Output.soundingBlock (x : Output) (ge : Nat) (src : Vector Sample 8) : Output :=
  { x with
    samples := src.map fun v => (scaleSample v ge).1, sounding := true,
    clips := x.clips + src.toList.countP fun v => (scaleSample v ge).2 }

end Sys2Proof.Machine
end

