-- ==== Sys2Proof/Certificates/Slice0/Obligations.lean ====
section
/-! DEFINITION. The statements for the provers: what the rules of the manual say of the commands and of the machine. -/

section
open Sys2Proof Sys2Proof.Machine

/-! ## The queue of commands -/

/-- A step takes the command at the front of the queue and is that command on the state with the queue's rest. -/
def Obligations.StepRunsTheFrontCommand : Prop :=
  ∀ (c : Instr) (rest : List Instr) (s : State), s.pending = c :: rest → step s = exec c { s with pending := rest }

/-- What a step does on an empty queue is the MODEL's choice (log entry 2): a part that does not run stays as it is; an idle
transmitter with something to take takes it; otherwise the next event of the part's own joins the queue: the dispatch of the head
frame while dispatch is open, then the first event that the running time has brought, and with none the audio block of the
millisecond on the pins as last presented, with which the millisecond passes (R29, R139, R169, R173). What the time has brought is
a deadline, a period's, guard's or window's end or an age mark; with nothing of it left, no such command finds anything to do. -/
def Obligations.EmptyQueueRunsTheControllersOwnEvents : Prop :=
  (∀ (s : State) (timed : Instr → Prop),
    (∀ i, timed i ↔ i = .saveDeadlineExpiry ∨ i = .rxOctetTimeout ∨ (∃ k, i = .idleAgeSaturated k) ∨
      (∃ g, i = .repeatDeadlineExpiry g) ∨ (∃ o, i = .guardExpiry o ∨ i = .windowEnd o) ∨
      (∃ p, i = .pageWaitExpiry p ∨ i = .chimePeriodEnd p ∨ i = .requestAgeSaturated p) ∨
      ∃ h, i = .noAnswerExpiry h ∨ i = .targetRingExpiry h ∨ i = .attendantRingExpiry h ∨ i = .recallRingExpiry h ∨
        i = .waitDeadlineExpiry h ∨ i = .escalationDeadlineExpiry h ∨ i = .parkDeadlineExpiry h ∨ i = .queueAgeSaturated h ∨
        i = .arrivalAgeSaturated h) →
    (∀ i, s.timedEvent = some i → timed i) ∧ (s.timedEvent = none → ∀ i, timed i → exec i s = .next s)) ∧
  ∀ s : State, s.pending = [] →
    (s.power ≠ .running → step s = .next s) ∧
    (s.power = .running →
      (s.link.tx = none → s.transmitTake.link.tx.isSome = true → step s = .next s.transmitTake) ∧
      (s.link.tx.isSome = true ∨ s.transmitTake.link.tx = none →
        (∀ f rest, s.link.rxBuffer = f :: rest → s.dispatchOpen = true → step s = .next { s with pending := [f.request] }) ∧
        (s.link.rxBuffer = [] ∨ s.dispatchOpen = false →
          (∀ i, s.timedEvent = some i → step s = .next { s with pending := [i] }) ∧
          (s.timedEvent = none → step s = .next { s with pending := [.outputBlock s.pins.inputs s.pins.noise] }))))

/-- Every command answers a next state, leaves the queue of waiting commands alone, and leaves no availability event held back
when none was held back before it (R84, R124). -/
def Obligations.EveryCommandAnswers : Prop :=
  ∀ (c : Instr) (s : State),
    ∃ t, exec c s = .next t ∧ t.pending = s.pending ∧ (s.heldAvail = [] → t.heldAvail = [])

/-! ## What every step keeps -/

/-- The receive buffer, the reply queue and the advisory queue never hold more than their places. -/
def Obligations.LinkStoresStayBounded : Prop :=
  ∀ s t : State, s.link.Bounded → step s = .next t → t.link.Bounded

/-- Every output's tracked gain stays within its limits, and its window counts no more than the blocks that began in it and runs
no longer than W, whatever is commanded; and no time passes in a part held in reset, so that the windows of a pin reset still
begin at the running time from which it runs (R187). -/
def Obligations.TrackedGainsStayWithinLimits : Prop :=
  ∀ s t : State, step s = .next t →
    (GainsWithin s → GainsWithin t) ∧ (WindowsHoldTheirBlocks s → WindowsHoldTheirBlocks t)

/-- The call table keeps its 96 places, its handles stay distinct, and no hop count passes 6. -/
def Obligations.CallTableStaysWhole : Prop :=
  ∀ s t : State, CallTableFits s → step s = .next t → CallTableFits t

/-- The call records agree with each other after every step when they did before it: a record's fields fit its state by the table
of R27, a QUEUED call's escalation deadline included, which is present exactly when its group has a delay and the call is not
escalated; a queue holds within its limit the calls QUEUED at its group, each once, an orbit holds one call, a station rings for a
call exactly when the call lists it, an OFFERING call lists 1 to 32 stations and each once, the call order set holds the ENDING
calls, and the member lists of every configuration held keep the three limits of R44. Of R27's table the presence of a QUEUED call's
wait deadline is left out, which edits of the maximum wait do not follow (R73) (R27, R28, R33, R37, R44, R66, R68, R80, R86,
R100). -/
def Obligations.CallRecordsStayInAgreement : Prop :=
  ∀ s t : State, CallsAgree s → step s = .next t → CallsAgree t

/-- The page and station records agree after every step when they and the call records did before it: outputs are held by pages
that have started, a WAITING page has no chime in play, stations listen to pages in use that name them, a group's escalation page
stands only while its queue holds an escalated call, every configuration held has repeat intervals of 10 s or more, a station is
UNUSED exactly when it is not in use, and stands in the station order set, once, exactly when its presentation differs from the
last sent one (R3, R17, R81, R82, R84, R112, R124, R130, R136, R138). -/
def Obligations.PageAndStationRecordsStayInAgreement : Prop :=
  ∀ s t : State, CallsAgree s → PagesAgree s → StationsAgree s → step s = .next t → PagesAgree t ∧ StationsAgree t

/-- The working configuration changes only by a configuration edit or a power-on reset, and, while a save is in progress, by a
power-on reset alone; the stored copy changes only by SAVE, by a save's end, or by a power-on reset (R181, R184, R186). Every step
keeps the stored copy not valid while a save is in progress (R183, R185). -/
def Obligations.OnlyEditsWriteTheConfiguration : Prop :=
  (∀ (c : Instr) (s t : State), exec c s = .next t →
    (¬ writesConfiguration c → t.cfg = s.cfg) ∧
    ((∀ b, c ≠ .powerOnReset b) → s.save.isSome = true → t.cfg = s.cfg) ∧
    (¬ writesStore c → t.stored = s.stored)) ∧
  ∀ s t : State, SaveClearsStore s → step s = .next t → SaveClearsStore t

/-! ## Resets and supply (10.3) -/

/-- The machine right after reset holds the defaults of every setting: D of 4 and an empty Directory, every station not in use with
no pickup group, search list, rights or class, every group disabled with no members and the defaults of R42, every search list and
zone entry empty, a park time of 120 s, a guard interval of 30 ms, a CP of 500 ms, every pattern of 200 ms and 3 periods, the
defaults of R147 for every output and of R151 for the class offsets. Every call and page record is FREE, every output FREE with GT
64 and a window begun at 0, and START(POWER, DEFAULTS) is pending with no stored copy. That the part has never completed a save is
the MODEL's choice of a reset state (log entry 8). The invariants above hold of it. -/
def Obligations.ResetHoldsTheDefaults : Prop :=
  State.reset.cfg.digitWidth = 4 ∧ State.reset.cfg.directory = [] ∧ State.reset.cfg.attendant = none ∧
    State.reset.cfg.parkTime = 120 ∧ State.reset.cfg.guardInterval = 30 ∧ State.reset.cfg.chimePeriod = 500 ∧
    State.reset.cfg.offsets = { emergency := 32, alert := 16, voice := 0, background := -16 } ∧
    (∀ p : PatternId, State.reset.cfg.patterns[p] = { on := 200, repeats := 3 }) ∧
    (∀ i, State.reset.stationCfg i =
      { inUse := false, pickupGroup := none, searchList := none, override := false, directAny := false,
        classLimit := .background, defaultMapSet := 0 }) ∧
    (∀ i, State.reset.station i = { state := .unused, idleSince := 0, saturated := false, lastSent := .quiet }) ∧
    (∀ g, State.reset.groupCfg g =
      { enabled := false, algorithm := .linear, members := [], noAnswer := 15, queueLimit := 8, maxWait := 0,
        target := .nowhere, escDelay := 0, escMapSet := 0, escZones := [], chime := 0, repeatInterval := 30 }) ∧
    (∀ g, State.reset.group g =
      { cursor := none, queue := [], escPage := none, repeatDeadline := none, repeatDue := false }) ∧
    (∀ l : ListId, State.reset.cfg.lists[l] = []) ∧
    (∀ (m : MapSetId) (z : ZoneId),
      (State.reset.cfg.maps[m])[z] = { valid := false, outputs := 0, desks := [], reserved := false }) ∧
    (∀ o, State.reset.outputCfg o =
      { gmin := 32, gmax := 160, gceil := 255, stepSize := 4, ut := 1800, lt := 1200, ct := 40, window := 1000,
        settle := true, hold := false }) ∧
    (∀ o, State.reset.output o =
      { state := .free, gt := 64, windowStart := 0, settling := false, sum := 0, count := 0, clips := 0, lastCount := none,
        lastMean := none, lastClips := none, lastDecision := none, atLimit := false, samples := Vector.replicate 8 0,
        sounding := false }) ∧
    State.reset.calls = [] ∧ (∀ p : PageId, State.reset.pages[p] = { gen := 0, page := none }) ∧
    State.reset.link =
      { receiver := .hunting, rxBuffer := [], replies := [], start := some (.power, .defaults), saveDone := none, callOrders := [],
        stationOrders := [], advisories := [], rxError := false, rxOverrun := false, advLost := false, tx := none,
        startSent := false, resetAwaited := false } ∧
    State.reset.storeInvalid = true ∧ State.reset.save = none ∧
    State.reset.now = 0 ∧ State.reset.link.Bounded ∧ GainsWithin State.reset ∧ WindowsHoldTheirBlocks State.reset ∧
    CallTableFits State.reset ∧ CallsAgree State.reset ∧ PagesAgree State.reset ∧ StationsAgree State.reset ∧
    SaveClearsStore State.reset

/-- A power-on reset loads the working configuration from a valid stored copy whose check value matches, and otherwise sets
every field to its default; GT is 64 clamped into the loaded limits. A pin reset of the running part, and a link reset at the
end of the reply to an accepted RESET, which FRAME_TRANSMITTED is too, keep the working configuration, GT and the stored copy as
the save's start left it, and leave START pending with their cause; the pin reset holds the part in reset until RST_N is
released, when it runs from running time 0. Each reset clears every call, page, grant, window and link store: an output is FREE
with its window begun at 0 and no last window, a group has no cursor, no queue and no escalation, the receiver hunts with no
flag set. A loss of power leaves no save in progress and the stored copy as it stands (R186, R187); that every other field keeps
its value without power, and that a part powered up runs at once, are the MODEL's choices (log entry 9), and so is that
FRAME_TRANSMITTED and LINK_RESET are one event at the end of the reply to an accepted RESET (log entry 6, DEDUCED). -/
def Obligations.ResetsLoadOrRetainTheConfiguration : Prop :=
  (∀ c o, Link.afterReset c o =
      { receiver := .hunting, rxBuffer := [], replies := [], start := some (c, o), saveDone := none, callOrders := [],
        stationOrders := [], advisories := [], rxError := false, rxOverrun := false, advLost := false, tx := none,
        startSent := false, resetAwaited := false }) ∧
  Group.afterReset = { cursor := none, queue := [], escPage := none, repeatDeadline := none, repeatDue := false } ∧
  (∀ gt, Output.afterReset gt =
    { state := .free, gt := gt, windowStart := 0, settling := false, sum := 0, count := 0, clips := 0, lastCount := none,
      lastMean := none, lastClips := none, lastDecision := none, atLimit := false, samples := Vector.replicate 8 0,
      sounding := false }) ∧
  (∀ (b : Bool) (s : State), ∃ t, exec (.powerOnReset b) s = .next t ∧
    (∀ c, s.stored = some c → b = true →
      t.cfg = c ∧ t.stored = some c ∧ t.link = Link.afterReset .power .stored) ∧
    (s.stored = none ∨ b = false →
      t.cfg = WorkingConfig.defaults ∧ t.stored = none ∧ t.link = Link.afterReset .power .defaults) ∧
    t.power = .running ∧ t.now = 0 ∧ t.save = none ∧ t.calls = [] ∧
    (∀ g, t.group g = Group.afterReset) ∧
    (∀ p : PageId, t.pages[p] = { gen := 0, page := none }) ∧
    (∀ i, t.station i = { state := if (t.stationCfg i).inUse then .idle else .unused, idleSince := 0, saturated := false,
                          lastSent := .quiet }) ∧
    (∀ o, t.output o = Output.afterReset (max (t.outputCfg o).gmin (min (t.outputCfg o).gmax 64))) ∧
    t.pins = s.pins ∧ t.pending = s.pending) ∧
  ∀ s : State,
    (s.power = .heldInReset → exec .leavesReset s = .next { s with power := .running, now := 0 }) ∧
    exec .lossOfPower s = .next { s with power := .unpowered, save := none } ∧
    (s.power = .running →
    ∃ t : Power → StartCause → State,
      exec .pinReset s = .next (t .heldInReset .pin) ∧
      (∀ f, s.link.tx = some f → f.item = .resetReply →
        exec .linkReset s = .next (t .running .link) ∧ exec .frameTransmitted s = .next (t .running .link)) ∧
      ∀ p c,
        (t p c).power = p ∧ (t p c).link = Link.afterReset c .retained ∧ (t p c).cfg = s.cfg ∧ (t p c).stored = s.stored ∧
        (t p c).save = none ∧ (t p c).now = 0 ∧ (t p c).calls = [] ∧ (∀ g, (t p c).group g = Group.afterReset) ∧
        (∀ q : PageId, (t p c).pages[q] = { gen := 0, page := none }) ∧
        (∀ i, (t p c).station i =
          { state := if (s.stationCfg i).inUse then .idle else .unused, idleSince := 0, saturated := false,
            lastSent := .quiet }) ∧
        (∀ o, (t p c).output o = Output.afterReset (s.output o).gt) ∧
        (t p c).pins = s.pins ∧ (t p c).pending = s.pending)

/-! ## The line (9.1 to 9.3) -/

/-- The octets of any frame sent whole, SYNC to CHECK, are received as that frame: it joins the receive buffer, or is discarded
with RX_OVERRUN when 4 frames wait there, or is discarded without a flag before START has been sent; with any other CHECK it is
abandoned with RX_ERROR (R165, R167, R168, R188). LEN, KIND, TAG and BODY are covered by the CHECK, a CRC-16 with generator x^16
+ x^12 + x^5 + 1 from 0xFFFF, each octet's most significant bit first, sent uninverted, high octet first; over 0x31 to 0x39 it
is 0x29B1. That the octets of a whole frame arrive within one millisecond is the MODEL's reading of the row (log entry 4). -/
def Obligations.FrameSentWholeIsReceived : Prop :=
  (∀ (f : Frame) (feed : BitVec 16 → Bool → BitVec 16),
    (∀ r b, feed r b = if r.msb = b then r <<< 1 else (r <<< 1) ^^^ 0x1021) →
    f.octets = 0xB7 :: f.covered ++ putCheck (checkOf f.covered) ∧
    f.covered = [BitVec.ofNat 8 (f.body.length + 2), f.kind, f.tag] ++ f.body ∧
    (∀ os, checkOf os = (os.flatMap fun o => (List.range 8).reverse.map o.getLsbD).foldl feed 0xFFFF) ∧
    ∀ check : BitVec 16, putCheck check = [BitVec.ofNat 8 (check.toNat / 256), BitVec.ofNat 8 check.toNat]) ∧
  checkOf [0x31, 0x32, 0x33, 0x34, 0x35, 0x36, 0x37, 0x38, 0x39] = 0x29B1 ∧
  ∀ (f : Frame) (s : State), f.body.length ≤ 240 → Runs s → s.link.receiver = .hunting →
    exec (.frameReceived f.kind f.tag f.body (checkOf f.covered)) s =
      .next (s.updLink fun l =>
        if l.startSent then
          if l.rxBuffer.length < 4 then { l with rxBuffer := l.rxBuffer ++ [f] } else { l with rxOverrun := true }
        else l).transmitTake ∧
    ∀ check, check ≠ checkOf f.covered →
      exec (.frameReceived f.kind f.tag f.body check) s =
        .next (s.updLink fun l => { l with rxError := true }).transmitTake

/-- One octet, hunting: 0xB7 with its stop bit starts a frame, every other octet is discarded. In a frame: an octet later than 5
ms after the last one, or a broken one, or a LEN below 2 or above 242 abandons the frame with RX_ERROR (after a gap the octet is
met hunting); any other octet short of the second CHECK octet is taken as data. The second CHECK octet completes a frame whose
CHECK matches, as its reception whole does, and abandons it otherwise. The time-out abandons a frame whose last octet is more than
5 ms old (R165, R167, R168). That 5 ms are judged on the millisecond count, and that a late octet is itself met hunting, is the
MODEL's reading (log entry 4). -/
def Obligations.ReceiverTakesOctets : Prop :=
  (∀ (s : State) (o : Octet) (stopBit : Bool) (os : List Octet) (last : Time), Runs s →
    (s.link.receiver = .hunting →
      exec (.octetReceived o stopBit) s = .next (s.updLink fun l =>
        if o = 0xB7 ∧ stopBit = true then { l with receiver := .inFrame [] s.now } else l).transmitTake) ∧
    (s.link.receiver = .inFrame os last →
      (5 < ageOf s.now last →
        exec (.octetReceived o stopBit) s = .next (s.updLink fun l =>
          { l with rxError := true
                   receiver := if o = 0xB7 ∧ stopBit = true then .inFrame [] s.now else .hunting }).transmitTake ∧
        exec .rxOctetTimeout s =
          .next (s.updLink fun l => { l with receiver := .hunting, rxError := true }).transmitTake) ∧
      (ageOf s.now last ≤ 5 → stopBit = false →
        exec (.octetReceived o stopBit) s =
          .next (s.updLink fun l => { l with receiver := .hunting, rxError := true }).transmitTake) ∧
      (ageOf s.now last ≤ 5 → stopBit = true → os = [] → o.toNat < 2 ∨ 242 < o.toNat →
        exec (.octetReceived o stopBit) s =
          .next (s.updLink fun l => { l with receiver := .hunting, rxError := true }).transmitTake) ∧
      (ageOf s.now last ≤ 5 → stopBit = true →
        (∀ len rest, os ++ [o] = len :: rest → 2 ≤ len.toNat ∧ len.toNat ≤ 242 ∧ rest.length ≠ len.toNat + 2) →
        exec (.octetReceived o stopBit) s =
          .next (s.updLink fun l => { l with receiver := .inFrame (os ++ [o]) s.now }).transmitTake))) ∧
  ∀ (s : State) (f : Frame) (o : Octet) (check : BitVec 16) (os : List Octet) (last : Time), Runs s →
    f.body.length ≤ 240 → s.link.receiver = .inFrame os last → ageOf s.now last ≤ 5 →
    os ++ [o] = f.covered ++ putCheck check →
    exec (.octetReceived o true) s = exec (.frameReceived f.kind f.tag f.body check) (s.updLink fun l =>
      { l with receiver := .hunting })

/-! ## Dispatch and replies (9.4) -/

/-- A frame whose KIND names no request is answered UNKNOWN_KIND, and a request whose body has not the layout that R171 gives its
KIND, octets too few or left over, is answered BAD_LENGTH, before every other check; both change no state (R169, R171). -/
def Obligations.UnknownKindAndBadLengthAnswered : Prop :=
  ∀ (s : State) (f : Frame) (rest : List Frame), Ready s f rest →
    (f.kind.toNat ∉ requestKinds →
      exec (.unknownKind f.kind f.tag f.body) s = .next ((s.takeHead rest).answer f .unknownKind [])) ∧
    (f.kind.toNat ∈ requestKinds → ¬ WholeBody f →
      exec f.request s = .next ((s.takeHead rest).answer f .badLength [])) ∧
    (∀ n, fixedLength f.kind = some n → (WholeBody f ↔ f.body.length = n))

/-- The command that dispatches a frame carries that frame's KIND, TAG and BODY (R169, R171). A request that does not stand at the
head of the receive buffer, or that meets a part not running, an accepted RESET or a full reply queue, is not dispatched: nothing
changes (R169, R187). Dispatch is open while the part runs, no RESET is awaited and fewer than 8 replies wait. That such a command
changes nothing is the MODEL's reading of a command that comes out of its time (log entry
1). -/
def Obligations.OnlyTheHeadFrameIsDispatched : Prop :=
  (∀ f : Frame, requestFrame f.request = some f) ∧
  (∀ s : State, (s.dispatchOpen = true ↔ s.power = .running ∧ s.link.resetAwaited = false ∧ s.link.replies.length < 8) ∧
    ∀ rest, s.takeHead rest = s.updLink fun l => { l with rxBuffer := rest }) ∧
  ∀ (c : Instr) (f : Frame) (s : State), requestFrame c = some f →
    (s.link.rxBuffer.head? ≠ some f ∨ s.power ≠ .running ∨ s.link.resetAwaited = true ∨ 8 ≤ s.link.replies.length) →
    exec c s = .next s

/-- A reply joins the tail of the reply queue; while a frame is on the line nothing else happens. The idle transmitter takes the
oldest reply first: KIND 0x80, the request's TAG, then the request's KIND, the result code, the four status flags as they stand
and the content; the three flags of the link's own are cleared, STORE_INVALID is not (R169, R170, R172, R173). -/
def Obligations.RepliesCarryTheStatusFlags : Prop :=
  (∀ (s : State) (f : Frame) (r : Result) (c : List Octet), s.answer f r c = (s.updLink fun l =>
    { l with replies := l.replies ++ [{ kind := f.kind, tag := f.tag, result := r, content := c }] }).transmitTake) ∧
  (∀ (s : State) (f : Frame) (r : Result) (c : List Octet) (x : TxFrame), s.link.tx = some x →
    s.answer f r c = s.updLink fun l =>
      { l with replies := l.replies ++ [{ kind := f.kind, tag := f.tag, result := r, content := c }] }) ∧
  [Result.ok, .tooLate, .nothing, .denied, .full, .duplicate, .unknown, .notPilot, .badValue, .badZone, .inputBusy, .noOutputs,
    .refusedState, .saving, .notEmpty, .badLength, .unknownKind].map Result.code = List.range 17 ∧
  ∀ (s : State) (r : Reply) (rest : List Reply), s.link.tx = none → s.link.replies = r :: rest →
    ∃ flags : Octet,
      flags.getLsbD 0 = s.link.rxError ∧ flags.getLsbD 1 = s.link.rxOverrun ∧ flags.getLsbD 2 = s.link.advLost ∧
      flags.getLsbD 3 = s.stored.isNone ∧ (∀ i, 4 ≤ i → flags.getLsbD i = false) ∧
      s.transmitTake = s.updLink fun l =>
        { l with
          tx := some
            { item := if r.kind = 0x3F ∧ r.result = .ok then .resetReply else .reply
              octets := ({ kind := 0x80, tag := r.tag,
                           body := [r.kind, BitVec.ofNat 8 r.result.code, flags] ++ r.content } : Frame).octets }
          replies := rest, rxError := false, rxOverrun := false, advLost := false }

/-- With no reply pending the idle transmitter takes START, then SAVE_DONE, then the oldest CALL_END (which stays in its set),
then the station order with the oldest mark (built from the presentation of the moment, which becomes the last sent one), then
the oldest advisory; while a RESET is awaited it takes none of them, and while a frame is on the line it takes nothing (R173,
R174, R187). A frame's octets are SYNC, LEN, KIND, TAG, BODY and CHECK (R165), and the causes, origins and outcomes have the codes of
R166. -/
def Obligations.TransmitterTakesInOrder : Prop :=
  (∀ f : Frame, f.octets =
    [0xB7, BitVec.ofNat 8 (f.body.length + 2), f.kind, f.tag] ++ f.body ++
      putCheck (checkOf ([BitVec.ofNat 8 (f.body.length + 2), f.kind, f.tag] ++ f.body))) ∧
  [StartCause.power, .pin, .link].map StartCause.code = [0, 1, 2] ∧
  [StartOrigin.stored, .defaults, .retained].map StartOrigin.code = [0, 1, 2] ∧
  [SaveOutcome.ok, .failed, .timeout].map SaveOutcome.code = [0, 1, 2] ∧
  [CallOutcome.answered, .picked, .retrieved, .abandoned, .noRoute].map CallOutcome.code = [0, 1, 2, 3, 4] ∧
  ∀ s : State,
    (∀ x, s.link.tx = some x → s.transmitTake = s) ∧
    (s.link.tx = none → s.link.replies = [] → s.link.resetAwaited = true → s.transmitTake = s) ∧
    (s.link.tx = none → s.link.replies = [] → s.link.resetAwaited = false →
      (∀ c o, s.link.start = some (c, o) →
        s.transmitTake = s.updLink fun l =>
          { l with tx := some { item := .start
                                octets := ({ kind := 0x60, tag := 0, body := put1 c.code ++ put1 o.code } : Frame).octets }
                   start := none }) ∧
      (∀ o, s.link.start = none → s.link.saveDone = some o →
        s.transmitTake = s.updLink fun l =>
          { l with tx := some { item := .other, octets := ({ kind := 0x61, tag := 0, body := put1 o.code } : Frame).octets }
                   saveDone := none }) ∧
      (∀ h hs c, s.link.start = none → s.link.saveDone = none → s.link.callOrders = h :: hs → s.findCall h = some c →
        s.transmitTake = s.updLink fun l =>
          { l with
            tx := some
              { item := .callEnd h
                octets :=
                  ({ kind := 0x62, tag := 0,
                     body := put2 h ++ putOpt1 (c.outcome.map CallOutcome.code) ++ putOpt2 (c.outcomeStation.map Fin.val) } :
                    Frame).octets } }) ∧
      (∀ m ms, s.link.start = none → s.link.saveDone = none → s.link.callOrders = [] → s.link.stationOrders = m :: ms →
        s.transmitTake =
          (s.updStation m.station fun x => { x with lastSent := s.present (s.station m.station).state }).updLink fun l =>
            { l with
              tx := some
                { item := .other
                  octets :=
                    ({ kind := 0x63, tag := 0,
                       body := stationOrderBody m.station (s.present (s.station m.station).state) } : Frame).octets }
              stationOrders := ms }) ∧
      (∀ a rest, s.link.start = none → s.link.saveDone = none → s.link.callOrders = [] → s.link.stationOrders = [] →
        s.link.advisories = a :: rest →
        s.transmitTake = s.updLink fun l =>
          { l with tx := some { item := .other, octets := a.frame.octets }, advisories := rest }) ∧
      (s.link.start = none → s.link.saveDone = none → s.link.callOrders = [] → s.link.stationOrders = [] →
        s.link.advisories = [] → s.transmitTake = s))

/-- The end of a transmission leaves the transmitter idle and it takes again: the record of a CALL_END becomes FREE and its entry
leaves the call order set, and the end of START opens the receive buffer. The end of the reply to an accepted RESET is the link
reset, by whichever of its two rows it comes: every store of the link is as after a reset with START(LINK, RETAINED) pending, the
running time is 0, no call and no page is in use, and the configuration is retained (R38, R173, R174, R187, R188). That the two
rows stand for one event is the MODEL's reading (log entry 6). -/
def Obligations.EndOfTransmissionFreesTheRecord : Prop :=
  ∀ (s : State) (x : TxFrame), Runs s → s.link.tx = some x →
    (x.item = .reply ∨ x.item = .other →
      exec .frameTransmitted s = .next (s.updLink fun l => { l with tx := none }).transmitTake) ∧
    (x.item = .start →
      exec .frameTransmitted s = .next (s.updLink fun l => { l with tx := none, startSent := true }).transmitTake) ∧
    (∀ h, x.item = .callEnd h → ∃ u : State,
      exec .frameTransmitted s = .next u.transmitTake ∧
      u = { s with calls := u.calls,
                   link := { s.link with tx := none, callOrders := s.link.callOrders.filter fun k => decide (k ≠ h) } } ∧
      u.findCall h = none ∧ (∀ k, k ≠ h → u.findCall k = s.findCall k)) ∧
    (x.item = .resetReply → ∃ u : State, exec .frameTransmitted s = .next u ∧ exec .linkReset s = .next u ∧
      u.link = Link.afterReset .link .retained ∧ u.power = .running ∧ u.now = 0 ∧ u.calls = [] ∧ (∀ p, u.page p = none) ∧
      u.cfg = s.cfg ∧ u.pending = s.pending)

/-- What a station presents: RINGING its call's handle, the ring kind, RECALL exactly while the call is in RECALL, and the
caller number; PAGE_LISTEN the page reference and the page's source; every other state QUIET (R16). An advisory joins the tail
of the advisory queue while it holds fewer than 32, and otherwise is discarded with ADV_LOST; no other state changes (R175). The
forms of R166, a number in n octets most significant first and the none values. The octets of a station order's body by the kind
of presentation (R174), and the KIND and the octets of the four advisories: fields of several octets most significant first, the
codes of R166, 255 for what is absent, and a free value in the two octets after a target of NONE or ATTENDANT (R166, R176, log
entry 14). -/
def Obligations.AdvisoriesAndOrdersCarryTheirFields : Prop :=
  (∀ s : State,
    (∀ h c, s.findCall h = some c → s.present (.ringing h) = .ring h (decide (c.state = .recalling)) c.caller) ∧
    (∀ r pg, s.pageAt r = some pg → s.present (.pageListen r) = .desk r pg.source) ∧
    ∀ st ∈ [StationState.unused, .outOfService, .idle, .busy], s.present st = .quiet) ∧
  (∀ n v, (putNumber n v).length = n ∧ ∀ k, k < n → (putNumber n v)[k]? = some (BitVec.ofNat 8 (v / 256 ^ (n - 1 - k)))) ∧
  (∀ v, put1 v = putNumber 1 v ∧ put2 v = putNumber 2 v) ∧ (∀ b, putFlag b = [if b = true then 1 else 0]) ∧
  (∀ v, putOpt1 v = put1 (v.getD 255) ∧ putOpt2 v = put2 (v.getD 65535)) ∧
  (∀ d, putDigits d = put1 d.length ++ d.flatMap put1) ∧ (∀ m : OutputSet, putSet m = put2 m.toNat) ∧
  (∀ l : List StationId, putStations l = put1 l.length ++ l.flatMap fun i => put2 i.val) ∧
  putRef none = [255, 0] ∧ (∀ r, putRef (some r) = put1 r.id.val ++ [r.gen]) ∧
  (∀ (s : State) (a : Advisory),
    (s.link.advisories.length < 32 →
      s.advise a = s.updLink fun l => { l with advisories := l.advisories ++ [a] }) ∧
    (32 ≤ s.link.advisories.length → s.advise a = s.updLink fun l => { l with advLost := true })) ∧
  ∀ (num : Nat → Octet) (wide : Nat → List Octet) (absent : Option Nat → Octet),
    (∀ n, num n = BitVec.ofNat 8 n) → (∀ n, wide n = [num (n / 256), num (n % 256)]) →
    (absent none = 255) → (∀ n, absent (some n) = num n) →
    (∀ i, stationOrderBody i .quiet = wide i.val ++ [0]) ∧
    (∀ i h isRecall caller,
      stationOrderBody i (.ring h isRecall caller) =
        wide i.val ++ [1] ++ wide h ++ [if isRecall then 1 else 0, num caller.length] ++ caller.map num) ∧
    (∀ i r k, stationOrderBody i (.desk r (.input k)) = wide i.val ++ [2, num r.id.val, r.gen, num k.val]) ∧
    (∀ i r k, stationOrderBody i (.desk r (.chime k)) = wide i.val ++ [2, num r.id.val, r.gen, num (16 + k.val)]) ∧
    (∀ h left why dest hops code target,
      [(.queueFull, 0), (.displaced, 1), (.waitExpired, 2), (.limitLowered, 3), (.groupDisabled, 4), (.loop, 5),
        (.targetBusy, 6), (.targetNoAnswer, 7)].lookup why = some code →
      (∀ k, dest = .group k → target = [1, 0, num k.val]) → (∀ i, dest = .station i → target = 2 :: wide i.val) →
      (dest = .nowhere → target = [0, Config.unreadOctet 0, Config.unreadOctet 1]) →
      (dest = .attendant → target = [3, Config.unreadOctet 0, Config.unreadOctet 1]) →
      (Advisory.routed h left why dest hops).frame =
        { kind := 0x68, tag := 0,
          body := wide h ++ [absent (left.map Fin.val), num code] ++ target ++ [num hops] }) ∧
    (∀ g r n, (Advisory.escalate g (.started r) n).frame =
      { kind := 0x69, tag := 0, body := [num g.val, 0, num r.id.val, r.gen, num n] }) ∧
    (∀ g report n code, [(EscReport.skipped, 1), (.badZone, 2), (.cleared, 3)].lookup report = some code →
      (Advisory.escalate g report n).frame = { kind := 0x69, tag := 0, body := [num g.val, num code, 255, 0, num n] }) ∧
    (∀ r cls st held g code,
      [(PageState.waiting, 0), (.starting, 1), (.live, 2)].lookup st = some code →
      (Advisory.pageState r cls (.entered st) held g).frame =
        { kind := 0x6A, tag := 0,
          body := [num r.id.val, r.gen, num cls.num, num code, 255, num held, absent (g.map Fin.val)] }) ∧
    (∀ r cls why held g code,
      [(EndReason.endedByHost, 0), (.complete, 1), (.waitExpired, 2), (.preempted, 3), (.escalationCleared, 4)].lookup why =
        some code →
      (Advisory.pageState r cls (.ended why) held g).frame =
        { kind := 0x6A, tag := 0,
          body := [num r.id.val, r.gen, num cls.num, 3, num code, num held, absent (g.map Fin.val)] }) ∧
    ∀ o gt mean ut, (Advisory.noiseLimit o gt mean ut).frame =
      { kind := 0x6B, tag := 0, body := [num o.val, num gt] ++ wide mean ++ wide ut }

/-! ## Stations (chapter 1) -/

/-- R17: on a change of a station's state the new presentation is compared with the last sent one. The four rows of the table:
the station joins the set as its newest mark with mark time now, or is not marked, or keeps its mark and place, or loses its
mark unsent; afterwards it is marked exactly when the two differ, and the set holds each station at most once. The station's
own change is whole, and nothing else changes. -/
def Obligations.StationOrderMarking : Prop :=
  ∀ (s : State) (i : StationId) (st : StationState), ∃ u, s.enterState i st = u ∧
    OnlyStations s u ∧ u.station i = { s.station i with state := st } ∧ (∀ j, j ≠ i → u.station j = s.station j) ∧
    (s.marked i = false → s.present st ≠ (s.station i).lastSent →
      u.link.stationOrders = s.link.stationOrders ++ [{ station := i, time := s.now }]) ∧
    (s.marked i = false → s.present st = (s.station i).lastSent → u.link.stationOrders = s.link.stationOrders) ∧
    (s.marked i = true → s.present st ≠ (s.station i).lastSent → u.link.stationOrders = s.link.stationOrders) ∧
    (s.marked i = true → s.present st = (s.station i).lastSent →
      u.link.stationOrders = s.link.stationOrders.filter fun m => decide (m.station ≠ i)) ∧
    (u.marked i = true ↔ u.present (u.station i).state ≠ (u.station i).lastSent) ∧
    ((s.link.stationOrders.map Mark.station).Nodup → (u.link.stationOrders.map Mark.station).Nodup)

/-- The STATION reports in every state but RINGING (R6 to R10): a station above 511 or a report that is none of the four is
BAD_VALUE, an UNUSED station is UNKNOWN; OFFHOOK takes an IDLE or listening station to BUSY, OUT_OF_SERVICE an IDLE, BUSY or
listening one to OUT_OF_SERVICE; ONHOOK of a BUSY station and IN_SERVICE of one out of service make it IDLE with idle-since now,
its mark cleared and its availability event following; every other report changes nothing. -/
def Obligations.StationReportsInEveryState : Prop :=
  ∀ (s : State) (tag : Octet) (v r : Nat) (i : StationId) (rest : List Frame), v < 65536 → r < 256 →
    (Ready s ⟨0x04, tag, put2 v ++ put1 r⟩ rest → 511 < v ∨ 3 < r →
      exec (⟨0x04, tag, put2 v ++ put1 r⟩ : Frame).request s =
        .next ((s.takeHead rest).answer ⟨0x04, tag, put2 v ++ put1 r⟩ .badValue [])) ∧
    (Ready s ⟨0x04, tag, put2 i.val ++ put1 r⟩ rest → r ≤ 3 → (s.station i).state = .unused →
      exec (⟨0x04, tag, put2 i.val ++ put1 r⟩ : Frame).request s =
        .next ((s.takeHead rest).answer ⟨0x04, tag, put2 i.val ++ put1 r⟩ .unknown [])) ∧
    (Ready s ⟨0x04, tag, put2 i.val ++ put1 0⟩ rest →
      ((s.station i).state = .idle ∨ (∃ p, (s.station i).state = .pageListen p) →
        exec (.stationOffhook tag (put2 i.val ++ put1 0)) s =
          .next (((s.takeHead rest).enterState i .busy).answer ⟨0x04, tag, put2 i.val ++ put1 0⟩ .ok [])) ∧
      ((s.station i).state = .busy ∨ (s.station i).state = .outOfService →
        exec (.stationOffhook tag (put2 i.val ++ put1 0)) s =
          .next ((s.takeHead rest).answer ⟨0x04, tag, put2 i.val ++ put1 0⟩ .ok []))) ∧
    (Ready s ⟨0x04, tag, put2 i.val ++ put1 1⟩ rest →
      ((s.station i).state = .busy →
        exec (.stationOnhook tag (put2 i.val ++ put1 1)) s =
          .next (((((s.takeHead rest).updStation i fun x => { x with idleSince := s.now, saturated := false }).enterState i
            .idle).availability i).flush.answer ⟨0x04, tag, put2 i.val ++ put1 1⟩ .ok [])) ∧
      ((s.station i).state = .idle ∨ (∃ h, (s.station i).state = .ringing h) ∨ (∃ p, (s.station i).state = .pageListen p) ∨
          (s.station i).state = .outOfService →
        exec (.stationOnhook tag (put2 i.val ++ put1 1)) s =
          .next ((s.takeHead rest).answer ⟨0x04, tag, put2 i.val ++ put1 1⟩ .ok []))) ∧
    (Ready s ⟨0x04, tag, put2 i.val ++ put1 2⟩ rest →
      ((s.station i).state = .idle ∨ (s.station i).state = .busy ∨ (∃ p, (s.station i).state = .pageListen p) →
        exec (.stationOutOfService tag (put2 i.val ++ put1 2)) s =
          .next (((s.takeHead rest).enterState i .outOfService).answer ⟨0x04, tag, put2 i.val ++ put1 2⟩ .ok [])) ∧
      ((s.station i).state = .outOfService →
        exec (.stationOutOfService tag (put2 i.val ++ put1 2)) s =
          .next ((s.takeHead rest).answer ⟨0x04, tag, put2 i.val ++ put1 2⟩ .ok []))) ∧
    (Ready s ⟨0x04, tag, put2 i.val ++ put1 3⟩ rest →
      ((s.station i).state = .outOfService →
        exec (.stationInService tag (put2 i.val ++ put1 3)) s =
          .next (((((s.takeHead rest).updStation i fun x => { x with idleSince := s.now, saturated := false }).enterState i
            .idle).availability i).flush.answer ⟨0x04, tag, put2 i.val ++ put1 3⟩ .ok [])) ∧
      ((s.station i).state = .idle ∨ (∃ h, (s.station i).state = .ringing h) ∨ (∃ p, (s.station i).state = .pageListen p) ∨
          (s.station i).state = .busy →
        exec (.stationInService tag (put2 i.val ++ put1 3)) s =
          .next ((s.takeHead rest).answer ⟨0x04, tag, put2 i.val ++ put1 3⟩ .ok [])))

/-- OFFHOOK, OUT_OF_SERVICE and a return to UNUSED for a station that rings for a call: the station leaves the call's offered
stations and takes the state of the cause. The call rings on at its other stations, its ring deadline and tried set unchanged. With
none left it proceeds as on no-answer at once: a group call is offered to a member selected, or returns to its queue with its tried
set reduced to the station that left; a target ring falls to the attendant with its ROUTED advisory; an attendant ring ends the
call NO_ROUTE; a recall goes to the attendant, unless that is absent, not IDLE or the parker (R3, R7, R9, R55, R77, R78, R104,
R105). -/
def Obligations.CallProceedsWhenAStationLeavesItsRing : Prop :=
  ∀ (s b s1 s2 : State) (i : StationId) (st : StationState) (h : Handle) (c : Call) (rest : List Frame) (cmd : Instr) (f : Frame)
    (goesOn : State → Prop), (s.station i).state = .ringing h → s.findCall h = some c → Ready s f rest →
    (cmd = .stationOffhook f.tag f.body ∧ f.kind = 0x04 ∧ f.body = put2 i.val ++ put1 0 ∧ b = s.takeHead rest ∧ st = .busy ∨
      cmd = .stationOutOfService f.tag f.body ∧ f.kind = 0x04 ∧ f.body = put2 i.val ++ put1 2 ∧ b = s.takeHead rest ∧
        st = .outOfService ∨
      cmd = .setStation f.tag f.body ∧ f.kind = 0x32 ∧ f.body = put2 i.val ++ put2 i.val ++ put1 1 ++ put1 0 ∧
        s.save = none ∧ st = .unused ∧ b = ((s.takeHead rest).updCfg fun k =>
          { k with stations := k.stations.set i.val { s.stationCfg i with inUse := false } i.isLt })) →
    s1 = ((b.updCall h fun x => { x with offered := x.offered.filter fun y => decide (y.station ≠ i) }).enterState i st) →
    s2 = (s1.updCall h fun x => { x with ringDeadline := none }) →
    (∀ t, goesOn t ↔ exec cmd s = .next (t.answer f .ok [])) →
    ((∃ x ∈ c.offered, x.station ≠ i) → goesOn s1) ∧
    ((∀ x ∈ c.offered, x.station = i) → c.state ≠ .queued →
      (∀ g sts, c.offerKind = some .group → c.currentGroup = some g → sts = s1.select g c →
        ((s.groupCfg g).algorithm ≠ .simultaneous → sts ≠ [] → goesOn (s2.offerGroup h g sts).flush) ∧
        ((s.groupCfg g).algorithm = .simultaneous ∨ sts = [] → goesOn (s2.returnToQueue h g [i]).flush)) ∧
      (∀ t, c.offerKind = some .target →
        GoesToAttendant (s2.advise (.routed h none .targetNoAnswer .attendant c.hops)) h t → goesOn t) ∧
      (∀ t, t = ((s2.updCall h fun x => x.ended .noRoute none).updLink fun l => { l with callOrders := l.callOrders ++ [h] }) →
        (c.offerKind = some .attendant → goesOn t) ∧
        (c.offerKind = some .recalling → s2.idleAttendant = none ∨ s2.idleAttendant = c.parker → goesOn t)) ∧
      (∀ a, c.offerKind = some .recalling → s2.idleAttendant = some a → c.parker ≠ some a →
        goesOn ((s2.updCall h fun x => x.atAttendant a s.now).enterState a (.ringing h))))

/-! ## Calls (chapters 2 and 3) -/

/-- R31: the checks of CALL_IN in their order. A refused CALL_IN changes no state; a CALL_IN that passes every check is answered
OK with the state its call has reached, whether or not a save is in progress and whether or not the pilot's group is enabled. -/
def Obligations.CallInCheckedInOrder : Prop :=
  ∀ (s : State) (tag : Octet) (h : Nat) (pilot caller : List Nat) (noPickup : Bool) (rest : List Frame),
    h < 65536 → pilot.length < 256 → caller.length < 256 → (∀ d ∈ pilot, d < 256) → (∀ d ∈ caller, d < 256) →
    ∀ body, body = put2 h ++ putDigits pilot ++ putDigits caller ++ putFlag noPickup →
    Ready s ⟨0x01, tag, body⟩ rest →
    ∀ bad : Prop, (bad ↔ h = 0 ∨ 8 < pilot.length ∨ 8 < caller.length ∨ (∃ d ∈ pilot, 9 < d) ∨ ∃ d ∈ caller, 9 < d) →
    (bad → exec (.callIn tag body) s = .next ((s.takeHead rest).answer ⟨0x01, tag, body⟩ .badValue [])) ∧
    (¬ bad → (s.findCall h).isSome = true →
      exec (.callIn tag body) s = .next ((s.takeHead rest).answer ⟨0x01, tag, body⟩ .duplicate [])) ∧
    (¬ bad → s.findCall h = none → s.resolve pilot = none →
      exec (.callIn tag body) s = .next ((s.takeHead rest).answer ⟨0x01, tag, body⟩ .unknown [])) ∧
    (¬ bad → s.findCall h = none → (∃ i, s.resolve pilot = some (.station i)) ∨ (∃ o, s.resolve pilot = some (.orbit o)) →
      exec (.callIn tag body) s = .next ((s.takeHead rest).answer ⟨0x01, tag, body⟩ .notPilot [])) ∧
    (∀ g, ¬ bad → s.findCall h = none → s.resolve pilot = some (.pilot g) →
      (96 ≤ s.calls.length →
        exec (.callIn tag body) s = .next ((s.takeHead rest).answer ⟨0x01, tag, body⟩ .full [])) ∧
      (s.calls.length < 96 → ∃ (u : State) (c : Call), u.findCall h = some c ∧
        exec (.callIn tag body) s = .next (u.answer ⟨0x01, tag, body⟩ .ok (put1 c.state.code))))

/-- A CALL_IN that finds its group enabled, its queue empty and members by the group's selection rings them: the record is set up
by R32 and offered by R53; the cursor of a CIRCULAR group moves to the member; nothing else changes. One that finds its group's
queue occupied, or no member available, joins the tail below the limit, with its queue entry time now and its deadlines from it,
and overflows QUEUE_FULL at the limit; one that finds its group disabled overflows GROUP_DISABLED (R32, R47, R53, R67, R68, R76). -/
def Obligations.CallInMeetsItsGroup : Prop :=
  ∀ (s : State) (tag : Octet) (h : Nat) (pilot caller : List Nat) (noPickup : Bool) (rest : List Frame) (g : GroupId)
    (body : List Octet) (c : Call) (sts : List StationId) (a : State),
    body = put2 h ++ putDigits pilot ++ putDigits caller ++ putFlag noPickup → Ready s ⟨0x01, tag, body⟩ rest →
    1 ≤ h → h < 65536 → pilot.length ≤ 8 → (∀ x ∈ pilot, x ≤ 9) → caller.length ≤ 8 → (∀ x ∈ caller, x ≤ 9) →
    s.findCall h = none → s.resolve pilot = some (.pilot g) → s.calls.length < 96 →
    c = { handle := h, caller := caller, noPickup := noPickup, state := .offering, currentGroup := some g, originGroup := some g,
          hops := 0, offered := [], tried := [], arrival := s.now, queueEntry := none, queueAgeMark := false,
          arrivalAgeMark := false, ringDeadline := none, waitDeadline := none, escDeadline := none, parkDeadline := none,
          escalated := false, waitPassed := false, arrivalWait := some (s.groupCfg g).maxWait, offerKind := none,
          orbit := none, parker := none, outcome := none, outcomeStation := none } →
    sts = s.select g c → a = (s.takeHead rest).addCall c →
    ((s.groupCfg g).enabled = true → (s.group g).queue = [] → sts ≠ [] → ∃ u,
      exec (.callIn tag body) s = .next (u.answer ⟨0x01, tag, body⟩ .ok (put1 1)) ∧
      OnlyHunting (s.takeHead rest) u ∧ u.link.callOrders = s.link.callOrders ∧
      u.findCall h = some { c with
        offered := sts.map fun i => { station := i, start := s.now }
        tried := sts, offerKind := some .group
        ringDeadline := some (later s.now (seconds (s.groupCfg g).noAnswer)) } ∧
      (∀ k, k ≠ h → u.findCall k = s.findCall k) ∧ StationsIn s u sts (fun _ => .ringing h) ∧
      (∀ k, k ≠ g → u.group k = s.group k) ∧
      u.group g = (if (s.groupCfg g).algorithm = .circular then { s.group g with cursor := sts.head? } else s.group g)) ∧
    ((s.groupCfg g).enabled = true → (s.group g).queue ≠ [] ∨ sts = [] →
      ((s.group g).queue.length < (s.groupCfg g).queueLimit →
        exec (.callIn tag body) s = .next (((a.updCall h fun x =>
          { x with
            state := .queued, queueEntry := some s.now, arrivalWait := none
            waitDeadline :=
              if (s.groupCfg g).maxWait = 0 then none else some (later s.now (seconds (s.groupCfg g).maxWait))
            escDeadline :=
              if (s.groupCfg g).escDelay = 0 then none else some (later s.now (seconds (s.groupCfg g).escDelay)) }).updGroup g
          fun x => { x with queue := x.queue ++ [h] }).answer ⟨0x01, tag, body⟩ .ok (put1 0))) ∧
      ((s.groupCfg g).queueLimit ≤ (s.group g).queue.length → ∀ u d, u = (a.route h g .queueFull).flush →
        u.findCall h = some d → exec (.callIn tag body) s = .next (u.answer ⟨0x01, tag, body⟩ .ok (put1 d.state.code)))) ∧
    ((s.groupCfg g).enabled = false → ∀ u d, u = (a.route h g .groupDisabled).flush →
      u.findCall h = some d → exec (.callIn tag body) s = .next (u.answer ⟨0x01, tag, body⟩ .ok (put1 d.state.code)))

/-- HANGUP: handle 0 is BAD_VALUE, a handle of no record or of an ENDING one is UNKNOWN, and any other call ends ABANDONED; one
that waits in no queue, while no call waits, by the teardown of R35 and nothing else; a queued one that is neither the head nor
escalated leaves its queue, whose other calls keep their order, and nothing else changes. Every end but an answer and a pickup
clears the wait-passed note (R71; log entry 15) (R28, R35, R39, R70). -/
def Obligations.HangupEndsTheCall : Prop :=
  ∀ (s : State) (tag : Octet) (h : Nat) (rest : List Frame), h < 65536 → Ready s ⟨0x03, tag, put2 h⟩ rest →
    (h = 0 → exec (.hangup tag (put2 h)) s = .next ((s.takeHead rest).answer ⟨0x03, tag, put2 h⟩ .badValue [])) ∧
    (h ≠ 0 → (∀ c, s.findCall h = some c → c.state = .ending) →
      exec (.hangup tag (put2 h)) s = .next ((s.takeHead rest).answer ⟨0x03, tag, put2 h⟩ .unknown [])) ∧
    (∀ c, h ≠ 0 → s.findCall h = some c → c.state ≠ .ending →
      exec (.hangup tag (put2 h)) s =
        .next (((s.takeHead rest).endCall h .abandoned none).flush.answer ⟨0x03, tag, put2 h⟩ .ok []) ∧
      (c.state ≠ .queued → NoCallWaits s →
        ∃ u, exec (.hangup tag (put2 h)) s = .next (u.answer ⟨0x03, tag, put2 h⟩ .ok []) ∧
          OnlyCalls (s.takeHead rest) u ∧ TornDown s u c .abandoned none) ∧
      (∀ g, c.state = .queued → c.currentGroup = some g → c.escalated = false → c.offered = [] →
        (s.group g).queue.head? ≠ some h →
        exec (.hangup tag (put2 h)) s = .next
          (((((s.takeHead rest).updGroup g fun x =>
            { x with queue := x.queue.filter fun k => decide (k ≠ h) }).updCall h
            fun c => c.ended .abandoned none).updLink fun l => { l with callOrders := l.callOrders ++ [h] }).answer
              ⟨0x03, tag, put2 h⟩ .ok [])))

/-- ANSWER, checked in the order of R56; an accepted one ends the call ANSWERED by the answering station, which becomes BUSY, and
while no call waits every other station that rang for it becomes IDLE, by the teardown of R35 and nothing else; its wait-passed
note stays in the ENDING record (R71; log entry 15). -/
def Obligations.AnswerTakesTheRingingCall : Prop :=
  ∀ (s : State) (tag : Octet) (v h : Nat) (i : StationId) (rest : List Frame), v < 65536 → h < 65536 →
    (Ready s ⟨0x02, tag, put2 v ++ put2 h⟩ rest → h = 0 ∨ 511 < v →
      exec (.answer tag (put2 v ++ put2 h)) s =
        .next ((s.takeHead rest).answer ⟨0x02, tag, put2 v ++ put2 h⟩ .badValue [])) ∧
    (h ≠ 0 → ∀ body, body = put2 i.val ++ put2 h → Ready s ⟨0x02, tag, body⟩ rest →
      (s.findCall h = none →
        exec (.answer tag body) s = .next ((s.takeHead rest).answer ⟨0x02, tag, body⟩ .unknown [])) ∧
      (∀ c, s.findCall h = some c →
        (c.state = .ending ∨ c.state = .queued ∨ c.state = .parked ∨ i ∉ c.offered.map Offer.station →
          exec (.answer tag body) s = .next ((s.takeHead rest).answer ⟨0x02, tag, body⟩ .tooLate [])) ∧
        (c.state = .offering ∨ c.state = .recalling → i ∈ c.offered.map Offer.station →
          exec (.answer tag body) s =
            .next (((s.takeHead rest).endCall h .answered (some i)).flush.answer ⟨0x02, tag, body⟩ .ok []) ∧
          (NoCallWaits s →
            ∃ u, exec (.answer tag body) s = .next (u.answer ⟨0x02, tag, body⟩ .ok []) ∧
              OnlyCalls (s.takeHead rest) u ∧ TornDown s u c .answered (some i)))))

/-- Selection by the group's algorithm. LINEAR yields the first available member in list order, makes no use of the cursor, and an
offer at a LINEAR group moves no cursor (R48). LONGEST_IDLE yields the available member with the greatest idle age at that moment,
the earliest in list order between equal ages; a ring or a page of a station leaves its idle age as it is (R51). CIRCULAR walks
from the member after the cursor and ends with the cursor's own member, and SIMULTANEOUS yields every available member in list
order (R49, R52). -/
def Obligations.SelectionByTheGroupsAlgorithm : Prop :=
  ∀ (s : State) (g : GroupId) (c : Call) (alg : Algorithm) (ms : List Member) (isOpen : Member → Bool),
    alg = (s.groupCfg g).algorithm → ms = (s.groupCfg g).members →
    (∀ m, isOpen m = (m.loggedIn && s.freeForOffer m.station && !c.tried.contains m.station)) →
    (alg = .linear →
      s.select g c = ((ms.find? isOpen).map Member.station).toList ∧
      (∀ k, (s.updGroup g fun x => { x with cursor := k }).select g c = s.select g c) ∧
      (∀ h sts k, ((s.offerGroup h g sts).group k).cursor = (s.group k).cursor)) ∧
    (alg = .longestIdle →
      (ms.filter isOpen = [] → s.select g c = []) ∧
      (ms.filter isOpen ≠ [] → ∃ before i behind, (ms.filter isOpen).map Member.station = before ++ i :: behind ∧
        s.select g c = [i] ∧ (∀ j ∈ before, s.idleAge j < s.idleAge i) ∧ ∀ j ∈ behind, s.idleAge j ≤ s.idleAge i)) ∧
    (∀ i j st, (s.enterState i st).idleAge j = s.idleAge j) ∧
    (alg = .simultaneous → s.select g c = (ms.filter isOpen).map Member.station) ∧
    (alg = .circular →
      ((s.group g).cursor = none → s.select g c = ((ms.find? isOpen).map Member.station).toList) ∧
      ∀ before m after, ms = before ++ m :: after → (s.group g).cursor = some m.station →
        m.station ∉ before.map Member.station →
        s.select g c = (((after ++ before ++ [m]).find? isOpen).map Member.station).toList)

/-- The arbiter gives a freed station to the head call with the greatest queue age among the groups that compete, between equal
ages to that of the lower group number, and to none when the station is not free or no group competes; the review of that
group's queue follows. The review does nothing to a disabled group, an empty queue or a head with no member selected; it offers
any other head to its selection and reviews the next. An offer sets the record by R53, rings the stations, takes a queued call
out of its queue, moves the cursor of a CIRCULAR group, and changes nothing else (R53, R58 to R60, R70). A station in use is
free for an offer when it is IDLE or listens to a page whose class is not EMERGENCY, and in no other state (R46); the attendant
counts when it is the station named, in use and IDLE (R15, R78). Events in a row are taken one after another, and those held
back last (R84, R124). -/
def Obligations.ArbiterServesTheOldestHead : Prop :=
  (∀ (s : State) (i : StationId),
    (s.isIdle i = true ↔ (s.stationCfg i).inUse = true ∧ (s.station i).state = .idle) ∧
    ((s.station i).state = .idle → (s.freeForOffer i = true ↔ (s.stationCfg i).inUse = true)) ∧
    (∀ r pg, (s.station i).state = .pageListen r → s.pageAt r = some pg →
      (s.freeForOffer i = true ↔ (s.stationCfg i).inUse = true ∧ pg.cls ≠ .emergency)) ∧
    ((s.station i).state = .unused ∨ (s.station i).state = .outOfService ∨ (s.station i).state = .busy ∨
      (∃ h, (s.station i).state = .ringing h) → s.freeForOffer i = false) ∧
    (s.idleAttendant = some i ↔ s.cfg.attendant = some i ∧ s.isIdle i = true) ∧
    s.availAll [] = s ∧ (∀ l, s.availAll (i :: l) = (s.availability i).availAll l) ∧
    (s.heldAvail = [] → s.flush = s) ∧
    ∀ u, s.heldAvail ≠ [] → u = ({ s with heldAvail := [] } : State).availAll s.heldAvail → u.heldAvail = [] → s.flush = u) ∧
  (∀ (s : State) (i : StationId) (competes : GroupId → Call → Prop),
    (∀ g c, competes g c ↔ (∃ m ∈ (s.groupCfg g).members, m.station = i ∧ m.loggedIn = true) ∧
      (∃ h, (s.group g).queue.head? = some h ∧ s.findCall h = some c) ∧ i ∉ c.tried) →
    (s.freeForOffer i = false → s.availability i = s) ∧
    ((∀ g c, ¬ competes g c) → s.availability i = s) ∧
    (∀ g c, s.freeForOffer i = true → competes g c →
      (∀ g' c', competes g' c' →
        s.queueAge c' < s.queueAge c ∨ (s.queueAge c' = s.queueAge c ∧ g ≤ g')) →
      s.availability i = (s.offerGroup c.handle g [i]).reviewQueue g)) ∧
  (∀ (s : State) (g : GroupId),
    ((s.groupCfg g).enabled = false ∨ (s.group g).queue = [] → s.reviewQueue g = s) ∧
    ∀ h c, (s.groupCfg g).enabled = true → (s.group g).queue.head? = some h → s.findCall h = some c →
      (s.select g c = [] → s.reviewQueue g = s) ∧
      (∀ sts, sts = s.select g c → sts ≠ [] → c.state = .queued → (s.group g).queue.Nodup →
        s.reviewQueue g = (s.offerGroup h g sts).reviewQueue g)) ∧
  ∀ (s u : State) (h : Handle) (c : Call) (g : GroupId) (sts : List StationId), s.findCall h = some c → c.offered = [] →
    c.state ≠ .queued ∨ c.escalated = false → u = s.offerGroup h g sts →
    OnlyHunting s u ∧ u.link.callOrders = s.link.callOrders ∧
      CallBecomes s u c (c.offeredAt g sts (if c.state = .queued then sts else c.tried ++ sts) s.now
        (seconds (s.groupCfg g).noAnswer)) ∧
      StationsIn s u sts (fun _ => .ringing h) ∧ (∀ k, k ≠ g → u.group k = s.group k) ∧
      u.group g = { s.group g with
        queue := if c.state = .queued then (s.group g).queue.filter fun k => decide (k ≠ h) else (s.group g).queue
        cursor := if (s.groupCfg g).algorithm = .circular ∧ sts ≠ [] then sts.head? else (s.group g).cursor }

/-- The ring of a group offer expires while no call waits. Unless the group is SIMULTANEOUS, a member not yet tried is offered the
call: the stations that rang become IDLE and keep their idle-since times, the call rings the members selected with a fresh ring
deadline, and nothing else but the CIRCULAR cursor changes. With calls waiting, the same offer is made, and then the availability
events of the stations that rang follow, in list order (R53, R54, R58). -/
def Obligations.NoAnswerOffersTheNextMember : Prop :=
  ∀ (s : State) (h : Handle) (c : Call) (g : GroupId) (s1 : State) (sts : List StationId), Runs s →
    s.findCall h = some c → c.state = .offering → c.offerKind = some .group → c.currentGroup = some g →
    c.ringDeadline = some s.now → (s.groupCfg g).algorithm ≠ .simultaneous →
    (∀ x ∈ c.offered, x.station ∈ c.tried) → s1 = s.stopRings h →
    sts = s1.select g { c with offered := [], ringDeadline := none } → sts ≠ [] →
    exec (.noAnswerExpiry h) s =
      .next ((s1.offerGroup h g sts).availAll (c.offered.map Offer.station)).flush.transmitTake ∧
    (NoCallWaits s → ∃ u, exec (.noAnswerExpiry h) s = .next u.transmitTake ∧ OnlyHunting s u ∧
      u.link.callOrders = s.link.callOrders ∧ u.findCall h = some { c with
        offered := sts.map fun i => { station := i, start := s.now }
        tried := c.tried ++ sts, escDeadline := none
        ringDeadline := some (later s.now (seconds (s.groupCfg g).noAnswer)) } ∧
      (∀ k, k ≠ h → u.findCall k = s.findCall k) ∧
      (∀ i ∈ sts, (u.station i).state = .ringing h) ∧
      (∀ x ∈ c.offered, (u.station x.station).state = .idle) ∧
      (∀ i, i ∉ sts → i ∉ c.offered.map Offer.station → u.station i = s.station i) ∧
      (∀ i, (u.station i).idleSince = (s.station i).idleSince ∧ (u.station i).saturated = (s.station i).saturated) ∧
      (∀ k, k ≠ g → u.group k = s.group k) ∧
      u.group g = (if (s.groupCfg g).algorithm = .circular then { s.group g with cursor := sts.head? } else s.group g))

/-- The ring of a group offer expires with no member left to try, or at a SIMULTANEOUS group: the stations that rang become IDLE,
the call returns to its queue, and the availability events of those stations follow. The return: a call whose wait has passed
overflows WAIT_EXPIRED, and one whose group queues no calls QUEUE_FULL. Any other takes the head with its tried set reduced and
its queue entry time kept, its wait deadline kept from that queue or else counted from its entry time with the maximum wait it
arrived under, and its escalation judged by its flag and its queue age; escalation starts when it is the first escalated call
there; and at the limit the tail is displaced. That a call which has not stood in that queue takes the maximum wait it arrived
under, and no deadline where its queue age has reached it, and that escalation starts before the displacement, are the MODEL's
choices (log entries 26, 27). While no call waits, nothing else changes (R27, R30, R34, R54, R58, R68, R69, R73, R81). -/
def Obligations.NoAnswerReturnsTheCallToItsQueue : Prop :=
  (∀ (s s1 : State) (h : Handle) (c : Call) (g : GroupId) (rang : List StationId), Runs s →
    s.findCall h = some c → c.state = .offering → c.offerKind = some .group → c.currentGroup = some g →
    c.ringDeadline = some s.now → s1 = s.stopRings h → rang = c.offered.map Offer.station →
    (s.groupCfg g).algorithm = .simultaneous ∨ s1.select g c = [] →
    exec (.noAnswerExpiry h) s = .next ((s1.returnToQueue h g rang).availAll rang).flush.transmitTake ∧
    (NoCallWaits s → (∀ i ∈ rang, i ∈ c.tried) → c.waitPassed = false → c.escalated = false → c.queueEntry = none →
      1 ≤ (s.groupCfg g).queueLimit →
      ∃ u, exec (.noAnswerExpiry h) s = .next u.transmitTake ∧ OnlyHunting s u ∧ u.link.callOrders = s.link.callOrders ∧
        CallBecomes s u c ({ c with offered := [], ringDeadline := none }.queuedAt g
          (c.tried.filter fun i => decide (i ∈ rang)) s.now
          (match c.arrivalWait with
            | none => c.waitDeadline
            | some m => if m = 0 then none else some (later s.now (seconds m)))
          (s.groupCfg g).escDelay false) ∧
        StationsIn s u rang (fun _ => .idle) ∧
        (∀ k, k ≠ g → u.group k = s.group k) ∧ u.group g = { s.group g with queue := [h] })) ∧
  ∀ (s t : State) (h : Handle) (c : Call) (g : GroupId) (left : List StationId) (k : GroupCfg) (entry : Time)
    (wait : Option Time) (flag : Bool), s.findCall h = some c → k = s.groupCfg g →
    entry = c.queueEntry.getD s.now →
    (c.arrivalWait = none → wait = c.waitDeadline) → (c.arrivalWait = some 0 → wait = none) →
    (∀ m, c.arrivalWait = some m → m ≠ 0 →
      wait = if s.queueAge c < seconds m then some (later entry (seconds m)) else none) →
    (flag = true ↔ c.escalated = true ∨ (k.escDelay ≠ 0 ∧ seconds k.escDelay ≤ s.queueAge c)) →
    t = ((s.updCall h fun x => x.queuedAt g (c.tried.filter fun i => decide (i ∈ left)) entry wait k.escDelay flag).updGroup g
      fun x => { x with queue := h :: x.queue }) →
    (c.waitPassed = true → s.returnToQueue h g left = s.route h g .waitExpired) ∧
    (c.waitPassed = false → k.queueLimit = 0 → s.returnToQueue h g left = s.route h g .queueFull) ∧
    (c.waitPassed = false → 1 ≤ k.queueLimit → ∀ u,
      u = (if flag = true ∧ s.inEscalation g = false then t.escalationStart g else t) →
      ((s.group g).queue.length < k.queueLimit → s.returnToQueue h g left = u) ∧
      (∀ before tail, k.queueLimit ≤ (s.group g).queue.length → (s.group g).queue = before ++ [tail] →
        s.returnToQueue h g left = u.overflow tail g .displaced))

/-! ## Deadlines of calls (chapters 4 and 5) -/

/-- The end of a target ring, of an attendant ring and of a recall, while no call waits. An attendant ring ends the call NO_ROUTE.
A target ring and a recall go to the attendant, which rings for 30 s when it is present, IDLE and, for a recall, not the parker;
otherwise the call ends NO_ROUTE. The fall of a target ring places a ROUTED advisory and is no hop; a recall loses its orbit
(R77 to R79, R104, R105). The rings of a call stop in list order: its stations become IDLE, and it rings nowhere (R54, R75). -/
def Obligations.RingsOutsideTheGroupsExpire : Prop :=
  (∀ (s : State) (h : Handle) (c : Call), s.findCall h = some c →
    s.stopRings h = ((c.offered.map Offer.station).foldl (fun v i => v.enterState i .idle) s).updCall h fun x =>
      { x with offered := [], ringDeadline := none }) ∧
  ∀ (s : State) (h : Handle) (c : Call) (s1 s2 : State), Runs s → NoCallWaits s → s.findCall h = some c → c.state ≠ .queued →
    c.ringDeadline = some s.now → s1 = s.stopRings h →
    s2 = s1.advise (.routed h none .targetNoAnswer .attendant c.hops) →
    (c.offerKind = some .attendant →
      ∃ u, exec (.attendantRingExpiry h) s = .next u.transmitTake ∧ EndsNoRoute s1 u c) ∧
    (c.offerKind = some .target →
      (s1.idleAttendant = none →
        ∃ u, exec (.targetRingExpiry h) s = .next u.transmitTake ∧ EndsNoRoute s2 u c) ∧
      (∀ a, s1.idleAttendant = some a →
        exec (.targetRingExpiry h) s =
          .next ((s2.updCall h fun c => c.atAttendant a s.now).enterState a (.ringing h)).transmitTake)) ∧
    (c.offerKind = some .recalling →
      (s1.idleAttendant = none ∨ s1.idleAttendant = c.parker →
        ∃ u, exec (.recallRingExpiry h) s = .next u.transmitTake ∧ EndsNoRoute s1 u c) ∧
      (∀ a, s1.idleAttendant = some a → c.parker ≠ some a →
        exec (.recallRingExpiry h) s =
          .next ((s1.updCall h fun c => c.atAttendant a s.now).enterState a (.ringing h)).transmitTake)) ∧
    StationsIn s s1 (c.offered.map Offer.station) (fun _ => .idle)

/-- The wait deadline of a call that rings at a group takes the wait-passed note and nothing else. A queued call overflows from
its group with reason WAIT_EXPIRED. One whose group overflows nowhere, neither the head nor escalated, ends the call NO_ROUTE: it
leaves its queue by one hop, with its ROUTED advisory, and joins the call order set (R71, R75, R79). -/
def Obligations.WaitDeadlineExpires : Prop :=
  ∀ (s : State) (h : Handle) (c : Call) (g : GroupId), Runs s → s.findCall h = some c → c.waitDeadline = some s.now →
    (c.state = .offering →
      exec (.waitDeadlineExpiry h) s =
        .next (s.updCall h fun c => { c with waitDeadline := none, waitPassed := true }).transmitTake) ∧
    (c.state = .queued → c.currentGroup = some g →
      exec (.waitDeadlineExpiry h) s = .next (s.overflow h g .waitExpired).flush.transmitTake) ∧
    (c.state = .queued → c.currentGroup = some g → c.escalated = false → c.offered = [] →
      (s.group g).queue.head? ≠ some h → (s.groupCfg g).target = .nowhere → c.hops < 6 →
      exec (.waitDeadlineExpiry h) s = .next
        ((((s.updGroup g fun x => { x with queue := x.queue.filter fun k => decide (k ≠ h) }).advise
          (.routed h (some g) .waitExpired .nowhere (c.hops + 1))).updCall h fun x =>
            { x.ended .noRoute none with hops := c.hops + 1, arrivalWait := none }).updLink fun l =>
              { l with callOrders := l.callOrders ++ [h] }).transmitTake)

/-- An overflow of a call from its group: it leaves its queue by the removal rule, or its stations become IDLE; it is routed; the
review of the queue follows when it was the head; then the availability events of the stations it freed. The removal clears the
group's escalation with its last escalated call. Routing: the destination is the group's target, the attendant for a disabled
group's own number, and the attendant with reason LOOP at 6 hops; otherwise the hops rise by 1; the fields of the group are
cleared and a ROUTED advisory placed. NONE ends the call NO_ROUTE; ATTENDANT rings the attendant or ends it; STATION rings a free
station, and falls to the attendant TARGET_BUSY; GROUP is a new arrival there: it overflows from a disabled group, a full queue or
past the maximum wait, rings members selected at an empty queue, and otherwise joins the tail, escalated by its queue age (R67,
R68, R70, R75 to R79, R81). -/
def Obligations.OverflowFollowsTheTarget : Prop :=
  (∀ (s : State) (h : Handle) (c : Call) (g : GroupId) (r : RouteReason), s.findCall h = some c →
    s.overflow h g r = (s.overflowMove h g r).availAll (c.offered.map Offer.station) ∧
    (c.state ≠ .queued → s.overflowMove h g r = (s.stopRings h).route h g r) ∧
    (c.state = .queued →
      ((s.group g).queue.head? ≠ some h → s.overflowMove h g r = (s.leaveQueue h g).route h g r) ∧
      ((s.group g).queue.head? = some h → s.overflowMove h g r = ((s.leaveQueue h g).route h g r).reviewQueue g)) ∧
    ∀ (s1 : State) (others : Prop), s1 = (s.updGroup g fun x => { x with queue := x.queue.filter fun k => decide (k ≠ h) }) →
      (others ↔ ∃ k ∈ (s.group g).queue, k ≠ h ∧ ∃ x, s.findCall k = some x ∧ x.escalated = true) →
      (c.escalated = false ∨ others → s.leaveQueue h g = s1) ∧
      (c.escalated = true → ¬ others → s.leaveQueue h g = s1.escalationClear g)) ∧
  ∀ (s s1 : State) (h : Handle) (c : Call) (g : GroupId) (r why : RouteReason) (dest : Target) (n : Nat),
    s.findCall h = some c → c.offered = [] → c.hops ≤ 6 →
    (c.hops = 6 → dest = .attendant ∧ n = 6 ∧ why = .loop) →
    (c.hops < 6 → n = c.hops + 1 ∧ why = r ∧
      dest = if (s.groupCfg g).enabled = false ∧ (s.groupCfg g).target = .group g then .attendant else (s.groupCfg g).target) →
    s1 = ((s.updCall h fun x => x.leftGroup n).advise (.routed h (some g) why dest n)) →
    (dest = .nowhere →
      s.route h g r = (s1.updCall h fun x => x.ended .noRoute none).updLink fun l =>
        { l with callOrders := l.callOrders ++ [h] }) ∧
    (dest = .attendant → GoesToAttendant s1 h (s.route h g r)) ∧
    (∀ i, dest = .station i →
      (s1.freeForOffer i = true →
        s.route h g r = (s1.updCall h fun x => x.atTarget i s.now (seconds (s.groupCfg g).noAnswer)).enterState i (.ringing h)) ∧
      (s1.freeForOffer i = false →
        GoesToAttendant (s1.advise (.routed h none .targetBusy .attendant n)) h (s.route h g r))) ∧
    ∀ (k : GroupId) (x : GroupCfg) (s2 t : State) (sts : List StationId) (entry : Time) (flag : Bool), dest = .group k →
      x = s.groupCfg k → s2 = (s1.updCall h fun y => { y with currentGroup := some k, arrivalWait := some x.maxWait }) →
      sts = s2.select k { c.leftGroup n with currentGroup := some k } → entry = c.queueEntry.getD s.now →
      (flag = true ↔ x.escDelay ≠ 0 ∧ seconds x.escDelay ≤ s.queueAge c) →
      t = ((s2.updCall h fun y => y.queuedAt k [] entry
        (if x.maxWait = 0 then none else some (later entry (seconds x.maxWait))) x.escDelay flag).updGroup k fun y =>
          { y with queue := y.queue ++ [h] }) →
      (x.enabled = false → s.route h g r = s2.route h k .groupDisabled) ∧
      (x.enabled = true → (s.group k).queue = [] → sts ≠ [] → s.route h g r = s2.offerGroup h k sts) ∧
      (x.enabled = true → (s.group k).queue ≠ [] ∨ sts = [] →
        (x.queueLimit ≤ (s.group k).queue.length → s.route h g r = s2.route h k .queueFull) ∧
        ((s.group k).queue.length < x.queueLimit →
          (x.maxWait ≠ 0 → seconds x.maxWait ≤ s.queueAge c → s.route h g r = s2.route h k .waitExpired) ∧
          (x.maxWait = 0 ∨ s.queueAge c < seconds x.maxWait →
            s.route h g r = if flag = true ∧ s2.inEscalation k = false then t.escalationStart k else t)))

/-- The escalation deadline of a queued call sets its flag. In a group already in escalation nothing else changes. Otherwise
escalation starts: repeat due is cleared, the repeat deadline set, and a page attempt made. The repeat deadline of a group: with
an escalation page in use, repeat due is set and no new deadline; with none, a page attempt is made and the deadline set afresh.
With no valid unprotected zone listed, an attempt reports BAD_ZONE and nothing else changes (R80 to R83, R85). -/
def Obligations.EscalationAndRepeatDeadlinesExpire : Prop :=
  (∀ (s s1 : State) (h : Handle) (c : Call) (g : GroupId), Runs s → s.findCall h = some c → c.state = .queued →
    c.currentGroup = some g → c.escDeadline = some s.now →
    ((∃ k ∈ (s.group g).queue, ∃ x, s.findCall k = some x ∧ x.escalated = true) →
      exec (.escalationDeadlineExpiry h) s =
        .next (s.updCall h fun c => { c with escDeadline := none, escalated := true }).transmitTake) ∧
    ((∀ k ∈ (s.group g).queue, ∀ x, s.findCall k = some x → x.escalated = false) →
      s1 = ((s.updCall h fun c => { c with escDeadline := none, escalated := true }).updGroup g fun x =>
        { x with repeatDue := false, repeatDeadline := some (later s.now (seconds (s.groupCfg g).repeatInterval)) }) →
      exec (.escalationDeadlineExpiry h) s = .next (s1.pageAttempt g).flush.transmitTake ∧
      ((s.group g).queue.count h = 1 →
        (∀ z ∈ (s.groupCfg g).escZones,
          ((s.cfg.maps[(s.groupCfg g).escMapSet])[z].valid = false ∨
            (s.cfg.maps[(s.groupCfg g).escMapSet])[z].reserved = true)) →
        exec (.escalationDeadlineExpiry h) s = .next (s1.advise (.escalate g .badZone 1)).transmitTake))) ∧
  ∀ (s : State) (g : GroupId), Runs s → (s.group g).repeatDeadline = some s.now →
    ((s.group g).escPage.isSome = true →
      exec (.repeatDeadlineExpiry g) s =
        .next (s.updGroup g fun x => { x with repeatDeadline := none, repeatDue := true }).transmitTake) ∧
    ((s.group g).escPage = none →
      exec (.repeatDeadlineExpiry g) s =
        .next (((s.updGroup g fun x => { x with repeatDeadline := none }).pageAttempt g).updGroup g fun x =>
          { x with repeatDeadline := some (later s.now (seconds (s.groupCfg g).repeatInterval)) }).flush.transmitTake ∧
      ((∀ z ∈ (s.groupCfg g).escZones,
        ((s.cfg.maps[(s.groupCfg g).escMapSet])[z].valid = false ∨
          (s.cfg.maps[(s.groupCfg g).escMapSet])[z].reserved = true)) →
        exec (.repeatDeadlineExpiry g) s = .next
          ((s.updGroup g fun x =>
            { x with repeatDeadline := some (later s.now (seconds (s.groupCfg g).repeatInterval)) }).advise
            (.escalate g .badZone ((s.group g).queue.countP fun h => (s.findCall h).any Call.escalated))).transmitTake))

/-- A page attempt of a group, with `n` escalated calls in its queue: with no valid unprotected zone it reports BAD_ZONE, with no
free page record SKIPPED, and otherwise the lowest free record takes an ALERT page of the group's pattern on the zones left, with
the repeat interval as wait limit and no requester; it waits, or takes what it can grab; its reference becomes the group's
escalation page and STARTED is reported. The end of an escalation page but by a clearing makes the escalation page none, and a
repeat that was due makes its attempt at once with a new deadline; the review of the wait order comes last. A clearing ends the
page ESCALATION_CLEARED with the review of the wait order, clears the three fields, and reports CLEARED (R81 to R85, R126, R128).
A group is in escalation while its queue holds an escalated call.
That PAGE_STATE stands before the ESCALATE advisory of the same event is the MODEL's reading (log entry 16); that a zone the group
lists twice stands twice among the zones of the page is the MODEL's choice (log entry 29). -/
def Obligations.EscalationPagesComeAndGo : Prop :=
  (∀ (s : State) (g : GroupId),
    s.inEscalation g = true ↔ ∃ h ∈ (s.group g).queue, ∃ c, s.findCall h = some c ∧ c.escalated = true) ∧
  (∀ (s : State) (g : GroupId) (k : GroupCfg) (zs : List ZoneId) (n : Nat), k = s.groupCfg g →
    zs = k.escZones.filter (fun z => (s.cfg.maps[k.escMapSet])[z].valid && !(s.cfg.maps[k.escMapSet])[z].reserved) →
    n = (s.group g).queue.countP (fun h => (s.findCall h).any Call.escalated) →
    (s.escalationStart g = (s.updGroup g fun x =>
      { x with repeatDue := false, repeatDeadline := some (later s.now (seconds k.repeatInterval)) }).pageAttempt g) ∧
    (zs = [] → s.pageAttempt g = s.advise (.escalate g .badZone n)) ∧
    (zs ≠ [] → (∀ p, (s.page p).isSome = true) → s.pageAttempt g = s.advise (.escalate g .skipped n)) ∧
    ∀ (p : PageId) (pg : Page) (outs : List OutputId) (u : State), zs ≠ [] → s.page p = none →
      (∀ q, q < p → (s.page q).isSome = true) →
      pg = { state := .waiting, cls := .alert, requester := none, escGroup := some g, source := .chime k.chime,
             preAnnounce := none, mapSet := k.escMapSet, zones := zs, mode := .partialStart, started := false,
             waitLimit := some k.repeatInterval, waitDeadline := none, requestTime := s.now, requestAgeMark := false,
             zoneOutputs := s.zoneOutputs k.escMapSet zs, deskList := s.zoneDesks k.escMapSet zs, chime := none } →
      outs = (outputsOf (s.zoneOutputs k.escMapSet zs)).filter (s.grabbable .alert) →
      (outs = [] → u = (s.updPageRec p fun x =>
        { x with page := some { pg with waitDeadline := some (later s.now (seconds k.repeatInterval)) } }).advise
        (.pageState (s.refOf p) .alert (.entered .waiting) (s.held p).length (some g))) →
      (outs ≠ [] → u = ((s.updPageRec p fun x => { x with page := some pg }).takeSteps p outs).reviewPages) →
      s.pageAttempt g = (u.updGroup g fun x => { x with escPage := some (s.refOf p) }).advise
        (.escalate g (.started (s.refOf p)) n)) ∧
  (∀ (s : State) (p : PageId) (pg : Page) (g : GroupId) (why : EndReason), s.page p = some pg → pg.escGroup = some g →
    why ≠ .escalationCleared → (s.group g).escPage = some (s.refOf p) →
    ∃ s1 s2 t, PageGone s s1 p pg why ∧
      s2 = ({ s1 with heldAvail := s.heldAvail ++ s.joined p } : State).updGroup g (fun x => { x with escPage := none }) ∧
      ((s.group g).repeatDue = false → t = s2) ∧
      ((s.group g).repeatDue = true → t = ((s2.updGroup g fun x => { x with repeatDue := false }).pageAttempt g).updGroup g
        fun x => { x with repeatDeadline := some (later s.now (seconds (s.groupCfg g).repeatInterval)) }) ∧
      s.endPage p why = if s.held p = [] then t else t.reviewPages) ∧
  ∀ (s : State) (g : GroupId) (clears : State → State) (n : Nat),
    n = (s.group g).queue.countP (fun h => (s.findCall h).any Call.escalated) →
    (∀ t, clears t = (t.updGroup g fun x => { x with escPage := none, repeatDeadline := none, repeatDue := false }).advise
      (.escalate g .cleared n)) →
    ((s.group g).escPage = none → s.escalationClear g = clears s) ∧
    ∀ r pg, (s.group g).escPage = some r → s.pageAt r = some pg →
      ∃ s1 s2, PageGone s s1 r.id pg .escalationCleared ∧ s2 = { s1 with heldAvail := s.heldAvail ++ s.joined r.id } ∧
        s.escalationClear g = clears (if s.held r.id = [] then s2 else s2.reviewPages)

/-- The park deadline of a parked call. An IDLE parker is rung for 30 s in RECALL and the call keeps its orbit. With the parker in
any other state the call loses its orbit and goes to the attendant, which rings for 30 s when it is present, IDLE and not the
parker; otherwise, while no call waits, the call ends NO_ROUTE (R103, R105). -/
def Obligations.ParkDeadlineExpires : Prop :=
  ∀ (s : State) (h : Handle) (c : Call), Runs s → s.findCall h = some c → c.state = .parked → c.parkDeadline = some s.now →
    (∀ r, c.parker = some r → s.isIdle r = true →
      exec (.parkDeadlineExpiry h) s = .next ((s.updCall h fun c =>
        { c with
          state := .recalling, offerKind := some .recalling, offered := [{ station := r, start := s.now }],
          ringDeadline := some (later s.now 30000), parkDeadline := none }).enterState r (.ringing h)).transmitTake) ∧
    (∀ r, c.parker = some r → s.isIdle r = false →
      (∀ a, s.idleAttendant = some a →
        exec (.parkDeadlineExpiry h) s =
          .next ((s.updCall h fun c => c.atAttendant a s.now).enterState a (.ringing h)).transmitTake) ∧
      (s.idleAttendant = none → NoCallWaits s →
        ∃ u, exec (.parkDeadlineExpiry h) s = .next u.transmitTake ∧ OnlyCalls s u ∧ TornDown s u c .noRoute none))

/-- The four age marks: a mark is set when its age has reached 2^30 ms, and from then on the age reads 2^30 ms whatever the
difference. Every age is the difference between now and its field modulo 2^32, at most 2^30 ms; a call that has entered no queue has
queue age 0; a time later by some ms passes 2^32 back to 0 (R12, R29, R120). -/
def Obligations.AgeMarksHoldAgesAtTheirCeiling : Prop :=
  (∀ (now t : Time) (ms n : Nat), ageOf now t = (now.toNat + 2 ^ 32 - t.toNat) % 2 ^ 32 ∧
    (later t ms).toNat = (t.toNat + ms) % 2 ^ 32 ∧ seconds n = 1000 * n) ∧
  (∀ (s : State) (age : Time → Bool → Nat),
    (∀ t mark, age t mark = if mark = true then 2 ^ 30 else min (ageOf s.now t) (2 ^ 30)) →
    (∀ i, s.idleAge i = age (s.station i).idleSince (s.station i).saturated) ∧
    (∀ c, s.queueAge c = (c.queueEntry.map fun t => age t c.queueAgeMark).getD 0) ∧
    (∀ c, s.arrivalAge c = age c.arrival c.arrivalAgeMark) ∧ ∀ pg, s.requestAge pg = age pg.requestTime pg.requestAgeMark) ∧
  ∀ s : State, Runs s →
    (∀ i, (s.stationCfg i).inUse = true → (s.station i).saturated = false → 2 ^ 30 ≤ ageOf s.now (s.station i).idleSince →
      exec (.idleAgeSaturated i) s = .next (s.updStation i fun x => { x with saturated := true }).transmitTake ∧
      ∀ now, (({ s with now := now } : State).updStation i fun x => { x with saturated := true }).idleAge i = 2 ^ 30) ∧
    (∀ h c, s.findCall h = some c → c.state ≠ .ending →
      (∀ t, c.queueEntry = some t → c.queueAgeMark = false → 2 ^ 30 ≤ ageOf s.now t →
        exec (.queueAgeSaturated h) s = .next (s.updCall h fun c => { c with queueAgeMark := true }).transmitTake ∧
        ∀ now, ({ s with now := now } : State).queueAge { c with queueAgeMark := true } = 2 ^ 30) ∧
      (c.arrivalAgeMark = false → 2 ^ 30 ≤ ageOf s.now c.arrival →
        exec (.arrivalAgeSaturated h) s = .next (s.updCall h fun c => { c with arrivalAgeMark := true }).transmitTake ∧
        ∀ now, ({ s with now := now } : State).arrivalAge { c with arrivalAgeMark := true } = 2 ^ 30)) ∧
    (∀ p pg, s.page p = some pg → pg.requestAgeMark = false → 2 ^ 30 ≤ ageOf s.now pg.requestTime →
      exec (.requestAgeSaturated p) s = .next (s.updPage p fun x => { x with requestAgeMark := true }).transmitTake ∧
      ∀ now, ({ s with now := now } : State).requestAge { pg with requestAgeMark := true } = 2 ^ 30)

/-! ## Pickup and park (chapter 5) -/

/-- PICKUP: a requester above 511 is BAD_VALUE, one not BUSY is REFUSED_STATE, one with no search list is DENIED; the list is
walked in order and the first entry that yields a call ends the walk: the call ends PICKED by the requester and the reply
carries its handle; with no such entry the reply is NOTHING. A call that waits in no queue ends, while no call waits, by the
teardown of R35 and nothing else (R90, R92, R95). -/
def Obligations.PickupWalksTheSearchList : Prop :=
  ∀ (s : State) (tag : Octet) (v : Nat) (r : StationId) (rest : List Frame), v < 65536 →
    (Ready s ⟨0x10, tag, put2 v⟩ rest → 511 < v →
      exec (.pickup tag (put2 v)) s = .next ((s.takeHead rest).answer ⟨0x10, tag, put2 v⟩ .badValue [])) ∧
    (∀ f body, body = put2 r.val → f = (⟨0x10, tag, body⟩ : Frame) → Ready s f rest →
      ((s.station r).state ≠ .busy →
        exec (.pickup tag body) s = .next ((s.takeHead rest).answer f .refusedState [])) ∧
      ((s.station r).state = .busy →
        ((s.stationCfg r).searchList = none →
          exec (.pickup tag body) s = .next ((s.takeHead rest).answer f .denied [])) ∧
        ∀ l, (s.stationCfg r).searchList = some l →
          ((∀ e ∈ s.cfg.lists[l], s.entryCall r e = none) →
            exec (.pickup tag body) s = .next ((s.takeHead rest).answer f .nothing [])) ∧
          ∀ before e after h, s.cfg.lists[l] = before ++ e :: after → (∀ x ∈ before, s.entryCall r x = none) →
            s.entryCall r e = some h →
            exec (.pickup tag body) s =
              .next (((s.takeHead rest).endCall h .picked (some r)).flush.answer f .ok (put2 h)) ∧
            ∀ c, s.findCall h = some c → c.state ≠ .queued → NoCallWaits s →
              ∃ u, exec (.pickup tag body) s = .next (u.answer f .ok (put2 h)) ∧ OnlyCalls (s.takeHead rest) u ∧
                TornDown s u c .picked (some r)))

/-- What an entry of a search list yields. A disabled entry yields nothing. HQ(g) yields the eligible call nearest the head. PG(n)
yields, among the eligible calls in OFFERING or RECALL that ring at a station of pickup group n, the one whose earliest ring
there is oldest, then the older arrival, then the lower handle; and nothing only when there is none (R91 to R94). -/
def Obligations.SearchEntriesYieldTheOldestEligibleCall : Prop :=
  ∀ (s : State) (r : StationId) (eligible : Call → Prop),
    (∀ c, eligible c ↔ c.noPickup = false ∨ (s.stationCfg r).override = true) →
    (∀ k, s.entryCall r { key := k, enabled := false } = none) ∧
    (∀ g h before after c, (s.group g).queue = before ++ h :: after → s.findCall h = some c → eligible c →
      (∀ k ∈ before, ∀ x, s.findCall k = some x → ¬ eligible x) →
      s.entryCall r { key := .hq g, enabled := true } = some h) ∧
    (∀ g, (∀ k ∈ (s.group g).queue, ∀ x, s.findCall k = some x → ¬ eligible x) →
      s.entryCall r { key := .hq g, enabled := true } = none) ∧
    ∀ (n : PickupGroup) (candidate : Call → Prop),
      (∀ c, candidate c ↔ (c.state = .offering ∨ c.state = .recalling) ∧
        ∃ x ∈ c.offered, (s.stationCfg x.station).pickupGroup = some n) →
      (s.entryCall r { key := .pg n, enabled := true } = none ↔ ∀ c ∈ s.calls, ¬ (candidate c ∧ eligible c)) ∧
      (∀ h, s.entryCall r { key := .pg n, enabled := true } = some h →
        ∃ c ∈ s.calls, c.handle = h ∧ candidate c ∧ eligible c ∧
          ∀ d ∈ s.calls, candidate d → eligible d →
            s.pgRank n d < s.pgRank n c ∨ (s.pgRank n d = s.pgRank n c ∧
              (s.arrivalAge d < s.arrivalAge c ∨ (s.arrivalAge d = s.arrivalAge c ∧ h ≤ d.handle)))) ∧
      (∀ c, candidate c →
        (∃ x ∈ c.offered, (s.stationCfg x.station).pickupGroup = some n ∧ s.pgRank n c = ageOf s.now x.start) ∧
        ∀ x ∈ c.offered, (s.stationCfg x.station).pickupGroup = some n → ageOf s.now x.start ≤ s.pgRank n c)

/-- DPICKUP from a BUSY requester, by what its number resolves to. A number of more than 8 digits or with a digit above 9 is
BAD_VALUE and one that resolves to nothing UNKNOWN. STATION(t): DENIED when the requester does not see t, NOTHING when t does not
ring, DENIED for a call not eligible, and otherwise the call at t ends PICKED. PILOT(g): the eligible call nearest the head ends
PICKED, or NOTHING. ORBIT(o): NOTHING when it is free, DENIED for a call not eligible, and otherwise the call ends RETRIEVED, while
no call waits by the teardown of R35 and nothing else (R90, R96 to R99). A number resolves to the target of the entry with its last D
digits, or with leading zeros before it to D digits (R20); an orbit is held by the call whose record names it (R100). -/
def Obligations.DirectedPickupTakesTheNamedCall : Prop :=
  (∀ (s : State) (w : Nat) (target : List Digit → Option DirTarget), w = s.cfg.digitWidth →
    (∀ d, target d = (s.cfg.directory.find? fun e => decide (e.number = d)).map DirEntry.target) →
    (∀ cut last, last.length = w → s.resolve (cut ++ last) = target last) ∧
    (∀ d, d.length ≤ w → s.resolve d = target (List.replicate (w - d.length) 0 ++ d)) ∧
    s.resolve [] = target (List.replicate w 0)) ∧
  (∀ (s : State) (r : StationId),
    (∀ g, s.hqCall r g = s.entryCall r { key := .hq g, enabled := true }) ∧
    ∀ o, (s.orbitHolder o = none ↔ ∀ c ∈ s.calls, c.orbit ≠ some o) ∧
      ∀ c, s.orbitHolder o = some c → c ∈ s.calls ∧ c.orbit = some o) ∧
  ∀ (s : State) (tag : Octet) (v : Nat) (d : List Nat) (rest : List Frame) (f : Frame) (body : List Octet), v < 65536 →
    d.length < 256 → (∀ x ∈ d, x < 256) → body = put2 v ++ putDigits d → f = ⟨0x11, tag, body⟩ → Ready s f rest →
    (511 < v → exec (.dpickup tag body) s = .next ((s.takeHead rest).answer f .badValue [])) ∧
    ∀ r : StationId, r.val = v →
      ((s.station r).state ≠ .busy →
        exec (.dpickup tag body) s = .next ((s.takeHead rest).answer f .refusedState [])) ∧
      ((s.station r).state = .busy →
        (8 < d.length ∨ (∃ x ∈ d, 9 < x) →
          exec (.dpickup tag body) s = .next ((s.takeHead rest).answer f .badValue [])) ∧
        (d.length ≤ 8 → (∀ x ∈ d, x ≤ 9) →
          (s.resolve d = none → exec (.dpickup tag body) s = .next ((s.takeHead rest).answer f .unknown [])) ∧
          (∀ t sees, s.resolve d = some (.station t) →
            (sees ↔ (s.stationCfg r).directAny = true ∨ ∃ n l e, (s.stationCfg t).pickupGroup = some n ∧
              (s.stationCfg r).searchList = some l ∧ e ∈ s.cfg.lists[l] ∧ e.enabled = true ∧ e.key = .pg n) →
            (¬ sees → exec (.dpickup tag body) s = .next ((s.takeHead rest).answer f .denied [])) ∧
            (sees → (∀ h, (s.station t).state ≠ .ringing h) →
              exec (.dpickup tag body) s = .next ((s.takeHead rest).answer f .nothing [])) ∧
            (∀ h c, sees → (s.station t).state = .ringing h → s.findCall h = some c →
              (c.noPickup = true → (s.stationCfg r).override = false →
                exec (.dpickup tag body) s = .next ((s.takeHead rest).answer f .denied [])) ∧
              (c.noPickup = false ∨ (s.stationCfg r).override = true →
                exec (.dpickup tag body) s =
                  .next (((s.takeHead rest).endCall h .picked (some r)).flush.answer f .ok (put2 h))))) ∧
          (∀ g, s.resolve d = some (.pilot g) →
            (s.hqCall r g = none →
              exec (.dpickup tag body) s = .next ((s.takeHead rest).answer f .nothing [])) ∧
            (∀ h, s.hqCall r g = some h →
              exec (.dpickup tag body) s =
                .next (((s.takeHead rest).endCall h .picked (some r)).flush.answer f .ok (put2 h)))) ∧
          (∀ o, s.resolve d = some (.orbit o) →
            ((∀ c ∈ s.calls, c.orbit ≠ some o) →
              exec (.dpickup tag body) s = .next ((s.takeHead rest).answer f .nothing [])) ∧
            (∀ c, s.orbitHolder o = some c →
              (c.noPickup = true → (s.stationCfg r).override = false →
                exec (.dpickup tag body) s = .next ((s.takeHead rest).answer f .denied [])) ∧
              (c.noPickup = false ∨ (s.stationCfg r).override = true →
                exec (.dpickup tag body) s =
                  .next (((s.takeHead rest).endCall c.handle .retrieved (some r)).flush.answer f .ok (put2 c.handle)) ∧
                (s.findCall c.handle = some c → c.state ≠ .queued → NoCallWaits s →
                  ∃ u, exec (.dpickup tag body) s = .next (u.answer f .ok (put2 c.handle)) ∧
                    OnlyCalls (s.takeHead rest) u ∧ TornDown s u c .retrieved (some r)))))))

/-- PARK, checked in the order of R90 and R101; that a private flag above 1 is met by check 1 of R101, before DUPLICATE, is read
from R166 and R169 (log entry 24, DEDUCED). An accepted PARK takes a record set up by R102 with the orbit named, or for ANY the
lowest free one, and its reply carries the orbit; the parker and every other record stay as they are. -/
def Obligations.ParkTakesARecordAndAnOrbit : Prop :=
  ∀ (s : State) (tag : Octet) (v h o flag : Nat) (d : List Nat) (rest : List Frame) (f : Frame) (body : List Octet)
    (isFree : OrbitId → Prop), v < 65536 → h < 65536 → o < 256 → flag < 256 → d.length < 256 → (∀ x ∈ d, x < 256) →
    body = put2 v ++ put2 h ++ put1 o ++ put1 flag ++ putDigits d → f = ⟨0x12, tag, body⟩ → Ready s f rest →
    (∀ k, isFree k ↔ ∀ c ∈ s.calls, c.orbit ≠ some k) →
    (∀ r, FirstFailure
        [ (511 < v, .badValue), (∀ i : StationId, i.val = v → (s.station i).state ≠ .busy, .refusedState),
          (h = 0 ∨ (20 ≤ o ∧ o ≠ 255) ∨ 1 < flag ∨ 8 < d.length ∨ ∃ x ∈ d, 9 < x, .badValue),
          ((s.findCall h).isSome = true, .duplicate), (96 ≤ s.calls.length, .full),
          (o = 255 ∧ ∀ k, ¬ isFree k, .full), (∃ k, k.val = o ∧ ¬ isFree k, .refusedState) ] r →
      exec (.park tag body) s = .next ((s.takeHead rest).answer f r [])) ∧
    (∀ (i : StationId) (k : OrbitId), i.val = v → (s.station i).state = .busy →
      h ≠ 0 → flag ≤ 1 → d.length ≤ 8 → (∀ x ∈ d, x ≤ 9) → s.findCall h = none → s.calls.length < 96 → isFree k →
      o = k.val ∨ (o = 255 ∧ ∀ j, j < k → ¬ isFree j) →
      exec (.park tag body) s = .next (((s.takeHead rest).addCall
        { handle := h, caller := d, noPickup := decide (flag = 1), state := .parked, currentGroup := none,
          originGroup := none, hops := 0, offered := [], tried := [], arrival := s.now, queueEntry := none,
          queueAgeMark := false, arrivalAgeMark := false, ringDeadline := none, waitDeadline := none, escDeadline := none,
          parkDeadline := some (later s.now (seconds s.cfg.parkTime)), escalated := false, waitPassed := false,
          arrivalWait := none, offerKind := none, orbit := some k, parker := some i, outcome := none, outcomeStation := none }).answer f .ok
            (put1 k.val)))

/-! ## Pages (chapters 6 and 7) -/

/-- PAGE: a field out of its range is BAD_VALUE: a requester above 511, a class above 3, a source that is no page input or chime
pattern, a pre-announce that is neither a pattern nor none, or is given with a chime source, a map set above 3, a mode above 1, a
wait limit above 120 s and not UNLIMITED, no zone, more than 8 or one above 31. The fields of any other request are those of its
octets, each zone once; that the zones are counted as carried, before repeats are dropped, is log entry 28 (DEDUCED). Then the
first of the seven checks of R115 that fails gives the reply; a page that
passes them but could start on nothing, with a wait limit of 0, is answered NO_OUTPUTS. None of these changes any state (R114,
R115, R117). -/
def Obligations.PageCheckedInOrder : Prop :=
  ∀ (s : State) (tag : Octet) (body : List Octet) (rest : List Frame) (f : Frame) (q : RawPage), f = ⟨0x18, tag, body⟩ →
    Ready s f rest → q.Spells body →
    (q.fields = none → exec (.page tag body) s = .next ((s.takeHead rest).answer f .badValue [])) ∧
    (q.fields = none ↔ 511 < q.requester ∨ 3 < q.cls ∨ (3 < q.source ∧ q.source < 16) ∨ 23 < q.source ∨
      (7 < q.pre ∧ q.pre ≠ 255) ∨ (16 ≤ q.source ∧ q.pre ≠ 255) ∨ (3 < q.mapSet ∧ q.mapSet ≠ 255) ∨ 1 < q.mode ∨
      (120 < q.wait ∧ q.wait ≠ 255) ∨ q.zones = [] ∨ 8 < q.zones.length ∨ ∃ z ∈ q.zones, 31 < z) ∧
    (∀ x, q.fields = some x →
      x.requester.val = q.requester ∧ x.cls.num = q.cls ∧
      (match x.source with | .input i => i.val | .chime k => 16 + k.val) = q.source ∧
      (x.pre.map Fin.val).getD 255 = q.pre ∧ (x.mapSet.map Fin.val).getD 255 = q.mapSet ∧ x.mode.code = q.mode ∧
      x.wait.getD 255 = q.wait ∧ x.zones.map Fin.val = q.zones.eraseDups) ∧
    ∀ x m, q.fields = some x → m = x.mapSet.getD (s.stationCfg x.requester).defaultMapSet →
      (∀ r, FirstFailure (pageChecks s x m) r → exec (.page tag body) s = .next ((s.takeHead rest).answer f r [])) ∧
      (NoFailure (pageChecks s x m) → x.wait = some 0 →
        s.takeableOf x.cls (decide (x.mode = .allOrWait)) (outputsOf (s.zoneOutputs m x.zones)) = [] →
        exec (.page tag body) s = .next ((s.takeHead rest).answer f .noOutputs []))

/-- A page that passes its checks. With no output it may take it waits: the lowest FREE record holds it WAITING with its wait
deadline, and the entry is advised. With outputs to take, it takes them and the review of the wait order follows; while every
output is FREE and no page is in use, it is STARTING: each zone output is granted in GUARD with a fresh deadline, and each IDLE
station of its desk list listens to it; the reply carries the page reference and the state (R113, R116, R117, R119, R122, R127,
R132, R133). Its record is set up by R116: the outputs that some named zone has; the desk stations zone by zone, repeats dropped, cut
after the thirty-second. It may take every grabbable output of them, those FREE or held by pages of strictly lower class, ALL_OR_WAIT
all or none. A reference names the page in use of that id and generation; a page holds the outputs whose holder names it, and the
stations of its desk list that listen to it are joined (R112). -/
def Obligations.AcceptedPageStartsOrWaits : Prop :=
  (∀ (s : State) (m : MapSetId) (zs : List ZoneId),
    (∀ o : OutputId, (s.zoneOutputs m zs).getLsbD o.val = true ↔ ∃ z ∈ zs, ((s.cfg.maps[m])[z]).outputs.getLsbD o.val = true) ∧
    s.zoneDesks m zs = ((zs.flatMap fun z => ((s.cfg.maps[m])[z]).desks).eraseDups).take 32) ∧
  (∀ set : OutputSet, (outputsOf set).Pairwise (· < ·) ∧ ∀ o : OutputId, o ∈ outputsOf set ↔ set.getLsbD o.val = true) ∧
  (∀ (s : State) (x : PageFields) (m : MapSetId), pageOf s x m =
    { state := .waiting, cls := x.cls, requester := some x.requester, escGroup := none, source := x.source, preAnnounce := x.pre,
      mapSet := m, zones := x.zones, mode := x.mode, started := false, waitLimit := x.wait, waitDeadline := none,
      requestTime := s.now, requestAgeMark := false, zoneOutputs := s.zoneOutputs m x.zones, deskList := s.zoneDesks m x.zones,
      chime := none }) ∧
  (∀ r d, OutputState.free.holder = none ∧ (OutputState.guard r d).holder = some r ∧ (OutputState.audible r).holder = some r) ∧
  (∀ (s : State) (cls : PageClass) (outs : List OutputId),
    (∀ o, s.grabbable cls o = true ↔
      ∀ r x, (s.output o).state.holder = some r → s.pageAt r = some x → x.cls.num < cls.num) ∧
    s.takeableOf cls false outs = outs.filter (s.grabbable cls) ∧
    s.takeableOf cls true outs = if ∀ o ∈ outs, s.grabbable cls o = true then outs else []) ∧
  (∀ (s : State) (p : PageId),
    (∀ r x, s.pageAt r = some x ↔ s.pages[r.id].gen = r.gen ∧ s.page r.id = some x) ∧
    s.refOf p = { id := p, gen := s.pages[p].gen } ∧
    (s.held p).Pairwise (· < ·) ∧ (∀ o, o ∈ s.held p ↔ (s.output o).state.holder = some (s.refOf p)) ∧
    ∀ pg, s.page p = some pg →
      s.joined p = pg.deskList.filter fun i => decide ((s.station i).state = .pageListen (s.refOf p))) ∧
  ∀ (s : State) (tag : Octet) (body : List Octet) (rest : List Frame) (f : Frame) (q : RawPage) (x : PageFields)
    (m : MapSetId) (p : PageId) (outs : List OutputId), f = ⟨0x18, tag, body⟩ → Ready s f rest →
    q.Spells body → q.fields = some x →
    m = x.mapSet.getD (s.stationCfg x.requester).defaultMapSet → NoFailure (pageChecks s x m) →
    s.page p = none → (∀ k, k < p → (s.page k).isSome = true) →
    outs = s.takeableOf x.cls (decide (x.mode = .allOrWait)) (outputsOf (s.zoneOutputs m x.zones)) →
    (outs = [] → x.wait ≠ some 0 →
      exec (.page tag body) s = .next ((((s.takeHead rest).updPageRec p fun k =>
        { k with page := some { pageOf s x m with waitDeadline := x.wait.map fun w => later s.now (seconds w) } }).advise
        (.pageState (s.refOf p) x.cls (.entered .waiting) (s.held p).length none)).answer f .ok
          (putRef (some (s.refOf p)) ++ put1 0))) ∧
    (outs ≠ [] → exec (.page tag body) s = .next (((((s.takeHead rest).updPageRec p fun k =>
      { k with page := some (pageOf s x m) }).takeSteps p outs).reviewPages).flush.answer f .ok
        (putRef (some (s.refOf p)) ++ put1 1))) ∧
    (outs ≠ [] → (∀ k, s.page k = none) → (∀ o, (s.output o).state = .free) →
      ∃ u, exec (.page tag body) s = .next (u.answer f .ok (putRef (some (s.refOf p)) ++ put1 1)) ∧
        u = { s.takeHead rest with pages := u.pages, outputs := u.outputs, stations := u.stations, link := u.link } ∧
        u.link = { ((s.takeHead rest).advise
          (.pageState (s.refOf p) x.cls (.entered .starting) outs.length none)).link with
            stationOrders := u.link.stationOrders } ∧
        u.pages[p] = { s.pages[p] with page := some { pageOf s x m with state := .starting, started := true } } ∧
        (∀ k : PageId, k ≠ p → u.pages[k] = s.pages[k]) ∧
        outs = outputsOf (s.zoneOutputs m x.zones) ∧
        (∀ o, u.output o =
          if o ∈ outs then { s.output o with state := .guard (s.refOf p) (later s.now s.cfg.guardInterval) }
          else s.output o) ∧
        StationsIn s u ((s.zoneDesks m x.zones).filter s.isIdle) (fun _ => .pageListen (s.refOf p)))

/-- A take: a page takes outputs that are FREE or held by pages of strictly lower class. Each becomes GUARD of the page with a
fresh deadline. A WAITING page enters STARTING, started, its PAGE_STATE placed, and is joined by each desk station that is IDLE or
listens to a page of strictly lower class; a page that has started keeps its state. Then the pages that lost outputs, in the order
of the lowest each lost: one that still holds an output keeps its record; one stripped of its last ends PREEMPTED with a wait limit
of 0, its generation one higher, and otherwise is WAITING with a fresh wait deadline and no chime, and is advised; its stations not
moved to the taker become IDLE, and their availability events are held back, page after page, each in the order of its desk list.
Nothing else changes (R122, R124, R127, R132, R133, R135, R136). The order of those events between several pages is the MODEL's
choice (log entry 10). -/
def Obligations.TakesFollowTheClasses : Prop :=
  ∀ (s u : State) (p : PageId) (pg : Page) (outs : List OutputId) (r : PageRef) (stripped : List PageRef)
    (moves : StationId → Prop) (began : State), s.page p = some pg → r = s.refOf p → u = s.takeSteps p outs →
    (∀ o ∈ outs, (s.output o).state = .free ∨
      ∃ q x, (s.output o).state.holder = some q ∧ s.pageAt q = some x ∧ x.cls.num < pg.cls.num) →
    (∀ q x, s.page q = some x → x.waitLimit = some 0 → x.escGroup = none) →
    stripped = ((outs.filterMap fun o => (s.output o).state.holder).eraseDups).filter
      (fun q => (s.held q.id).all fun o => decide (o ∈ outs)) →
    (∀ i, moves i ↔ pg.state = .waiting ∧ i ∈ pg.deskList ∧ (s.isIdle i = true ∨
      ∃ q x, (s.station i).state = .pageListen q ∧ s.pageAt q = some x ∧ x.cls.num < pg.cls.num)) →
    began = (if pg.state = .waiting then s.advise (.pageState r pg.cls (.entered .starting)
      ((List.finRange 16).countP fun o => decide (o ∈ outs ∨ (s.output o).state.holder = some r)) pg.escGroup) else s) →
    u = { s with pages := u.pages, outputs := u.outputs, stations := u.stations, link := u.link,
                 heldAvail := u.heldAvail } ∧
    u.link = { (stripped.foldl (fun v q => match s.page q.id with
        | some x => v.advise (.pageState q x.cls
            (if x.waitLimit = some 0 then .ended .preempted else .entered .waiting) 0 x.escGroup)
        | none => v) began).link with stationOrders := u.link.stationOrders } ∧
    (∀ o, u.output o =
      if o ∈ outs then { s.output o with state := .guard r (later s.now s.cfg.guardInterval) } else s.output o) ∧
    u.page p = some (if pg.state = .waiting then
      { pg with state := .starting, waitDeadline := none, started := true, chime := none } else pg) ∧ u.refOf p = r ∧
    (∀ q x, q ≠ p → s.page q = some x → s.refOf q ∉ stripped → u.pages[q] = s.pages[q]) ∧
    (∀ q x, s.page q = some x → s.refOf q ∈ stripped → u.pages[q] =
      if x.waitLimit = some 0 then { gen := s.pages[q].gen + 1, page := none }
      else
        { gen := s.pages[q].gen
          page := some { x with
            state := .waiting, waitDeadline := x.waitLimit.map (fun w => later s.now (seconds w)), chime := none } }) ∧
    (∀ q, s.page q = none → u.pages[q] = s.pages[q]) ∧
    (∀ i, (moves i → u.station i = { s.station i with state := .pageListen r }) ∧
      (¬ moves i →
        ((∃ q ∈ stripped, i ∈ s.joined q.id) → u.station i = { s.station i with state := .idle }) ∧
        ((∀ q ∈ stripped, i ∉ s.joined q.id) → u.station i = s.station i))) ∧
    ∀ stays : StationId → Bool, (∀ i, stays i = true ↔ ¬ moves i) →
      u.heldAvail = s.heldAvail ++ (stripped.flatMap fun q => s.joined q.id).filter stays

/-- The review of the wait order. The order holds every page in use that lacks some zone output, by class, highest first, then by
request age, greatest first, then by the lower page id. In its turn a WAITING page that has not started and is ALL_OR_WAIT takes all
its wanted outputs or none, every other page each wanted output that is FREE or held by a page of strictly lower class. The first
page of the order that can take something takes it, and the review begins again; with none it ends, and changes nothing (R117,
R120, R121). -/
def Obligations.ReviewWalksTheWaitOrder : Prop :=
  ∀ s : State,
    (∀ p, p ∈ s.waitOrder ↔ ∃ pg, s.page p = some pg ∧
      ∃ o ∈ outputsOf pg.zoneOutputs, (s.output o).state.holder ≠ some (s.refOf p)) ∧
    s.waitOrder.Pairwise (fun p q => ∀ a b, s.page p = some a → s.page q = some b →
      b.cls.num < a.cls.num ∨ (b.cls.num = a.cls.num ∧
        (s.requestAge b < s.requestAge a ∨ (s.requestAge b = s.requestAge a ∧ p < q)))) ∧
    (∀ (p : PageId) (pg : Page) (isOpen : OutputId → Bool) (want : List OutputId), s.page p = some pg →
      (∀ o, isOpen o = true ↔ (s.output o).state = .free ∨ ∀ q, (s.output o).state.holder = some q →
        ∀ x, s.pageAt q = some x → x.cls.num < pg.cls.num) →
      want = (outputsOf pg.zoneOutputs).filter (fun o => decide ((s.output o).state.holder ≠ some (s.refOf p))) →
      (pg.state = .waiting ∧ pg.started = false ∧ pg.mode = .allOrWait →
        s.takeable p = if ∀ o ∈ want, isOpen o = true then want else []) ∧
      (¬ (pg.state = .waiting ∧ pg.started = false ∧ pg.mode = .allOrWait) → s.takeable p = want.filter isOpen)) ∧
    ((∀ p ∈ s.waitOrder, s.takeable p = []) → s.reviewPages = s) ∧
    ∀ before p after, s.waitOrder = before ++ p :: after → (∀ q ∈ before, s.takeable q = []) → s.takeable p ≠ [] →
      s.reviewPages = (s.takeSteps p (s.takeable p)).reviewPages

/-- PAGE_END: a page id above 15 is BAD_VALUE, a reference that names no page in use is UNKNOWN, and otherwise the page ends
ENDED_BY_HOST. The wait deadline of a WAITING page ends it WAIT_EXPIRED. A chime period that ends begins the next one, with the
settings as they stand, until the count reaches N_p; then a pre-announce leaves its page LIVE and a source pattern ends its page
COMPLETE. The end of the one page in use, not made by an escalation, while no call waits: its record is FREE with the generation one
higher, its outputs FREE, its listening stations IDLE, the end advised, and nothing else changes; the availability events of those
stations come last (R119, R124 to R126, R137, R142, R144, R145). -/
def Obligations.PageEndsReleaseThePage : Prop :=
  (∀ (s : State) (tag : Octet) (v : Nat) (gen : Octet) (rest : List Frame) (f : Frame) (body : List Octet), v < 256 →
    body = put1 v ++ [gen] → f = ⟨0x19, tag, body⟩ → Ready s f rest →
    (15 < v → exec (.pageEnd tag body) s = .next ((s.takeHead rest).answer f .badValue [])) ∧
    ∀ p : PageId, p.val = v →
      (s.pageAt { id := p, gen := gen } = none →
        exec (.pageEnd tag body) s = .next ((s.takeHead rest).answer f .unknown [])) ∧
      ∀ pg, s.pageAt { id := p, gen := gen } = some pg →
        exec (.pageEnd tag body) s = .next (((s.takeHead rest).endPage p .endedByHost).flush.answer f .ok []) ∧
        (pg.escGroup = none → OnlyPage s p → NoCallWaits s →
          ∃ u, exec (.pageEnd tag body) s = .next (u.answer f .ok []) ∧ PageGone (s.takeHead rest) u p pg .endedByHost)) ∧
  ∀ (s : State) (p : PageId) (pg : Page), Runs s → s.page p = some pg →
    (pg.state = .waiting → pg.waitDeadline = some s.now →
      exec (.pageWaitExpiry p) s = .next (s.endPage p .waitExpired).flush.transmitTake ∧
      (s.held p = [] → s.joined p = [] → pg.escGroup = none →
        exec (.pageWaitExpiry p) s = .next
          ((s.updPageRec p fun k => { gen := k.gen + 1, page := none }).advise
            (.pageState (s.refOf p) pg.cls (.ended .waitExpired) 0 none)).transmitTake)) ∧
    ∀ c, pg.chime = some c → s.now = later c.periodStart c.length →
      (c.completed + 1 < s.cfg.patterns[c.pattern].repeats →
        exec (.chimePeriodEnd p) s = .next (s.updPage p fun k =>
          { k with
            chime := some
              { pattern := c.pattern, periodStart := s.now, completed := c.completed + 1, length := s.cfg.chimePeriod,
                sounding := min s.cfg.patterns[c.pattern].on s.cfg.chimePeriod } }).transmitTake) ∧
      (s.cfg.patterns[c.pattern].repeats ≤ c.completed + 1 →
        (∀ i, pg.source = .input i →
          exec (.chimePeriodEnd p) s = .next ((s.updPage p fun k => { k with state := .live, chime := none }).advise
            (.pageState (s.refOf p) pg.cls (.entered .live) (s.held p).length pg.escGroup)).transmitTake) ∧
        (∀ k, pg.source = .chime k →
          exec (.chimePeriodEnd p) s =
            .next ((s.updPage p fun k => { k with chime := none }).endPage p .complete).flush.transmitTake ∧
          (pg.escGroup = none → OnlyPage s p → NoCallWaits s →
            ∃ u, exec (.chimePeriodEnd p) s = .next u.transmitTake ∧ PageGone s u p pg .complete)))

/-- The guard of an output ends: it is AUDIBLE. When its page is STARTING with no chime in play this is the page's opening step: an
input page with a pre-announce starts it, an input page without one is LIVE, a chime page is LIVE with its chime; otherwise
nothing else changes (R134, R142). -/
def Obligations.GuardExpiryOpensThePage : Prop :=
  ∀ (s s1 : State) (o : OutputId) (r : PageRef) (pg : Page) (period : PatternId → Chime), Runs s →
    (s.output o).state = .guard r s.now → s1 = (s.updOutput o fun x => { x with state := .audible r }) →
    s.pageAt r = some pg →
    (∀ a, period a =
      { pattern := a, periodStart := s.now, completed := 0, length := s.cfg.chimePeriod,
        sounding := min s.cfg.patterns[a].on s.cfg.chimePeriod }) →
    (pg.state ≠ .starting ∨ pg.chime ≠ none → exec (.guardExpiry o) s = .next s1.transmitTake) ∧
    (pg.state = .starting → pg.chime = none →
      (∀ i a, pg.source = .input i → pg.preAnnounce = some a →
        exec (.guardExpiry o) s = .next (s1.updPage r.id fun x => { x with chime := some (period a) }).transmitTake) ∧
      (∀ i, pg.source = .input i → pg.preAnnounce = none →
        exec (.guardExpiry o) s = .next ((s1.updPage r.id fun x => { x with state := .live }).advise
          (.pageState r pg.cls (.entered .live) (s.held r.id).length pg.escGroup)).transmitTake) ∧
      (∀ k, pg.source = .chime k →
        exec (.guardExpiry o) s =
          .next ((s1.updPage r.id fun x => { x with state := .live, chime := some (period k) }).advise
            (.pageState r pg.cls (.entered .live) (s.held r.id).length pg.escGroup)).transmitTake))

/-! ## Gain, samples and windows (chapters 7 and 8) -/

/-- The scaling of a sample by an effective gain: the magnitude is the whole part of (|q| + 32) / 64 with the sign of q = x times
GE, saturated to 16 bits, and a replaced sample is a clip. A gain of 64 leaves every sample as it is, and a chime sample never
clips at a gain to 255. The effective gain is GT plus the offset, clamped to 0 to Gceil. The block of a millisecond is built once
for every output from the samples presented on the pins. That OUTPUT_BLOCK comes after every other event of its millisecond, builds
no block and changes nothing while a window, a guard or a chime period is still to end at that moment, and makes the millisecond
pass (the running time rises by 1), is the MODEL's (log entry 7, DEDUCED from R29, R139, R151, R153 to R155 and R160; log entry 1).
A FREE output, one in GUARD
and a silent part of a chime emit eight zeros and take one noise sample, discarded in a settling half; a sounding part of a chime
is one cycle of +8192 and -8192 and a LIVE input page its input, scaled by GE, with the clips counted (R138, R139, R142, R151 to
R155). That the pins are presented once a millisecond is the MODEL's form of the row (log entry 7). -/
def Obligations.SamplesAndBlocksFollowTheOutputState : Prop :=
  (∀ (x : Sample) (ge : Nat) (y : Int), y.natAbs = ((x.toInt * ge).natAbs + 32) / 64 → (0 ≤ x.toInt → 0 ≤ y) →
    (x.toInt < 0 → y ≤ 0) →
    (32767 < y → scaleSample x ge = (0x7FFF, true)) ∧ (y < -32768 → scaleSample x ge = (0x8000, true)) ∧
    (-32768 ≤ y → y ≤ 32767 → (scaleSample x ge).1.toInt = y ∧ (scaleSample x ge).2 = false)) ∧
  (∀ x : Sample, scaleSample x 64 = (x, false)) ∧
  (∀ (ge : Nat) (x : Sample), ge ≤ 255 → x.toInt = 8192 ∨ x.toInt = -8192 → (scaleSample x ge).2 = false) ∧
  (∀ k : ClassOffsets, [PageClass.emergency, .alert, .voice, .background].map k.of =
    [k.emergency, k.alert, k.voice, k.background]) ∧
  (∀ (gt gceil : Nat) (offset : Int),
    (gt + offset < 0 → effectiveGain gt offset gceil = 0) ∧
    (gceil < gt + offset → effectiveGain gt offset gceil = gceil) ∧
    (0 ≤ gt + offset → gt + offset ≤ gceil → (effectiveGain gt offset gceil : Int) = gt + offset)) ∧
  (∀ (s : State) (inputs : Vector (Vector Sample 8) 4) (noise : Vector Envelope 16), Runs s →
    (∃ o : OutputId, s.now = later (s.output o).windowStart (s.outputCfg o).window) ∨
      (∃ o r, (s.output o).state = .guard r s.now) ∨
      (∃ p pg c, s.page p = some pg ∧ pg.chime = some c ∧ s.now = later c.periodStart c.length) →
    exec (.outputBlock inputs noise) s = .next s) ∧
  ∀ (s : State) (inputs : Vector (Vector Sample 8) 4) (noise : Vector Envelope 16), Runs s → s.timedEvent = none →
    ∃ u : State, exec (.outputBlock inputs noise) s = .next u.transmitTake ∧
      u = { s with outputs := u.outputs, pins := { inputs := inputs, noise := noise }, now := s.now + 1 } ∧
      ∀ o,
        ((s.output o).state = .free ∨ (∃ r d, (s.output o).state = .guard r d) →
          u.output o = (s.output o).silentBlock s.now (s.outputCfg o).window noise[o]) ∧
        ∀ r pg, (s.output o).state = .audible r → s.pageAt r = some pg →
          ∀ ge, ge = effectiveGain (s.output o).gt (s.cfg.offsets.of pg.cls) (s.outputCfg o).gceil →
          (∀ c, pg.chime = some c →
            (c.sounding ≤ ageOf s.now c.periodStart →
              u.output o = (s.output o).silentBlock s.now (s.outputCfg o).window noise[o]) ∧
            (ageOf s.now c.periodStart < c.sounding →
              u.output o = (s.output o).soundingBlock ge
                #v[0x2000, 0x2000, 0x2000, 0x2000, 0xE000, 0xE000, 0xE000, 0xE000])) ∧
          (∀ i : InputId, pg.chime = none → pg.state = .live → pg.source = .input i →
            u.output o = (s.output o).soundingBlock ge inputs[i])

/-- The end of an output's window: what it measured is recorded, the first decision of R158 that applies is made, with hold on it is
FROZEN, the at-limit field follows R159 with one NOISE_LIMIT a stay, and the next window starts now, settling only when GT
changed with settle on and hold off (R155 to R159). -/
def Obligations.WindowEndDecidesTheGain : Prop :=
  ∀ (s : State) (o : OutputId) (x : Output) (c : OutputCfg) (mean : Nat)
    (closes : Decision → Nat → Bool → State), Runs s → x = s.output o → c = s.outputCfg o →
    s.now = later x.windowStart c.window → mean = x.sum / x.count →
    (∀ d gt b, closes d gt b = s.updOutput o fun x => x.closed c s.now d gt b) →
    (c.hold = true → exec (.windowEnd o) s = .next (closes .frozen x.gt x.atLimit).transmitTake) ∧
    (c.hold = false → c.ct < x.clips →
      exec (.windowEnd o) s = .next (closes .clipDown (max c.gmin (x.gt - c.stepSize)) false).transmitTake) ∧
    (c.hold = false → x.clips ≤ c.ct →
      (x.count < 16 → exec (.windowEnd o) s = .next (closes .starved x.gt x.atLimit).transmitTake) ∧
      (16 ≤ x.count →
        (c.ut < mean → x.gt < c.gmax →
          exec (.windowEnd o) s = .next (closes .up (min c.gmax (x.gt + c.stepSize)) x.atLimit).transmitTake) ∧
        (c.ut < mean → c.gmax ≤ x.gt →
          (x.atLimit = true → exec (.windowEnd o) s = .next (closes .atLimit x.gt true).transmitTake) ∧
          (x.atLimit = false →
            exec (.windowEnd o) s =
              .next ((closes .atLimit x.gt true).advise (.noiseLimit o x.gt mean c.ut)).transmitTake)) ∧
        (mean ≤ c.ut → mean < c.lt →
          exec (.windowEnd o) s = .next (closes .quietDown (max c.gmin (x.gt - c.stepSize)) false).transmitTake) ∧
        (mean ≤ c.ut → c.lt ≤ mean → exec (.windowEnd o) s = .next (closes .steady x.gt false).transmitTake)))

/-! ## Queries (9.6) -/

/-- Every query answers OK with the content R179 gives it and changes no state; an index out of range is BAD_VALUE, and GET_CALL
follows R28 for its handle. Codes are those of R166. Contents are spelled as numbers with their octet counts, most significant
octet first, none as the greatest number (R166). That the tried set is listed in the order of the offers and memberships by group
number, and that a free orbit's entry carries the none values, are the MODEL's choices (log entry 13); the two octets after a
target of NONE or ATTENDANT in GET_GROUP are a free value (log entry 14) (R177 to R179). That a group's record, and so GET_GROUP,
may hold an escalation zone twice is the MODEL's choice too (log entry 29). -/
def Obligations.QueriesReportAndChangeNothing : Prop :=
  ∀ (s : State) (tag : Octet) (rest : List Frame) (spell : List (Nat × Nat) → List Octet)
    (byte wide ms : Option Nat → Nat × Nat) (remains : Option Time → Nat × Nat) (yes : Bool → Nat × Nat)
    (list : List StationId → List (Nat × Nat)) (ref : Option PageRef → List (Nat × Nat)),
    (∀ l, spell l = l.flatMap fun x => (List.range x.1).reverse.map fun k => BitVec.ofNat 8 (x.2 / 256 ^ k)) →
    (∀ v, byte v = (1, v.getD 255)) → (∀ v, wide v = (2, v.getD 65535)) → (∀ v, ms v = (4, v.getD 4294967295)) →
    (∀ d, remains d = (3, (d.map fun t => ageOf t s.now).getD 16777215)) → (∀ b, yes b = (1, if b = true then 1 else 0)) →
    (∀ l, list l = (1, l.length) :: l.map fun i => (2, i.val)) →
    (ref none = [(1, 255), (1, 0)]) → (∀ r, ref (some r) = [(1, r.id.val), (1, r.gen.toNat)]) →
    (∀ h r, [StationState.unused, .outOfService, .idle, .ringing h, .busy, .pageListen r].map StationState.code =
      [0, 1, 2, 3, 4, 5]) ∧
    (∀ h b d r i, [Presentation.quiet, .ring h b d, .desk r i].map Presentation.code = [0, 1, 2]) ∧
    [CallState.queued, .offering, .parked, .recalling, .ending].map CallState.code = [0, 1, 2, 3, 4] ∧
    [OfferKind.group, .target, .attendant, .recalling].map OfferKind.code = [0, 1, 2, 3] ∧
    [CallOutcome.answered, .picked, .retrieved, .abandoned, .noRoute].map CallOutcome.code = [0, 1, 2, 3, 4] ∧
    [Algorithm.linear, .circular, .longestIdle, .simultaneous].map Algorithm.code = [0, 1, 2, 3] ∧
    [PageState.waiting, .starting, .live].map PageState.code = [0, 1, 2] ∧
    [PageMode.allOrWait, .partialStart].map PageMode.code = [0, 1] ∧
    (∀ r t, [OutputState.free, .guard r t, .audible r].map OutputState.code = [0, 1, 2]) ∧
    [Decision.clipDown, .starved, .up, .atLimit, .quietDown, .steady, .frozen].map Decision.code = [0, 1, 2, 3, 4, 5, 6] ∧
    [PageClass.background, .voice, .alert, .emergency].map PageClass.num = [0, 1, 2, 3] ∧
    Answers s rest (.status tag []) ⟨0x20, tag, []⟩ .ok (spell
      [ (4, s.now.toNat), (1, s.calls.length), (1, s.calls.countP fun c => decide (c.state = .ending)),
        (1, (List.finRange 16).countP fun p => (s.page p).isSome), (1, s.waitOrder.length),
        (1, (List.finRange 20).countP fun o => (s.orbitHolder o).isSome), yes s.save.isSome, (1, s.cfg.digitWidth),
        (2, s.cfg.directory.length), (1, rest.length), (1, s.link.replies.length), (1, s.link.callOrders.length),
        (2, s.link.stationOrders.length), (1, s.link.advisories.length) ]) ∧
    Answers s rest (.getOrbits tag []) ⟨0x24, tag, []⟩ .ok (spell ((List.finRange 20).flatMap fun o =>
      match s.orbitHolder o with
      | none => [(2, 0), byte none, wide none, remains none]
      | some c => [(2, c.handle), (1, c.state.code), wide (c.parker.map Fin.val), remains c.parkDeadline])) ∧
    (∀ (i : StationId) (x : Station) (k : StationCfg) (members : List (GroupId × Bool)), x = s.station i →
      k = s.stationCfg i → members = ((List.finRange 32).flatMap fun g =>
        (((s.groupCfg g).members.find? fun m => decide (m.station = i)).map fun m => (g, m.loggedIn)).toList) →
      Answers s rest (.getStation tag (put2 i.val)) ⟨0x21, tag, put2 i.val⟩ .ok (spell (
        [(1, x.state.code)] ++ (match x.state with
          | .ringing h => [(2, h)]
          | .pageListen r => ref (some r)
          | _ => [(2, 0)]) ++
        [ (4, s.idleAge i), yes x.saturated, (1, x.lastSent.code), yes (s.marked i), yes k.inUse,
          byte (k.pickupGroup.map Fin.val), byte (k.searchList.map Fin.val), yes k.override, yes k.directAny,
          (1, k.classLimit.num), (1, k.defaultMapSet.val), (1, members.length) ] ++
        members.flatMap fun m => [(1, m.1.val), yes m.2]))) ∧
    (∀ (g : GroupId) (cs : List Call), cs = (s.group g).queue.filterMap s.findCall →
      Answers s rest (.listQueue tag (put1 g.val)) ⟨0x23, tag, put1 g.val⟩ .ok (spell ((1, cs.length) ::
        cs.flatMap fun c => [(2, c.handle), (4, s.queueAge c), yes c.escalated, yes c.noPickup]))) ∧
    (∀ p : PageId,
      (s.page p = none → Answers s rest (.getPage tag (put1 p.val)) ⟨0x25, tag, put1 p.val⟩ .ok
        (spell [(1, p.val), (1, s.pages[p].gen.toNat), (1, 4)])) ∧
      ∀ (pg : Page) (places : Option Nat), s.page p = some pg → (places = none ↔ p ∉ s.waitOrder) →
        (∀ n, places = some n → 1 ≤ n ∧ s.waitOrder[n - 1]? = some p) →
        Answers s rest (.getPage tag (put1 p.val)) ⟨0x25, tag, put1 p.val⟩ .ok (spell (
          [ (1, p.val), (1, s.pages[p].gen.toNat), (1, pg.state.code), (1, pg.cls.num), wide (pg.requester.map Fin.val),
            byte (pg.escGroup.map Fin.val), (1, match pg.source with | .input i => i.val | .chime k => 16 + k.val),
            byte (pg.preAnnounce.map Fin.val), (1, pg.mode.code), yes pg.started, remains pg.waitDeadline,
            (4, s.requestAge pg), (2, pg.zoneOutputs.toNat),
            (2, ((s.held p).map fun o => 2 ^ o.val).sum), (2, ((s.wanted p).map fun o => 2 ^ o.val).sum) ] ++
          list (s.joined p) ++
          [ byte places, byte (pg.chime.map fun c => c.pattern.val), wide (pg.chime.map Chime.length),
            byte (pg.chime.map Chime.completed) ]))) ∧
    (∀ (o : OutputId) (x : Output) (k : OutputCfg) (ge : Option Nat) (guard : Option Time), x = s.output o →
      k = s.outputCfg o → (∀ r d, x.state = .guard r d → guard = some d) → ((∀ r d, x.state ≠ .guard r d) → guard = none) →
      (∀ r pg, x.state = .audible r → s.pageAt r = some pg →
        ge = some (effectiveGain x.gt (s.cfg.offsets.of pg.cls) k.gceil)) →
      ((∀ r pg, x.state = .audible r → s.pageAt r ≠ some pg) → ge = none) →
      Answers s rest (.getOutput tag (put1 o.val)) ⟨0x26, tag, put1 o.val⟩ .ok (spell (
        (1, x.state.code) :: ref x.state.holder ++
        [ remains guard, (1, x.gt), (1, k.gmin), (1, k.gmax), (1, k.gceil), (1, k.stepSize), (2, k.ut), (2, k.lt), (2, k.ct),
          (2, k.window), yes k.settle, yes k.hold, wide ge, (4, ageOf s.now x.windowStart), yes x.settling, (2, x.count),
          (2, x.clips), wide x.lastCount, wide x.lastMean, wide x.lastClips, byte (x.lastDecision.map Decision.code),
          yes x.atLimit ]))) ∧
    (∀ (g : GroupId) (x : Group) (k : GroupCfg), x = s.group g → k = s.groupCfg g →
      Answers s rest (.getGroup tag (put1 g.val)) ⟨0x27, tag, put1 g.val⟩ .ok (
        spell [yes k.enabled, (1, k.algorithm.code), (1, k.noAnswer), (1, k.queueLimit), (2, k.maxWait)] ++
        (match k.target with
          | .nowhere => [0, Config.unreadOctet 0, Config.unreadOctet 1]
          | .group j => spell [(1, 1), (2, j.val)]
          | .station i => spell [(1, 2), (2, i.val)]
          | .attendant => [3, Config.unreadOctet 0, Config.unreadOctet 1]) ++
        spell ([(2, k.escDelay), (1, k.escMapSet.val), (1, k.escZones.length)] ++ (k.escZones.map fun z => (1, z.val)) ++
          [(1, k.chime.val), (1, k.repeatInterval), (1, k.members.length)] ++
          (k.members.flatMap fun m => [(2, m.station.val), yes m.loggedIn]) ++
          [wide (x.cursor.map Fin.val), (1, x.queue.length)] ++ ref x.escPage ++
          [remains x.repeatDeadline, yes x.repeatDue]))) ∧
    (∀ v, v < 65536 → 511 < v → Answers s rest (.getStation tag (put2 v)) ⟨0x21, tag, put2 v⟩ .badValue []) ∧
    (∀ v, v < 256 →
      (31 < v → Answers s rest (.listQueue tag (put1 v)) ⟨0x23, tag, put1 v⟩ .badValue [] ∧
        Answers s rest (.getGroup tag (put1 v)) ⟨0x27, tag, put1 v⟩ .badValue []) ∧
      (15 < v → Answers s rest (.getPage tag (put1 v)) ⟨0x25, tag, put1 v⟩ .badValue [] ∧
        Answers s rest (.getOutput tag (put1 v)) ⟨0x26, tag, put1 v⟩ .badValue [])) ∧
    (∀ h, h < 65536 →
      (h = 0 → Answers s rest (.getCall tag (put2 h)) ⟨0x22, tag, put2 h⟩ .badValue []) ∧
      (h ≠ 0 → s.findCall h = none → Answers s rest (.getCall tag (put2 h)) ⟨0x22, tag, put2 h⟩ .unknown []) ∧
      (∀ c, h ≠ 0 → s.findCall h = some c →
        Answers s rest (.getCall tag (put2 h)) ⟨0x22, tag, put2 h⟩ .ok (spell (
          [(1, c.state.code), byte (c.offerKind.map OfferKind.code), (1, c.caller.length)] ++
          (c.caller.map fun x => (1, x)) ++
          [ yes c.noPickup, byte (c.currentGroup.map Fin.val), byte (c.originGroup.map Fin.val), (1, c.hops),
            (1, c.offered.length) ] ++
          (c.offered.flatMap fun x => [(2, x.station.val), (2, ageOf s.now x.start)]) ++ list c.tried ++
          [ (4, s.arrivalAge c), ms (c.queueEntry.map fun _ => s.queueAge c), remains c.ringDeadline,
            remains c.waitDeadline, remains c.escDeadline, remains c.parkDeadline, yes c.escalated, yes c.waitPassed,
            byte (c.orbit.map Fin.val), wide (c.parker.map Fin.val), byte (c.outcome.map CallOutcome.code),
            wide (c.outcomeStation.map Fin.val) ])))) ∧
    (∀ d, d.length < 256 → (∀ x ∈ d, x < 256) →
      (d.length = s.cfg.digitWidth ∧ (∀ x ∈ d, x ≤ 9) →
        ∀ (number : List Nat → Nat) (es : List DirEntry), (∀ l, number l = l.foldl (fun n x => n * 10 + x) 0) →
        es.Perm (s.cfg.directory.filter fun e => decide (number d ≤ number e.number)) →
        es.Pairwise (fun a b => number a.number < number b.number) →
        Answers s rest (.getDir tag (putDigits d)) ⟨0x28, tag, putDigits d⟩ .ok (spell (
          (1, (es.take 32).length) ::
          ((es.take 32).flatMap fun e => [(3, number e.number), (1, e.target.codes.1), (2, e.target.codes.2)]) ++
          [yes (decide (32 < es.length))]))) ∧
      (d.length ≠ s.cfg.digitWidth ∨ (∃ x ∈ d, 9 < x) →
        Answers s rest (.getDir tag (putDigits d)) ⟨0x28, tag, putDigits d⟩ .badValue []))

/-! ## Edits (10.1) -/

/-- R22, while no save is in progress: a D outside 3 to 6 is BAD_VALUE; a D in range, the one held included, is NOT_EMPTY while the
Directory holds entries and D keeps its value; on an empty Directory it is accepted, and edits and resolutions use it from then
on: a longer number is cut to its last D digits, a shorter one, no digits among them, padded with leading zeros (as R20 says). The
default D is 4. -/
def Obligations.DigitWidthIsSetOnAnEmptyDirectory : Prop :=
  WorkingConfig.defaults.digitWidth = 4 ∧
  ∀ (s t : State) (tag : Octet) (w : Nat) (rest : List Frame) (body : List Octet), w < 256 → body = put2 1 ++ put1 w →
    s.save = none → t = ((s.takeHead rest).updCfg fun c => { c with digitWidth := w }) →
    (w < 3 ∨ 6 < w → Answers s rest (.setSystem tag body) ⟨0x30, tag, body⟩ .badValue []) ∧
    (3 ≤ w → w ≤ 6 → s.cfg.directory ≠ [] → Answers s rest (.setSystem tag body) ⟨0x30, tag, body⟩ .notEmpty []) ∧
    (3 ≤ w → w ≤ 6 → s.cfg.directory = [] → Ready s ⟨0x30, tag, body⟩ rest →
      exec (.setSystem tag body) s = .next (t.answer ⟨0x30, tag, body⟩ .ok [])) ∧
    (∀ target : List Digit → Option DirTarget,
      (∀ d, target d = (s.cfg.directory.find? fun e => decide (e.number = d)).map DirEntry.target) →
      (∀ cut last, last.length = w → t.resolve (cut ++ last) = target last) ∧
      ∀ d, d.length ≤ w → t.resolve d = target (List.replicate (w - d.length) 0 ++ d)) ∧
    (∀ d, exactNumber t d = true ↔ d.length = w ∧ ∀ x ∈ d, x ≤ 9)

/-- R21: SAVING during a save; then the checks of SET_DIR in their order. An accepted add appends its entry, an accepted remove
takes the entry of its number out, and nothing else changes: calls, parked calls and pages stay as they are. -/
def Obligations.DirectoryEditsCheckedInOrder : Prop :=
  ∀ (s : State) (tag : Octet) (op kind target : Nat) (d : List Nat) (rest : List Frame) (f : Frame) (body : List Octet)
    (badNumber : Prop), op < 256 → kind < 256 → target < 65536 → d.length < 256 → (∀ x ∈ d, x < 256) →
    body = put1 op ++ putDigits d ++ put1 kind ++ put2 target → f = ⟨0x31, tag, body⟩ →
    (badNumber ↔ d.length ≠ s.cfg.digitWidth ∨ ∃ x ∈ d, 9 < x) →
    (s.save.isSome = true → Answers s rest f.request f .saving []) ∧
    (s.save = none →
      (1 < op → Answers s rest f.request f .badValue []) ∧
      (op = 0 →
        (badNumber ∨ (∀ t : DirTarget, t.codes ≠ (kind, target)) →
          Answers s rest (.setDirAdd tag body) f .badValue []) ∧
        ∀ t : DirTarget, ¬ badNumber → t.codes = (kind, target) →
          ((∃ e ∈ s.cfg.directory, e.number = d ∨ (e.target = t ∧ ∀ i, t ≠ .station i)) →
            Answers s rest (.setDirAdd tag body) f .duplicate []) ∧
          ((∀ e ∈ s.cfg.directory, e.number ≠ d ∧ (e.target = t → ∃ i, t = .station i)) →
            (1024 ≤ s.cfg.directory.length → Answers s rest (.setDirAdd tag body) f .full []) ∧
            (s.cfg.directory.length < 1024 → Ready s f rest →
              exec (.setDirAdd tag body) s = .next (((s.takeHead rest).updCfg fun c =>
                { c with directory := c.directory ++ [{ number := d, target := t }] }).answer f .ok [])))) ∧
      (op = 1 →
        (badNumber → Answers s rest (.setDirRemove tag body) f .badValue []) ∧
        (¬ badNumber → (∀ e ∈ s.cfg.directory, e.number ≠ d) →
          Answers s rest (.setDirRemove tag body) f .unknown []) ∧
        (¬ badNumber → (∃ e ∈ s.cfg.directory, e.number = d) → Ready s f rest →
          exec (.setDirRemove tag body) s = .next (((s.takeHead rest).updCfg fun c =>
            { c with directory := c.directory.filter fun e => decide (e.number ≠ d) }).answer f .ok []))))

/-- SET_STATION while no save is in progress: a range that fails its check, a mask bit above 6 or a field out of its range is
BAD_VALUE: a flag above 1, a pickup group that is neither 0 to 63 nor none, a search list that is neither 0 to 15 nor none, a class
limit or a map set above 3. An accepted one writes each present field into every station of the range, and keeps the absent ones;
without "in use" nothing else changes. With it, while no call waits and
no station of the range rings, the UNUSED stations brought into use are IDLE with idle-since now and their mark cleared, those
taken out of use are UNUSED, and every other station is as it was (R1, R3, R182). -/
def Obligations.StationEditsActOnTheirRange : Prop :=
  ∀ (s : State) (tag : Octet) (body : List Octet) (rest : List Frame) (fr : Frame) (q : RawStation), fr = ⟨0x32, tag, body⟩ →
    q.Spells body → s.save = none →
    (q.last < q.first ∨ 511 < q.last ∨ q.fields = none → Answers s rest (.setStation tag body) fr .badValue []) ∧
    (q.fields = none ↔ 128 ≤ q.mask ∨ (∃ v, q.inUse = some v ∧ 1 < v) ∨ (∃ v, q.pickupGroup = some v ∧ 63 < v ∧ v ≠ 255) ∨
      (∃ v, q.searchList = some v ∧ 15 < v ∧ v ≠ 255) ∨ (∃ v, q.override = some v ∧ 1 < v) ∨
      (∃ v, q.directAny = some v ∧ 1 < v) ∨ (∃ v, q.classLimit = some v ∧ 3 < v) ∨ ∃ v, q.mapSet = some v ∧ 3 < v) ∧
    (∀ f k w, q.fields = some f → w = f.write k →
      f.inUse = q.inUse.map (fun v => decide (v = 1)) ∧ w.inUse = (q.inUse.map fun v => decide (v = 1)).getD k.inUse ∧
      (w.pickupGroup.map Fin.val).getD 255 = q.pickupGroup.getD ((k.pickupGroup.map Fin.val).getD 255) ∧
      (w.searchList.map Fin.val).getD 255 = q.searchList.getD ((k.searchList.map Fin.val).getD 255) ∧
      w.override = (q.override.map fun v => decide (v = 1)).getD k.override ∧
      w.directAny = (q.directAny.map fun v => decide (v = 1)).getD k.directAny ∧
      w.classLimit.num = q.classLimit.getD k.classLimit.num ∧ w.defaultMapSet.val = q.mapSet.getD k.defaultMapSet.val) ∧
    ∀ f, q.first ≤ q.last → q.last ≤ 511 → q.fields = some f → Ready s fr rest →
      ∃ t : State,
        (∀ i, t.stationCfg i = if q.first ≤ i.val ∧ i.val ≤ q.last then f.write (s.stationCfg i) else s.stationCfg i) ∧
        t = { s.takeHead rest with cfg := { s.cfg with stations := t.cfg.stations } } ∧
        (f.inUse = none → exec (.setStation tag body) s = .next (t.answer fr .ok [])) ∧
        ∀ b, f.inUse = some b → NoCallWaits s →
          (∀ i : StationId, q.first ≤ i.val → i.val ≤ q.last → ∀ h, (s.station i).state ≠ .ringing h) →
          ∃ u, exec (.setStation tag body) s = .next (u.answer fr .ok []) ∧ OnlyStations t u ∧
            ∀ i, u.station i =
              if q.first ≤ i.val ∧ i.val ≤ q.last then
                if b = true then
                  if (s.station i).state = .unused then
                    { s.station i with state := .idle, idleSince := s.now, saturated := false }
                  else s.station i
                else { s.station i with state := .unused }
              else s.station i

/-- SET_GROUP while no save is in progress: an empty mask, a mask bit above 9 or a field out of its range is BAD_VALUE: a flag
above 1, an algorithm above 3, a no-answer time outside 5 to 60 s, a limit above 24, a maximum wait other than 0 and 10 to 900 s,
a target that names nothing, an escalation delay other than 0 and 10 to 600 s, a map set above 3, a zone above 31 or more than 4,
a pattern above 7, a repeat interval outside 10 to 120 s. An accepted one writes each present field into every group of the mask,
keeps the absent ones, and writes nothing else of the configuration; without a disabling, a queue limit or an escalation delay it
does nothing else (R42, R64, R72, R73, R86, R182). That a zone named twice among the escalation zones is kept, and counts twice
toward the 4, is the MODEL's choice (log entry 29). -/
def Obligations.GroupEditsWriteTheirGroups : Prop :=
  ∀ (s : State) (tag : Octet) (body : List Octet) (rest : List Frame) (fr : Frame) (q : RawGroup), fr = ⟨0x33, tag, body⟩ →
    q.Spells body → s.save = none →
    (q.groups = 0 ∨ q.fields = none → Answers s rest (.setGroup tag body) fr .badValue []) ∧
    (q.fields = none ↔ 1024 ≤ q.mask ∨ (∃ v, q.enabled = some v ∧ 1 < v) ∨ (∃ v, q.algorithm = some v ∧ 3 < v) ∨
      (∃ v, q.noAnswer = some v ∧ (v < 5 ∨ 60 < v)) ∨ (∃ v, q.queueLimit = some v ∧ 24 < v) ∨
      (∃ v, q.maxWait = some v ∧ v ≠ 0 ∧ (v < 10 ∨ 900 < v)) ∨
      (∃ code v, q.target = some (code, v) ∧ (3 < code ∨ (code = 1 ∧ 31 < v) ∨ (code = 2 ∧ 511 < v))) ∨
      (∃ v, q.escDelay = some v ∧ v ≠ 0 ∧ (v < 10 ∨ 600 < v)) ∨
      (∃ m zs, q.escZones = some (m, zs) ∧ (3 < m ∨ 4 < zs.length ∨ ∃ z ∈ zs, 31 < z)) ∨
      (∃ v, q.chime = some v ∧ 7 < v) ∨ ∃ v, q.repeatInterval = some v ∧ (v < 10 ∨ 120 < v)) ∧
    ∀ f, q.groups ≠ 0 → q.fields = some f → Ready s fr rest →
      (∃ u t : State, exec (.setGroup tag body) s = .next (u.answer fr .ok []) ∧
        (∀ g, t.groupCfg g = if q.groups.testBit g.val then f.write (s.groupCfg g) else s.groupCfg g) ∧
        t = { s.takeHead rest with cfg := { s.cfg with groups := t.cfg.groups } } ∧
        u.cfg = t.cfg ∧ u.now = s.now ∧ u.stored = s.stored ∧ u.save = none ∧ u.link.rxBuffer = rest ∧
        (f.enabled ≠ some false → f.queueLimit = none → f.escDelay = none → u = t)) ∧
      ∀ k w : GroupCfg, w = f.write k →
        w.members = k.members ∧ w.enabled = (q.enabled.map fun v => decide (v = 1)).getD k.enabled ∧
        w.noAnswer = q.noAnswer.getD k.noAnswer ∧ w.queueLimit = q.queueLimit.getD k.queueLimit ∧
        w.maxWait = q.maxWait.getD k.maxWait ∧ w.escDelay = q.escDelay.getD k.escDelay ∧
        w.chime.val = q.chime.getD k.chime.val ∧ w.repeatInterval = q.repeatInterval.getD k.repeatInterval ∧
        w.escMapSet.val = (q.escZones.map Prod.fst).getD k.escMapSet.val ∧
        w.escZones.map Fin.val = (q.escZones.map Prod.snd).getD (k.escZones.map Fin.val) ∧
        (q.algorithm = none → w.algorithm = k.algorithm) ∧
        (∀ v, q.algorithm = some v →
          [.linear, .circular, .longestIdle, .simultaneous][v]? = some w.algorithm) ∧
        (q.target = none → w.target = k.target) ∧
        ∀ code v, q.target = some (code, v) →
          (code = 0 → w.target = .nowhere) ∧ (∀ g : GroupId, code = 1 → g.val = v → w.target = .group g) ∧
          (∀ i : StationId, code = 2 → i.val = v → w.target = .station i) ∧ (code = 3 → w.target = .attendant)

/-- The live effects of an accepted SET_GROUP on the one group of its mask, in a table of calls in agreement. A disabling
overflows GROUP_DISABLED the queued calls from head to tail, and then the calls ringing for the group, oldest arrival first and
then the lower handle, whose stations' availability events come last; disabling a disabled group moves no call. A limit overflows
LIMIT_LOWERED the calls beyond it, tail first. An escalation delay gives each queued call not escalated a deadline from its queue
entry time, or its flag where its queue age reaches the delay, and may start escalation; a delay of 0 clears the deadlines and
flags of the group's queued and ringing calls, and its escalation. How an edit that carries several of these fields orders them is
the MODEL's choice (log entry 11) and not stated here (R72, R74, R86). -/
def Obligations.GroupEditsActAtOnce : Prop :=
  ∀ (s t : State) (tag : Octet) (body : List Octet) (rest : List Frame) (fr : Frame) (q : RawGroup) (f : GroupFields)
    (g : GroupId) (ends : State → Prop), fr = ⟨0x33, tag, body⟩ → q.Spells body → s.save = none →
    q.fields = some f → q.groups = 2 ^ g.val → Ready s fr rest → CallsAgree s →
    t = ((s.takeHead rest).updCfg fun c => { c with groups := c.groups.set g.val (f.write (s.groupCfg g)) g.isLt }) →
    (∀ u, ends u ↔ exec (.setGroup tag body) s = .next (u.flush.answer fr .ok [])) →
    (f.enabled = some false → f.queueLimit = none → f.escDelay = none →
      ((s.groupCfg g).enabled = false → ends t) ∧
      ((s.groupCfg g).enabled = true → ∀ (u : State) (hs : List Handle),
        u = (s.group g).queue.foldl (fun v h => v.overflowMove h g .groupDisabled) t →
        (∀ h, h ∈ hs ↔ ∃ c, u.findCall h = some c ∧ c.state = .offering ∧ c.currentGroup = some g) →
        hs.Pairwise (fun a b => ∀ c d, u.findCall a = some c → u.findCall b = some d →
          u.arrivalAge d < u.arrivalAge c ∨ (u.arrivalAge d = u.arrivalAge c ∧ a < b)) →
        ends ((hs.foldl (fun v h => v.overflowMove h g .groupDisabled) u).availAll (hs.flatMap u.ringingFor)))) ∧
    (∀ limit stay leave, f.enabled ≠ some false → f.queueLimit = some limit → f.escDelay = none →
      (s.group g).queue = stay ++ leave → stay.length = min limit (s.group g).queue.length →
      ends (leave.reverse.foldl (fun v h => v.overflow h g .limitLowered) t)) ∧
    (∀ (delay : Nat) (fresh : Call → Call), f.enabled ≠ some false → f.queueLimit = none → f.escDelay = some delay →
      (delay = 0 →
        (∀ c, fresh c = if c.currentGroup = some g ∧ (c.state = .queued ∨ c.state = .offering) then
          { c with escalated := false, escDeadline := none } else c) →
        (s.inEscalation g = false → ends { t with calls := s.calls.map fresh }) ∧
        (s.inEscalation g = true → ends (({ t with calls := s.calls.map fresh } : State).escalationClear g))) ∧
      (delay ≠ 0 →
        (∀ c, fresh c = if c.handle ∈ (s.group g).queue ∧ c.escalated = false then
          if seconds delay ≤ s.queueAge c then { c with escalated := true, escDeadline := none }
          else { c with escDeadline := c.queueEntry.map fun e => later e (seconds delay) } else c) →
        ((s.inEscalation g = true ∨ ∀ h ∈ (s.group g).queue, ∀ c, s.findCall h = some c → s.queueAge c < seconds delay) →
          ends { t with calls := s.calls.map fresh }) ∧
        (s.inEscalation g = false → (∃ h ∈ (s.group g).queue, ∃ c, s.findCall h = some c ∧ seconds delay ≤ s.queueAge c) →
          ends (({ t with calls := s.calls.map fresh } : State).escalationStart g))))

/-- SET_MEMBERS while no save is in progress, checked in the order of R45. ADD inserts the member before its position, and a member
added logged in has its availability event; REMOVE takes it out, the cursor that names it passes to the member before it, round to
the last, and it leaves the tried set of every call of the group; LOGIN and LOGOUT set its flag, a LOGIN that changes it with the
availability event. REMOVE, and LOGOUT of a member logged in, cancel its ring for a call of the group: it leaves the call's offered
stations and becomes IDLE; the call rings on, or is offered to a member selected, or returns to its queue with its tried set reduced
to that station; and its availability event follows. Nothing else changes. That a logged-in flag above 1 is met by check 1 of R45,
before DUPLICATE and FULL, is log entry 24 (DEDUCED) (R45, R50, R55, R61 to R63). -/
def Obligations.MemberEditsCheckedInOrder : Prop :=
  (∀ (s : State) (g : GroupId) (w : List Member → List Member), s.updMembers g w = s.updCfg fun c =>
    { c with groups := c.groups.set g.val { s.groupCfg g with members := w (s.groupCfg g).members } g.isLt }) ∧
  (∀ i b ms, setLoggedIn i b ms = ms.map fun m => if m.station = i then { m with loggedIn := b } else m) ∧
  ∀ (s : State) (tag : Octet) (gv op v pos flag : Nat) (rest : List Frame) (f : Frame) (body : List Octet), gv < 256 →
    op < 256 → v < 65536 → pos < 256 → flag < 256 → s.save = none →
    body = put1 gv ++ put1 op ++ put2 v ++ put1 pos ++ put1 flag → f = ⟨0x34, tag, body⟩ →
    (31 < gv ∨ 511 < v ∨ 3 < op → Answers s rest f.request f .badValue []) ∧
    ∀ (g : GroupId) (i : StationId) (ms : List Member), g.val = gv → i.val = v → ms = (s.groupCfg g).members →
      (op = 0 →
        (ms.length < pos ∨ 1 < flag → Answers s rest (.setMembersAdd tag body) f .badValue []) ∧
        (pos ≤ ms.length → flag ≤ 1 →
          (i ∈ ms.map Member.station → Answers s rest (.setMembersAdd tag body) f .duplicate []) ∧
          (i ∉ ms.map Member.station →
            (32 ≤ ms.length ∨ 4 ≤ (List.finRange 32).countP (fun k => decide (i ∈ (s.groupCfg k).members.map Member.station)) ∨
                512 ≤ ((List.finRange 32).map fun k => (s.groupCfg k).members.length).sum →
              Answers s rest (.setMembersAdd tag body) f .full []) ∧
            (ms.length < 32 →
              (List.finRange 32).countP (fun k => decide (i ∈ (s.groupCfg k).members.map Member.station)) < 4 →
              ((List.finRange 32).map fun k => (s.groupCfg k).members.length).sum < 512 → Ready s f rest → ∀ t,
              t = ((s.takeHead rest).updMembers g fun ms =>
                ms.take pos ++ { station := i, loggedIn := decide (flag = 1) } :: ms.drop pos) →
              (flag = 0 ∨ NoCallWaits s → exec (.setMembersAdd tag body) s = .next (t.answer f .ok [])) ∧
              (flag = 1 → exec (.setMembersAdd tag body) s = .next ((t.availability i).flush.answer f .ok [])))))) ∧
      (1 ≤ op → op ≤ 3 → i ∉ ms.map Member.station → Answers s rest f.request f .unknown []) ∧
      (i ∈ ms.map Member.station → Ready s f rest →
        (op = 2 →
          ((∃ m ∈ ms, m.station = i ∧ m.loggedIn = true) →
            exec (.setMembersLogin tag body) s = .next ((s.takeHead rest).answer f .ok [])) ∧
          ((∀ m ∈ ms, m.station = i → m.loggedIn = false) → ∀ t, t = (s.takeHead rest).updMembers g (setLoggedIn i true) →
            exec (.setMembersLogin tag body) s = .next ((t.availability i).flush.answer f .ok []) ∧
            (NoCallWaits s → exec (.setMembersLogin tag body) s = .next (t.answer f .ok [])))) ∧
        (op = 3 → (∀ m ∈ ms, m.station = i → m.loggedIn = false) →
          exec (.setMembersLogout tag body) s = .next ((s.takeHead rest).answer f .ok [])) ∧
        ∀ (cmd : Instr) (t : State) (cut : Call → Call) (before after : List Member) (m : Member) (ends : State → Prop),
          ms = before ++ m :: after → m.station = i → i ∉ before.map Member.station → i ∉ after.map Member.station →
          (∀ c, cut c = if op = 1 ∧ c.currentGroup = some g ∧ (c.state = .queued ∨ c.state = .offering) then
            { c with tried := c.tried.filter fun k => decide (k ≠ i) } else c) →
          (op = 1 ∧ cmd = .setMembersRemove tag body ∧ t = (((({ s.takeHead rest with calls := s.calls.map cut } : State).updGroup g
              fun x => { x with cursor :=
                if x.cursor = some i then (after ++ before).getLast?.map Member.station else x.cursor }).updMembers g
              fun _ => before ++ after)) ∨
            op = 3 ∧ m.loggedIn = true ∧ cmd = .setMembersLogout tag body ∧
              t = ((s.takeHead rest).updMembers g fun _ => before ++ { m with loggedIn := false } :: after)) →
          (∀ u, ends u ↔ exec cmd s = .next (u.answer f .ok [])) →
          ((∀ h c, (s.station i).state = .ringing h → s.findCall h = some c → c.currentGroup ≠ some g) → ends t) ∧
          ∀ h c s1 s2, (s.station i).state = .ringing h → s.findCall h = some c → c.currentGroup = some g →
            s1 = ((t.updCall h fun x => { x with offered := x.offered.filter fun y => decide (y.station ≠ i) }).enterState i
              .idle) →
            s2 = (s1.updCall h fun x => { x with ringDeadline := none }) →
            ((∃ x ∈ c.offered, x.station ≠ i) → ends (s1.availability i).flush) ∧
            ((∀ x ∈ c.offered, x.station = i) → c.offerKind = some .group → ∀ sts, sts = s1.select g (cut c) →
              ((s.groupCfg g).algorithm ≠ .simultaneous → sts ≠ [] →
                ends ((s2.offerGroup h g sts).availability i).flush) ∧
              ((s.groupCfg g).algorithm = .simultaneous ∨ sts = [] →
                ends ((s2.returnToQueue h g [i]).availability i).flush)))

/-- The edits of one plain record while no save is in progress. SET_PICKUP writes its group into every station of its range;
SET_LIST replaces a search list whose entries differ; SET_MAP replaces a zone entry, unless it would reserve a zone that a page of
lower class names; SET_CHIME sets a pattern. Every field out of its range is BAD_VALUE, a repeat DUPLICATE; nothing else changes
(R88, R89, R110, R140, R182). That a flag above 1 in SET_LIST and SET_MAP is met with the ranges, before DUPLICATE and
REFUSED_STATE, is log entry 24 (DEDUCED). -/
def Obligations.PlainRecordEdits : Prop :=
  ∀ (s : State) (tag : Octet) (rest : List Frame), s.save = none →
    (∀ first last n body, first < 65536 → last < 65536 → n < 256 → body = put2 first ++ put2 last ++ put1 n →
      (last < first ∨ 511 < last ∨ (63 < n ∧ n ≠ 255) →
        Answers s rest (.setPickup tag body) ⟨0x35, tag, body⟩ .badValue []) ∧
      (∀ g : Option PickupGroup, first ≤ last → last ≤ 511 → (g.map Fin.val).getD 255 = n →
        Edits s rest (.setPickup tag body) ⟨0x35, tag, body⟩ fun c =>
          { c with stations := c.stations.mapFinIdx fun i x _ =>
              if first ≤ i ∧ i ≤ last then { x with pickupGroup := g } else x })) ∧
    (∀ v (es : List (Nat × Nat × Nat)) body, v < 256 → es.length < 256 →
      (∀ e ∈ es, e.1 < 256 ∧ e.2.1 < 256 ∧ e.2.2 < 256) →
      body = put1 v ++ put1 es.length ++ es.flatMap (fun e => put1 e.1 ++ put1 e.2.1 ++ put1 e.2.2) →
      (15 < v ∨ 8 < es.length ∨ ∃ e ∈ es, 1 < e.1 ∨ (e.1 = 0 ∧ 63 < e.2.1) ∨ (e.1 = 1 ∧ 31 < e.2.1) ∨ 1 < e.2.2) →
      Answers s rest (.setList tag body) ⟨0x36, tag, body⟩ .badValue []) ∧
    (∀ v (es : List SearchEntry) body, v < 256 → es.length < 256 →
      body = put1 v ++ put1 es.length ++ es.flatMap SearchEntry.octets →
      (∀ l : ListId, l.val = v → es.length ≤ 8 →
        (¬ (es.map SearchEntry.key).Nodup → Answers s rest (.setList tag body) ⟨0x36, tag, body⟩ .duplicate []) ∧
        ((es.map SearchEntry.key).Nodup →
          Edits s rest (.setList tag body) ⟨0x36, tag, body⟩ fun c => { c with lists := c.lists.set l.val es l.isLt }))) ∧
    (∀ m z valid outputs reserved (desks : List Nat) body, m < 256 → z < 256 → valid < 256 → outputs < 65536 →
      reserved < 256 → desks.length < 256 → (∀ d ∈ desks, d < 65536) →
      body = put1 m ++ put1 z ++ put1 valid ++ put2 outputs ++ put1 reserved ++ put1 desks.length ++ desks.flatMap put2 →
      (3 < m ∨ 31 < z ∨ 1 < valid ∨ 1 < reserved ∨ 8 < desks.length ∨ (∃ d ∈ desks, 511 < d) ∨ (valid = 1 ∧ outputs = 0)) →
      Answers s rest (.setMap tag body) ⟨0x37, tag, body⟩ .badValue []) ∧
    (∀ (m : MapSetId) (z : ZoneId) (e : ZoneEntry) body, e.desks.length < 256 →
      body = put1 m.val ++ put1 z.val ++ putFlag e.valid ++ putSet e.outputs ++ putFlag e.reserved ++ putStations e.desks →
      (e.desks.length ≤ 8 → ¬ (e.valid = true ∧ e.outputs = 0) →
        (¬ e.desks.Nodup → Answers s rest (.setMap tag body) ⟨0x37, tag, body⟩ .duplicate []) ∧
        (∀ used, (used ↔ ∃ p pg, s.page p = some pg ∧ pg.cls ≠ .emergency ∧ pg.mapSet = m ∧ z ∈ pg.zones) →
          e.desks.Nodup →
          (e.valid = true → e.reserved = true → used →
            Answers s rest (.setMap tag body) ⟨0x37, tag, body⟩ .refusedState []) ∧
          (¬ (e.valid = true ∧ e.reserved = true ∧ used) →
            Edits s rest (.setMap tag body) ⟨0x37, tag, body⟩ fun c =>
              { c with maps := c.maps.set m.val ((c.maps[m]).set z.val e z.isLt) m.isLt })))) ∧
    (∀ v on n body, v < 256 → on < 65536 → n < 256 → body = put1 v ++ put2 on ++ put1 n →
      (7 < v ∨ 1000 < on ∨ on % 10 ≠ 0 ∨ n = 0 ∨ 8 < n →
        Answers s rest (.setChime tag body) ⟨0x39, tag, body⟩ .badValue []) ∧
      (∀ p : PatternId, p.val = v → on ≤ 1000 → on % 10 = 0 → 1 ≤ n → n ≤ 8 →
        Edits s rest (.setChime tag body) ⟨0x39, tag, body⟩ fun c =>
          { c with patterns := c.patterns.set p.val { on := on, repeats := n } p.isLt }))

/-- SET_OUTPUT while no save is in progress: an empty mask, a presence-mask bit above 10, a field out of its range, or an output that
would hold LT at or above UT or Gmin above Gmax is BAD_VALUE. Out of range are a gain above 255, a step S other than 1 to 32, a UT
or LT above 4095, a CT above 1000, a W outside 250 to 4,000 ms or off its steps of 250 ms, a flag above 1. An accepted one writes
each present field into every output of the mask and keeps the absent ones; GT is clamped into the
limits or takes the value written, clamped; and the window restarts, the last fields and at-limit kept, when one of Gmin, Gmax,
GT, UT, LT, W and hold is present (R148 to R150, R182). -/
def Obligations.OutputEditsClampAndRestart : Prop :=
  ∀ (s : State) (tag : Octet) (body : List Octet) (rest : List Frame) (fr : Frame) (q : RawOutput), fr = ⟨0x38, tag, body⟩ →
    q.Spells body → s.save = none →
    (q.outputs = 0 ∨ q.fields = none → Answers s rest (.setOutput tag body) fr .badValue []) ∧
    (q.fields = none ↔ 2048 ≤ q.mask ∨ (∃ v, (q.gt = some v ∨ q.gmin = some v ∨ q.gmax = some v ∨ q.gceil = some v) ∧ 255 < v) ∨
      (∃ v, q.stepSize = some v ∧ (v = 0 ∨ 32 < v)) ∨ (∃ v, (q.ut = some v ∨ q.lt = some v) ∧ 4095 < v) ∨
      (∃ v, q.ct = some v ∧ 1000 < v) ∨ (∃ v, q.window = some v ∧ (v < 250 ∨ 4000 < v ∨ v % 250 ≠ 0)) ∨
      ∃ v, (q.settle = some v ∨ q.hold = some v) ∧ 1 < v) ∧
    (∀ f k, q.fields = some f →
      f.gt = q.gt ∧ f.gmin = q.gmin ∧ f.gmax = q.gmax ∧ f.ut = q.ut ∧ f.lt = q.lt ∧ f.window = q.window ∧
      f.hold = q.hold.map (fun v => decide (v = 1)) ∧
      f.write k =
        { gmin := q.gmin.getD k.gmin, gmax := q.gmax.getD k.gmax, gceil := q.gceil.getD k.gceil
          stepSize := q.stepSize.getD k.stepSize, ut := q.ut.getD k.ut, lt := q.lt.getD k.lt, ct := q.ct.getD k.ct
          window := q.window.getD k.window, settle := (q.settle.map fun v => decide (v = 1)).getD k.settle
          hold := (q.hold.map fun v => decide (v = 1)).getD k.hold }) ∧
    ∀ f (named : OutputId → Prop), q.outputs ≠ 0 → q.fields = some f → (∀ o, named o ↔ q.outputs.testBit o.val = true) →
      (∀ o, named o → (f.write (s.outputCfg o)).ut ≤ (f.write (s.outputCfg o)).lt ∨
          (f.write (s.outputCfg o)).gmax < (f.write (s.outputCfg o)).gmin →
        Answers s rest (.setOutput tag body) fr .badValue []) ∧
      ((∀ o, named o → (f.write (s.outputCfg o)).lt < (f.write (s.outputCfg o)).ut ∧
          (f.write (s.outputCfg o)).gmin ≤ (f.write (s.outputCfg o)).gmax) → Ready s fr rest →
        ∃ u : State, exec (.setOutput tag body) s = .next (u.answer fr .ok []) ∧
          u = { s.takeHead rest with outputs := u.outputs, cfg := { s.cfg with outputs := u.cfg.outputs } } ∧
          ∀ o,
            (¬ named o → u.outputCfg o = s.outputCfg o ∧ u.output o = s.output o) ∧
            (named o → ∀ c gt, c = f.write (s.outputCfg o) → gt = (match f.gt with
                | some v => max c.gmin (min c.gmax v)
                | none =>
                  if f.gmin.isSome ∨ f.gmax.isSome then max c.gmin (min c.gmax (s.output o).gt) else (s.output o).gt) →
              u.outputCfg o = c ∧
              u.output o =
                if f.gmin.isSome ∨ f.gmax.isSome ∨ f.gt.isSome ∨ f.ut.isSome ∨ f.lt.isSome ∨ f.window.isSome ∨
                  f.hold.isSome then
                  { s.output o with
                    gt := gt, windowStart := s.now, settling := false, sum := 0, count := 0, clips := 0 }
                else s.output o))

/-- SET_SYSTEM while no save is in progress: every present field is checked for its range, then the D rule; only then are the
fields written, and a request with every field absent changes nothing. Out of range are a D outside 3 to 6, an attendant above
511 that is not 65535 for absent, a park time outside 30 to 600 s, a guard interval above 150 ms or off its steps of 10 ms, a CP
outside 100 to 1,000 ms or off its steps of 10 ms, an offset outside -64 to 64. An accepted one writes each present field, keeps
the absent ones, and writes nothing else of the configuration (R15, R22, R100, R131, R140, R151, R181). While a save is in
progress every configuration edit whose body has the layout of its KIND is answered SAVING, any other is answered BAD_LENGTH,
and neither changes anything (R171, R181, R184). That a presence-mask bit beyond the fields is answered BAD_VALUE, before the D
rule, is log entry 24 (DEDUCED). -/
def Obligations.SystemEditsAndEditsDuringASave : Prop :=
  (∀ (s : State) (tag : Octet) (body : List Octet) (rest : List Frame) (q : RawSystem) (signed : Nat → Int), s.save = none →
    q.Spells body → (∀ v, signed v = if v < 128 then (v : Int) else (v : Int) - 256) →
    (q.fields = none → Answers s rest (.setSystem tag body) ⟨0x30, tag, body⟩ .badValue []) ∧
    (q.fields = none ↔ 512 ≤ q.mask ∨ (∃ v, q.width = some v ∧ (v < 3 ∨ 6 < v)) ∨
      (∃ v, q.attendant = some v ∧ 511 < v ∧ v ≠ 65535) ∨ (∃ v, q.park = some v ∧ (v < 30 ∨ 600 < v)) ∨
      (∃ v, q.guard = some v ∧ (150 < v ∨ v % 10 ≠ 0)) ∨ (∃ v, q.period = some v ∧ (v < 100 ∨ 1000 < v ∨ v % 10 ≠ 0)) ∨
      ∃ v, (q.emergency = some v ∨ q.alert = some v ∨ q.voice = some v ∨ q.background = some v) ∧
        (signed v < -64 ∨ 64 < signed v)) ∧
    (∀ f (c w : WorkingConfig), q.fields = some f → w = f.write c →
      w = { c with
        digitWidth := q.width.getD c.digitWidth, attendant := w.attendant, parkTime := q.park.getD c.parkTime
        guardInterval := q.guard.getD c.guardInterval, chimePeriod := q.period.getD c.chimePeriod
        offsets :=
          { emergency := (q.emergency.map signed).getD c.offsets.emergency
            alert := (q.alert.map signed).getD c.offsets.alert
            voice := (q.voice.map signed).getD c.offsets.voice
            background := (q.background.map signed).getD c.offsets.background } } ∧
      (w.attendant.map Fin.val).getD 65535 = q.attendant.getD ((c.attendant.map Fin.val).getD 65535)) ∧
    ∀ f, q.fields = some f →
      (f.width.isSome = true ↔ q.width.isSome = true) ∧
      (f.width.isSome = true → s.cfg.directory ≠ [] →
        Answers s rest (.setSystem tag body) ⟨0x30, tag, body⟩ .notEmpty []) ∧
      (f.width = none ∨ s.cfg.directory = [] → Ready s ⟨0x30, tag, body⟩ rest →
        exec (.setSystem tag body) s =
          .next (((s.takeHead rest).updCfg f.write).answer ⟨0x30, tag, body⟩ .ok []))) ∧
  (∀ (s : State) (tag : Octet) (rest : List Frame), s.save = none →
    Answers s rest (.setSystem tag (put2 0)) ⟨0x30, tag, put2 0⟩ .ok []) ∧
  ∀ (s : State) (f : Frame) (rest : List Frame), editKind f.kind → s.save.isSome = true →
    (WholeBody f → Answers s rest f.request f .saving []) ∧ (¬ WholeBody f → Answers s rest f.request f .badLength [])

/-! ## Saving and RESET (10.2, 10.3) -/

/-- SAVE is answered SAVING while a save is in progress or an outcome waits in its slot, and otherwise begins a save: the working
configuration is taken, the stored copy is not valid, and the save deadline is 1.5 s away. The save ends at the first of its
write's completion and its deadline: OK makes the stored copy hold the configuration taken, FAILED and TIMEOUT leave it not valid,
and the outcome fills its slot; a completion or a deadline that finds no save in progress changes nothing (R183, R185). RESET is
accepted in every state, and from then on nothing is dispatched (R187). -/
def Obligations.SavesBeginAndEndAndResetIsAwaited : Prop :=
  (∀ (s : State) (tag : Octet) (rest : List Frame),
    (s.save.isSome = true ∨ s.link.saveDone.isSome = true → Answers s rest (.save tag []) ⟨0x3E, tag, []⟩ .saving []) ∧
    (s.save = none → s.link.saveDone = none → Ready s ⟨0x3E, tag, []⟩ rest →
      exec (.save tag []) s = .next (({ s.takeHead rest with
        stored := none, save := some { config := s.cfg, deadline := later s.now 1500 } } : State).answer
          ⟨0x3E, tag, []⟩ .ok [])) ∧
    (Ready s ⟨0x3F, tag, []⟩ rest →
      exec (.reset tag []) s =
        .next (((s.takeHead rest).updLink fun l => { l with resetAwaited := true }).answer ⟨0x3F, tag, []⟩ .ok []))) ∧
  ∀ s : State, Runs s →
    (∀ r, s.save = some r →
      exec (.saveWriteComplete true) s =
        .next (({ s with save := none, stored := some r.config } : State).updLink fun l =>
          { l with saveDone := some .ok }).transmitTake ∧
      exec (.saveWriteComplete false) s =
        .next (({ s with save := none, stored := none } : State).updLink fun l =>
          { l with saveDone := some .failed }).transmitTake ∧
      (r.deadline = s.now → exec .saveDeadlineExpiry s =
        .next (({ s with save := none, stored := none } : State).updLink fun l =>
          { l with saveDone := some .timeout }).transmitTake)) ∧
    (s.save = none → (∀ b, exec (.saveWriteComplete b) s = .next s) ∧ exec .saveDeadlineExpiry s = .next s)

end
end

