-- ==== Sys2Proof/Laws/Operands.lean ====
section
/-! SUPPORT. Reading back what was written: each form of R166 read by its reader gives the value and leaves the octets behind it; and the CHECK bit by bit. -/

namespace Sys2Proof.Machine

/-- A reader followed by another, run on a body. -/
theorem run_bind {α β : Type} (r : Reader α) (k : α → Reader β) (b : List Octet) :
    StateT.run (r >>= k) b = (StateT.run r b).bind fun x => StateT.run (k x.1) x.2 := rfl

@[simp] theorem run_pure {α : Type} (x : α) (b : List Octet) : StateT.run (pure x : Reader α) b = some (x, b) := rfl

theorem putNumber_length (n v : Nat) : (putNumber n v).length = n := by
  induction n generalizing v with
  | zero => rfl
  | succ n ih => simp [putNumber, ih]

theorem put1_eq (v : Nat) : put1 v = [BitVec.ofNat 8 v] := rfl

theorem put2_eq (v : Nat) : put2 v = [BitVec.ofNat 8 (v / 256), BitVec.ofNat 8 v] := rfl

/-- One octet is read as its number. -/
@[simp] theorem readOctet_cons (o : Octet) (b : List Octet) : StateT.run readOctet (o :: b) = some (o.toNat, b) := rfl

@[simp] theorem readOctet_nil : StateT.run readOctet [] = none := rfl

theorem readOctet_put1 {v : Nat} (h : v < 256) (b : List Octet) : StateT.run readOctet (put1 v ++ b) = some (v, b) := by
  simp [put1_eq, Nat.mod_eq_of_lt h]

theorem readWide_put2 {v : Nat} (h : v < 65536) (b : List Octet) : StateT.run readWide (put2 v ++ b) = some (v, b) := by
  simp [put2_eq, readWide, readNumber]
  omega

theorem readWide_put2' {v : Nat} (h : v < 65536) : StateT.run readWide (put2 v) = some (v, []) := by
  simpa using readWide_put2 h []

theorem readOctet_put1' {v : Nat} (h : v < 256) : StateT.run readOctet (put1 v) = some (v, []) := by
  simpa using readOctet_put1 h []

/-- A list of octets written one by one is read back. -/
theorem readMany_octets (l : List Nat) (h : ∀ x ∈ l, x < 256) (b : List Octet) :
    StateT.run (readMany readOctet l.length) (l.flatMap put1 ++ b) = some (l, b) := by
  induction l with
  | nil => rfl
  | cons x xs ih =>
    have hx := h x (by simp)
    have hxs := ih fun y hy => h y (by simp [hy])
    simp [readMany, put1_eq, Nat.mod_eq_of_lt hx, hxs]

/-- Digits are read back. -/
theorem readDigits_put (d : List Nat) (hl : d.length < 256) (h : ∀ x ∈ d, x < 256) (b : List Octet) :
    StateT.run readDigits (putDigits d ++ b) = some (d, b) := by
  simp [readDigits, readCounted, putDigits, put1_eq, Nat.mod_eq_of_lt hl]
  exact readMany_octets d h b

theorem finOf_val {n : Nat} (i : Fin n) : finOf n i.val = some i := by simp [finOf]

theorem flagOf_toNat (b : Bool) : flagOf b.toNat = some b := by cases b <;> rfl

/-- Good digits fit their octets. -/
theorem goodDigits_lt {d : List Nat} (h : goodDigits d = true) : d.length < 256 ∧ ∀ x ∈ d, x < 256 := by
  rw [goodDigits, Bool.and_eq_true, decide_eq_true_eq, List.all_eq_true] at h
  refine ⟨lt_of_le_of_lt h.1 (by decide), fun x hx => ?_⟩
  have := of_decide_eq_true (h.2 x hx)
  omega

/-! ## The CHECK, bit by bit (R165) -/

/-- One bit fed into the CRC-16 register, as the division by the generator x^16 + x^12 + x^5 + 1 feeds it (R165). -/
def crcBit (r : BitVec 16) (b : Bool) : BitVec 16 := if r.msb = b then r <<< 1 else (r <<< 1) ^^^ 0x1021#16

theorem crcShift_xor (a b : BitVec 16) : crcShift (a ^^^ b) = crcShift a ^^^ crcShift b := by
  unfold crcShift
  rw [BitVec.msb_xor]
  rcases ha : a.msb <;> rcases hb : b.msb <;> simp [BitVec.shiftLeft_xor_distrib]
  · rw [BitVec.xor_assoc]
  · rw [BitVec.xor_assoc, BitVec.xor_assoc, BitVec.xor_comm (b <<< 1)]
  · rw [BitVec.xor_assoc, ← BitVec.xor_assoc 0x1021#16, BitVec.xor_comm 0x1021#16, BitVec.xor_assoc, BitVec.xor_self,
      BitVec.xor_zero]

theorem crcBit_eq (r : BitVec 16) (b : Bool) : crcBit r b = crcShift r ^^^ (if b then 0x1021#16 else 0) := by
  unfold crcBit crcShift
  cases hb : b <;> cases hr : r.msb <;> simp

theorem crcShifts_xor (n : Nat) : ∀ a b : BitVec 16, crcShifts n (a ^^^ b) = crcShifts n a ^^^ crcShifts n b := by
  induction n with
  | zero => intro a b; rfl
  | succ n ih => intro a b; rw [crcShifts, crcShift_xor, ih]; rfl

theorem crcBits_xor (l : List Bool) : ∀ r x : BitVec 16,
    l.foldl crcBit (r ^^^ x) = crcShifts l.length r ^^^ l.foldl crcBit x := by
  induction l with
  | nil => intro r x; rfl
  | cons b l ih =>
    intro r x
    rw [List.foldl_cons, crcBit_eq, crcShift_xor, BitVec.xor_assoc, ← crcBit_eq, ih]
    rfl

set_option maxRecDepth 20000 in
theorem crcFeed_zero : ∀ o : Octet,
    crcShifts 8 (o.setWidth 16 <<< 8) = ((List.range 8).reverse.map fun i => o.getLsbD i).foldl crcBit 0#16 := by
  decide +kernel

/-- The CHECK feeds the bits of the octets one by one, each octet's most significant bit first (R165). -/
theorem checkOf_bits (os : List Octet) :
    checkOf os = (os.flatMap fun o => (List.range 8).reverse.map o.getLsbD).foldl crcBit 0xFFFF#16 := by
  unfold checkOf
  generalize 0xFFFF#16 = r
  induction os generalizing r with
  | nil => rfl
  | cons o os ih =>
    rw [List.foldl_cons, ih, List.flatMap_cons, List.foldl_append]
    congr 1
    rw [crcFeed, crcShifts_xor, crcFeed_zero]
    have := crcBits_xor ((List.range 8).reverse.map o.getLsbD) r 0#16
    rw [BitVec.xor_zero] at this
    rw [this]
    rfl

end Sys2Proof.Machine
end

