-- ==== Sys2Proof/Laws/Bodies.lean ====
section
/-! SUPPORT. The readers of request bodies by the octets they take: each reads a body exactly when R171's fields spell it. -/

namespace Sys2Proof.Machine

/-- A reader that answers a value with the rest exactly when the octets spell a value it admits. -/
def Reader.Takes {α : Type} (r : Reader α) (admits : α → Prop) (spell : α → List Octet) : Prop :=
  ∀ b v rest, StateT.run r b = some (v, rest) ↔ admits v ∧ b = spell v ++ rest

theorem readOctet_takes : Reader.Takes readOctet (· < 256) put1 := by
  intro b v rest
  cases b with
  | nil => simp [put1_eq]
  | cons o b =>
    simp only [readOctet_cons, put1_eq, Option.some.injEq, Prod.mk.injEq, List.cons_append, List.nil_append, List.cons.injEq]
    constructor
    · rintro ⟨rfl, rfl⟩
      exact ⟨o.isLt, by simp⟩
    · rintro ⟨h, rfl, rfl⟩
      exact ⟨by simpa using Nat.mod_eq_of_lt h, rfl⟩

/-- One reader after another: the octets of the one, then those of the other. -/
theorem run_bind_some {α β : Type} {r : Reader α} {P : α → Prop} {spell : α → List Octet} (h : Reader.Takes r P spell)
    (k : α → Reader β) (b : List Octet) (x : β × List Octet) :
    StateT.run (r >>= k) b = some x ↔ ∃ v rest, (P v ∧ b = spell v ++ rest) ∧ StateT.run (k v) rest = some x := by
  rw [run_bind, Option.bind_eq_some_iff]
  constructor
  · rintro ⟨⟨v, rest⟩, h1, h2⟩
    exact ⟨v, rest, (h b v rest).1 h1, h2⟩
  · rintro ⟨v, rest, h1, h2⟩
    exact ⟨(v, rest), (h b v rest).2 h1, h2⟩

theorem run_pure_some {α : Type} (v w : α) (b rest : List Octet) :
    StateT.run (pure v : Reader α) b = some (w, rest) ↔ w = v ∧ b = rest := by
  simp [eq_comm]

theorem readNumber_takes (n : Nat) : ∀ (acc : Nat) (b : List Octet) (v : Nat) (rest : List Octet),
    StateT.run (readNumber n acc) b = some (v, rest) ↔
      ∃ w, w < 256 ^ n ∧ v = acc * 256 ^ n + w ∧ b = putNumber n w ++ rest := by
  induction n with
  | zero =>
    intro acc b v rest
    simp only [readNumber, run_pure_some, putNumber, pow_zero, Nat.mul_one, List.nil_append]
    constructor
    · rintro ⟨rfl, rfl⟩
      exact ⟨0, by simp⟩
    · rintro ⟨w, hw, rfl, rfl⟩
      exact ⟨by omega, rfl⟩
  | succ n ih =>
    intro acc b v rest
    rw [readNumber, run_bind_some readOctet_takes]
    have key : ∀ m o w : Nat, o < 256 → w < 256 ^ m →
        putNumber (m + 1) (o * 256 ^ m + w) = put1 o ++ putNumber m w := by
      intro m
      induction m with
      | zero => intro o w ho hw; simp [putNumber, put1] at hw ⊢; simp [hw]
      | succ m ihm =>
        intro o w ho hw
        have h1 : (o * 256 ^ (m + 1) + w) / 256 = o * 256 ^ m + w / 256 := by
          rw [pow_succ, ← Nat.mul_assoc, Nat.add_comm, Nat.add_mul_div_right _ _ (by decide : 0 < 256), Nat.add_comm]
        have h2 : BitVec.ofNat 8 (o * 256 ^ (m + 1) + w) = BitVec.ofNat 8 w := by
          apply BitVec.eq_of_toNat_eq
          simp [pow_succ, ← Nat.mul_assoc, Nat.add_comm, Nat.add_mul_mod_self_right]
        have h3 : w / 256 < 256 ^ m := by
          rw [Nat.div_lt_iff_lt_mul (by decide)]; simpa [pow_succ] using hw
        rw [putNumber, h1, h2, ihm o (w / 256) ho h3, List.append_assoc]
        rfl
    constructor
    · rintro ⟨o, r1, ⟨ho, rfl⟩, h⟩
      obtain ⟨w, hw, rfl, rfl⟩ := (ih _ _ _ _).1 h
      refine ⟨o * 256 ^ n + w, ?_, by ring, ?_⟩
      · calc o * 256 ^ n + w < o * 256 ^ n + 256 ^ n := by omega
          _ = (o + 1) * 256 ^ n := by ring
          _ ≤ 256 * 256 ^ n := Nat.mul_le_mul_right _ ho
          _ = 256 ^ (n + 1) := by ring
      · rw [key n o w ho hw, List.append_assoc]
    · rintro ⟨w, hw, rfl, rfl⟩
      have ho : w / 256 ^ n < 256 := by
        rw [Nat.div_lt_iff_lt_mul (by positivity)]; rw [pow_succ] at hw; linarith
      have hm : w % 256 ^ n < 256 ^ n := Nat.mod_lt _ (by positivity)
      refine ⟨w / 256 ^ n, putNumber n (w % 256 ^ n) ++ rest, ⟨ho, ?_⟩, (ih _ _ _ _).2 ⟨w % 256 ^ n, hm, ?_, rfl⟩⟩
      · rw [← List.append_assoc, ← key n _ _ ho hm, Nat.div_add_mod' w (256 ^ n)]
      · have := Nat.div_add_mod' w (256 ^ n)
        calc acc * 256 ^ (n + 1) + w = acc * 256 ^ (n + 1) + (w / 256 ^ n * 256 ^ n + w % 256 ^ n) := by rw [this]
          _ = _ := by ring

theorem readNumber_takes' (n : Nat) : Reader.Takes (readNumber n 0) (· < 256 ^ n) (putNumber n) := by
  intro b v rest
  rw [readNumber_takes]
  constructor
  · rintro ⟨w, hw, rfl, rfl⟩
    simpa using hw
  · rintro ⟨hv, rfl⟩
    exact ⟨v, hv, by simp, rfl⟩

theorem readWide_takes : Reader.Takes readWide (· < 65536) put2 := readNumber_takes' 2

theorem readMany_takes {α : Type} {r : Reader α} {P : α → Prop} {spell : α → List Octet} (h : Reader.Takes r P spell)
    (n : Nat) :
    Reader.Takes (readMany r n) (fun l => l.length = n ∧ ∀ x ∈ l, P x) (fun l => l.flatMap spell) := by
  induction n with
  | zero =>
    intro b v rest
    rw [readMany, run_pure_some]
    constructor
    · rintro ⟨rfl, rfl⟩; simp
    · rintro ⟨⟨hl, -⟩, rfl⟩
      obtain rfl := List.length_eq_zero_iff.1 hl
      simp
  | succ n ih =>
    intro b v rest
    rw [readMany, run_bind_some h]
    constructor
    · rintro ⟨x, r1, ⟨hx, rfl⟩, h2⟩
      obtain ⟨xs, r2, ⟨⟨hl, hxs⟩, rfl⟩, h3⟩ := (run_bind_some ih _ _ _).1 h2
      obtain ⟨rfl, rfl⟩ := (run_pure_some _ _ _ _).1 h3
      exact ⟨⟨by simp [hl], by simpa using ⟨hx, hxs⟩⟩, by simp⟩
    · rintro ⟨⟨hl, hv⟩, rfl⟩
      cases v with
      | nil => simp at hl
      | cons x xs =>
        exact ⟨x, xs.flatMap spell ++ rest, ⟨hv x (by simp), by simp⟩,
          (run_bind_some ih _ _ _).2 ⟨xs, rest, ⟨⟨by simpa using hl, fun y hy => hv y (by simp [hy])⟩, rfl⟩,
            (run_pure_some _ _ _ _).2 ⟨rfl, rfl⟩⟩⟩

theorem readCounted_takes {α : Type} {r : Reader α} {P : α → Prop} {spell : α → List Octet} (h : Reader.Takes r P spell) :
    Reader.Takes (readCounted r) (fun l => l.length < 256 ∧ ∀ x ∈ l, P x) (fun l => put1 l.length ++ l.flatMap spell) := by
  intro b v rest
  rw [readCounted, run_bind_some readOctet_takes]
  constructor
  · rintro ⟨n, r1, ⟨hn, rfl⟩, h2⟩
    obtain ⟨⟨rfl, hv⟩, rfl⟩ := (readMany_takes h n _ _ _).1 h2
    exact ⟨⟨hn, hv⟩, by simp⟩
  · rintro ⟨⟨hn, hv⟩, rfl⟩
    exact ⟨v.length, v.flatMap spell ++ rest, ⟨hn, by simp⟩, (readMany_takes h _ _ _ _).2 ⟨⟨rfl, hv⟩, rfl⟩⟩

theorem readDigits_takes : Reader.Takes readDigits Carried putDigits := readCounted_takes readOctet_takes

/-- A field that a mask bit marks is read exactly when the bit is set. -/
theorem readIf_takes {α : Type} {r : Reader α} {P : α → Prop} {spell : α → List Octet} (h : Reader.Takes r P spell)
    (mask bit : Nat) :
    Reader.Takes (readIf mask bit r) (fun x => mask.testBit bit = x.isSome ∧ ∀ v, x = some v → P v) (octetsOf spell) := by
  intro b v rest
  rw [readIf]
  cases hb : mask.testBit bit with
  | false =>
    rw [if_neg (by simp), run_pure_some]
    cases v <;> simp [octetsOf]
  | true =>
    rw [if_pos rfl, run_bind_some h]
    constructor
    · rintro ⟨x, r1, ⟨hx, rfl⟩, h2⟩
      obtain ⟨rfl, rfl⟩ := (run_pure_some _ _ _ _).1 h2
      exact ⟨⟨rfl, by simpa using hx⟩, rfl⟩
    · rintro ⟨⟨h1, h2⟩, rfl⟩
      obtain ⟨x, rfl⟩ := Option.isSome_iff_exists.1 h1.symm
      exact ⟨x, rest, ⟨h2 x rfl, rfl⟩, (run_pure_some _ _ _ _).2 ⟨rfl, rfl⟩⟩

theorem readTarget_takes : Reader.Takes readTarget (fun t => t.1 < 256 ∧ t.2 < 65536) (fun t => put1 t.1 ++ put2 t.2) := by
  intro b v rest
  simp only [readTarget, run_bind_some readOctet_takes, run_bind_some readWide_takes, run_pure_some]
  constructor
  · rintro ⟨c, r1, ⟨hc, rfl⟩, w, r2, ⟨hw, rfl⟩, rfl, rfl⟩
    exact ⟨⟨hc, hw⟩, by simp⟩
  · rintro ⟨⟨hc, hw⟩, rfl⟩
    exact ⟨v.1, put2 v.2 ++ rest, ⟨hc, by simp⟩, v.2, rest, ⟨hw, rfl⟩, rfl, rfl⟩

theorem readZones_takes :
    Reader.Takes readZones (fun z => z.1 < 256 ∧ Carried z.2) (fun z => put1 z.1 ++ put1 z.2.length ++ z.2.flatMap put1) := by
  intro b v rest
  simp only [readZones, run_bind_some readOctet_takes, run_bind_some (readCounted_takes readOctet_takes), run_pure_some]
  constructor
  · rintro ⟨c, r1, ⟨hc, rfl⟩, w, r2, ⟨hw, rfl⟩, rfl, rfl⟩
    exact ⟨⟨hc, hw⟩, by simp⟩
  · rintro ⟨⟨hc, hw⟩, rfl⟩
    exact ⟨v.1, put1 v.2.length ++ v.2.flatMap put1 ++ rest, ⟨hc, by simp⟩, v.2, rest, ⟨hw, rfl⟩, rfl, rfl⟩

/-- An entry of SET_LIST. -/
theorem readSearchEntry_takes :
    Reader.Takes readSearchEntry
      (fun v => v.1 < 256 ∧ v.2.1 < 256 ∧ v.2.2 < 256)
      (fun v => put1 v.1 ++ put1 v.2.1 ++ put1 v.2.2) := by
  intro b v rest
  simp only [readSearchEntry, run_bind_some readOctet_takes, run_pure_some]
  constructor
  · rintro ⟨_, _, ⟨h0, rfl⟩, _, _, ⟨h1, rfl⟩, _, _, ⟨h2, rfl⟩, rfl, rfl⟩
    exact ⟨⟨h0, h1, h2⟩, by simp only [List.append_assoc]⟩
  · rintro ⟨⟨h0, h1, h2⟩, hb⟩
    simp only [List.append_assoc] at hb
    exact ⟨_, _, ⟨h0, hb⟩, _, _, ⟨h1, rfl⟩, _, _, ⟨h2, rfl⟩, rfl, rfl⟩

/-- The body of CALL_IN. -/
theorem readCallIn_takes :
    Reader.Takes readCallIn
      (fun v => v.1 < 65536 ∧ Carried v.2.1 ∧ Carried v.2.2.1 ∧ v.2.2.2 < 256)
      (fun v => put2 v.1 ++ putDigits v.2.1 ++ putDigits v.2.2.1 ++ put1 v.2.2.2) := by
  intro b v rest
  simp only [readCallIn, run_bind_some readWide_takes, run_bind_some readDigits_takes, run_bind_some readOctet_takes, run_pure_some]
  constructor
  · rintro ⟨_, _, ⟨h0, rfl⟩, _, _, ⟨h1, rfl⟩, _, _, ⟨h2, rfl⟩, _, _, ⟨h3, rfl⟩, rfl, rfl⟩
    exact ⟨⟨h0, h1, h2, h3⟩, by simp only [List.append_assoc]⟩
  · rintro ⟨⟨h0, h1, h2, h3⟩, hb⟩
    simp only [List.append_assoc] at hb
    exact ⟨_, _, ⟨h0, hb⟩, _, _, ⟨h1, rfl⟩, _, _, ⟨h2, rfl⟩, _, _, ⟨h3, rfl⟩, rfl, rfl⟩

/-- The body of DPICKUP. -/
theorem readDpickup_takes :
    Reader.Takes readDpickup
      (fun v => v.1 < 65536 ∧ Carried v.2)
      (fun v => put2 v.1 ++ putDigits v.2) := by
  intro b v rest
  simp only [readDpickup, run_bind_some readWide_takes, run_bind_some readDigits_takes, run_pure_some]
  constructor
  · rintro ⟨_, _, ⟨h0, rfl⟩, _, _, ⟨h1, rfl⟩, rfl, rfl⟩
    exact ⟨⟨h0, h1⟩, by simp only [List.append_assoc]⟩
  · rintro ⟨⟨h0, h1⟩, hb⟩
    simp only [List.append_assoc] at hb
    exact ⟨_, _, ⟨h0, hb⟩, _, _, ⟨h1, rfl⟩, rfl, rfl⟩

/-- The body of PARK. -/
theorem readPark_takes :
    Reader.Takes readPark
      (fun v => v.1 < 65536 ∧ v.2.1 < 65536 ∧ v.2.2.1 < 256 ∧ v.2.2.2.1 < 256 ∧ Carried v.2.2.2.2)
      (fun v => put2 v.1 ++ put2 v.2.1 ++ put1 v.2.2.1 ++ put1 v.2.2.2.1 ++ putDigits v.2.2.2.2) := by
  intro b v rest
  simp only [readPark, run_bind_some readWide_takes, run_bind_some readOctet_takes, run_bind_some readDigits_takes, run_pure_some]
  constructor
  · rintro ⟨_, _, ⟨h0, rfl⟩, _, _, ⟨h1, rfl⟩, _, _, ⟨h2, rfl⟩, _, _, ⟨h3, rfl⟩, _, _, ⟨h4, rfl⟩, rfl, rfl⟩
    exact ⟨⟨h0, h1, h2, h3, h4⟩, by simp only [List.append_assoc]⟩
  · rintro ⟨⟨h0, h1, h2, h3, h4⟩, hb⟩
    simp only [List.append_assoc] at hb
    exact ⟨_, _, ⟨h0, hb⟩, _, _, ⟨h1, rfl⟩, _, _, ⟨h2, rfl⟩, _, _, ⟨h3, rfl⟩, _, _, ⟨h4, rfl⟩, rfl, rfl⟩

/-- The body of SET_DIR. -/
theorem readSetDir_takes :
    Reader.Takes readSetDir
      (fun v => v.1 < 256 ∧ Carried v.2.1 ∧ v.2.2.1 < 256 ∧ v.2.2.2 < 65536)
      (fun v => put1 v.1 ++ putDigits v.2.1 ++ put1 v.2.2.1 ++ put2 v.2.2.2) := by
  intro b v rest
  simp only [readSetDir, run_bind_some readOctet_takes, run_bind_some readDigits_takes, run_bind_some readWide_takes, run_pure_some]
  constructor
  · rintro ⟨_, _, ⟨h0, rfl⟩, _, _, ⟨h1, rfl⟩, _, _, ⟨h2, rfl⟩, _, _, ⟨h3, rfl⟩, rfl, rfl⟩
    exact ⟨⟨h0, h1, h2, h3⟩, by simp only [List.append_assoc]⟩
  · rintro ⟨⟨h0, h1, h2, h3⟩, hb⟩
    simp only [List.append_assoc] at hb
    exact ⟨_, _, ⟨h0, hb⟩, _, _, ⟨h1, rfl⟩, _, _, ⟨h2, rfl⟩, _, _, ⟨h3, rfl⟩, rfl, rfl⟩

/-- The body of SET_LIST. -/
theorem readSetList_takes :
    Reader.Takes readSetList
      (fun v => v.1 < 256 ∧ (v.2.length < 256 ∧ ∀ e ∈ v.2, e.1 < 256 ∧ e.2.1 < 256 ∧ e.2.2 < 256))
      (fun v => put1 v.1 ++ (put1 v.2.length ++ v.2.flatMap fun e => put1 e.1 ++ put1 e.2.1 ++ put1 e.2.2)) := by
  intro b v rest
  simp only [readSetList, run_bind_some readOctet_takes, run_bind_some (readCounted_takes readSearchEntry_takes), run_pure_some]
  constructor
  · rintro ⟨_, _, ⟨h0, rfl⟩, _, _, ⟨h1, rfl⟩, rfl, rfl⟩
    exact ⟨⟨h0, h1⟩, by simp only [List.append_assoc]⟩
  · rintro ⟨⟨h0, h1⟩, hb⟩
    simp only [List.append_assoc] at hb
    exact ⟨_, _, ⟨h0, hb⟩, _, _, ⟨h1, (List.append_assoc _ _ _).symm⟩, rfl, rfl⟩

/-- The body of SET_MAP. -/
theorem readSetMap_takes :
    Reader.Takes readSetMap
      (fun v => v.mapSet < 256 ∧ v.zone < 256 ∧ v.valid < 256 ∧ v.outputs < 65536 ∧ v.reserved < 256 ∧ (v.desks.length < 256 ∧ ∀ d ∈ v.desks, d < 65536))
      (fun v => put1 v.mapSet ++ put1 v.zone ++ put1 v.valid ++ put2 v.outputs ++ put1 v.reserved ++ (put1 v.desks.length ++ v.desks.flatMap put2)) := by
  intro b v rest
  simp only [readSetMap, run_bind_some readOctet_takes, run_bind_some readWide_takes, run_bind_some (readCounted_takes readWide_takes), run_pure_some]
  constructor
  · rintro ⟨_, _, ⟨h0, rfl⟩, _, _, ⟨h1, rfl⟩, _, _, ⟨h2, rfl⟩, _, _, ⟨h3, rfl⟩, _, _, ⟨h4, rfl⟩, _, _, ⟨h5, rfl⟩, rfl, rfl⟩
    exact ⟨⟨h0, h1, h2, h3, h4, h5⟩, by simp only [List.append_assoc]⟩
  · rintro ⟨⟨h0, h1, h2, h3, h4, h5⟩, hb⟩
    simp only [List.append_assoc] at hb
    exact ⟨_, _, ⟨h0, hb⟩, _, _, ⟨h1, rfl⟩, _, _, ⟨h2, rfl⟩, _, _, ⟨h3, rfl⟩, _, _, ⟨h4, rfl⟩, _, _, ⟨h5, (List.append_assoc _ _ _).symm⟩, rfl, rfl⟩

/-- The marks of a mask from the place `k` on. -/
def marksFrom (mask : Nat) : Nat → List Bool → Prop
  | _, [] => True
  | k, b :: l => mask.testBit k = b ∧ marksFrom mask (k + 1) l

theorem marksFrom_iff (mask : Nat) (l : List Bool) (k : Nat) :
    marksFrom mask k l ↔ ∀ i b, l[i]? = some b → mask.testBit (k + i) = b := by
  induction l generalizing k with
  | nil => simp [marksFrom]
  | cons c l ih =>
    rw [marksFrom, ih]
    constructor
    · rintro ⟨h0, h⟩ i b hb
      cases i with
      | zero => simpa [h0] using hb
      | succ i => simpa [Nat.add_assoc, Nat.add_comm 1] using h i b hb
    · intro h
      exact ⟨h 0 c rfl, fun i b hb => by simpa [Nat.add_assoc, Nat.add_comm 1] using h (i + 1) b hb⟩

/-- The marks of a mask, place by place. -/
theorem marks_iff (mask : Nat) (l : List Bool) : Marks mask l ↔ marksFrom mask 0 l := by
  simp [marksFrom_iff, Marks]

/-- The body that reads as the fields of PAGE is the one that spells them. -/
theorem readPage_iff (body : List Octet) (q : RawPage) : StateT.run readPage body = some (q, []) ↔ q.Spells body := by
  simp only [readPage, run_bind_some readOctet_takes, run_bind_some readWide_takes,
    run_bind_some (readCounted_takes readOctet_takes), run_pure_some, RawPage.Spells]
  constructor
  · rintro ⟨v1, _, ⟨h1, rfl⟩, v2, _, ⟨h2, rfl⟩, v3, _, ⟨h3, rfl⟩, v4, _, ⟨h4, rfl⟩, v5, _, ⟨h5, rfl⟩, v6, _, ⟨h6, rfl⟩,
      v7, _, ⟨h7, rfl⟩, v8, _, ⟨h8, rfl⟩, rfl, rfl⟩
    exact ⟨h1, by simp [*], h8, by simp⟩
  · rintro ⟨h1, h2, h3, rfl⟩
    have h (v : Nat) (hv : v ∈ [q.cls, q.source, q.pre, q.mapSet, q.mode, q.wait]) : v < 256 := h2 v hv
    exact ⟨_, _, ⟨h1, by simp only [List.append_assoc]⟩, _, _, ⟨h _ (by simp), rfl⟩, _, _, ⟨h _ (by simp), rfl⟩, _, _,
      ⟨h _ (by simp), rfl⟩, _, _, ⟨h _ (by simp), rfl⟩, _, _, ⟨h _ (by simp), rfl⟩, _, _, ⟨h _ (by simp), rfl⟩, q.zones, [],
      ⟨h3, (List.append_nil _).symm⟩, rfl, rfl⟩

/-- The body that reads as the fields of SET_SYSTEM is the one that spells them. -/
theorem readSystem_iff (body : List Octet) (q : RawSystem) :
    StateT.run readSystem body = some (q, []) ↔ q.Spells body := by
  simp only [readSystem, run_bind_some readWide_takes, run_bind_some (readIf_takes readOctet_takes _ _),
    run_bind_some (readIf_takes readWide_takes _ _), run_pure_some, RawSystem.Spells, marks_iff, marksFrom, List.mem_cons,
    List.not_mem_nil, or_false, forall_eq_or_imp, forall_eq, and_true]
  constructor
  · rintro ⟨a0, _, ⟨k0, rfl⟩, v0, _, ⟨⟨m0, h0⟩, rfl⟩, v1, _, ⟨⟨m1, h1⟩, rfl⟩, v2, _, ⟨⟨m2, h2⟩, rfl⟩, v3, _, ⟨⟨m3, h3⟩, rfl⟩,
      v4, _, ⟨⟨m4, h4⟩, rfl⟩, v5, _, ⟨⟨m5, h5⟩, rfl⟩, v6, _, ⟨⟨m6, h6⟩, rfl⟩, v7, _, ⟨⟨m7, h7⟩, rfl⟩, v8, _, ⟨⟨m8, h8⟩, rfl⟩,
      rfl, rfl⟩
    exact ⟨k0, ⟨m0, m1, m2, m3, m4, m5, m6, m7, m8⟩, ⟨h0, h5, h6, h7, h8⟩, ⟨h1, h2, h3, h4⟩,
      by simp only [List.append_assoc, List.append_nil]⟩
  · rintro ⟨k0, ⟨m0, m1, m2, m3, m4, m5, m6, m7, m8⟩, ⟨h0, h5, h6, h7, h8⟩, ⟨h1, h2, h3, h4⟩, hb⟩
    have hb := hb.trans (List.append_nil _).symm
    simp only [List.append_assoc] at hb
    exact ⟨_, _, ⟨k0, hb⟩, _, _, ⟨⟨m0, h0⟩, rfl⟩, _, _, ⟨⟨m1, h1⟩, rfl⟩, _, _, ⟨⟨m2, h2⟩, rfl⟩, _, _, ⟨⟨m3, h3⟩, rfl⟩,
      _, _, ⟨⟨m4, h4⟩, rfl⟩, _, _, ⟨⟨m5, h5⟩, rfl⟩, _, _, ⟨⟨m6, h6⟩, rfl⟩, _, _, ⟨⟨m7, h7⟩, rfl⟩, _, _, ⟨⟨m8, h8⟩, rfl⟩, rfl,
      rfl⟩

/-- The body that reads as the fields of SET_STATION is the one that spells them. -/
theorem readSetStation_iff (body : List Octet) (q : RawStation) :
    StateT.run readSetStation body = some (q, []) ↔ q.Spells body := by
  simp only [readSetStation, run_bind_some readWide_takes, run_bind_some readOctet_takes,
    run_bind_some (readIf_takes readOctet_takes _ _), run_pure_some, RawStation.Spells, marks_iff, marksFrom, List.mem_cons,
    List.not_mem_nil, or_false, forall_eq_or_imp, forall_eq, and_true]
  constructor
  · rintro ⟨a0, _, ⟨k0, rfl⟩, a1, _, ⟨k1, rfl⟩, a2, _, ⟨k2, rfl⟩, v0, _, ⟨⟨m0, h0⟩, rfl⟩, v1, _, ⟨⟨m1, h1⟩, rfl⟩,
      v2, _, ⟨⟨m2, h2⟩, rfl⟩, v3, _, ⟨⟨m3, h3⟩, rfl⟩, v4, _, ⟨⟨m4, h4⟩, rfl⟩, v5, _, ⟨⟨m5, h5⟩, rfl⟩, v6, _, ⟨⟨m6, h6⟩, rfl⟩,
      rfl, rfl⟩
    exact ⟨k0, k1, k2, ⟨m0, m1, m2, m3, m4, m5, m6⟩, ⟨h0, h1, h2, h3, h4, h5, h6⟩,
      by simp only [List.append_assoc, List.append_nil]⟩
  · rintro ⟨k0, k1, k2, ⟨m0, m1, m2, m3, m4, m5, m6⟩, ⟨h0, h1, h2, h3, h4, h5, h6⟩, hb⟩
    have hb := hb.trans (List.append_nil _).symm
    simp only [List.append_assoc] at hb
    exact ⟨_, _, ⟨k0, hb⟩, _, _, ⟨k1, rfl⟩, _, _, ⟨k2, rfl⟩, _, _, ⟨⟨m0, h0⟩, rfl⟩, _, _, ⟨⟨m1, h1⟩, rfl⟩,
      _, _, ⟨⟨m2, h2⟩, rfl⟩, _, _, ⟨⟨m3, h3⟩, rfl⟩, _, _, ⟨⟨m4, h4⟩, rfl⟩, _, _, ⟨⟨m5, h5⟩, rfl⟩, _, _, ⟨⟨m6, h6⟩, rfl⟩, rfl,
      rfl⟩

/-- The body that reads as the fields of SET_GROUP is the one that spells them. -/
theorem readSetGroup_iff (body : List Octet) (q : RawGroup) :
    StateT.run readSetGroup body = some (q, []) ↔ q.Spells body := by
  simp only [readSetGroup, run_bind_some (readNumber_takes' 4), run_bind_some readWide_takes,
    run_bind_some (readIf_takes readOctet_takes _ _), run_bind_some (readIf_takes readWide_takes _ _),
    run_bind_some (readIf_takes readTarget_takes _ _), run_bind_some (readIf_takes readZones_takes _ _), run_pure_some,
    RawGroup.Spells, marks_iff, marksFrom, List.mem_cons, List.not_mem_nil, or_false, forall_eq_or_imp, forall_eq, and_true]
  constructor
  · rintro ⟨a0, _, ⟨k0, rfl⟩, a1, _, ⟨k1, rfl⟩, v0, _, ⟨⟨m0, h0⟩, rfl⟩, v1, _, ⟨⟨m1, h1⟩, rfl⟩, v2, _, ⟨⟨m2, h2⟩, rfl⟩,
      v3, _, ⟨⟨m3, h3⟩, rfl⟩, v4, _, ⟨⟨m4, h4⟩, rfl⟩, v5, _, ⟨⟨m5, h5⟩, rfl⟩, v6, _, ⟨⟨m6, h6⟩, rfl⟩, v7, _, ⟨⟨m7, h7⟩, rfl⟩,
      v8, _, ⟨⟨m8, h8⟩, rfl⟩, v9, _, ⟨⟨m9, h9⟩, rfl⟩, rfl, rfl⟩
    exact ⟨k0, k1, ⟨m0, m1, m2, m3, m4, m5, m6, m7, m8, m9⟩, ⟨h0, h1, h2, h3, h8, h9⟩, ⟨h4, h6⟩, fun c v => h5 (c, v),
      fun m zs => h7 (m, zs), by simp only [List.append_assoc, List.append_nil]⟩
  · rintro ⟨k0, k1, ⟨m0, m1, m2, m3, m4, m5, m6, m7, m8, m9⟩, ⟨h0, h1, h2, h3, h8, h9⟩, ⟨h4, h6⟩, h5, h7, hb⟩
    have hb := hb.trans (List.append_nil _).symm
    simp only [List.append_assoc] at hb
    exact ⟨_, _, ⟨k0, hb⟩, _, _, ⟨k1, rfl⟩, _, _, ⟨⟨m0, h0⟩, rfl⟩, _, _, ⟨⟨m1, h1⟩, rfl⟩, _, _, ⟨⟨m2, h2⟩, rfl⟩,
      _, _, ⟨⟨m3, h3⟩, rfl⟩, _, _, ⟨⟨m4, h4⟩, rfl⟩, _, _, ⟨⟨m5, fun v => h5 v.1 v.2⟩, rfl⟩, _, _, ⟨⟨m6, h6⟩, rfl⟩,
      _, _, ⟨⟨m7, fun v => h7 v.1 v.2⟩, rfl⟩, _, _, ⟨⟨m8, h8⟩, rfl⟩, _, _, ⟨⟨m9, h9⟩, rfl⟩, rfl, rfl⟩

/-- The body that reads as the fields of SET_OUTPUT is the one that spells them. -/
theorem readSetOutput_iff (body : List Octet) (q : RawOutput) :
    StateT.run readSetOutput body = some (q, []) ↔ q.Spells body := by
  simp only [readSetOutput, run_bind_some readWide_takes, run_bind_some (readIf_takes readOctet_takes _ _),
    run_bind_some (readIf_takes readWide_takes _ _), run_pure_some, RawOutput.Spells, marks_iff, marksFrom, List.mem_cons,
    List.not_mem_nil, or_false, forall_eq_or_imp, forall_eq, and_true]
  constructor
  · rintro ⟨a0, _, ⟨k0, rfl⟩, a1, _, ⟨k1, rfl⟩, v0, _, ⟨⟨m0, h0⟩, rfl⟩, v1, _, ⟨⟨m1, h1⟩, rfl⟩, v2, _, ⟨⟨m2, h2⟩, rfl⟩,
      v3, _, ⟨⟨m3, h3⟩, rfl⟩, v4, _, ⟨⟨m4, h4⟩, rfl⟩, v5, _, ⟨⟨m5, h5⟩, rfl⟩, v6, _, ⟨⟨m6, h6⟩, rfl⟩, v7, _, ⟨⟨m7, h7⟩, rfl⟩,
      v8, _, ⟨⟨m8, h8⟩, rfl⟩, v9, _, ⟨⟨m9, h9⟩, rfl⟩, v10, _, ⟨⟨m10, h10⟩, rfl⟩, rfl, rfl⟩
    exact ⟨k0, k1, ⟨m0, m1, m2, m3, m4, m5, m6, m7, m8, m9, m10⟩, ⟨h0, h1, h2, h3, h4, h9, h10⟩, ⟨h5, h6, h7, h8⟩,
      by simp only [List.append_assoc, List.append_nil]⟩
  · rintro ⟨k0, k1, ⟨m0, m1, m2, m3, m4, m5, m6, m7, m8, m9, m10⟩, ⟨h0, h1, h2, h3, h4, h9, h10⟩, ⟨h5, h6, h7, h8⟩, hb⟩
    have hb := hb.trans (List.append_nil _).symm
    simp only [List.append_assoc] at hb
    exact ⟨_, _, ⟨k0, hb⟩, _, _, ⟨k1, rfl⟩, _, _, ⟨⟨m0, h0⟩, rfl⟩, _, _, ⟨⟨m1, h1⟩, rfl⟩, _, _, ⟨⟨m2, h2⟩, rfl⟩,
      _, _, ⟨⟨m3, h3⟩, rfl⟩, _, _, ⟨⟨m4, h4⟩, rfl⟩, _, _, ⟨⟨m5, h5⟩, rfl⟩, _, _, ⟨⟨m6, h6⟩, rfl⟩, _, _, ⟨⟨m7, h7⟩, rfl⟩,
      _, _, ⟨⟨m8, h8⟩, rfl⟩, _, _, ⟨⟨m9, h9⟩, rfl⟩, _, _, ⟨⟨m10, h10⟩, rfl⟩, rfl, rfl⟩

end Sys2Proof.Machine
end

