-- ==== Sys2Proof/Laws/State.lean ====
section
/-! SUPPORT. What each update of the state leaves: one lemma per field per update, and reading a record after it was written; and lists without repeats. -/

namespace Sys2Proof.Machine.State

@[simp] theorem updStation_power (s : State) (i : StationId) (f : Station → Station) : (s.updStation i f).power = s.power := rfl
@[simp] theorem updStation_now (s : State) (i : StationId) (f : Station → Station) : (s.updStation i f).now = s.now := rfl
@[simp] theorem updStation_cfg (s : State) (i : StationId) (f : Station → Station) : (s.updStation i f).cfg = s.cfg := rfl
@[simp] theorem updStation_stored (s : State) (i : StationId) (f : Station → Station) : (s.updStation i f).stored = s.stored := rfl
@[simp] theorem updStation_save (s : State) (i : StationId) (f : Station → Station) : (s.updStation i f).save = s.save := rfl
@[simp] theorem updStation_calls (s : State) (i : StationId) (f : Station → Station) : (s.updStation i f).calls = s.calls := rfl
@[simp] theorem updStation_groups (s : State) (i : StationId) (f : Station → Station) : (s.updStation i f).groups = s.groups := rfl
@[simp] theorem updStation_pages (s : State) (i : StationId) (f : Station → Station) : (s.updStation i f).pages = s.pages := rfl
@[simp] theorem updStation_outputs (s : State) (i : StationId) (f : Station → Station) : (s.updStation i f).outputs = s.outputs := rfl
@[simp] theorem updStation_link (s : State) (i : StationId) (f : Station → Station) : (s.updStation i f).link = s.link := rfl
@[simp] theorem updStation_pins (s : State) (i : StationId) (f : Station → Station) : (s.updStation i f).pins = s.pins := rfl
@[simp] theorem updStation_heldAvail (s : State) (i : StationId) (f : Station → Station) : (s.updStation i f).heldAvail = s.heldAvail := rfl
@[simp] theorem updStation_pending (s : State) (i : StationId) (f : Station → Station) : (s.updStation i f).pending = s.pending := rfl

@[simp] theorem updGroup_power (s : State) (g : GroupId) (f : Group → Group) : (s.updGroup g f).power = s.power := rfl
@[simp] theorem updGroup_now (s : State) (g : GroupId) (f : Group → Group) : (s.updGroup g f).now = s.now := rfl
@[simp] theorem updGroup_cfg (s : State) (g : GroupId) (f : Group → Group) : (s.updGroup g f).cfg = s.cfg := rfl
@[simp] theorem updGroup_stored (s : State) (g : GroupId) (f : Group → Group) : (s.updGroup g f).stored = s.stored := rfl
@[simp] theorem updGroup_save (s : State) (g : GroupId) (f : Group → Group) : (s.updGroup g f).save = s.save := rfl
@[simp] theorem updGroup_stations (s : State) (g : GroupId) (f : Group → Group) : (s.updGroup g f).stations = s.stations := rfl
@[simp] theorem updGroup_calls (s : State) (g : GroupId) (f : Group → Group) : (s.updGroup g f).calls = s.calls := rfl
@[simp] theorem updGroup_pages (s : State) (g : GroupId) (f : Group → Group) : (s.updGroup g f).pages = s.pages := rfl
@[simp] theorem updGroup_outputs (s : State) (g : GroupId) (f : Group → Group) : (s.updGroup g f).outputs = s.outputs := rfl
@[simp] theorem updGroup_link (s : State) (g : GroupId) (f : Group → Group) : (s.updGroup g f).link = s.link := rfl
@[simp] theorem updGroup_pins (s : State) (g : GroupId) (f : Group → Group) : (s.updGroup g f).pins = s.pins := rfl
@[simp] theorem updGroup_heldAvail (s : State) (g : GroupId) (f : Group → Group) : (s.updGroup g f).heldAvail = s.heldAvail := rfl
@[simp] theorem updGroup_pending (s : State) (g : GroupId) (f : Group → Group) : (s.updGroup g f).pending = s.pending := rfl

@[simp] theorem updOutput_power (s : State) (o : OutputId) (f : Output → Output) : (s.updOutput o f).power = s.power := rfl
@[simp] theorem updOutput_now (s : State) (o : OutputId) (f : Output → Output) : (s.updOutput o f).now = s.now := rfl
@[simp] theorem updOutput_cfg (s : State) (o : OutputId) (f : Output → Output) : (s.updOutput o f).cfg = s.cfg := rfl
@[simp] theorem updOutput_stored (s : State) (o : OutputId) (f : Output → Output) : (s.updOutput o f).stored = s.stored := rfl
@[simp] theorem updOutput_save (s : State) (o : OutputId) (f : Output → Output) : (s.updOutput o f).save = s.save := rfl
@[simp] theorem updOutput_stations (s : State) (o : OutputId) (f : Output → Output) : (s.updOutput o f).stations = s.stations := rfl
@[simp] theorem updOutput_calls (s : State) (o : OutputId) (f : Output → Output) : (s.updOutput o f).calls = s.calls := rfl
@[simp] theorem updOutput_groups (s : State) (o : OutputId) (f : Output → Output) : (s.updOutput o f).groups = s.groups := rfl
@[simp] theorem updOutput_pages (s : State) (o : OutputId) (f : Output → Output) : (s.updOutput o f).pages = s.pages := rfl
@[simp] theorem updOutput_link (s : State) (o : OutputId) (f : Output → Output) : (s.updOutput o f).link = s.link := rfl
@[simp] theorem updOutput_pins (s : State) (o : OutputId) (f : Output → Output) : (s.updOutput o f).pins = s.pins := rfl
@[simp] theorem updOutput_heldAvail (s : State) (o : OutputId) (f : Output → Output) : (s.updOutput o f).heldAvail = s.heldAvail := rfl
@[simp] theorem updOutput_pending (s : State) (o : OutputId) (f : Output → Output) : (s.updOutput o f).pending = s.pending := rfl

@[simp] theorem updPageRec_power (s : State) (p : PageId) (f : PageRec → PageRec) : (s.updPageRec p f).power = s.power := rfl
@[simp] theorem updPageRec_now (s : State) (p : PageId) (f : PageRec → PageRec) : (s.updPageRec p f).now = s.now := rfl
@[simp] theorem updPageRec_cfg (s : State) (p : PageId) (f : PageRec → PageRec) : (s.updPageRec p f).cfg = s.cfg := rfl
@[simp] theorem updPageRec_stored (s : State) (p : PageId) (f : PageRec → PageRec) : (s.updPageRec p f).stored = s.stored := rfl
@[simp] theorem updPageRec_save (s : State) (p : PageId) (f : PageRec → PageRec) : (s.updPageRec p f).save = s.save := rfl
@[simp] theorem updPageRec_stations (s : State) (p : PageId) (f : PageRec → PageRec) : (s.updPageRec p f).stations = s.stations := rfl
@[simp] theorem updPageRec_calls (s : State) (p : PageId) (f : PageRec → PageRec) : (s.updPageRec p f).calls = s.calls := rfl
@[simp] theorem updPageRec_groups (s : State) (p : PageId) (f : PageRec → PageRec) : (s.updPageRec p f).groups = s.groups := rfl
@[simp] theorem updPageRec_outputs (s : State) (p : PageId) (f : PageRec → PageRec) : (s.updPageRec p f).outputs = s.outputs := rfl
@[simp] theorem updPageRec_link (s : State) (p : PageId) (f : PageRec → PageRec) : (s.updPageRec p f).link = s.link := rfl
@[simp] theorem updPageRec_pins (s : State) (p : PageId) (f : PageRec → PageRec) : (s.updPageRec p f).pins = s.pins := rfl
@[simp] theorem updPageRec_heldAvail (s : State) (p : PageId) (f : PageRec → PageRec) : (s.updPageRec p f).heldAvail = s.heldAvail := rfl
@[simp] theorem updPageRec_pending (s : State) (p : PageId) (f : PageRec → PageRec) : (s.updPageRec p f).pending = s.pending := rfl

@[simp] theorem updPage_power (s : State) (p : PageId) (f : Page → Page) : (s.updPage p f).power = s.power := rfl
@[simp] theorem updPage_now (s : State) (p : PageId) (f : Page → Page) : (s.updPage p f).now = s.now := rfl
@[simp] theorem updPage_cfg (s : State) (p : PageId) (f : Page → Page) : (s.updPage p f).cfg = s.cfg := rfl
@[simp] theorem updPage_stored (s : State) (p : PageId) (f : Page → Page) : (s.updPage p f).stored = s.stored := rfl
@[simp] theorem updPage_save (s : State) (p : PageId) (f : Page → Page) : (s.updPage p f).save = s.save := rfl
@[simp] theorem updPage_stations (s : State) (p : PageId) (f : Page → Page) : (s.updPage p f).stations = s.stations := rfl
@[simp] theorem updPage_calls (s : State) (p : PageId) (f : Page → Page) : (s.updPage p f).calls = s.calls := rfl
@[simp] theorem updPage_groups (s : State) (p : PageId) (f : Page → Page) : (s.updPage p f).groups = s.groups := rfl
@[simp] theorem updPage_outputs (s : State) (p : PageId) (f : Page → Page) : (s.updPage p f).outputs = s.outputs := rfl
@[simp] theorem updPage_link (s : State) (p : PageId) (f : Page → Page) : (s.updPage p f).link = s.link := rfl
@[simp] theorem updPage_pins (s : State) (p : PageId) (f : Page → Page) : (s.updPage p f).pins = s.pins := rfl
@[simp] theorem updPage_heldAvail (s : State) (p : PageId) (f : Page → Page) : (s.updPage p f).heldAvail = s.heldAvail := rfl
@[simp] theorem updPage_pending (s : State) (p : PageId) (f : Page → Page) : (s.updPage p f).pending = s.pending := rfl

@[simp] theorem updCall_power (s : State) (h : Handle) (f : Call → Call) : (s.updCall h f).power = s.power := rfl
@[simp] theorem updCall_now (s : State) (h : Handle) (f : Call → Call) : (s.updCall h f).now = s.now := rfl
@[simp] theorem updCall_cfg (s : State) (h : Handle) (f : Call → Call) : (s.updCall h f).cfg = s.cfg := rfl
@[simp] theorem updCall_stored (s : State) (h : Handle) (f : Call → Call) : (s.updCall h f).stored = s.stored := rfl
@[simp] theorem updCall_save (s : State) (h : Handle) (f : Call → Call) : (s.updCall h f).save = s.save := rfl
@[simp] theorem updCall_stations (s : State) (h : Handle) (f : Call → Call) : (s.updCall h f).stations = s.stations := rfl
@[simp] theorem updCall_groups (s : State) (h : Handle) (f : Call → Call) : (s.updCall h f).groups = s.groups := rfl
@[simp] theorem updCall_pages (s : State) (h : Handle) (f : Call → Call) : (s.updCall h f).pages = s.pages := rfl
@[simp] theorem updCall_outputs (s : State) (h : Handle) (f : Call → Call) : (s.updCall h f).outputs = s.outputs := rfl
@[simp] theorem updCall_link (s : State) (h : Handle) (f : Call → Call) : (s.updCall h f).link = s.link := rfl
@[simp] theorem updCall_pins (s : State) (h : Handle) (f : Call → Call) : (s.updCall h f).pins = s.pins := rfl
@[simp] theorem updCall_heldAvail (s : State) (h : Handle) (f : Call → Call) : (s.updCall h f).heldAvail = s.heldAvail := rfl
@[simp] theorem updCall_pending (s : State) (h : Handle) (f : Call → Call) : (s.updCall h f).pending = s.pending := rfl

@[simp] theorem addCall_power (s : State) (c : Call) : (s.addCall c).power = s.power := rfl
@[simp] theorem addCall_now (s : State) (c : Call) : (s.addCall c).now = s.now := rfl
@[simp] theorem addCall_cfg (s : State) (c : Call) : (s.addCall c).cfg = s.cfg := rfl
@[simp] theorem addCall_stored (s : State) (c : Call) : (s.addCall c).stored = s.stored := rfl
@[simp] theorem addCall_save (s : State) (c : Call) : (s.addCall c).save = s.save := rfl
@[simp] theorem addCall_stations (s : State) (c : Call) : (s.addCall c).stations = s.stations := rfl
@[simp] theorem addCall_groups (s : State) (c : Call) : (s.addCall c).groups = s.groups := rfl
@[simp] theorem addCall_pages (s : State) (c : Call) : (s.addCall c).pages = s.pages := rfl
@[simp] theorem addCall_outputs (s : State) (c : Call) : (s.addCall c).outputs = s.outputs := rfl
@[simp] theorem addCall_link (s : State) (c : Call) : (s.addCall c).link = s.link := rfl
@[simp] theorem addCall_pins (s : State) (c : Call) : (s.addCall c).pins = s.pins := rfl
@[simp] theorem addCall_heldAvail (s : State) (c : Call) : (s.addCall c).heldAvail = s.heldAvail := rfl
@[simp] theorem addCall_pending (s : State) (c : Call) : (s.addCall c).pending = s.pending := rfl

@[simp] theorem dropCall_power (s : State) (h : Handle) : (s.dropCall h).power = s.power := rfl
@[simp] theorem dropCall_now (s : State) (h : Handle) : (s.dropCall h).now = s.now := rfl
@[simp] theorem dropCall_cfg (s : State) (h : Handle) : (s.dropCall h).cfg = s.cfg := rfl
@[simp] theorem dropCall_stored (s : State) (h : Handle) : (s.dropCall h).stored = s.stored := rfl
@[simp] theorem dropCall_save (s : State) (h : Handle) : (s.dropCall h).save = s.save := rfl
@[simp] theorem dropCall_stations (s : State) (h : Handle) : (s.dropCall h).stations = s.stations := rfl
@[simp] theorem dropCall_groups (s : State) (h : Handle) : (s.dropCall h).groups = s.groups := rfl
@[simp] theorem dropCall_pages (s : State) (h : Handle) : (s.dropCall h).pages = s.pages := rfl
@[simp] theorem dropCall_outputs (s : State) (h : Handle) : (s.dropCall h).outputs = s.outputs := rfl
@[simp] theorem dropCall_link (s : State) (h : Handle) : (s.dropCall h).link = s.link := rfl
@[simp] theorem dropCall_pins (s : State) (h : Handle) : (s.dropCall h).pins = s.pins := rfl
@[simp] theorem dropCall_heldAvail (s : State) (h : Handle) : (s.dropCall h).heldAvail = s.heldAvail := rfl
@[simp] theorem dropCall_pending (s : State) (h : Handle) : (s.dropCall h).pending = s.pending := rfl

@[simp] theorem updLink_power (s : State) (f : Link → Link) : (s.updLink f).power = s.power := rfl
@[simp] theorem updLink_now (s : State) (f : Link → Link) : (s.updLink f).now = s.now := rfl
@[simp] theorem updLink_cfg (s : State) (f : Link → Link) : (s.updLink f).cfg = s.cfg := rfl
@[simp] theorem updLink_stored (s : State) (f : Link → Link) : (s.updLink f).stored = s.stored := rfl
@[simp] theorem updLink_save (s : State) (f : Link → Link) : (s.updLink f).save = s.save := rfl
@[simp] theorem updLink_stations (s : State) (f : Link → Link) : (s.updLink f).stations = s.stations := rfl
@[simp] theorem updLink_calls (s : State) (f : Link → Link) : (s.updLink f).calls = s.calls := rfl
@[simp] theorem updLink_groups (s : State) (f : Link → Link) : (s.updLink f).groups = s.groups := rfl
@[simp] theorem updLink_pages (s : State) (f : Link → Link) : (s.updLink f).pages = s.pages := rfl
@[simp] theorem updLink_outputs (s : State) (f : Link → Link) : (s.updLink f).outputs = s.outputs := rfl
@[simp] theorem updLink_link (s : State) (f : Link → Link) : (s.updLink f).link = f s.link := rfl
@[simp] theorem updLink_pins (s : State) (f : Link → Link) : (s.updLink f).pins = s.pins := rfl
@[simp] theorem updLink_heldAvail (s : State) (f : Link → Link) : (s.updLink f).heldAvail = s.heldAvail := rfl
@[simp] theorem updLink_pending (s : State) (f : Link → Link) : (s.updLink f).pending = s.pending := rfl

@[simp] theorem updCfg_power (s : State) (f : WorkingConfig → WorkingConfig) : (s.updCfg f).power = s.power := rfl
@[simp] theorem updCfg_now (s : State) (f : WorkingConfig → WorkingConfig) : (s.updCfg f).now = s.now := rfl
@[simp] theorem updCfg_cfg (s : State) (f : WorkingConfig → WorkingConfig) : (s.updCfg f).cfg = f s.cfg := rfl
@[simp] theorem updCfg_stored (s : State) (f : WorkingConfig → WorkingConfig) : (s.updCfg f).stored = s.stored := rfl
@[simp] theorem updCfg_save (s : State) (f : WorkingConfig → WorkingConfig) : (s.updCfg f).save = s.save := rfl
@[simp] theorem updCfg_stations (s : State) (f : WorkingConfig → WorkingConfig) : (s.updCfg f).stations = s.stations := rfl
@[simp] theorem updCfg_calls (s : State) (f : WorkingConfig → WorkingConfig) : (s.updCfg f).calls = s.calls := rfl
@[simp] theorem updCfg_groups (s : State) (f : WorkingConfig → WorkingConfig) : (s.updCfg f).groups = s.groups := rfl
@[simp] theorem updCfg_pages (s : State) (f : WorkingConfig → WorkingConfig) : (s.updCfg f).pages = s.pages := rfl
@[simp] theorem updCfg_outputs (s : State) (f : WorkingConfig → WorkingConfig) : (s.updCfg f).outputs = s.outputs := rfl
@[simp] theorem updCfg_link (s : State) (f : WorkingConfig → WorkingConfig) : (s.updCfg f).link = s.link := rfl
@[simp] theorem updCfg_pins (s : State) (f : WorkingConfig → WorkingConfig) : (s.updCfg f).pins = s.pins := rfl
@[simp] theorem updCfg_heldAvail (s : State) (f : WorkingConfig → WorkingConfig) : (s.updCfg f).heldAvail = s.heldAvail := rfl
@[simp] theorem updCfg_pending (s : State) (f : WorkingConfig → WorkingConfig) : (s.updCfg f).pending = s.pending := rfl

@[simp] theorem holdAvail_power (s : State) (l : List StationId) : (s.holdAvail l).power = s.power := rfl
@[simp] theorem holdAvail_now (s : State) (l : List StationId) : (s.holdAvail l).now = s.now := rfl
@[simp] theorem holdAvail_cfg (s : State) (l : List StationId) : (s.holdAvail l).cfg = s.cfg := rfl
@[simp] theorem holdAvail_stored (s : State) (l : List StationId) : (s.holdAvail l).stored = s.stored := rfl
@[simp] theorem holdAvail_save (s : State) (l : List StationId) : (s.holdAvail l).save = s.save := rfl
@[simp] theorem holdAvail_stations (s : State) (l : List StationId) : (s.holdAvail l).stations = s.stations := rfl
@[simp] theorem holdAvail_calls (s : State) (l : List StationId) : (s.holdAvail l).calls = s.calls := rfl
@[simp] theorem holdAvail_groups (s : State) (l : List StationId) : (s.holdAvail l).groups = s.groups := rfl
@[simp] theorem holdAvail_pages (s : State) (l : List StationId) : (s.holdAvail l).pages = s.pages := rfl
@[simp] theorem holdAvail_outputs (s : State) (l : List StationId) : (s.holdAvail l).outputs = s.outputs := rfl
@[simp] theorem holdAvail_link (s : State) (l : List StationId) : (s.holdAvail l).link = s.link := rfl
@[simp] theorem holdAvail_pins (s : State) (l : List StationId) : (s.holdAvail l).pins = s.pins := rfl
@[simp] theorem holdAvail_pending (s : State) (l : List StationId) : (s.holdAvail l).pending = s.pending := rfl

@[simp] theorem takeHead_power (s : State) (rest : List Frame) : (s.takeHead rest).power = s.power := rfl
@[simp] theorem takeHead_now (s : State) (rest : List Frame) : (s.takeHead rest).now = s.now := rfl
@[simp] theorem takeHead_cfg (s : State) (rest : List Frame) : (s.takeHead rest).cfg = s.cfg := rfl
@[simp] theorem takeHead_stored (s : State) (rest : List Frame) : (s.takeHead rest).stored = s.stored := rfl
@[simp] theorem takeHead_save (s : State) (rest : List Frame) : (s.takeHead rest).save = s.save := rfl
@[simp] theorem takeHead_stations (s : State) (rest : List Frame) : (s.takeHead rest).stations = s.stations := rfl
@[simp] theorem takeHead_calls (s : State) (rest : List Frame) : (s.takeHead rest).calls = s.calls := rfl
@[simp] theorem takeHead_groups (s : State) (rest : List Frame) : (s.takeHead rest).groups = s.groups := rfl
@[simp] theorem takeHead_pages (s : State) (rest : List Frame) : (s.takeHead rest).pages = s.pages := rfl
@[simp] theorem takeHead_outputs (s : State) (rest : List Frame) : (s.takeHead rest).outputs = s.outputs := rfl
@[simp] theorem takeHead_pins (s : State) (rest : List Frame) : (s.takeHead rest).pins = s.pins := rfl
@[simp] theorem takeHead_heldAvail (s : State) (rest : List Frame) : (s.takeHead rest).heldAvail = s.heldAvail := rfl
@[simp] theorem takeHead_pending (s : State) (rest : List Frame) : (s.takeHead rest).pending = s.pending := rfl

@[simp] theorem takeHead_link (s : State) (rest : List Frame) : (s.takeHead rest).link = { s.link with rxBuffer := rest } := rfl

@[simp] theorem addCall_calls (s : State) (c : Call) : (s.addCall c).calls = s.calls ++ [c] := rfl

@[simp] theorem holdAvail_heldAvail (s : State) (l : List StationId) : (s.holdAvail l).heldAvail = s.heldAvail ++ l := rfl

/-! ## Reading a record after it was written -/

@[simp] theorem station_updStation_self (s : State) (i : StationId) (f : Station → Station) :
    (s.updStation i f).station i = f (s.station i) := by
  simp [station, updStation]

theorem station_updStation_ne (s : State) {i j : StationId} (h : j ≠ i) (f : Station → Station) :
    (s.updStation i f).station j = s.station j := by
  have : i.val ≠ j.val := fun e => h (Fin.ext e.symm)
  simp [station, updStation, Vector.getElem_set_ne _ _ this]

@[simp] theorem group_updGroup_self (s : State) (g : GroupId) (f : Group → Group) :
    (s.updGroup g f).group g = f (s.group g) := by
  simp [group, updGroup]

theorem group_updGroup_ne (s : State) {g k : GroupId} (h : k ≠ g) (f : Group → Group) :
    (s.updGroup g f).group k = s.group k := by
  have : g.val ≠ k.val := fun e => h (Fin.ext e.symm)
  simp [group, updGroup, Vector.getElem_set_ne _ _ this]

@[simp] theorem output_updOutput_self (s : State) (o : OutputId) (f : Output → Output) :
    (s.updOutput o f).output o = f (s.output o) := by
  simp [output, updOutput]

theorem output_updOutput_ne (s : State) {o k : OutputId} (h : k ≠ o) (f : Output → Output) :
    (s.updOutput o f).output k = s.output k := by
  have : o.val ≠ k.val := fun e => h (Fin.ext e.symm)
  simp [output, updOutput, Vector.getElem_set_ne _ _ this]

@[simp] theorem page_updPage_self (s : State) (p : PageId) (f : Page → Page) :
    (s.updPage p f).page p = (s.page p).map f := by
  simp [page, updPage, updPageRec]

theorem page_updPage_ne (s : State) {p q : PageId} (h : q ≠ p) (f : Page → Page) :
    (s.updPage p f).page q = s.page q := by
  have : p.val ≠ q.val := fun e => h (Fin.ext e.symm)
  simp [page, updPage, updPageRec, Vector.getElem_set_ne _ _ this]

@[simp] theorem pages_updPageRec_self (s : State) (p : PageId) (f : PageRec → PageRec) :
    (s.updPageRec p f).pages[p] = f s.pages[p] := by
  simp [updPageRec]

theorem pages_updPageRec_ne (s : State) {p q : PageId} (h : q ≠ p) (f : PageRec → PageRec) :
    (s.updPageRec p f).pages[q] = s.pages[q] := by
  have : p.val ≠ q.val := fun e => h (Fin.ext e.symm)
  simp [updPageRec, Vector.getElem_set_ne _ _ this]

theorem page_updPageRec_ne (s : State) {p q : PageId} (h : q ≠ p) (f : PageRec → PageRec) :
    (s.updPageRec p f).page q = s.page q := congrArg PageRec.page (s.pages_updPageRec_ne h f)

@[simp] theorem refOf_updPage (s : State) (p q : PageId) (f : Page → Page) : (s.updPage p f).refOf q = s.refOf q := by
  by_cases h : p.val = q.val
  · have : p = q := Fin.ext h
    subst this
    simp [refOf, updPage, updPageRec]
  · simp [refOf, updPage, updPageRec, Vector.getElem_set_ne _ _ h]

/-- The record that holds a handle after it was changed by a change that keeps the handle. -/
theorem findCall_updCall_self (s : State) (h : Handle) (f : Call → Call) (hf : ∀ c, (f c).handle = c.handle) :
    (s.updCall h f).findCall h = (s.findCall h).map f := by
  unfold findCall updCall
  induction s.calls with
  | nil => rfl
  | cons c cs ih =>
    by_cases e : c.handle = h
    · simp [e, hf]
    · have b : (c.handle == h) = false := by simp [e]
      simpa [e, b, hf, List.find?] using ih

/-- A change of one call leaves the record of every other handle. -/
theorem findCall_updCall_ne (s : State) {h k : Handle} (e : k ≠ h) (f : Call → Call) (hf : ∀ c, (f c).handle = c.handle) :
    (s.updCall h f).findCall k = s.findCall k := by
  unfold findCall updCall
  induction s.calls with
  | nil => rfl
  | cons c cs ih =>
    by_cases e1 : c.handle = h
    · have b : (h == k) = false := by simp [Ne.symm e]
      simpa [e1, b, hf, List.find?] using ih
    · by_cases e2 : c.handle = k
      · simp [e2, e, List.find?]
      · have b : (c.handle == k) = false := by simp [e2]
        simpa [e1, b, List.find?] using ih

/-- A new call is found under its handle when no record held it. -/
theorem findCall_addCall (s : State) (c : Call) (h : s.findCall c.handle = none) :
    (s.addCall c).findCall c.handle = some c := by
  unfold findCall at h
  simp [findCall, addCall, List.find?_append, h]

end Sys2Proof.Machine.State

namespace Sys2Proof.Machine

/-! ## Lists -/

theorem keepFirst_from {α : Type} [DecidableEq α] (xs acc : List α) :
    xs.foldl (fun acc x => if x ∈ acc then acc else acc ++ [x]) acc =
      acc ++ (xs.filter fun x => decide (x ∉ acc)).eraseDups := by
  induction xs generalizing acc with
  | nil => simp
  | cons x xs ih =>
    rw [List.foldl_cons, ih, List.filter_cons]
    by_cases h : x ∈ acc
    · simp [h]
    · simp only [h, if_false, not_false_eq_true, decide_true, if_true, List.eraseDups_cons, List.append_assoc,
        List.singleton_append, List.filter_filter, List.mem_append, List.mem_singleton]
      congr 3
      apply List.filter_congr
      intro y _
      by_cases y = x <;> by_cases y ∈ acc <;> simp [*]

/-- The list with its later repeats left out is the library's. -/
theorem keepFirst_eq {α : Type} [DecidableEq α] (xs : List α) : keepFirst xs = xs.eraseDups := by
  rw [keepFirst, keepFirst_from]
  simp

end Sys2Proof.Machine
end

