-- ==== Sys2Proof/Laws/Quiet.lean ====
section
/-! SUPPORT. What no doing of the engines can touch: one lemma for each shared operation of the Page Arbiter and the Hunt Engine. -/

namespace Sys2Proof.Machine

/-- From `s` to `t` the engines have worked: stations, calls, groups, pages, the grants of outputs, the call and station order
sets and the advisory queue may have changed, and nothing else has. -/
structure Quiet (s t : State) : Prop where
  power : t.power = s.power
  now : t.now = s.now
  cfg : t.cfg = s.cfg
  stored : t.stored = s.stored
  save : t.save = s.save
  pins : t.pins = s.pins
  pending : t.pending = s.pending
  output : ∀ o : OutputId, { t.output o with state := OutputState.free } = { s.output o with state := OutputState.free }
  link : { t.link with callOrders := [], stationOrders := [], advisories := [], advLost := false } =
    { s.link with callOrders := [], stationOrders := [], advisories := [], advLost := false }
  advisories : s.link.advisories.length ≤ Config.advisories → t.link.advisories.length ≤ Config.advisories

namespace Quiet

variable {s0 s : State}

theorem refl (s : State) : Quiet s s := ⟨rfl, rfl, rfl, rfl, rfl, rfl, rfl, fun _ => rfl, rfl, id⟩

/-- An update that writes none of the fields that stay. -/
theorem of_eq {t : State} (q : Quiet s0 s) (h1 : t.power = s.power) (h2 : t.now = s.now) (h3 : t.cfg = s.cfg)
    (h4 : t.stored = s.stored) (h5 : t.save = s.save) (h6 : t.pins = s.pins)
    (h7 : t.pending = s.pending) (h8 : t.outputs = s.outputs) (h9 : t.link = s.link) : Quiet s0 t := by
  refine ⟨h1.trans q.power, h2.trans q.now, h3.trans q.cfg, h4.trans q.stored, h5.trans q.save, h6.trans q.pins,
    h7.trans q.pending, fun o => ?_, ?_, ?_⟩
  · have : t.output o = s.output o := by simp [State.output, h8]
    rw [this]
    exact q.output o
  · rw [h9]
    exact q.link
  · rw [h9]
    exact q.advisories

theorem trans {t : State} (q : Quiet s0 s) (r : Quiet s t) : Quiet s0 t :=
  ⟨r.power.trans q.power, r.now.trans q.now, r.cfg.trans q.cfg, r.stored.trans q.stored, r.save.trans q.save,
    r.pins.trans q.pins, r.pending.trans q.pending,
    fun o => (r.output o).trans (q.output o), r.link.trans q.link, fun h => r.advisories (q.advisories h)⟩

/-- What every fold of a quiet step leaves. -/
theorem foldl {α : Type} {f : State → α → State} (hf : ∀ {s : State} (x : α), Quiet s0 s → Quiet s0 (f s x)) (l : List α)
    (q : Quiet s0 s) : Quiet s0 (l.foldl f s) := by
  induction l generalizing s with
  | nil => exact q
  | cons x xs ih => exact ih (hf x q)

/-! ## The plain updates -/

theorem updStation (q : Quiet s0 s) (i : StationId) (f : Station → Station) : Quiet s0 (s.updStation i f) :=
  q.of_eq rfl rfl rfl rfl rfl rfl rfl rfl rfl

theorem updGroup (q : Quiet s0 s) (g : GroupId) (f : Group → Group) : Quiet s0 (s.updGroup g f) :=
  q.of_eq rfl rfl rfl rfl rfl rfl rfl rfl rfl

theorem updPageRec (q : Quiet s0 s) (p : PageId) (f : PageRec → PageRec) : Quiet s0 (s.updPageRec p f) :=
  q.of_eq rfl rfl rfl rfl rfl rfl rfl rfl rfl

theorem updPage (q : Quiet s0 s) (p : PageId) (f : Page → Page) : Quiet s0 (s.updPage p f) := q.updPageRec p _

theorem updCall (q : Quiet s0 s) (h : Handle) (f : Call → Call) : Quiet s0 (s.updCall h f) :=
  q.of_eq rfl rfl rfl rfl rfl rfl rfl rfl rfl

theorem setCalls (q : Quiet s0 s) (l : List Call) : Quiet s0 { s with calls := l } :=
  q.of_eq rfl rfl rfl rfl rfl rfl rfl rfl rfl

theorem addCall (q : Quiet s0 s) (c : Call) : Quiet s0 (s.addCall c) := q.setCalls _

theorem setHeld (q : Quiet s0 s) (l : List StationId) : Quiet s0 { s with heldAvail := l } :=
  q.of_eq rfl rfl rfl rfl rfl rfl rfl rfl rfl

theorem holdAvail (q : Quiet s0 s) (l : List StationId) : Quiet s0 (s.holdAvail l) := q.setHeld _

/-- A change of the link that writes only the order sets and the advisory queue, and keeps that queue in its places. -/
theorem updLink (q : Quiet s0 s) (f : Link → Link)
    (h : { f s.link with callOrders := [], stationOrders := [], advisories := [], advLost := false } =
      { s.link with callOrders := [], stationOrders := [], advisories := [], advLost := false })
    (ha : s.link.advisories.length ≤ Config.advisories → (f s.link).advisories.length ≤ Config.advisories) :
    Quiet s0 (s.updLink f) :=
  ⟨q.power, q.now, q.cfg, q.stored, q.save, q.pins, q.pending, q.output, h.trans q.link,
    fun b => ha (q.advisories b)⟩

/-- A change of an output that writes only its state. -/
theorem updOutput (q : Quiet s0 s) (o : OutputId) (f : Output → Output)
    (hf : ∀ x, { f x with state := OutputState.free } = { x with state := OutputState.free }) :
    Quiet s0 (s.updOutput o f) := by
  refine ⟨q.power, q.now, q.cfg, q.stored, q.save, q.pins, q.pending, fun k => ?_, q.link, q.advisories⟩
  by_cases e : k = o
  · subst e
    rw [State.output_updOutput_self, hf]
    exact q.output k
  · rw [State.output_updOutput_ne s e]
    exact q.output k

theorem advise (q : Quiet s0 s) (a : Advisory) : Quiet s0 (s.advise a) := by
  refine q.updLink _ ?_ ?_
  · split <;> rfl
  · intro h
    split
    · simp
      omega
    · exact h

theorem markStation (q : Quiet s0 s) (i : StationId) : Quiet s0 (s.markStation i) := by
  unfold State.markStation
  split
  · exact q.updLink _ rfl id
  · split
    · exact q
    · exact q.updLink _ rfl id

theorem enterState (q : Quiet s0 s) (i : StationId) (st : StationState) : Quiet s0 (s.enterState i st) :=
  (q.updStation i _).markStation i

theorem enterFreshIdle (q : Quiet s0 s) (i : StationId) : Quiet s0 (s.enterFreshIdle i) :=
  (q.updStation i _).enterState i _

/-- The calls that ended join the call order set. -/
theorem orderCallEnd (q : Quiet s0 s) (h : Handle) :
    Quiet s0 (s.updLink fun l => { l with callOrders := l.callOrders ++ [h] }) := q.updLink _ rfl id

/-! ## The Page Arbiter -/

theorem advisePage (q : Quiet s0 s) (p : PageId) (e : PageEvent) : Quiet s0 (s.advisePage p e) := by
  unfold State.advisePage
  split
  · exact q
  · exact q.advise _

theorem joinDesk (q : Quiet s0 s) (p : PageId) (c : PageClass) (i : StationId) : Quiet s0 (State.joinDesk p c s i) := by
  unfold State.joinDesk
  repeat' split
  all_goals first | exact q | exact q.enterState _ _

theorem joinDesks (q : Quiet s0 s) (p : PageId) : Quiet s0 (s.joinDesks p) := by
  unfold State.joinDesks
  split
  · exact q
  · exact foldl (fun i q => q.joinDesk _ _ i) _ q

theorem releaseJoined (q : Quiet s0 s) (p : PageId) : Quiet s0 (s.releaseJoined p) :=
  (foldl (fun _ q => q.enterState _ _) _ q).holdAvail _

theorem grant (q : Quiet s0 s) (r : PageRef) (o : OutputId) : Quiet s0 (State.grant r s o) :=
  q.updOutput o _ fun _ => rfl

theorem release (q : Quiet s0 s) (o : OutputId) : Quiet s0 (s.release o) := q.updOutput o _ fun _ => rfl

theorem enterStarting (q : Quiet s0 s) (p : PageId) : Quiet s0 (s.enterStarting p) :=
  ((q.updPage p _).advisePage p _).joinDesks p

theorem toWaiting (q : Quiet s0 s) (p : PageId) : Quiet s0 (s.toWaiting p) := q.updPage p _

theorem endPageRecord (q : Quiet s0 s) (p : PageId) (r : EndReason) : Quiet s0 (s.endPageRecord p r) := by
  unfold State.endPageRecord
  split
  · exact q
  · exact (((foldl (fun o q => q.release o) _ q).releaseJoined p).updPageRec p _).advise _

theorem forgetEscPage (q : Quiet s0 s) (r : PageRef) (g : Option GroupId) : Quiet s0 (s.forgetEscPage r g) := by
  unfold State.forgetEscPage
  split
  · exact q
  · split
    · exact q.updGroup _ _
    · exact q

theorem strip (q : Quiet s0 s) (p : PageId) (pg : Page) : Quiet s0 (s.strip p pg) := by
  unfold State.strip
  split
  · exact (q.endPageRecord p _).forgetEscPage _ _
  · exact ((q.toWaiting p).releaseJoined p).advisePage p _

theorem settleLoss (q : Quiet s0 s) (r : PageRef) : Quiet s0 (s.settleLoss r) := by
  unfold State.settleLoss
  repeat' split
  all_goals first | exact q | exact q.strip _ _

theorem takeSteps (q : Quiet s0 s) (p : PageId) (outs : List OutputId) : Quiet s0 (s.takeSteps p outs) := by
  unfold State.takeSteps
  have q1 : Quiet s0 (outs.foldl (State.grant (s.refOf p)) s) := foldl (fun o q => q.grant _ o) outs q
  refine foldl (fun r q => q.settleLoss r) _ ?_
  split
  · exact q1.enterStarting p
  · exact q1

theorem reviewWalks (n : Nat) (q : Quiet s0 s) : Quiet s0 (State.reviewWalks n s) := by
  induction n generalizing s with
  | zero => exact q
  | succ n ih =>
    unfold State.reviewWalks
    split
    · exact q
    · exact ih (q.takeSteps _ _)

theorem reviewPages (q : Quiet s0 s) : Quiet s0 s.reviewPages := q.reviewWalks _

theorem take (q : Quiet s0 s) (p : PageId) (outs : List OutputId) : Quiet s0 (s.take p outs) :=
  (q.takeSteps p outs).reviewPages

theorem acceptPage (q : Quiet s0 s) (p : PageId) (pg : Page) : Quiet s0 (s.acceptPage p pg) := by
  unfold State.acceptPage
  dsimp only
  split
  · exact ((q.updPageRec p _).toWaiting p).advisePage p _
  · exact (q.updPageRec p _).take p _

theorem adviseEscalate (q : Quiet s0 s) (g : GroupId) (r : EscReport) : Quiet s0 (s.adviseEscalate g r) := q.advise _

theorem pageAttempt (q : Quiet s0 s) (g : GroupId) : Quiet s0 (s.pageAttempt g) := by
  unfold State.pageAttempt
  dsimp only
  split
  · exact q.adviseEscalate g _
  · split
    · exact q.adviseEscalate g _
    · exact ((q.acceptPage _ _).updGroup g _).adviseEscalate g _

theorem escalationStart (q : Quiet s0 s) (g : GroupId) : Quiet s0 (s.escalationStart g) := (q.updGroup g _).pageAttempt g

theorem escPageEnded (q : Quiet s0 s) (r : PageRef) (g : GroupId) : Quiet s0 (s.escPageEnded r g) := by
  unfold State.escPageEnded
  dsimp only
  split
  · split
    · exact (((q.updGroup g _).updGroup g _).pageAttempt g).updGroup g _
    · exact q.updGroup g _
  · exact q

theorem endPage (q : Quiet s0 s) (p : PageId) (r : EndReason) : Quiet s0 (s.endPage p r) := by
  unfold State.endPage
  split
  · exact q
  · rename_i pg _
    have q2 : Quiet s0
        (match pg.escGroup with
          | none => s.endPageRecord p r
          | some g =>
            if r = .escalationCleared then s.endPageRecord p r else (s.endPageRecord p r).escPageEnded (s.refOf p) g) := by
      repeat' split
      all_goals first | exact q.endPageRecord p r | exact (q.endPageRecord p r).escPageEnded _ _
    dsimp only
    split
    · exact q2
    · exact q2.reviewPages

theorem escalationClear (q : Quiet s0 s) (g : GroupId) : Quiet s0 (s.escalationClear g) := by
  unfold State.escalationClear
  refine Quiet.adviseEscalate (Quiet.updGroup ?_ g _) g _
  repeat' split
  all_goals first | exact q | exact q.endPage _ _

theorem openingStep (q : Quiet s0 s) (p : PageId) : Quiet s0 (s.openingStep p) := by
  unfold State.openingStep
  repeat' split
  all_goals first | exact q | exact q.updPage _ _ | exact (q.updPage _ _).advisePage _ _

theorem chimeComplete (q : Quiet s0 s) (p : PageId) (pg : Page) : Quiet s0 (s.chimeComplete p pg) := by
  unfold State.chimeComplete
  dsimp only
  split
  · exact ((q.updPage p _).updPage p _).advisePage p _
  · exact (q.updPage p _).endPage p _

/-! ## The Hunt Engine -/

theorem leaveQueue (q : Quiet s0 s) (h : Handle) (g : GroupId) : Quiet s0 (s.leaveQueue h g) := by
  unfold State.leaveQueue
  dsimp only
  split
  · exact (q.updGroup g _).escalationClear g
  · exact q.updGroup g _

theorem ringAll (q : Quiet s0 s) (h : Handle) (l : List StationId) : Quiet s0 (s.ringAll h l) :=
  foldl (fun _ q => q.enterState _ _) l q

theorem offerGroup (q : Quiet s0 s) (h : Handle) (g : GroupId) (l : List StationId) : Quiet s0 (s.offerGroup h g l) := by
  unfold State.offerGroup
  split
  · exact q
  · rename_i c _
    dsimp only
    repeat' split
    all_goals first
      | exact (((q.updCall h _).ringAll h _).leaveQueue h g).updGroup g _
      | exact ((q.updCall h _).ringAll h _).updGroup g _
      | exact ((q.updCall h _).ringAll h _).leaveQueue h g
      | exact (q.updCall h _).ringAll h _

theorem reviewHeads (n : Nat) (g : GroupId) (q : Quiet s0 s) : Quiet s0 (State.reviewHeads n g s) := by
  induction n generalizing s with
  | zero => exact q
  | succ n ih =>
    unfold State.reviewHeads
    repeat' split
    all_goals first | exact q | exact ih (q.offerGroup _ g _)

theorem reviewQueue (q : Quiet s0 s) (g : GroupId) : Quiet s0 (s.reviewQueue g) := reviewHeads _ g q

theorem reviewIf (q : Quiet s0 s) (b : Bool) (g : GroupId) : Quiet s0 (s.reviewIf b g) := by
  unfold State.reviewIf
  split
  · exact q.reviewQueue g
  · exact q

theorem availability (q : Quiet s0 s) (i : StationId) : Quiet s0 (s.availability i) := by
  unfold State.availability
  repeat' split
  all_goals first | exact q | exact (q.offerGroup _ _ _).reviewQueue _

theorem availAll (q : Quiet s0 s) (l : List StationId) : Quiet s0 (s.availAll l) := foldl (fun i q => q.availability i) l q

theorem flushRounds (n : Nat) (q : Quiet s0 s) : Quiet s0 (State.flushRounds n s) := by
  induction n generalizing s with
  | zero => exact q.setHeld []
  | succ n ih =>
    unfold State.flushRounds
    split
    · exact q
    · exact ih ((q.setHeld []).availAll _)

theorem flush (q : Quiet s0 s) : Quiet s0 s.flush := flushRounds _ q

theorem endCall (q : Quiet s0 s) (h : Handle) (o : CallOutcome) (st : Option StationId) : Quiet s0 (s.endCall h o st) := by
  unfold State.endCall
  split
  · exact q
  · rename_i c _
    dsimp only
    refine Quiet.availAll ?_ _
    have q1 := (q.updCall h fun c => { c with state := .ending, outcome := some o, outcomeStation := st }).orderCallEnd h
    generalize (if c.state = CallState.queued then c.currentGroup else none) = place
    cases place with
    | none => exact (foldl (fun _ q => q.enterState _ _) _ q1).updCall h _
    | some g => exact ((foldl (fun _ q => q.enterState _ _) _ (q1.leaveQueue h g)).updCall h _).reviewIf _ g

theorem ringOne (q : Quiet s0 s) (h : Handle) (i : StationId) (k : OfferKind) (ms : Nat) : Quiet s0 (s.ringOne h i k ms) :=
  (q.updCall h _).enterState i _

theorem toAttendant (q : Quiet s0 s) (h : Handle) : Quiet s0 (s.toAttendant h) := by
  unfold State.toAttendant
  split
  · exact q.ringOne _ _ _ _
  · exact q.endCall _ _ _

theorem fallToAttendant (q : Quiet s0 s) (h : Handle) (r : RouteReason) : Quiet s0 (s.fallToAttendant h r) := by
  unfold State.fallToAttendant
  split
  · exact q
  · exact (q.advise _).toAttendant h

theorem recallToAttendant (q : Quiet s0 s) (h : Handle) : Quiet s0 (s.recallToAttendant h) := by
  unfold State.recallToAttendant
  repeat' split
  all_goals first | exact q | exact q.endCall _ _ _ | exact q.ringOne _ _ _ _

theorem hop (q : Quiet s0 s) (h : Handle) (g : GroupId) (r : RouteReason) : Quiet s0 (s.hop h g r).1 := by
  unfold State.hop
  split
  · exact q
  · dsimp only
    have q1 := fun f a => (q.updCall h f).advise a
    repeat' split
    all_goals first
      | exact (q1 _ _).endCall _ _ _
      | exact (q1 _ _).toAttendant _
      | exact (q1 _ _).ringOne _ _ _ _
      | exact (q1 _ _).fallToAttendant _ _
      | exact (q1 _ _).updCall _ _

theorem enterQueue (q : Quiet s0 s) (h : Handle) (g : GroupId) (b : Bool) (l : List StationId) :
    Quiet s0 (s.enterQueue h g b l) := by
  unfold State.enterQueue
  split
  · exact q
  · dsimp only
    split
    · exact ((q.updCall h _).updGroup g _).escalationStart g
    · exact (q.updCall h _).updGroup g _

theorem arrive (n : Nat) (h : Handle) (g : GroupId) (q : Quiet s0 s) : Quiet s0 (State.arrive n s h g) := by
  induction n generalizing s g with
  | zero => exact q
  | succ n ih =>
    unfold State.arrive
    split
    · exact q
    · split
      · exact q.offerGroup _ _ _
      · exact q.enterQueue _ _ _ _
      · have q1 := q.hop h g
        rename_i r _
        split
        · rename_i e
          have q2 := q1 r
          rw [e] at q2
          exact q2
        · rename_i e
          have q2 := q1 r
          rw [e] at q2
          exact ih _ q2

theorem route (q : Quiet s0 s) (h : Handle) (g : GroupId) (r : RouteReason) : Quiet s0 (s.route h g r) := by
  unfold State.route
  have q1 := q.hop h g r
  split
  · rename_i e
    rw [e] at q1
    exact q1
  · rename_i e
    rw [e] at q1
    exact arrive _ _ _ q1

theorem stopRings (q : Quiet s0 s) (h : Handle) : Quiet s0 (s.stopRings h) :=
  (foldl (fun _ q => q.enterState _ _) _ q).updCall h _

theorem overflowMove (q : Quiet s0 s) (h : Handle) (g : GroupId) (r : RouteReason) : Quiet s0 (s.overflowMove h g r) := by
  unfold State.overflowMove
  split
  · exact q
  · split
    · exact ((q.leaveQueue h g).route h g r).reviewIf _ g
    · exact (q.stopRings h).route h g r

theorem overflow (q : Quiet s0 s) (h : Handle) (g : GroupId) (r : RouteReason) : Quiet s0 (s.overflow h g r) :=
  (q.overflowMove h g r).availAll _

theorem returnToQueue (q : Quiet s0 s) (h : Handle) (g : GroupId) (l : List StationId) : Quiet s0 (s.returnToQueue h g l) := by
  unfold State.returnToQueue
  split
  · exact q
  · dsimp only
    repeat' split
    all_goals first
      | exact q.route _ _ _
      | exact q.enterQueue _ _ _ _
      | exact (q.enterQueue _ _ _ _).overflow _ _ _

theorem lookAgain (q : Quiet s0 s) (h : Handle) (l : List StationId) : Quiet s0 (s.lookAgain h l) := by
  unfold State.lookAgain
  repeat' (first | split | dsimp only)
  all_goals first | exact q | exact q.returnToQueue _ _ _ | exact q.offerGroup _ _ _

theorem ringEnded (q : Quiet s0 s) (h : Handle) (l : List StationId) : Quiet s0 (s.ringEnded h l) := by
  unfold State.ringEnded
  repeat' split
  all_goals first
    | exact q
    | exact q.lookAgain _ _
    | exact q.fallToAttendant _ _
    | exact q.endCall _ _ _
    | exact q.recallToAttendant _

theorem ringExpired (q : Quiet s0 s) (h : Handle) : Quiet s0 (s.ringExpired h) :=
  ((q.stopRings h).ringEnded h _).availAll _

theorem leaveRing (q : Quiet s0 s) (i : StationId) (h : Handle) (st : StationState) : Quiet s0 (s.leaveRing i h st) := by
  unfold State.leaveRing
  dsimp only
  have q1 := (q.updCall h fun c => { c with offered := c.offered.filter fun x => !(x.station == i) }).enterState i st
  generalize (s.updCall h fun c => { c with offered := c.offered.filter fun x => !(x.station == i) }).enterState i st = t at *
  have q2 : Quiet s0
      (if t.ringingFor h = [] then (t.updCall h fun c => { c with ringDeadline := none }).ringEnded h [i] else t) := by
    split
    · exact (q1.updCall h _).ringEnded h _
    · exact q1
  split
  · exact q2.availability i
  · exact q2

end Quiet
end Sys2Proof.Machine
end

