-- ==== Sys2Proof/Laws/Link.lean ====
section
/-! SUPPORT. What the control link does: the take, the reply, the dispatch and the event, one lemma each. -/

namespace Sys2Proof.Machine

/-! ## The take (R173) -/

/-- A take changes the link, and the last sent presentation of the station whose order is taken. -/
theorem transmitTake_stays (s : State) :
    s.transmitTake = { s with stations := s.transmitTake.stations, link := s.transmitTake.link } := by
  unfold State.transmitTake
  repeat' split
  all_goals first
    | rfl
    | (unfold State.takeOther; repeat' split) <;> rfl

/-- While a reply waits, a take writes the link alone. -/
theorem transmitTake_reply (s : State) (h : s.link.replies ≠ []) : s.transmitTake = { s with link := s.transmitTake.link } := by
  unfold State.transmitTake
  split
  · rfl
  · rfl
  · contradiction

/-- A transmitter that is sending takes nothing. -/
theorem transmitTake_busy (s : State) {f : TxFrame} (h : s.link.tx = some f) : s.transmitTake = s := by
  unfold State.transmitTake
  rw [h]

/-! ## The reply (R169) -/

/-- Placing a reply writes the link alone. -/
theorem answer_stays (s : State) (f : Frame) (r : Result) (c : List Octet) :
    s.answer f r c = { s with link := (s.answer f r c).link } := by
  unfold State.answer
  rw [transmitTake_reply _ (by simp)]
  rfl

/-- While a frame is on the line, a reply placed joins the tail of the queue and nothing else changes. -/
theorem answer_busy (s : State) (f : Frame) (r : Result) (c : List Octet) {g : TxFrame} (h : s.link.tx = some g) :
    s.answer f r c = s.updLink fun l =>
      { l with replies := l.replies ++ [{ kind := f.kind, tag := f.tag, result := r, content := c }] } :=
  transmitTake_busy _ h

@[simp] theorem answer_stations (s : State) (f : Frame) (r : Result) (c : List Octet) :
    (s.answer f r c).stations = s.stations := by rw [answer_stays]

@[simp] theorem answer_calls (s : State) (f : Frame) (r : Result) (c : List Octet) :
    (s.answer f r c).calls = s.calls := by rw [answer_stays]

@[simp] theorem answer_groups (s : State) (f : Frame) (r : Result) (c : List Octet) :
    (s.answer f r c).groups = s.groups := by rw [answer_stays]

@[simp] theorem answer_pages (s : State) (f : Frame) (r : Result) (c : List Octet) :
    (s.answer f r c).pages = s.pages := by rw [answer_stays]

@[simp] theorem answer_outputs (s : State) (f : Frame) (r : Result) (c : List Octet) :
    (s.answer f r c).outputs = s.outputs := by rw [answer_stays]

@[simp] theorem answer_cfg (s : State) (f : Frame) (r : Result) (c : List Octet) : (s.answer f r c).cfg = s.cfg := by
  rw [answer_stays]

@[simp] theorem answer_pending (s : State) (f : Frame) (r : Result) (c : List Octet) :
    (s.answer f r c).pending = s.pending := by rw [answer_stays]

@[simp] theorem answer_heldAvail (s : State) (f : Frame) (r : Result) (c : List Octet) :
    (s.answer f r c).heldAvail = s.heldAvail := by rw [answer_stays]

/-! ## The held availability events (R84, R124) -/

/-- With nothing held back there is nothing to hand over. -/
theorem flush_none (s : State) (h : s.heldAvail = []) : s.flush = s := by
  unfold State.flush State.flushBound State.flushRounds
  rw [h]

/-- After the hand-over nothing is held back. -/
theorem flushRounds_heldAvail (n : Nat) (s : State) : (State.flushRounds n s).heldAvail = [] := by
  induction n generalizing s with
  | zero => rfl
  | succ n ih =>
    unfold State.flushRounds
    split
    · assumption
    · exact ih _

theorem flush_heldAvail (s : State) : s.flush.heldAvail = [] := flushRounds_heldAvail _ s

/-- With nothing held back an event ends with the take. -/
theorem finish_none (s : State) (h : s.heldAvail = []) : s.finish = s.transmitTake := by
  unfold State.finish
  rw [flush_none s h]

/-! ## Dispatch and events -/

/-- A dispatch always answers a next state: the frame served, or the state as it was. -/
theorem dispatch_answers (row : Row) (f : Frame) (handle : State → Handled) (s : State) :
    (∃ rest, s.link.rxBuffer = f :: rest ∧ f.row = row ∧ s.dispatchOpen = true ∧
      dispatch row f handle s = .next (serve f rest handle s)) ∨ dispatch row f handle s = .next s := by
  unfold dispatch
  split
  · exact .inr rfl
  · rename_i head rest e
    split
    · rename_i h
      exact .inl ⟨rest, by rw [e, h.1], h.2.1, h.2.2, rfl⟩
    · exact .inr rfl

/-- A frame that is ready is served by its own row. -/
theorem dispatch_ready {row : Row} {f : Frame} {handle : State → Handled} {s : State} {rest : List Frame}
    (h : Ready s f rest) (hr : f.row = row) : dispatch row f handle s = .next (serve f rest handle s) := by
  unfold dispatch
  rw [h.1]
  simp [hr, h.2.1]

/-- A request whose handling holds back no availability event is answered as its handling says. -/
theorem serve_settled {f : Frame} {rest : List Frame} {handle : State → Handled} {s u : State} {r : Result}
    {c : List Octet} (h : handle (s.takeHead rest) = { result := r, content := c, st := u }) (hu : u.heldAvail = []) :
    serve f rest handle s = u.answer f r c := by
  unfold serve
  simp [h, flush_none u hu]

/-- An event always answers a next state: its effect with the end of an event, or the state as it was. -/
theorem event_answers (s : State) (b : Bool) (e : State → State) :
    (s.power = .running ∧ b = true ∧ event s b e = .next (e s).finish) ∨ event s b e = .next s := by
  unfold event
  split
  · rename_i h
    exact .inl ⟨h.1, h.2, rfl⟩
  · exact .inr rfl

/-- An event that happens. -/
theorem event_happens {s : State} {b : Bool} {e : State → State} (hp : s.power = .running) (hb : b = true) :
    event s b e = .next (e s).finish := by
  simp [event, hp, hb]

end Sys2Proof.Machine
end

