-- ==== Sys2Proof/Laws/Calls.lean ====
section
/-! SUPPORT. What a station's change of state does, and the doings of the Hunt Engine while no call waits. -/

namespace Sys2Proof.Machine
namespace State

/-! ## A station's change of state (R4, R17) -/

/-- Marking a station writes the station order set alone. -/
theorem markStation_stays (s : State) (i : StationId) :
    s.markStation i = { s with link := { s.link with stationOrders := (s.markStation i).link.stationOrders } } := by
  unfold markStation
  repeat' split
  all_goals rfl

@[simp] theorem markStation_station (s : State) (i j : StationId) : (s.markStation i).station j = s.station j := by
  rw [markStation_stays]
  rfl

@[simp] theorem markStation_stations (s : State) (i : StationId) : (s.markStation i).stations = s.stations := by
  rw [markStation_stays]

/-- A change of state writes stations and the station order set alone. -/
theorem enterState_stays (s : State) (i : StationId) (st : StationState) : OnlyStations s (s.enterState i st) := by
  unfold OnlyStations enterState
  constructor
  · rw [markStation_stays]
    rfl
  · rw [markStation_stays]
    rfl

/-- The station enters the state and keeps its idle-since time; no other station changes. -/
theorem enterState_station (s : State) (i j : StationId) (st : StationState) :
    (s.enterState i st).station j = if j = i then { s.station i with state := st } else s.station j := by
  unfold enterState
  rw [markStation_station]
  split
  · rename_i h
    subst h
    exact station_updStation_self s j _
  · rename_i h
    exact station_updStation_ne s h _

end State

theorem OnlyStations.refl (s : State) : OnlyStations s s := ⟨rfl, rfl⟩

theorem OnlyStations.trans {s t u : State} (h : OnlyStations s t) (k : OnlyStations t u) : OnlyStations s u := by
  obtain ⟨h1, h2⟩ := h
  obtain ⟨k1, k2⟩ := k
  refine ⟨?_, ?_⟩
  · rw [k1, h1]
  · rw [k2, h2]

/-- Stations that enter one state after another: each is in the state its place gives it, the others are as they were. -/
theorem enterStates {α : Type} (at' : α → StationId) (st : StationId → StationState) (l : List α) (s : State) :
    OnlyStations s (l.foldl (fun s x => s.enterState (at' x) (st (at' x))) s) ∧
      StationsIn s (l.foldl (fun s x => s.enterState (at' x) (st (at' x))) s) (l.map at') st := by
  induction l generalizing s with
  | nil => exact ⟨OnlyStations.refl s, by simp, fun _ _ => rfl, fun _ => ⟨rfl, rfl⟩⟩
  | cons x xs ih =>
    obtain ⟨h1, h2, h3, h4⟩ := ih (s.enterState (at' x) (st (at' x)))
    refine ⟨(State.enterState_stays s _ _).trans h1, ?_, ?_, ?_⟩
    · intro i hi
      by_cases hx : i ∈ xs.map at'
      · exact h2 i hx
      · have e : i = at' x := by simpa [hx] using hi
        rw [List.foldl_cons, h3 i hx, State.enterState_station, e]
        simp
    · intro i hi
      simp only [List.map_cons, List.mem_cons, not_or] at hi
      rw [List.foldl_cons, h3 i hi.2, State.enterState_station, if_neg hi.1]
    · intro i
      have h5 := h4 i
      rw [State.enterState_station] at h5
      rw [List.foldl_cons]
      split at h5
      · rename_i e
        subst e
        exact h5
      · exact h5

/-! ## While no call waits (R58, R59) -/

theorem competing_none {s : State} (h : NoCallWaits s) (i : StationId) (g : GroupId) : s.competing i g = none := by
  unfold State.competing
  split
  · simp [h g]
  · rfl

/-- An availability event gives a station to no call while no call waits. -/
theorem availability_none {s : State} (h : NoCallWaits s) (i : StationId) : s.availability i = s := by
  unfold State.availability
  split
  · have e : s.competitors i = [] := by
      unfold State.competitors
      simp [competing_none h]
    rw [e]
    rfl
  · rfl

theorem availAll_none {s : State} (h : NoCallWaits s) (l : List StationId) : s.availAll l = s := by
  unfold State.availAll
  induction l with
  | nil => rfl
  | cons i l ih => rw [List.foldl_cons, availability_none h i, ih]

/-- A call that stands in no queue ends by the teardown of R35, while no call waits. -/
theorem endCall_unqueued {s : State} {c : Call} (hc : s.findCall c.handle = some c) (hq : c.state ≠ .queued)
    (hw : NoCallWaits s) (o : CallOutcome) (st : Option StationId) :
    OnlyCalls s (s.endCall c.handle o st) ∧ TornDown s (s.endCall c.handle o st) c o st := by
  unfold State.endCall
  rw [hc]
  dsimp only
  simp only [if_neg hq]
  generalize hs1 : ((s.updCall c.handle fun c => { c with state := .ending, outcome := some o, outcomeStation := st }).updLink
    fun l => { l with callOrders := l.callOrders ++ [c.handle] }) = s1
  obtain ⟨⟨h1, h2⟩, h3, h4, h5⟩ :=
    enterStates Offer.station (fun i => if some i = st then StationState.busy else .idle) c.offered s1
  generalize hs3 : (c.offered.foldl (fun s x => s.enterState x.station (if some x.station = st then .busy else .idle)) s1) =
    s3 at *
  have g3 : s3.groups = s.groups := by rw [h1, ← hs1]; rfl
  rw [availAll_none]
  · have f1 : ∀ k, s3.findCall k = s1.findCall k := fun k => by rw [h1]; rfl
    have st1 : ∀ i, s1.station i = s.station i := fun i => by rw [← hs1]; rfl
    refine ⟨⟨?_, ?_⟩, ⟨?_, ?_⟩, ⟨?_, ?_, ?_⟩, ?_⟩
    · rw [State.updCall, h1, ← hs1]
      rfl
    · simp only [State.updCall_link]
      rw [h2, ← hs1]
      rfl
    · rw [State.findCall_updCall_self _ _ _ (by intro _; rfl), f1, ← hs1]
      have := State.findCall_updCall_self s c.handle
        (fun c => { c with state := .ending, outcome := some o, outcomeStation := st }) fun _ => rfl
      change ((s.updCall c.handle _).findCall c.handle).map _ = _
      rw [this, hc]
      cases o <;> rfl
    · intro k hk
      rw [State.findCall_updCall_ne _ hk _ (by intro _; rfl), f1, ← hs1]
      exact State.findCall_updCall_ne s hk _ (by intro _; rfl)
    · exact h3
    · intro i hi
      exact (h4 i hi).trans (st1 i)
    · intro i
      have := h5 i
      rw [st1] at this
      exact this
    · simp only [State.updCall_link]
      rw [h2, ← hs1]
      rfl
  · intro g
    have := hw g
    simp only [State.group, State.updCall_groups, g3]
    exact this

/-! ## The entry into a queue (R68) -/

/-- A call that has stood in its group's queue retains the wait deadline kept from there. -/
theorem waitOnEntry_kept (s : State) {c : Call} (h : c.arrivalWait = none) : s.waitOnEntry c = c.waitDeadline := by
  simp [State.waitOnEntry, h]

/-- A call that arrived at a group without a maximum wait takes no deadline. -/
theorem waitOnEntry_none (s : State) {c : Call} (h : c.arrivalWait = some 0) : s.waitOnEntry c = none := by
  simp [State.waitOnEntry, h]

/-- A call whose queue age is below the maximum wait it arrived under takes its deadline from its queue entry time. -/
theorem waitOnEntry_fresh (s : State) {c : Call} {m : Nat} (h : c.arrivalWait = some m) (k : m ≠ 0)
    (w : s.queueAge c < seconds m) : s.waitOnEntry c = some (later (c.queueEntry.getD s.now) (seconds m)) := by
  simp [State.waitOnEntry, State.waitReached, h, k, w]

/-- A call whose queue age has reached the maximum wait it arrived under takes no deadline. -/
theorem waitOnEntry_reached (s : State) {c : Call} {m : Nat} (h : c.arrivalWait = some m) (w : seconds m ≤ s.queueAge c) :
    s.waitOnEntry c = none := by
  by_cases k : m = 0 <;> simp [State.waitOnEntry, State.waitReached, h, k, w]

/-- What the wait test asks. -/
theorem waitReached_iff (s : State) (c : Call) :
    s.waitReached c = true ↔ ∃ m, c.arrivalWait = some m ∧ m ≠ 0 ∧ seconds m ≤ s.queueAge c := by
  simp [State.waitReached, Option.any_eq_true]

/-- All that an entry into a queue does: the record of `Call.queuedAt`, the place in the list, and the start of an
escalation. -/
theorem enterQueue_eq {s : State} {h : Handle} {c : Call} (hc : s.findCall h = some c) (g : GroupId) (returning : Bool)
    (tried : List StationId) :
    ∃ entry flag, entry = c.queueEntry.getD s.now ∧
      flag = (c.escalated || (decide ((s.groupCfg g).escDelay ≠ 0) && decide (seconds (s.groupCfg g).escDelay ≤ s.queueAge c))) ∧
      ∃ t, t = ((s.updCall h fun x =>
          x.queuedAt g tried entry (s.waitOnEntry c) (s.groupCfg g).escDelay flag).updGroup g fun x =>
            { x with queue := if returning then h :: x.queue else x.queue ++ [h] }) ∧
        s.enterQueue h g returning tried = if flag && !s.inEscalation g then t.escalationStart g else t := by
  refine ⟨_, _, rfl, rfl, _, rfl, ?_⟩
  unfold State.enterQueue
  rw [hc]
  rfl

end Sys2Proof.Machine
end

