-- ==== Sys2Proof/Tests/Slice0.lean ====
section
/-! SUPPORT. Tests of the model against figures of the manual, the ill-formed terms that WellFormed refuses, and, for every statement with hypotheses, a state and operands that meet them. -/

namespace Sys2Proof.Tests
open Sys2Proof Sys2Proof.Machine

-- One theorem at a time: the kernel evaluates many of these states, and each would hold a thread of its own meanwhile.
set_option Elab.async false

/-! ## Small states -/

/-- The state a command leaves. -/
def after (i : Instr) (s : State) : State :=
  match exec i s with
  | .next t => t
  | .fault _ => s
  | .refused _ => s

/-- After reset, with START sent. -/
def base : State := State.reset.updLink fun l => { l with start := none, startSent := true }

/-- The state with one frame in its receive buffer. -/
def head (s : State) (f : Frame) : State := s.updLink fun l => { l with rxBuffer := [f] }

/-- The state after the dispatch of a frame. -/
def ask (s : State) (f : Frame) : State := after f.request (head s f)

/-- A request frame with TAG 9. -/
def req (kind : Octet) (body : List Octet) : Frame := { kind := kind, tag := 9, body := body }

/-- The octets on the line. -/
def line (s : State) : List Octet := (s.link.tx.map TxFrame.octets).getD []

/-- The result code of the reply on the line. -/
def result (s : State) : Option Octet := (line s)[5]?

/-- A station in use. -/
def used (s : State) (i : StationId) : State :=
  (s.updCfg fun c => { c with stations := c.stations.set i.val { c.stations[i] with inUse := true } i.isLt }).updStation i
    fun x => { x with state := .idle }

/-- The state at a running time. -/
def atTime (s : State) (t : Time) : State := { s with now := t }

/-- Group 3, Maintenance: LINEAR, no-answer time 15 s, members 117 and 118. -/
def maintenance : GroupCfg :=
  { GroupCfg.defaults with enabled := true, members := [{ station := 117, loggedIn := true }, { station := 118, loggedIn := true }] }

/-- The plant of the worked sequences: stations 117, 118 and 119 in use, group 3 with pilot 2200, station 4117 and orbit 1
with their numbers, and zone 3 of map set 0 on outputs 0 and 1 with desk station 118. -/
def plant : State :=
  (((used (used (used base 117) 118) 119).updCfg fun c =>
    { c with
      directory :=
        [ { number := [2, 2, 0, 0], target := .pilot 3 }, { number := [4, 1, 1, 7], target := .station 117 },
          { number := [0, 1, 1, 7], target := .station 117 }, { number := [7, 0, 0, 1], target := .orbit 1 } ]
      groups := c.groups.set 3 maintenance
      maps := c.maps.set 0 ((c.maps[0]).set 3 { valid := true, outputs := 0b11, desks := [118], reserved := false }) }))

/-- The caller number of the worked sequence. -/
def caller : List Nat := [5, 5, 5, 0, 4, 1, 1]

/-- CALL_IN 2051 of pilot 32200. -/
def callInBody : List Octet := put2 2051 ++ putDigits [3, 2, 2, 0, 0] ++ putDigits caller ++ putFlag false

/-! ## The line (R164 to R168) -/

/-- R165: over the nine octets 0x31 to 0x39 the check is 0x29B1. -/
theorem test_check_of_nine_octets :
    checkOf [0x31, 0x32, 0x33, 0x34, 0x35, 0x36, 0x37, 0x38, 0x39] = 0x29B1 := by decide +kernel

/-- R167: a 0xB7 inside the body starts no new frame. -/
theorem test_sync_inside_a_body_is_data :
    (after (.frameReceived 0x03 9 [0xB7, 0xB7] (checkOf [4, 0x03, 9, 0xB7, 0xB7])) base).link.rxBuffer =
      [req 0x03 [0xB7, 0xB7]] := by decide +kernel

/-- R188: a frame that arrives before START has been sent is discarded without a flag. -/
theorem test_frame_before_start_is_discarded :
    let l := (after (.frameReceived 0x20 9 [] (checkOf [2, 0x20, 9])) State.reset).link
    l.rxBuffer = [] ∧ l.rxOverrun = false ∧ l.rxError = false := by decide +kernel

/-- R173, R187: the first thing on the line after power-on is START(POWER, DEFAULTS). -/
theorem test_start_goes_out_first :
    ∃ t, step State.reset = .next t ∧ (line t).take 6 = [0xB7, 4, 0x60, 0, 0, 1] := ⟨_, rfl, by decide +kernel⟩

/-- R169: a KIND the controller itself sends is answered UNKNOWN_KIND, code 16, with STORE_INVALID in the flags. -/
theorem test_kind_of_a_notice_is_unknown :
    (line (ask base (req 0x60 []))).take 7 = [0xB7, 5, 0x80, 9, 0x60, 16, 8] := by decide +kernel

/-- R171: a CALL_IN whose digits run past its end is answered BAD_LENGTH, code 15. -/
theorem test_call_in_too_short : result (ask plant (req 0x01 (put2 2051 ++ [5, 3, 2]))) = some 15 := by decide +kernel

/-! ## Stations and the Directory (chapter 1) -/

/-- The resolutions of the worked sequence of R22. -/
theorem test_resolutions :
    plant.resolve [3, 2, 2, 0, 0] = some (.pilot 3) ∧ plant.resolve [4, 1, 1, 7] = some (.station 117) ∧
      plant.resolve [1, 1, 7] = some (.station 117) ∧ plant.resolve [7, 0, 0, 1] = some (.orbit 1) ∧
      plant.resolve [7, 0, 0, 2] = none := by decide +kernel

/-- The refused SET_DIR adds of the worked sequence: 2201 as PILOT(3) is DUPLICATE, 411 as STATION(11) is BAD_VALUE. -/
theorem test_refused_directory_adds :
    result (ask plant (req 0x31 (put1 0 ++ putDigits [2, 2, 0, 1] ++ put1 1 ++ put2 3))) = some 5 ∧
      result (ask plant (req 0x31 (put1 0 ++ putDigits [4, 1, 1] ++ put1 0 ++ put2 11))) = some 8 := by decide +kernel

/-- R7, R10: OFFHOOK of an IDLE station makes it BUSY; IN_SERVICE of one out of service makes it IDLE now. -/
theorem test_station_reports :
    ((ask plant (req 0x04 (put2 117 ++ put1 0))).station 117).state = .busy ∧
      ((ask (atTime (plant.enterState 117 .outOfService) 500) (req 0x04 (put2 117 ++ put1 3))).station 117) =
        { state := .idle, idleSince := 500, saturated := false, lastSent := .quiet } := by decide +kernel

/-! ## The call of chapter 2's worked sequence -/

/-- Station 118 BUSY at 100,000, and CALL_IN 2051 taken. -/
def arrived : State := ask (atTime (plant.enterState 118 .busy) 100000) (req 0x01 callInBody)

/-- The call rings at 117 with ring deadline 115,000, and the reply says OFFERING. -/
theorem test_call_in_offers :
    (arrived.findCall 2051).map (fun c => (c.state, c.offered, c.tried, c.ringDeadline)) =
        some (.offering, [{ station := 117, start := 100000 }], [117], some 115000) ∧
      (line arrived)[7]? = some 1 := by decide +kernel

/-- The ring expired at 115,000, with the line free. -/
def unanswered : State :=
  after (.noAnswerExpiry 2051) ((atTime arrived 115000).updLink fun l => { l with tx := none, stationOrders := [] })

/-- The call waits with tried set 117 and queue entry time 115,000; 117 is IDLE and is not offered it again. -/
theorem test_no_answer_queues :
    (unanswered.findCall 2051).map (fun c => (c.state, c.tried, c.queueEntry)) = some (.queued, [117], some 115000) ∧
      (unanswered.station 117).state = .idle ∧ (unanswered.group 3).queue = [2051] := by decide +kernel

/-- ONHOOK of 118 at 130,000: the arbiter offers the call to 118, whose tried set is now 118 alone. -/
def offered118 : State := ask (atTime unanswered 130000) (req 0x04 (put2 118 ++ put1 1))

theorem test_onhook_brings_the_head_call :
    (offered118.findCall 2051).map (fun c => (c.state, c.tried, c.ringDeadline, c.queueEntry)) =
        some (.offering, [118], some 145000, some 115000) ∧
      (offered118.group 3).queue = [] ∧ (offered118.station 118).state = .ringing 2051 := by decide +kernel

/-- ANSWER(118, 2051) at 134,000: the call ends ANSWERED(118), and 118 is BUSY. -/
def answered : State := ask (atTime offered118 134000) (req 0x02 (put2 118 ++ put2 2051))

theorem test_answer_ends_the_call :
    (answered.findCall 2051).map (fun c => (c.state, c.outcome, c.outcomeStation, c.tried)) =
        some (.ending, some .answered, some 118, []) ∧
      (answered.station 118).state = .busy ∧ answered.link.callOrders = [2051] := by decide +kernel

/-- The handle is refused DUPLICATE, code 5, until the CALL_END has left. -/
theorem test_handle_in_use_is_duplicate :
    result (ask (answered.updLink fun l => { l with tx := none, replies := [] }) (req 0x01 callInBody)) = some 5 := by
  decide +kernel

/-! ## Selection (chapter 3) -/

/-- A group of 117, 118 and 119 with an algorithm and a cursor. -/
def trio (a : Algorithm) (cursor : Option StationId) : State :=
  (plant.updCfg fun c =>
    { c with
      groups := c.groups.set 3
        { maintenance with
          algorithm := a
          members := [117, 118, 119].map fun i => { station := i, loggedIn := true } } }).updGroup 3
    fun x => { x with cursor := cursor }

/-- A new call of group 3. -/
def fresh : Call := arrivedCall 7 [] false 3 0 0

/-- R48, R49, R51, R52: the first member, the member after the cursor, the longest idle (earliest between equals), and every
available one. -/
theorem test_selections :
    (trio .linear (some 118)).select 3 fresh = [117] ∧ (trio .circular (some 118)).select 3 fresh = [119] ∧
      (trio .circular (some 119)).select 3 fresh = [117] ∧
      (atTime ((trio .longestIdle none).updStation 117 fun x => { x with idleSince := 10 }) 50).select 3 fresh = [118] ∧
      ((trio .simultaneous none).enterState 118 .busy).select 3 fresh = [117, 119] := by decide +kernel

/-! ## Gain and samples (chapters 7 and 8) -/

/-- The rows of the table of R152. -/
theorem test_scaling_table :
    scaleSample 100 88 = (138, false) ∧ scaleSample (BitVec.ofInt 16 (-1000)) 88 = (BitVec.ofInt 16 (-1375), false) ∧
      scaleSample 27000 80 = (32767, true) ∧ scaleSample 20000 120 = (32767, true) ∧
      scaleSample (BitVec.ofInt 16 (-20000)) 120 = (BitVec.ofInt 16 (-32768), true) ∧
      scaleSample 8192 255 = (32640, false) ∧ scaleSample 3 10 = (0, false) ∧
      scaleSample (BitVec.ofInt 16 (-32768)) 64 = (BitVec.ofInt 16 (-32768), false) ∧
      scaleSample 32767 65 = (32767, true) := by decide +kernel

/-- The rows of the table of R151. -/
theorem test_effective_gain_table :
    effectiveGain 88 32 255 = 120 ∧ effectiveGain 144 32 150 = 150 ∧ effectiveGain 10 (-16) 255 = 0 ∧
      effectiveGain 64 0 255 = 64 ∧ effectiveGain 250 16 255 = 255 := by decide +kernel

/-- The configuration of the worked cases of chapter 8. -/
def hall (gmax : Nat) : OutputCfg := { OutputCfg.defaults with gmax := gmax, stepSize := 8 }

/-- One window with a VOICE page: count 600, sum 1,230,000, 12 clips, GT 80 goes UP to 88 and the next window settles. -/
theorem test_window_with_a_voice_page :
    let x := State.closeWindow 41000 (hall 120)
      { Output.afterReset 80 with windowStart := 40000, sum := 1230000, count := 600, clips := 12 }
    x.gt = 88 ∧ x.lastDecision = some .up ∧ x.lastMean = some 2050 ∧ x.settling = true ∧ x.windowStart = 41000 := by
  decide +kernel

/-- Windows of the loud hall: AT_LIMIT at GT 160, QUIET_DOWN to 152, CLIP_DOWN to 144 with 45 clips, STARVED with none. -/
theorem test_loud_hall :
    State.windowDecision (hall 160) { Output.afterReset 160 with sum := 1060000, count := 500 } = (.atLimit, 160) ∧
      State.windowDecision (hall 160) { Output.afterReset 160 with sum := 460000, count := 400, clips := 1 } =
        (.quietDown, 152) ∧
      State.windowDecision (hall 160) { Output.afterReset 152 with sum := 50000, count := 20, clips := 45 } =
        (.clipDown, 144) ∧
      State.windowDecision (hall 160) { Output.afterReset 144 with clips := 6 } = (.starved, 144) := by decide +kernel

/-! ## Pages (chapters 6 and 7) -/

/-- The body of a VOICE page of input 1 from station 117 to zone 3, ALL_OR_WAIT, wait limit 10 s. -/
def pageBody : List Octet := put2 117 ++ [1, 1, 255, 255, 0, 10, 1, 3]

/-- The plant with station 117 allowed VOICE pages. -/
def pagers : State :=
  plant.updCfg fun c => { c with stations := c.stations.set 117 { c.stations[117] with classLimit := .voice } }

/-- R117, R122, R132: the page starts on both outputs of the zone, in GUARD for 30 ms, and the desk station listens. -/
theorem test_page_starts :
    let s := ask pagers (req 0x18 pageBody)
    (s.output 0).state = .guard { id := 0, gen := 0 } 30 ∧ (s.output 1).state = .guard { id := 0, gen := 0 } 30 ∧
      (s.output 2).state = .free ∧ (s.station 118).state = .pageListen { id := 0, gen := 0 } ∧
      (line s).take 10 = [0xB7, 8, 0x80, 9, 0x18, 0, 8, 0, 0, 1] := by decide +kernel

/-- R126: PAGE_END frees the record with the next generation, the outputs and the desk station. -/
theorem test_page_end_releases :
    let s := ask ((ask pagers (req 0x18 pageBody)).updLink fun l => { l with tx := none }) (req 0x19 [0, 0])
    s.pages[0] = { gen := 1, page := none } ∧ (s.output 0).state = .free ∧ (s.station 118).state = .idle := by
  decide +kernel

/-! ## Ill-formed commands -/

/-- A body of more than 240 octets is refused (R165). -/
theorem test_long_body_is_ill_formed : (Instr.callIn 0 (List.replicate 241 0)).wellFormed = false := by decide +kernel

/-- The same of a frame on the line. -/
theorem test_long_frame_is_ill_formed : (Instr.frameReceived 1 0 (List.replicate 241 0) 0).wellFormed = false := by
  decide +kernel

/-- A STATION body with the report ONHOOK is not the OFFHOOK row's (R6). -/
theorem test_report_of_another_row_is_ill_formed : (Instr.stationOffhook 0 [0, 1, 1]).wellFormed = false := by
  decide +kernel

/-- Handle 0 and a handle above 65535 name no call (R28). -/
theorem test_bad_handles_are_ill_formed :
    (Instr.noAnswerExpiry 0).wellFormed = false ∧ (Instr.parkDeadlineExpiry 65536).wellFormed = false := by decide +kernel

/-- Their neighbours are well formed. -/
theorem test_neighbours_are_well_formed :
    (Instr.callIn 0 (List.replicate 240 0)).wellFormed = true ∧ (Instr.stationOnhook 0 [0, 1, 1]).wellFormed = true ∧
      (Instr.noAnswerExpiry 65535).wellFormed = true := by decide +kernel

/-! ## Witnesses: states and operands that meet the hypotheses of each statement -/

/-- A frame at the head of a receive buffer whose dispatch is open is ready. -/
theorem ready_head {s : State} (f : Frame) (h : s.dispatchOpen = true) (h' : s.heldAvail = []) : Ready (head s f) f [] :=
  ⟨rfl, h, h'⟩

theorem base_ready (f : Frame) : Ready (head base f) f [] := ready_head f (by decide +kernel) rfl

theorem plant_ready (f : Frame) : Ready (head plant f) f [] := ready_head f (by decide +kernel) (by decide +kernel)

theorem base_runs : Runs base := ⟨rfl, rfl⟩

theorem plant_runs : Runs plant := ⟨by decide +kernel, by decide +kernel⟩

theorem witness_StepRunsTheFrontCommand :
    ({ base with pending := [.pinReset, .linkReset] } : State).pending = .pinReset :: [.linkReset] := rfl

theorem witness_EmptyQueueRunsTheControllersOwnEvents :
    State.reset.pending = [] ∧ ({ State.reset with power := .heldInReset } : State).power ≠ .running ∧
      (State.reset.power = .running ∧ State.reset.link.tx = none ∧ State.reset.transmitTake.link.tx.isSome = true) ∧
      (base.transmitTake.link.tx = none ∧ (head base (req 0x20 [])).link.rxBuffer = [req 0x20 []] ∧
        (head base (req 0x20 [])).dispatchOpen = true) ∧
      (base.link.rxBuffer = [] ∧ (atTime base 1000).timedEvent = some (.windowEnd 0) ∧ base.timedEvent = none) :=
  ⟨rfl, by decide +kernel, by decide +kernel, by decide +kernel, by decide +kernel⟩

theorem witness_EveryCommandAnswers : base.heldAvail = [] := rfl

theorem witness_LinkStoresStayBounded :
    (base.updLink fun l => { l with rxBuffer := List.replicate 4 (req 1 []) }).link.Bounded ∧
      ∃ t, step (base.updLink fun l => { l with rxBuffer := List.replicate 4 (req 1 []) }) = .next t :=
  ⟨by unfold Link.Bounded; decide +kernel, _, rfl⟩

theorem witness_TrackedGainsStayWithinLimits : GainsWithin base ∧ WindowsHoldTheirBlocks base ∧ ∃ t, step base = .next t :=
  ⟨⟨by unfold WorkingConfig.GainsFit; decide +kernel, (fun _ h => nomatch h), (fun _ h => nomatch h), by decide +kernel⟩,
    ⟨nofun, by unfold WorkingConfig.WindowsFit; decide +kernel, (fun _ h => nomatch h), (fun _ h => nomatch h), by decide +kernel⟩,
    _, rfl⟩

theorem witness_CallTableStaysWhole : CallTableFits arrived ∧ arrived.calls.length = 1 ∧ ∃ t, step arrived = .next t :=
  ⟨by unfold CallTableFits; decide +kernel, by decide +kernel, _, rfl⟩

/-- A save in progress. -/
def saving : State := { base with save := some { config := base.cfg, deadline := 1500 } }

/-- The record of one call is found under its handle alone. -/
theorem find_one {s : State} {c : Call} (e : s.calls = [c]) (h : Handle) (d : Call) :
    s.findCall h = some d ↔ h = c.handle ∧ d = c := by
  unfold State.findCall
  rw [e]
  by_cases k : c.handle = h
  · subst k
    simp [eq_comm]
  · simp [List.find?, beq_eq_false_iff_ne.mpr k, Ne.symm k]

theorem witness_OnlyEditsWriteTheConfiguration :
    (∃ t, exec .pinReset saving = .next t) ∧ saving.save.isSome = true ∧ ¬ writesConfiguration .pinReset ∧
      (∀ b, Instr.pinReset ≠ .powerOnReset b) ∧ ¬ writesStore .pinReset ∧ SaveClearsStore saving ∧
      ∃ t, step saving = .next t := by
  refine ⟨⟨_, rfl⟩, rfl, ?_, ?_, ?_, fun _ => rfl, _, rfl⟩
  · rintro (⟨b, h⟩ | ⟨f, h, _⟩) <;> cases h
  · intro b h; cases h
  · rintro (⟨b, h⟩ | ⟨t, b, h⟩ | ⟨b, h⟩ | h) <;> cases h

/-- A frame on the line. -/
def sending (s : State) (i : TxItem) : State := s.updLink fun l => { l with tx := some { item := i, octets := [] } }

theorem witness_ResetsLoadOrRetainTheConfiguration :
    (({ base with stored := some base.cfg } : State).stored = some base.cfg ∧ base.stored = none) ∧
    ({ base with power := .heldInReset } : State).power = .heldInReset ∧ (sending base .resetReply).power = .running ∧
      (sending base .resetReply).link.tx = some { item := .resetReply, octets := [] } ∧ base.power = .running :=
  ⟨⟨rfl, rfl⟩, rfl, rfl, rfl, rfl⟩

/-- The receiver in a frame, at a running time. -/
def receiving (os : List Octet) (t : Time) : State := atTime (base.updLink fun l => { l with receiver := .inFrame os 0 }) t

theorem witness_FrameSentWholeIsReceived :
    (req 1 (List.replicate 240 0xB7)).body.length ≤ 240 ∧ Runs base ∧ base.link.receiver = .hunting ∧
      (req 1 [0xB7]).body.length ≤ 240 ∧ 0xFFFF ≠ checkOf (req 1 [0xB7]).covered :=
  ⟨by decide +kernel, base_runs, rfl, by decide, by decide +kernel⟩

theorem witness_ReceiverTakesOctets :
    Runs base ∧ base.link.receiver = .hunting ∧ (∀ t, Runs (receiving [] t)) ∧
      (∀ os t, (receiving os t).link.receiver = .inFrame os 0) ∧ 5 < ageOf 6 0 ∧ ageOf 5 0 ≤ 5 ∧
      ((1 : Octet).toNat < 2 ∧ 242 < (243 : Octet).toNat) ∧
      (∀ len rest, ([] : List Octet) ++ [242] = len :: rest →
        2 ≤ len.toNat ∧ len.toNat ≤ 242 ∧ rest.length ≠ len.toNat + 2) ∧
      (∀ len rest, [2, 0x20] ++ [(9 : Octet)] = len :: rest →
        2 ≤ len.toNat ∧ len.toNat ≤ 242 ∧ rest.length ≠ len.toNat + 2) ∧
      (req 0x20 []).body.length ≤ 240 ∧ [2, 0x20, 9, 0x12] ++ [0x34] = (req 0x20 []).covered ++ putCheck 0x1234 := by
  refine ⟨base_runs, rfl, fun _ => ⟨rfl, rfl⟩, fun _ _ => rfl, by decide, by decide, by decide, ?_, ?_, by decide, by decide⟩
  · intro len rest h; cases h; decide
  · intro len rest h; cases h; decide

/-- One octet is no CALL_IN: its handle takes two. -/
theorem not_callIn : ¬ WholeBody (req 0x01 [0]) := by
  rintro ⟨h, pilot, caller, flag, -, -, -, -, e⟩
  have := congrArg List.length e
  simp [req, put2_eq, putDigits, put1_eq] at this

theorem witness_UnknownKindAndBadLengthAnswered :
    Ready (head base (req 0x05 [])) (req 0x05 []) [] ∧ (req 0x05 []).kind.toNat ∉ requestKinds ∧
      Ready (head base (req 0x01 [0])) (req 0x01 [0]) [] ∧ (req 0x01 [0]).kind.toNat ∈ requestKinds ∧
      ¬ WholeBody (req 0x01 [0]) ∧ fixedLength (req 0x3F [0]).kind = some 0 :=
  ⟨base_ready _, by decide, base_ready _, by decide, not_callIn, rfl⟩

theorem witness_OnlyTheHeadFrameIsDispatched :
    requestFrame (.status 9 []) = some (req 0x20 []) ∧ base.link.rxBuffer.head? ≠ some (req 0x20 []) ∧
      ({ base with power := .unpowered } : State).power ≠ .running ∧
      (base.updLink fun l => { l with resetAwaited := true }).link.resetAwaited = true ∧
      8 ≤ (base.updLink fun l =>
        { l with replies := List.replicate 8 { kind := 0x20, tag := 9, result := .ok, content := [] } }).link.replies.length :=
  ⟨rfl, by decide +kernel, by decide +kernel, rfl, by decide +kernel⟩

/-- A reply waiting in the queue. -/
def waitingReply : State :=
  base.updLink fun l => { l with replies := [{ kind := 0x3F, tag := 9, result := .ok, content := [] }], rxError := true }

theorem witness_RepliesCarryTheStatusFlags :
    (sending base .other).link.tx = some { item := .other, octets := [] } ∧ waitingReply.link.tx = none ∧
      waitingReply.link.replies = [{ kind := 0x3F, tag := 9, result := .ok, content := [] }] := ⟨rfl, rfl, rfl⟩

/-- The call of handle 7, ENDING, ABANDONED. -/
def endingCall : Call := (arrivedCall 7 [] false 3 0 0).ended .abandoned none

/-- Something to take for each of the transmitter's stores but the first two. -/
def loaded (orders : List Handle) (marks : List Mark) : State :=
  (base.addCall endingCall).updLink fun l =>
    { l with callOrders := orders, stationOrders := marks, advisories := [.escalate 3 .cleared 0] }

theorem witness_TransmitterTakesInOrder :
    (sending base .other).link.tx = some { item := .other, octets := [] } ∧
      (base.updLink fun l => { l with resetAwaited := true }).link.resetAwaited = true ∧
      (State.reset.link.start = some (.power, .defaults) ∧ State.reset.link.resetAwaited = false) ∧
      ((base.updLink fun l => { l with saveDone := some .ok }).link.saveDone = some .ok) ∧
      ((loaded [7] []).link.callOrders = [7] ∧ (loaded [7] []).findCall 7 = some endingCall ∧
        (loaded [7] []).link.start = none ∧ (loaded [7] []).link.saveDone = none) ∧
      ((loaded [] [{ station := 511, time := 0 }]).link.stationOrders = [{ station := 511, time := 0 }] ∧
        (loaded [] [{ station := 511, time := 0 }]).link.callOrders = []) ∧
      ((loaded [] []).link.advisories = [.escalate 3 .cleared 0] ∧ (loaded [] []).link.stationOrders = []) ∧
      (base.link.advisories = [] ∧ base.link.tx = none ∧ base.link.replies = []) :=
  ⟨rfl, rfl, ⟨rfl, rfl⟩, rfl, ⟨rfl, rfl, rfl, rfl⟩, ⟨rfl, rfl⟩, ⟨rfl, rfl⟩, ⟨rfl, rfl, rfl⟩⟩

theorem witness_EndOfTransmissionFreesTheRecord :
    (∀ i ∈ [TxItem.reply, .other, .start, .callEnd 7, .resetReply],
      Runs (sending base i) ∧ (sending base i).link.tx = some { item := i, octets := [] }) :=
  fun _ _ => ⟨⟨rfl, rfl⟩, rfl⟩

theorem witness_AdvisoriesAndOrdersCarryTheirFields :
    ((base.updLink fun l => { l with advisories := List.replicate 31 (.escalate 3 .cleared 0) }).link.advisories.length < 32 ∧
      32 ≤ (base.updLink fun l => { l with advisories := List.replicate 32 (.escalate 3 .cleared 0) }).link.advisories.length) ∧
      (∃ (num : Nat → Octet) (wide : Nat → List Octet) (absent : Option Nat → Octet), (∀ n, num n = BitVec.ofNat 8 n) ∧
        (∀ n, wide n = [num (n / 256), num (n % 256)]) ∧ absent none = 255 ∧ ∀ n, absent (some n) = num n) ∧
      [(RouteReason.queueFull, 0), (.displaced, 1)].lookup .displaced = some 1 :=
  ⟨by decide +kernel, ⟨_, _, fun v => (v.map (BitVec.ofNat 8)).getD 255, fun _ => rfl, fun _ => rfl, rfl, fun _ => rfl⟩, rfl⟩

/-! ### Stations and calls -/

/-- Station 511 with a last sent presentation. -/
def lastSent511 (p : Presentation) : State := base.updStation 511 fun x => { x with lastSent := p }

/-- The same with station 511 marked. -/
def marked511 (p : Presentation) : State := (lastSent511 p).updLink fun l => { l with stationOrders := [{ station := 511, time := 0 }] }

theorem witness_StationOrderMarking :
    ((lastSent511 (.ring 7 false [])).marked 511 = false ∧
        (lastSent511 (.ring 7 false [])).present .busy ≠ ((lastSent511 (.ring 7 false [])).station 511).lastSent) ∧
      (base.marked 511 = false ∧ base.present .busy = (base.station 511).lastSent) ∧
      ((marked511 (.ring 7 false [])).marked 511 = true ∧
        (marked511 (.ring 7 false [])).present .busy ≠ ((marked511 (.ring 7 false [])).station 511).lastSent) ∧
      ((marked511 .quiet).marked 511 = true ∧
        (marked511 .quiet).present .busy = ((marked511 .quiet).station 511).lastSent) ∧
      ((marked511 .quiet).link.stationOrders.map Mark.station).Nodup := by decide +kernel

/-- Station 511 in a state, with a report from it at the head. -/
def reporting (st : StationState) (r : Nat) : State :=
  head (base.updStation 511 fun x => { x with state := st }) (req 0x04 (put2 511 ++ put1 r))

theorem witness_StationReportsInEveryState :
    Ready (head base (req 0x04 (put2 512 ++ put1 4))) (req 0x04 (put2 512 ++ put1 4)) [] ∧ 511 < 512 ∧ 3 < 4 ∧
      (∀ st r, Ready (reporting st r) (req 0x04 (put2 511 ++ put1 r)) []) ∧
      (∀ st r, ((reporting st r).station 511).state = st) :=
  ⟨base_ready _, by decide, by decide, fun _ _ => ready_head _ rfl rfl,
    fun st _ => congrArg Station.state (State.station_updStation_self base 511 fun x => { x with state := st })⟩

/-- The state with a call that rings at its offered stations. -/
def ringing (s : State) (c : Call) : State :=
  c.offered.foldl (fun s x => s.updStation x.station fun y => { y with state := .ringing c.handle }) (s.addCall c)

/-- Call 7 ringing at stations of group 3. -/
def groupRing (sts : List StationId) : Call :=
  { fresh with
    offered := sts.map fun i => { station := i, start := 0 }
    tried := sts, offerKind := some .group, ringDeadline := some 15000 }

/-- Call 7 waiting in group 3's queue, with another behind it or before it. -/
def queuedCall (h : Handle) : Call := { fresh with handle := h, state := .queued, queueEntry := some 0 }

/-- The plant with calls waiting in group 3. -/
def waiting (cs : List Call) : State :=
  ({ plant with calls := cs } : State).updGroup 3 fun x => { x with queue := cs.map Call.handle }

/-- Call 7 ringing at one station outside the groups, parked in orbit 1 or recalled to its parker 117. -/
def soloRing (k : OfferKind) (st : CallState) (i : StationId) : Call :=
  { fresh with
    state := st, offered := [{ station := i, start := 0 }], offerKind := some k, currentGroup := none, originGroup := none,
    ringDeadline := some 30000, orbit := if st = .recalling then some 1 else none
    parker := if st = .recalling then some 117 else none }

/-- The plant with an attendant. -/
def attended (s : State) (a : StationId) : State := s.updCfg fun c => { c with attendant := some a }

/-- The frames by which station 117 leaves its ring: OFFHOOK, OUT_OF_SERVICE, and SET_STATION out of use. -/
def leaving : List Frame :=
  [req 0x04 (put2 117 ++ put1 0), req 0x04 (put2 117 ++ put1 2), req 0x32 (put2 117 ++ put2 117 ++ put1 1 ++ put1 0)]

theorem witness_CallProceedsWhenAStationLeavesItsRing :
    (let s := ringing plant (groupRing [117, 118]);
      (s.station 117).state = .ringing 7 ∧ s.findCall 7 = some (groupRing [117, 118]) ∧
        (∃ x ∈ (groupRing [117, 118]).offered, x.station ≠ 117) ∧ s.dispatchOpen = true ∧ s.heldAvail = [] ∧ s.save = none) ∧
      leaving.map Frame.request = [.stationOffhook 9 (put2 117 ++ put1 0), .stationOutOfService 9 (put2 117 ++ put1 2),
        .setStation 9 (put2 117 ++ put2 117 ++ put1 1 ++ put1 0)] ∧
      (let s := ringing plant (groupRing [117]);
        let t := s.enterState 117 .busy;
        (s.station 117).state = .ringing 7 ∧ s.findCall 7 = some (groupRing [117]) ∧
          (∀ x ∈ (groupRing [117]).offered, x.station = 117) ∧ (groupRing [117]).state ≠ .queued ∧
          (s.groupCfg 3).algorithm ≠ .simultaneous ∧ t.select 3 (groupRing [117]) ≠ [] ∧
          (t.enterState 118 .busy).select 3 (groupRing [117]) = []) ∧
      (∀ k ∈ [OfferKind.target, .attendant], let s := ringing plant (soloRing k .offering 117);
        (s.station 117).state = .ringing 7 ∧ s.findCall 7 = some (soloRing k .offering 117) ∧
          (soloRing k .offering 117).state ≠ .queued ∧ (soloRing k .offering 117).offerKind = some k) ∧
      (let s := (ringing plant (soloRing .recalling .recalling 117)).enterState 117 .busy;
        s.idleAttendant = none ∧ (attended s 118).idleAttendant = some 118 ∧
          (soloRing .recalling .recalling 117).parker ≠ some 118) := by decide +kernel

theorem witness_CallInCheckedInOrder :
    (∀ f, Ready (head plant f) f []) ∧ (2051 < 65536 ∧ caller.length < 256 ∧ (∀ d ∈ caller, d < 256)) ∧
      (8 < (List.replicate 9 0).length ∧ (∃ d ∈ [2, 10], 9 < d)) ∧
      ¬ ((2051 : Nat) = 0 ∨ 8 < (List.replicate 8 0).length ∨ 8 < caller.length ∨ (∃ d ∈ List.replicate 8 0, 9 < d) ∨
        ∃ d ∈ caller, 9 < d) ∧
      (arrived.findCall 2051).isSome = true ∧
      (plant.findCall 2051 = none ∧ plant.resolve [2, 2, 0, 1] = none ∧ plant.resolve [4, 1, 1, 7] = some (.station 117) ∧
        plant.resolve [7, 0, 0, 1] = some (.orbit 1) ∧ plant.resolve [2, 2, 0, 0] = some (.pilot 3)) ∧
      (96 ≤ ({ plant with calls := List.replicate 96 fresh } : State).calls.length ∧
        ({ plant with calls := List.replicate 96 fresh } : State).findCall 2051 = none ∧
        ({ plant with calls := List.replicate 95 fresh } : State).calls.length < 96) :=
  ⟨plant_ready, by decide +kernel⟩

theorem witness_CallInMeetsItsGroup :
    (Ready (head plant (req 0x01 callInBody)) (req 0x01 callInBody) [] ∧ goodDigits [3, 2, 2, 0, 0] = true ∧
        goodDigits caller = true ∧
        let s := head plant (req 0x01 callInBody);
        s.findCall 2051 = none ∧ s.resolve [3, 2, 2, 0, 0] = some (.pilot 3) ∧ s.calls.length < 96 ∧
          (s.groupCfg 3).enabled = true ∧ (s.group 3).queue = [] ∧
          s.select 3 (arrivedCall 2051 caller false 3 0 0) ≠ []) ∧
      (let s := waiting (List.replicate 7 (queuedCall 7));
        let t := (plant.enterState 117 .busy).enterState 118 .outOfService;
        (s.dispatchOpen = true ∧ s.heldAvail = [] ∧ s.findCall 2051 = none ∧ s.resolve [3, 2, 2, 0, 0] = some (.pilot 3) ∧
            s.calls.length < 96 ∧ (s.groupCfg 3).enabled = true ∧ (s.group 3).queue ≠ [] ∧
            (s.group 3).queue.length < (s.groupCfg 3).queueLimit) ∧
          (t.dispatchOpen = true ∧ t.select 3 (arrivedCall 2051 caller false 3 0 0) = [] ∧ (t.group 3).queue.length < 8)) ∧
      (let s := waiting (List.replicate 8 (queuedCall 7));
        (s.groupCfg 3).queueLimit ≤ (s.group 3).queue.length ∧
          (((s.addCall (arrivedCall 2051 caller false 3 0 0)).route 2051 3 .queueFull).flush.findCall 2051).isSome = true) ∧
      (let s := plant.updCfg fun c => { c with groups := c.groups.set 3 { maintenance with enabled := false } };
        (s.groupCfg 3).enabled = false ∧ s.resolve [3, 2, 2, 0, 0] = some (.pilot 3) ∧
          (((s.addCall (arrivedCall 2051 caller false 3 0 0)).route 2051 3 .groupDisabled).flush.findCall 2051).isSome = true) :=
  ⟨⟨plant_ready _, by decide +kernel⟩, by decide +kernel⟩

theorem plant_nobody_waits : NoCallWaits plant := by unfold NoCallWaits; decide +kernel

theorem ringing_nobody_waits (sts : List StationId) (h : sts = [117] ∨ sts = [117, 118]) :
    NoCallWaits (ringing plant (groupRing sts)) := by
  rcases h with rfl | rfl <;> (unfold NoCallWaits; decide +kernel)

theorem base_station (i : StationId) : base.station i = { state := .unused, idleSince := 0, saturated := false, lastSent := .quiet } :=
  Vector.getElem_replicate ..

theorem base_inUse (i : StationId) : (base.stationCfg i).inUse = false :=
  congrArg StationCfg.inUse (Vector.getElem_replicate ..)

theorem used_station (s : State) (i j : StationId) :
    (used s i).station j = if j = i then { s.station i with state := .idle } else s.station j := by
  unfold used
  split
  · subst j
    exact State.station_updStation_self _ i _
  · exact State.station_updStation_ne _ ‹_› _

theorem used_inUse (s : State) (i j : StationId) :
    ((used s i).stationCfg j).inUse = if j = i then true else (s.stationCfg j).inUse := by
  unfold used
  split
  · subst j
    simp [State.stationCfg, State.updCfg, State.updStation]
  · have : i.val ≠ j.val := fun e => ‹¬ j = i› (Fin.ext e.symm)
    simp [State.stationCfg, State.updCfg, State.updStation, Vector.getElem_set_ne _ _ this]

/-- The stations of the plant: three IDLE, the others UNUSED. -/
theorem plant_station (i : StationId) :
    plant.station i =
      { state := if i = 117 ∨ i = 118 ∨ i = 119 then .idle else .unused, idleSince := 0, saturated := false, lastSent := .quiet } := by
  have h : plant.station i = (used (used (used base 117) 118) 119).station i := rfl
  rw [h]
  simp only [used_station, base_station]
  by_cases a : i = 117 <;> by_cases b : i = 118 <;> by_cases c : i = 119 <;> simp [a, b, c]

theorem plant_inUse (i : StationId) : (plant.stationCfg i).inUse = decide (i = 117 ∨ i = 118 ∨ i = 119) := by
  have h : (plant.stationCfg i).inUse = ((used (used (used base 117) 118) 119).stationCfg i).inUse := rfl
  rw [h]
  simp only [used_inUse, base_inUse]
  by_cases a : i = 117 <;> by_cases b : i = 118 <;> by_cases c : i = 119 <;> simp [a, b, c]

/-- Call 7 ringing at station 117 alone. -/
def ringing117 : State := ringing plant (groupRing [117])

theorem ringing117_station (i : StationId) : (ringing117.station i).state =
      if i = 117 then .ringing 7 else if i = 118 ∨ i = 119 then .idle else .unused := by
  show (((plant.addCall (groupRing [117])).updStation 117 fun y => { y with state := .ringing 7 }).station i).state = _
  by_cases a : i = 117
  · subst a
    simp
  · rw [State.station_updStation_ne _ a, if_neg a]
    show (plant.station i).state = _
    rw [plant_station]
    simp [a]

theorem plant_members : plant.cfg.MembersFit := by
  unfold WorkingConfig.MembersFit
  decide +kernel

theorem ringing117_agrees : CallsAgree ringing117 := by
  have e : ringing117.calls = [groupRing [117]] := by decide +kernel
  have hq : ∀ g, (ringing117.group g).queue = [] := by decide +kernel
  have ho : ringing117.link.callOrders = [] := by decide +kernel
  have ht : ringing117.link.tx = none := by decide +kernel
  refine ⟨by rw [e]; simp, ?_, ?_, ?_, ?_, by rw [ho]; simp, ?_, ?_, plant_members, nofun, nofun⟩
  · intro d hd
    rw [e, List.mem_singleton] at hd
    subst hd
    exact ⟨by decide, by decide, by decide, rfl, rfl, rfl, rfl, rfl, rfl, .inl ⟨rfl, rfl⟩⟩
  · intro g
    rw [hq g]
    simp
  · intro d hd f hf
    rw [e, List.mem_singleton] at hd hf
    subst hd hf
    intros
    rfl
  · intro i h
    simp only [find_one e, ringing117_station]
    constructor
    · intro k
      repeat' split at k
      all_goals cases k
      rename_i hi
      exact ⟨_, ⟨rfl, rfl⟩, by simp [groupRing, hi]⟩
    · rintro ⟨d, ⟨rfl, rfl⟩, k⟩
      simp [groupRing] at k
      rw [if_pos k]
      rfl
  · intro h
    rw [ho]
    simp only [find_one e]
    constructor
    · simp
    · rintro ⟨d, ⟨rfl, rfl⟩, k⟩
      cases k
  · intro x h hx
    rw [ht] at hx
    cases hx

/-- A step on an empty queue is what the part does of its own. -/
theorem step_idle {s : State} (h : s.pending = []) : step s = .next s.idle := by
  unfold step
  rw [h]

theorem witness_CallRecordsStayInAgreement : CallsAgree ringing117 ∧ ∃ t, step ringing117 = .next t :=
  ⟨ringing117_agrees, _, step_idle (by decide +kernel)⟩

theorem witness_HangupEndsTheCall :
    (∀ f, Ready (head plant f) f []) ∧ (∀ c, plant.findCall 65535 = some c → c.state = .ending) ∧
      (let s := ringing plant (groupRing [117]);
        s.dispatchOpen = true ∧ s.heldAvail = [] ∧ s.findCall 7 = some (groupRing [117]) ∧
          (groupRing [117]).state ≠ .ending ∧ (groupRing [117]).state ≠ .queued) ∧
      NoCallWaits (ringing plant (groupRing [117])) ∧
      (let s := waiting [queuedCall 8, queuedCall 7];
        s.dispatchOpen = true ∧ s.heldAvail = [] ∧ s.findCall 7 = some (queuedCall 7) ∧ (queuedCall 7).state = .queued ∧
          (queuedCall 7).currentGroup = some 3 ∧ (queuedCall 7).escalated = false ∧ (queuedCall 7).offered = [] ∧
          (s.group 3).queue.head? ≠ some 7) := by
  refine ⟨plant_ready, ?_, by decide +kernel, ringing_nobody_waits _ (.inl rfl), by decide +kernel⟩
  intro c h
  rw [show plant.findCall 65535 = none by decide +kernel] at h
  cases h

theorem witness_AnswerTakesTheRingingCall :
    (∀ f, Ready (head plant f) f []) ∧ 511 < 512 ∧ plant.findCall 7 = none ∧
      (let s := ringing plant (groupRing [117, 118]);
        s.dispatchOpen = true ∧ s.heldAvail = [] ∧ s.findCall 7 = some (groupRing [117, 118]) ∧
          (groupRing [117, 118]).state = .offering ∧ 118 ∈ (groupRing [117, 118]).offered.map Offer.station ∧
          119 ∉ (groupRing [117, 118]).offered.map Offer.station) ∧
      NoCallWaits (ringing plant (groupRing [117, 118])) ∧
      ((waiting [queuedCall 7]).findCall 7 = some (queuedCall 7) ∧ (queuedCall 7).state = .queued) :=
  ⟨plant_ready, by decide, by decide +kernel, by decide +kernel, ringing_nobody_waits _ (.inr rfl), by decide +kernel⟩

/-- Which members are open to call 7 in a state. -/
def openTo (s : State) (m : Member) : Bool := m.loggedIn && s.freeForOffer m.station && !fresh.tried.contains m.station

theorem witness_SelectionByTheGroupsAlgorithm :
    (∀ a c, ((trio a c).groupCfg 3).algorithm = a) ∧
      (∀ s m, openTo s m = (m.loggedIn && s.freeForOffer m.station && !fresh.tried.contains m.station)) ∧
      ((trio .longestIdle none).groupCfg 3).members.filter (openTo (trio .longestIdle none)) ≠ [] ∧
      (let s := ((trio .longestIdle none).enterState 117 .busy).enterState 118 .busy;
        ((s.enterState 119 .busy).groupCfg 3).members.filter (openTo (s.enterState 119 .busy)) = []) ∧
      ((trio .circular none).group 3).cursor = none ∧
      (((trio .circular (some 118)).groupCfg 3).members =
          [{ station := 117, loggedIn := true }] ++ { station := 118, loggedIn := true } :: [{ station := 119, loggedIn := true }] ∧
        ((trio .circular (some 118)).group 3).cursor = some 118 ∧
        118 ∉ ([{ station := 117, loggedIn := true }] : List Member).map Member.station) := by
  refine ⟨fun a c => ?_, fun _ _ => rfl, by decide +kernel, by decide +kernel, by decide +kernel, by decide +kernel⟩
  cases a <;> cases c <;> rfl

theorem witness_ArbiterServesTheOldestHead :
    base.freeForOffer 511 = false ∧ plant.freeForOffer 117 = true ∧
      (∃ m ∈ ((waiting [queuedCall 7]).groupCfg 3).members, m.station = 117 ∧ m.loggedIn = true) ∧
      ((waiting [queuedCall 7]).group 3).queue.head? = some 7 ∧ (waiting [queuedCall 7]).findCall 7 = some (queuedCall 7) ∧
      117 ∉ (queuedCall 7).tried ∧ (waiting [queuedCall 7]).freeForOffer 117 = true ∧
      (let s := waiting [queuedCall 7, queuedCall 8];
        (s.groupCfg 3).enabled = true ∧ (s.group 3).queue.head? = some 7 ∧ s.findCall 7 = some (queuedCall 7) ∧
          s.select 3 (queuedCall 7) = [117] ∧ (queuedCall 7).state = .queued ∧ (s.group 3).queue.Nodup ∧
          (queuedCall 7).offered = [] ∧ (queuedCall 7).escalated = false ∧
          ((s.enterState 117 .busy).enterState 118 .busy).select 3 (queuedCall 7) = []) ∧
      fresh.state ≠ .queued ∧ fresh.offered = [] ∧ (plant.addCall fresh).findCall 7 = some fresh := by decide +kernel

theorem witness_NoAnswerOffersTheNextMember :
    let s := atTime (ringing plant (groupRing [117])) 15000
    (Runs s ∧ NoCallWaits s) ∧
      (s.findCall 7 = some (groupRing [117]) ∧ (groupRing [117]).state = .offering ∧
        (groupRing [117]).offerKind = some .group ∧ (groupRing [117]).currentGroup = some 3 ∧
        (groupRing [117]).ringDeadline = some s.now ∧ (s.groupCfg 3).algorithm ≠ .simultaneous ∧
        (∀ x ∈ (groupRing [117]).offered, x.station ∈ (groupRing [117]).tried) ∧
        (s.stopRings 7).select 3 { groupRing [117] with offered := [], ringDeadline := none } ≠ []) :=
  ⟨⟨⟨by decide +kernel, by decide +kernel⟩, ringing_nobody_waits _ (.inl rfl)⟩, by decide +kernel⟩

theorem witness_NoAnswerReturnsTheCallToItsQueue :
    let s := atTime (ringing plant (groupRing [117, 118])) 15000
    let t := atTime (ringing (trio .simultaneous none) (groupRing [117])) 15000
    let c := groupRing [117, 118]
    (Runs s ∧ NoCallWaits s) ∧
      (s.findCall 7 = some c ∧ c.state = .offering ∧ c.offerKind = some .group ∧ c.currentGroup = some 3 ∧
        c.ringDeadline = some s.now ∧ c.waitPassed = false ∧ c.escalated = false ∧ c.queueEntry = none ∧
        (∀ x ∈ c.offered, x.station ∈ c.tried) ∧ 1 ≤ (s.groupCfg 3).queueLimit ∧ (s.stopRings 7).select 3 c = []) ∧
      (t.findCall 7 = some (groupRing [117]) ∧ (t.groupCfg 3).algorithm = .simultaneous) :=
  ⟨⟨⟨by decide +kernel, by decide +kernel⟩, ringing_nobody_waits _ (.inr rfl)⟩, by decide +kernel, by decide +kernel⟩

/-- Call 7 back from an offer at group 3, that queued first at 0, while other calls wait. -/
def returned : Call := { fresh with queueEntry := some 0, waitDeadline := some 60000, arrivalWait := none, tried := [117, 118] }

/-- The plant with group 3's queue limit, maximum wait and escalation delay set, at a running time, with the call and others
that wait. -/
def busyHour (limit maxWait delay : Nat) (c : Call) (others : List Call) (now : Time) : State :=
  atTime (({ plant with calls := c :: others } : State).updGroup 3 (fun x => { x with queue := others.map Call.handle })
    |>.updCfg fun k => { k with
      groups := k.groups.set 3 { maintenance with queueLimit := limit, maxWait := maxWait, escDelay := delay } }) now

/-- R69 step 3, R30: a call past the maximum wait it arrived under, which never stood in the queue, takes the head without a
deadline; below it the deadline lies ahead. -/
theorem test_return_sets_no_past_deadline :
    let c : Call := { returned with arrivalWait := some 60, waitDeadline := none }
    (((busyHour 2 60 0 c [queuedCall 8] 60000).returnToQueue 7 3 []).group 3).queue = [7, 8] ∧
      (((busyHour 2 60 0 c [queuedCall 8] 60000).returnToQueue 7 3 []).findCall 7).map Call.waitDeadline = some none ∧
      (((busyHour 2 60 0 c [queuedCall 8] 59999).returnToQueue 7 3 []).findCall 7).map Call.waitDeadline =
        some (some 60000) := by decide +kernel

/-- The clauses of the return: kept and fresh wait deadlines, the wait below and at the maximum the call arrived under, below and
at the delay, below and at the limit. -/
theorem witness_NoAnswerReturnsTheCallToItsQueue_return :
    (∀ s ∈ [busyHour 1 60 20 returned [] 19999, busyHour 1 60 20 returned [queuedCall 8] 20000,
        busyHour 0 60 0 returned [] 20000], s.findCall 7 = some returned) ∧
      (returned.arrivalWait = none ∧ returned.waitPassed = false ∧ returned.queueEntry.getD 5 = 0) ∧
      ((busyHour 1 60 20 returned [] 19999).queueAge returned < seconds 20 ∧
        seconds 20 ≤ (busyHour 1 60 20 returned [queuedCall 8] 20000).queueAge returned) ∧
      (((busyHour 1 60 20 returned [] 19999).group 3).queue.length < 1 ∧
        ((busyHour 1 60 20 returned [queuedCall 8] 20000).group 3).queue = [] ++ [8]) ∧
      (let c : Call := { returned with arrivalWait := some 60 };
        (busyHour 1 0 0 c [] 60000).findCall 7 = some c ∧ seconds 60 ≤ (busyHour 1 0 0 c [] 60000).queueAge c ∧
          (busyHour 1 0 0 c [] 59999).queueAge c < seconds 60) ∧
      fresh.arrivalWait = some 0 ∧
      ({ returned with waitPassed := true } : Call).waitPassed = true := by decide +kernel

theorem solo_nobody_waits (k : OfferKind) (st : CallState) : NoCallWaits (ringing plant (soloRing k st 117)) := by
  intro g
  have h := plant_nobody_waits g
  exact h

theorem witness_RingsOutsideTheGroupsExpire :
    (∀ k st, NoCallWaits (atTime (ringing plant (soloRing k st 117)) 30000)) ∧
      (∀ k ∈ [OfferKind.attendant, .target], let s := atTime (ringing plant (soloRing k .offering 117)) 30000;
        s.power = .running ∧ s.heldAvail = [] ∧ s.findCall 7 = some (soloRing k .offering 117) ∧
          (soloRing k .offering 117).state ≠ .queued ∧ (soloRing k .offering 117).ringDeadline = some s.now ∧
          (s.stopRings 7).idleAttendant = none ∧ ((attended s 118).stopRings 7).idleAttendant = some 118) ∧
      (let s := atTime (ringing plant (soloRing .recalling .recalling 117)) 30000;
        s.power = .running ∧ s.heldAvail = [] ∧ s.findCall 7 = some (soloRing .recalling .recalling 117) ∧
          (s.stopRings 7).idleAttendant = none ∧
          ((attended s 117).stopRings 7).idleAttendant = (soloRing .recalling .recalling 117).parker ∧
          ((attended s 118).stopRings 7).idleAttendant = some 118 ∧
          (soloRing .recalling .recalling 117).parker ≠ some 118) :=
  ⟨fun k st => solo_nobody_waits k st, by decide +kernel, by decide +kernel⟩

/-! ### Deadlines -/

theorem witness_WaitDeadlineExpires :
    (let c : Call := { groupRing [117] with waitDeadline := some 15000 };
      let s := atTime (ringing plant c) 15000;
      s.power = .running ∧ s.heldAvail = [] ∧ s.findCall 7 = some c ∧ c.waitDeadline = some s.now ∧ c.state = .offering) ∧
      (let c : Call := { queuedCall 7 with waitDeadline := some 15000, hops := 5 };
        let s := atTime (waiting [queuedCall 8, c]) 15000;
        s.power = .running ∧ s.heldAvail = [] ∧ s.findCall 7 = some c ∧ c.waitDeadline = some s.now ∧ c.state = .queued ∧
          c.currentGroup = some 3 ∧ c.escalated = false ∧ c.offered = [] ∧ (s.group 3).queue.head? ≠ some 7 ∧
          (s.groupCfg 3).target = .nowhere ∧ c.hops < 6) := by decide +kernel

/-- Call 7 waiting with its escalation deadline at 10,000. -/
def urgent : Call := { queuedCall 7 with escDeadline := some 10000 }

/-- The plant with a call at group 3, whose overflow target is set. -/
def aimed (t : Target) (c : Call) : State :=
  (plant.addCall c).updCfg fun k => { k with groups := k.groups.set 3 { maintenance with target := t } }

/-- Call 7 waiting, escalated. -/
def urgentNow : Call := { queuedCall 7 with escalated := true }

theorem witness_OverflowFollowsTheTarget :
    (let s := busyHour 8 0 0 { queuedCall 7 with escalated := true } [queuedCall 8] 0;
      s.findCall 7 = some { queuedCall 7 with escalated := true } ∧ s.findCall 8 = some (queuedCall 8) ∧
        (s.group 3).queue.head? = some 8 ∧ (queuedCall 8).escalated = false ∧ (queuedCall 8).state = .queued) ∧
      (let c := { queuedCall 7 with escalated := true };
        let s := waiting [c, { queuedCall 8 with escalated := true }];
        s.findCall 7 = some c ∧ c.escalated = true ∧ 8 ∈ (s.group 3).queue ∧ (8 : Nat) ≠ 7 ∧ (s.group 3).queue.head? = some 7) ∧
      ((ringing plant (groupRing [117])).findCall 7 = some (groupRing [117]) ∧ (groupRing [117]).state ≠ .queued) ∧
      (∀ dest ∈ [Target.nowhere, .attendant, .station 117, .station 119, .group 3, .group 4],
        let s := aimed dest fresh;
        s.findCall 7 = some fresh ∧ fresh.offered = [] ∧ fresh.hops < 6 ∧ (s.groupCfg 3).target = dest ∧
          (s.groupCfg 3).enabled = true ∧ (s.groupCfg 4).enabled = false ∧ s.freeForOffer 117 = true ∧
          (s.enterState 119 .busy).freeForOffer 119 = false ∧
          s.select 3 { fresh.leftGroup 1 with currentGroup := some 3 } ≠ [] ∧ (s.group 3).queue = []) ∧
      ({ fresh with hops := 6 } : Call).hops = 6 := by decide +kernel

/-- The one escalated call of a queue leaves no other behind. -/
theorem witness_OverflowFollowsTheTarget_last :
    let s := waiting [urgentNow]
    s.findCall 7 = some urgentNow ∧ urgentNow.escalated = true ∧
      ¬ ∃ k ∈ (s.group 3).queue, k ≠ 7 ∧ ∃ x, s.findCall k = some x ∧ x.escalated = true := by
  refine ⟨by decide +kernel, rfl, ?_⟩
  rintro ⟨k, hk, hn, -⟩
  rw [show ((waiting [urgentNow]).group 3).queue = [7] by decide +kernel, List.mem_singleton] at hk
  exact hn hk

theorem witness_EscalationAndRepeatDeadlinesExpire :
    (let s := atTime (waiting [{ queuedCall 8 with escalated := true }, urgent]) 10000;
      s.power = .running ∧ s.heldAvail = [] ∧ s.findCall 7 = some urgent ∧ urgent.state = .queued ∧
        urgent.currentGroup = some 3 ∧ urgent.escDeadline = some s.now ∧ 8 ∈ (s.group 3).queue ∧
        s.findCall 8 = some { queuedCall 8 with escalated := true }) ∧
      (let s := atTime (waiting [urgent]) 10000;
        s.power = .running ∧ s.heldAvail = [] ∧ s.findCall 7 = some urgent ∧ (s.group 3).queue = [7] ∧
          urgent.escalated = false ∧ (s.group 3).queue.count 7 = 1 ∧ (s.groupCfg 3).escZones = []) ∧
      (let s := atTime (plant.updGroup 3 fun x => { x with repeatDeadline := some 30000 }) 30000;
        let t := s.updGroup 3 fun x => { x with escPage := some { id := 0, gen := 0 } };
        s.power = .running ∧ s.heldAvail = [] ∧ (s.group 3).repeatDeadline = some s.now ∧ (s.group 3).escPage = none ∧
          (s.groupCfg 3).escZones = [] ∧ (t.group 3).escPage.isSome = true ∧ (t.group 3).repeatDeadline = some t.now) := by
  decide +kernel

/-- The two readings of a queue of one call: no call in it is escalated. -/
theorem witness_EscalationAndRepeatDeadlinesExpire_queue :
    ∀ k ∈ ((atTime (waiting [urgent]) 10000).group 3).queue, ∀ x,
      (atTime (waiting [urgent]) 10000).findCall k = some x → x.escalated = false := by
  intro k hk x hx
  rw [show ((atTime (waiting [urgent]) 10000).group 3).queue = [7] by decide +kernel, List.mem_singleton] at hk
  subst hk
  rw [show (atTime (waiting [urgent]) 10000).findCall 7 = some urgent by decide +kernel] at hx
  cases hx
  rfl

/-- Call 7 parked by 117 in orbit 1 at time 0. -/
def parked : Call :=
  { fresh with
    state := .parked, currentGroup := none, originGroup := none, orbit := some 1, parker := some 117
    parkDeadline := some 120000 }

theorem witness_ParkDeadlineExpires :
    (let s := atTime (plant.addCall parked) 120000;
      s.power = .running ∧ s.heldAvail = [] ∧ s.findCall 7 = some parked ∧ parked.state = .parked ∧
        parked.parkDeadline = some s.now ∧ parked.parker = some 117 ∧ s.isIdle 117 = true ∧
        (s.updStation 117 fun x => { x with state := .busy }).isIdle 117 = false ∧
        (attended s 118).idleAttendant = some 118 ∧ s.idleAttendant = none) ∧
      NoCallWaits (plant.addCall parked) := ⟨by decide +kernel, plant_nobody_waits⟩

/-- The page of station 117 on zone 3, playing input 1, in a state. -/
def voicePage (st : PageState) : Page :=
  { state := st, cls := .voice, requester := some 117, escGroup := none, source := .input 1, preAnnounce := none, mapSet := 0,
    zones := [3], mode := .allOrWait, started := true, waitLimit := some 10, waitDeadline := none, requestTime := 0,
    requestAgeMark := false, zoneOutputs := 0b11, deskList := [], chime := none }

/-- The plant with a page in record 0 that holds output 1. -/
def paged (pg : Page) (o : OutputState) : State :=
  (plant.updPageRec 0 fun r => { r with page := some pg }).updOutput 1 fun x => { x with state := o }

theorem witness_AgeMarksHoldAgesAtTheirCeiling :
    let now : Time := 0x40000000
    let s := atTime (waiting [queuedCall 7]) now
    s.power = .running ∧ s.heldAvail = [] ∧
      ((s.stationCfg 117).inUse = true ∧ (s.station 117).saturated = false ∧ 2 ^ 30 ≤ ageOf s.now (s.station 117).idleSince) ∧
      (s.findCall 7 = some (queuedCall 7) ∧ (queuedCall 7).state ≠ .ending ∧ (queuedCall 7).queueEntry = some 0 ∧
        (queuedCall 7).queueAgeMark = false ∧ 2 ^ 30 ≤ ageOf s.now 0 ∧ (queuedCall 7).arrivalAgeMark = false ∧
        2 ^ 30 ≤ ageOf s.now (queuedCall 7).arrival) ∧
      ((atTime (paged (voicePage .waiting) .free) now).page 0 = some (voicePage .waiting) ∧
        (voicePage .waiting).requestAgeMark = false ∧ 2 ^ 30 ≤ ageOf now (voicePage .waiting).requestTime) := by
  decide +kernel

/-! ### Pickup and park -/

/-- Station 119 BUSY with search list 0: an entry for group 3's queue that is disabled, then PG(5); 117 is in pickup group 5. -/
def pickers (s : State) : State :=
  (s.updCfg fun c =>
    { c with
      stations := (c.stations.set 117 { c.stations[117] with pickupGroup := some 5 }).set 119
        { c.stations[119] with searchList := some 0 }
      lists := c.lists.set 0 [{ key := .hq 3, enabled := false }, { key := .pg 5, enabled := true }] }).updStation 119
    fun x => { x with state := .busy }

theorem witness_PickupWalksTheSearchList :
    (∀ f, Ready (head plant f) f []) ∧ 511 < 512 ∧
      ((plant.station 119).state ≠ .busy ∧
        (plant.updStation 119 fun x => { x with state := .busy }).dispatchOpen = true ∧
        (plant.stationCfg 119).searchList = none) ∧
      (let s := pickers plant;
        s.dispatchOpen = true ∧ s.heldAvail = [] ∧ (s.station 119).state = .busy ∧ (s.stationCfg 119).searchList = some 0 ∧
          ∀ e ∈ s.cfg.lists[(0 : ListId)], s.entryCall 119 e = none) ∧
      (let s := pickers (ringing plant (groupRing [117]));
        s.dispatchOpen = true ∧ s.heldAvail = [] ∧
          s.cfg.lists[(0 : ListId)] = [{ key := .hq 3, enabled := false }] ++ { key := .pg 5, enabled := true } :: [] ∧
          s.entryCall 119 { key := .hq 3, enabled := false } = none ∧
          s.entryCall 119 { key := .pg 5, enabled := true } = some 7 ∧ s.findCall 7 = some (groupRing [117]) ∧
          (groupRing [117]).state ≠ .queued) ∧
      NoCallWaits (ringing plant (groupRing [117])) :=
  ⟨plant_ready, by decide, by decide +kernel, by decide +kernel, by decide +kernel, ringing_nobody_waits _ (.inl rfl)⟩

theorem witness_SearchEntriesYieldTheOldestEligibleCall :
    (let s := waiting [{ queuedCall 8 with noPickup := true }, queuedCall 7];
      (s.group 3).queue = [8] ++ 7 :: [] ∧ s.findCall 7 = some (queuedCall 7) ∧ (queuedCall 7).noPickup = false ∧
        s.findCall 8 = some { queuedCall 8 with noPickup := true } ∧ (s.stationCfg 119).override = false) ∧
      (plant.group 3).queue = [] ∧
      (let s := pickers (ringing plant (groupRing [117]));
        s.entryCall 119 { key := .pg 5, enabled := true } = some 7 ∧ (groupRing [117]).state = .offering ∧
          (∃ x ∈ (groupRing [117]).offered, (s.stationCfg x.station).pickupGroup = some 5) ∧
          s.entryCall 119 { key := .pg 63, enabled := true } = none) := by decide +kernel

/-- A DPICKUP request of a station. -/
def dpickupBody (i : Nat) (d : List Nat) : List Octet := put2 i ++ putDigits d

theorem witness_DirectedPickupTakesTheNamedCall :
    let s := pickers (ringing plant (groupRing [117]))
    let t := pickers (plant.addCall parked)
    (∀ f, Ready (head plant f) f []) ∧ (plant.station 117).state ≠ .busy ∧
      (s.dispatchOpen = true ∧ s.heldAvail = [] ∧ (s.station 119).state = .busy ∧ 8 < (List.replicate 9 1).length ∧
        (∃ x ∈ [1, 10], 9 < x) ∧ s.resolve [7, 0, 0, 2] = none) ∧
      (s.resolve [4, 1, 1, 7] = some (.station 117) ∧ (s.station 117).state = .ringing 7 ∧
        s.findCall 7 = some (groupRing [117]) ∧ (s.stationCfg 117).pickupGroup = some 5 ∧
        (s.stationCfg 119).searchList = some 0 ∧ (⟨.pg 5, true⟩ : SearchEntry) ∈ s.cfg.lists[(0 : ListId)] ∧
        (groupRing [117]).noPickup = false) ∧
      (plant.resolve [4, 1, 1, 7] = some (.station 117) ∧ (plant.stationCfg 119).directAny = false ∧
        (plant.stationCfg 117).pickupGroup = none ∧ (t.station 117).state = .idle) ∧
      (s.resolve [2, 2, 0, 0] = some (.pilot 3) ∧ s.hqCall 119 3 = none ∧ (pickers (waiting [queuedCall 7])).hqCall 119 3 = some 7) ∧
      (s.resolve [7, 0, 0, 1] = some (.orbit 1) ∧ (∀ c ∈ s.calls, c.orbit ≠ some 1) ∧ t.orbitHolder 1 = some parked ∧
        t.findCall 7 = some parked ∧ parked.state ≠ .queued ∧
        (pickers (plant.addCall { parked with noPickup := true })).orbitHolder 1 = some { parked with noPickup := true } ∧
        (s.stationCfg 119).override = false) :=
  ⟨plant_ready, by decide +kernel⟩

theorem witness_ParkTakesARecordAndAnOrbit :
    let s := plant.updStation 117 fun x => { x with state := .busy }
    let t := s.addCall { parked with orbit := some 0 }
    (∀ f, Ready (head plant f) f []) ∧
      FirstFailure [(511 < 512, Result.badValue), (False, .refusedState)] .badValue ∧
      (s.dispatchOpen = true ∧ s.heldAvail = [] ∧ (s.station 117).state = .busy ∧ s.findCall 8 = none ∧ s.calls.length < 96 ∧
        (∀ c ∈ s.calls, c.orbit ≠ some 19) ∧ (∀ c ∈ s.calls, c.orbit ≠ some 0)) ∧
      (t.dispatchOpen = true ∧ (t.findCall 7).isSome = true ∧ ¬ (∀ c ∈ t.calls, c.orbit ≠ some 0) ∧
        (∀ c ∈ t.calls, c.orbit ≠ some 1) ∧ ∀ j : OrbitId, j < 1 → ¬ ∀ c ∈ t.calls, c.orbit ≠ some j) :=
  ⟨plant_ready, .inl ⟨by decide, rfl⟩, by decide +kernel, by decide +kernel⟩

/-! ### Pages and outputs -/

/-- The fields of `pageBody`, with a wait limit. -/
def rawPage (wait : Nat) : RawPage :=
  { requester := 117, cls := 1, source := 1, pre := 255, mapSet := 255, mode := 0, wait := wait, zones := [3] }

/-- The same in range. -/
def fieldsOf (wait : Nat) : PageFields :=
  { requester := 117, cls := .voice, source := .input 1, pre := none, mapSet := none, mode := .allOrWait, wait := some wait,
    zones := [3] }

theorem pagers_pass : NoFailure (pageChecks pagers (fieldsOf 10) 0) := by
  refine ⟨by decide +kernel, by decide +kernel, by decide +kernel, by decide +kernel, ?_, by decide +kernel, nofun, trivial⟩
  rintro ⟨i, p, pg, -, h, -⟩
  rw [(show ∀ p, pagers.page p = none by decide +kernel) p] at h
  cases h

/-- Every zone output taken by an EMERGENCY page of record 5. -/
def seized : State :=
  (((pagers.updPageRec 5 fun r => { r with page := some { voicePage .live with cls := .emergency, source := .chime 0 } }).updOutput 0
    fun x => { x with state := .audible { id := 5, gen := 0 } }).updOutput 1
    fun x => { x with state := .audible { id := 5, gen := 0 } })

theorem seized_pass (w : Nat) (hw : w ∈ [0, 10]) : NoFailure (pageChecks seized (fieldsOf w) 0) := by
  refine ⟨by decide +kernel +revert, by decide +kernel +revert, by decide +kernel +revert, by decide +kernel +revert, ?_,
    by decide +kernel, nofun, trivial⟩
  rintro ⟨i, p, pg, -, h, hs⟩
  by_cases e : p = 5
  · subst e
    rw [show seized.page 5 = some { voicePage .live with cls := .emergency, source := .chime 0 } by decide +kernel] at h
    cases h
    cases hs
  · rw [(show ∀ p, p ≠ 5 → seized.page p = none by decide +kernel) p e] at h
    cases h

theorem witness_PageCheckedInOrder :
    (∀ f, Ready (head pagers f) f []) ∧ (rawPage 10).Spells pageBody ∧
      (rawPage 10).fields = some (fieldsOf 10) ∧ (rawPage 121).fields = none ∧
      FirstFailure (pageChecks plant (fieldsOf 10) 0) .denied ∧
      (seized.dispatchOpen = true ∧ seized.heldAvail = []) ∧ NoFailure (pageChecks seized (fieldsOf 0) 0) ∧
      seized.takeableOf .voice true (outputsOf (seized.zoneOutputs 0 [3])) = [] :=
  ⟨fun f => ready_head f (by decide +kernel) (by decide +kernel), (readPage_iff _ _).1 rfl, rfl, rfl,
    .inr ⟨by decide +kernel, .inl ⟨by decide +kernel, rfl⟩⟩, by decide +kernel, seized_pass 0 (by decide), by decide +kernel⟩

theorem witness_AcceptedPageStartsOrWaits :
    (∀ f, Ready (head pagers f) f []) ∧ (rawPage 10).Spells pageBody ∧
      (rawPage 10).fields = some (fieldsOf 10) ∧ NoFailure (pageChecks pagers (fieldsOf 10) 0) ∧
      (pagers.page 0 = none ∧ (∀ k, k < 0 → (pagers.page k).isSome = true) ∧ (∀ k, pagers.page k = none) ∧
        (∀ o, (pagers.output o).state = .free) ∧
        pagers.takeableOf .voice true (outputsOf (pagers.zoneOutputs 0 [3])) ≠ []) ∧
      NoFailure (pageChecks seized (fieldsOf 10) 0) ∧
      (seized.page 0 = none ∧ (fieldsOf 10).wait ≠ some 0 ∧
        seized.takeableOf .voice true (outputsOf (seized.zoneOutputs 0 [3])) = []) :=
  ⟨fun f => ready_head f (by decide +kernel) (by decide +kernel), (readPage_iff _ _).1 rfl, rfl, pagers_pass, by decide +kernel, seized_pass 10 (by decide),
    by decide +kernel⟩

theorem paged_only (pg : Page) (o : OutputState) : OnlyPage (paged pg o) 0 := by
  intro q
  have h : ∀ q : PageId, q ≠ 0 → (paged pg o).page q = none := by
    intro q hq
    have e : plant.page q = none := by revert q; decide +kernel
    rw [← e]
    exact State.page_updPageRec_ne plant hq fun r => { r with page := some pg }
  constructor
  · intro hs
    by_contra hq
    rw [h q hq] at hs
    cases hs
  · rintro rfl
    rfl

/-- The plant with a LIVE page that holds output 1. -/
def onAir : State := paged (voicePage .live) (.audible ⟨0, 0⟩)

theorem onAir_pages (p : PageId) : onAir.page p = if p = 0 then some (voicePage .live) else none := by
  revert p; decide +kernel

theorem onAir_outputs (o : OutputId) : (onAir.output o).state.holder = if o = 1 then some ⟨0, 0⟩ else none := by
  revert o; decide +kernel

theorem onAir_stations (i : StationId) : (onAir.station i).state = if i = 117 ∨ i = 118 ∨ i = 119 then .idle else .unused :=
  congrArg Station.state (plant_station i)

/-- The same with station 117 listening to the page. -/
def heard (cls : PageClass) : State :=
  (onAir.updPage 0 fun x => { x with cls := cls }).updStation 117 fun x => { x with state := .pageListen ⟨0, 0⟩ }

theorem witness_AdvisoriesAndOrdersCarryTheirFields_present :
    ringing117.findCall 7 = some (groupRing [117]) ∧ (heard .voice).pageAt ⟨0, 0⟩ = some (voicePage .live) ∧ 0 < 1 ∧
      (0 : Nat) < 2 ∧ 1 < 2 := by decide +kernel

theorem witness_ArbiterServesTheOldestHead_free :
    (plant.station 117).state = .idle ∧
      (∀ cls ∈ [PageClass.alert, .emergency], ((heard cls).station 117).state = .pageListen ⟨0, 0⟩ ∧
        (heard cls).pageAt ⟨0, 0⟩ = some { voicePage .live with cls := cls }) ∧
      ((plant.station 511).state = .unused ∧ ((plant.enterState 117 .busy).station 117).state = .busy ∧
        ((plant.enterState 117 .outOfService).station 117).state = .outOfService ∧
        (ringing117.station 117).state = .ringing 7) ∧
      base.heldAvail = [] ∧ ({ plant with heldAvail := [117] } : State).heldAvail ≠ [] ∧
      (({ plant with heldAvail := [] } : State).availAll [117]).heldAvail = [] := by decide +kernel

theorem witness_DirectedPickupTakesTheNamedCall_number :
    plant.cfg.digitWidth = 4 ∧ [4, 1, 1, 7].length = 4 ∧ plant.resolve ([2] ++ [4, 1, 1, 7]) = some (.station 117) ∧
      [1, 1, 7].length ≤ 4 ∧ plant.resolve [1, 1, 7] = some (.station 117) ∧ ([] : List Digit).length ≤ 4 ∧
      plant.resolve [] = none ∧ (plant.addCall parked).orbitHolder 1 = some parked := by decide +kernel

theorem witness_AcceptedPageStartsOrWaits_record :
    onAir.page 0 = some (voicePage .live) ∧ onAir.pageAt ⟨0, 0⟩ = some (voicePage .live) ∧
      (onAir.output 1).state.holder = some ⟨0, 0⟩ ∧ onAir.grabbable .voice 1 = false ∧ onAir.grabbable .alert 1 = true ∧
      plant.zoneOutputs 0 [3] = 0b11 ∧ plant.zoneDesks 0 [3, 3] = [118] := by decide +kernel

theorem onAir_groups (g : GroupId) :
    (onAir.group g).escPage = none ∧ (onAir.group g).repeatDeadline = none ∧ (onAir.group g).repeatDue = false := by
  revert g; decide +kernel

theorem onAir_calls_agree : CallsAgree onAir := by
  have e : onAir.calls = [] := by decide +kernel
  have hq : ∀ g, (onAir.group g).queue = [] := plant_nobody_waits
  have ho : onAir.link.callOrders = [] := by decide +kernel
  have ht : onAir.link.tx = none := by decide +kernel
  have hf : ∀ h, onAir.findCall h = none := by
    intro h
    unfold State.findCall
    rw [e]
    rfl
  refine ⟨by rw [e]; simp, by rw [e]; simp, fun g => by rw [hq g]; simp, by rw [e]; simp, ?_, by rw [ho]; simp,
    fun h => by rw [ho, hf]; simp, (fun x h hx => by rw [ht] at hx; cases hx), plant_members, nofun, nofun⟩
  intro i h
  rw [onAir_stations, hf]
  constructor
  · intro k
    split at k <;> cases k
  · rintro ⟨c, k, -⟩
    cases k

theorem onAir_pages_agree : PagesAgree onAir := by
  refine ⟨?_, ?_, ?_, ?_, ?_, ?_, ?_, by unfold WorkingConfig.RepeatsFit; decide +kernel, nofun, nofun⟩
  · intro o r h
    rw [onAir_outputs] at h
    split at h
    · rename_i k
      cases h
      subst k
      exact ⟨voicePage .live, by decide +kernel, by decide, by decide⟩
    · cases h
  · intro p pg h
    rw [onAir_pages] at h
    split at h
    · rename_i k
      cases h
      subst k
      decide +kernel
    · cases h
  · intro i r h
    rw [onAir_stations] at h
    split at h <;> cases h
  · intro g r h
    rw [(onAir_groups g).1] at h
    cases h
  · intro g h
    rw [(onAir_groups g).2.1, (onAir_groups g).2.2] at h
    simp at h
  · intro p pg g h k
    rw [onAir_pages] at h
    split at h
    · cases h
      cases k
    · cases h
  · intro p pg h _
    rw [onAir_pages] at h
    split at h
    · cases h
      rfl
    · cases h

theorem onAir_stations_agree : StationsAgree onAir := by
  have h : ∀ i, onAir.station i = plant.station i := fun _ => rfl
  have k : ∀ i, (onAir.stationCfg i).inUse = (plant.stationCfg i).inUse := fun _ => rfl
  have e : onAir.link.stationOrders = [] := rfl
  refine ⟨fun i => ?_, by rw [e]; simp, fun i => ?_⟩
  · rw [h, k, plant_station, plant_inUse]
    split <;> simp [*]
  · rw [h, plant_station]
    unfold State.marked
    rw [e]
    split <;> simp [State.present]

theorem witness_PageAndStationRecordsStayInAgreement :
    CallsAgree onAir ∧ PagesAgree onAir ∧ StationsAgree onAir ∧ ∃ t, step onAir = .next t :=
  ⟨onAir_calls_agree, onAir_pages_agree, onAir_stations_agree, _, step_idle (by decide +kernel)⟩

/-- The escalation page of group 3, WAITING or LIVE, in record 0. -/
def alertPage (st : PageState) : Page :=
  { voicePage st with cls := .alert, requester := none, escGroup := some 3, source := .chime 0 }

/-- The plant with group 3's escalation zones and its escalation page in record 0. -/
def alarmed (zs : List ZoneId) (due : Bool) : State :=
  ((paged (alertPage .waiting) .free).updCfg fun c =>
    { c with groups := c.groups.set 3 { maintenance with escZones := zs } }).updGroup 3 fun x =>
      { x with escPage := some { id := 0, gen := 0 }, repeatDue := due }

/-- The valid zones of map set 0 that are not reserved, of a list. -/
def openZones (s : State) (zs : List ZoneId) : List ZoneId :=
  zs.filter fun z => (s.cfg.maps[(0 : MapSetId)])[z].valid && !(s.cfg.maps[(0 : MapSetId)])[z].reserved

theorem witness_EscalationPagesComeAndGo :
    (openZones plant [4] = [] ∧ openZones (alarmed [3, 4] false) ((alarmed [3, 4] false).groupCfg 3).escZones = [3] ∧
        (∀ p, (({ alarmed [3] false with pages := Vector.replicate 16 { gen := 0, page := some (voicePage .live) } } :
          State).page p).isSome = true) ∧
        ((alarmed [3] false).page 1 = none ∧ ∀ q, q < 1 → ((alarmed [3] false).page q).isSome = true) ∧
        (outputsOf ((alarmed [3] false).zoneOutputs 0 [3])).filter ((alarmed [3] false).grabbable .alert) ≠ [] ∧
        (outputsOf (seized.zoneOutputs 0 [3])).filter (seized.grabbable .alert) = []) ∧
      (∀ due, (alarmed [3] due).page 0 = some (alertPage .waiting)) ∧ (∀ st, (alertPage st).escGroup = some 3) ∧
      (∀ due ∈ [true, false], (alarmed [3] due).refOf 0 = ⟨0, 0⟩ ∧ ((alarmed [3] due).group 3).escPage = some ⟨0, 0⟩ ∧
        ((alarmed [3] due).group 3).repeatDue = due ∧ (alarmed [3] due).pageAt ⟨0, 0⟩ = some (alertPage .waiting)) ∧
      EndReason.waitExpired ≠ .escalationCleared ∧ (plant.group 3).escPage = none :=
  ⟨by decide +kernel, by decide +kernel, fun _ => rfl, by decide +kernel, by decide, by decide +kernel⟩

/-- A LIVE BACKGROUND page that plays a chime. -/
def lowPage (wait : Nat) : Page :=
  { voicePage .live with cls := .background, source := .chime 0, waitLimit := some wait, deskList := [117, 119] }

/-- The BACKGROUND page of record 5 that holds output 1, with 117 and 119 listening to it, and a page of record 0 that wants outputs
0 and 1 and names 118 and 119 as its desk stations. -/
def contested (st : PageState) (wait : Nat) (desks : List StationId) : State :=
  ((((paged { voicePage st with started := decide (st ≠ .waiting), deskList := desks } (.audible ⟨5, 0⟩)).updPageRec 5 fun r =>
    { r with page := some (lowPage wait) }).updStation 117
      fun x => { x with state := .pageListen ⟨5, 0⟩ }).updStation 119 fun x => { x with state := .pageListen ⟨5, 0⟩ })

theorem contested_pages (st : PageState) (wait : Nat) (desks : List StationId) (q : PageId) :
    (contested st wait desks).page q =
      if q = 0 then some { voicePage st with started := decide (st ≠ .waiting), deskList := desks }
      else if q = 5 then some (lowPage wait)
      else none := by
  revert q
  cases st <;> exact (by intro q; fin_cases q <;> rfl)

theorem witness_TakesFollowTheClasses :
    (∀ st wait desks q x, (contested st wait desks).page q = some x → x.waitLimit = some 0 → x.escGroup = none) ∧
      (∀ st ∈ [PageState.waiting, .live], ∀ desks ∈ [[118, 119], [118]], let s := contested st 0 desks;
        (s.output 0).state = .free ∧ (s.output 1).state.holder = some ⟨5, 0⟩ ∧
          s.pageAt ⟨5, 0⟩ = some (lowPage 0) ∧
          PageClass.background.num < (voicePage st).cls.num ∧
          (s.losersOf [0, 1]).filter (fun q => (s.held q.id).all fun o => decide (o ∈ ([0, 1] : List OutputId))) = [⟨5, 0⟩] ∧
          s.isIdle 118 = true ∧ (s.station 119).state = .pageListen ⟨5, 0⟩ ∧ s.joined 5 = [117, 119]) := by
  refine ⟨?_, by decide +kernel⟩
  intro st wait desks q x h _
  rw [contested_pages] at h
  repeat' split at h
  all_goals cases h
  all_goals rfl

theorem witness_ReviewWalksTheWaitOrder :
    (∀ q ∈ plant.waitOrder, plant.takeable q = []) ∧
      (∀ s : State, ∃ isOpen : OutputId → Bool, ∀ o, isOpen o = true ↔ (s.output o).state = .free ∨
        ∀ q, (s.output o).state.holder = some q → ∀ x, s.pageAt q = some x → x.cls.num < 1) ∧
      (let s := contested .waiting 0 [];
        s.waitOrder = [] ++ 0 :: [5] ∧ s.takeable 0 = [0, 1] ∧
          ∃ o ∈ outputsOf (voicePage .waiting).zoneOutputs, (s.output o).state.holder ≠ some (s.refOf 0)) ∧
      (let s := contested .live 0 [];
        ¬ ((voicePage .live).state = .waiting) ∧ s.takeable 0 = [0, 1]) := by
  classical
  exact ⟨by decide +kernel, fun s => ⟨fun o => decide _, fun o => decide_eq_true_iff⟩, by decide +kernel, by decide +kernel⟩

/-- A chime with `n` periods done, the next ending at 500. -/
def chimeDone (n : Nat) : Chime := { pattern := 0, periodStart := 0, completed := n, length := 500, sounding := 200 }

theorem witness_PageEndsReleaseThePage :
    (∀ f, Ready (head plant f) f []) ∧ 15 < 16 ∧ plant.pageAt { id := 15, gen := 0 } = none ∧
      (onAir.dispatchOpen = true ∧ onAir.pageAt { id := 0, gen := 0 } = some (voicePage .live) ∧ (voicePage .live).escGroup = none) ∧
      (let pg : Page := { voicePage .waiting with waitDeadline := some 10000 };
        let s := atTime (paged pg .free) 10000;
        s.power = .running ∧ s.heldAvail = [] ∧ s.page 0 = some pg ∧ pg.state = .waiting ∧ pg.waitDeadline = some s.now ∧
          s.held 0 = [] ∧ s.joined 0 = [] ∧ pg.escGroup = none) ∧
      (∀ n ∈ [1, 2], let pg : Page := { voicePage .starting with chime := some (chimeDone n) };
        let s := atTime (paged pg (.audible ⟨0, 0⟩)) 500;
        s.power = .running ∧ s.heldAvail = [] ∧ s.page 0 = some pg ∧ pg.source = .input 1 ∧
          s.now = later (chimeDone n).periodStart (chimeDone n).length) ∧
      (1 + 1 < plant.cfg.patterns[(0 : PatternId)].repeats ∧ plant.cfg.patterns[(0 : PatternId)].repeats ≤ 2 + 1) ∧
      (let pg : Page := { voicePage .live with source := .chime 0, chime := some (chimeDone 2) };
        let s := atTime (paged pg (.audible ⟨0, 0⟩)) 500;
        s.power = .running ∧ s.page 0 = some pg ∧ pg.source = .chime 0 ∧ pg.escGroup = none) ∧
      (∀ pg o, OnlyPage (paged pg o) 0) ∧ ∀ pg o, NoCallWaits (paged pg o) :=
  ⟨plant_ready, by decide, by decide +kernel, by decide +kernel, by decide +kernel, by decide +kernel, by decide +kernel,
    by decide +kernel, paged_only, fun _ _ => plant_nobody_waits⟩

theorem witness_GuardExpiryOpensThePage :
    (∀ pg, (atTime (paged pg (.guard ⟨0, 0⟩ 30)) 30).pageAt ⟨0, 0⟩ = some pg) ∧
      (let s := atTime (paged (voicePage .starting) (.guard ⟨0, 0⟩ 30)) 30;
        s.power = .running ∧ s.heldAvail = [] ∧ (s.output 1).state = .guard ⟨0, 0⟩ s.now) ∧
      ((voicePage .live).state ≠ .starting ∧ (voicePage .starting).state = .starting ∧ (voicePage .starting).chime = none ∧
        (voicePage .starting).source = .input 1 ∧ (voicePage .starting).preAnnounce = none ∧
        ({ voicePage .starting with preAnnounce := some 7 } : Page).preAnnounce = some 7 ∧
        ({ voicePage .starting with source := .chime 7 } : Page).source = .chime 7) :=
  ⟨fun _ => rfl, by decide +kernel, by decide⟩

theorem witness_SamplesAndBlocksFollowTheOutputState :
    ((513 : Int).natAbs = ((513 : Sample).toInt * 64).natAbs / 64 ∧ 0 ≤ (513 : Sample).toInt) ∧
      ((32768 : Int).natAbs = (((26214 : Sample).toInt * 80).natAbs + 32) / 64 ∧ 32767 < (32768 : Int)) ∧
      ((-32769 : Int).natAbs = (((BitVec.ofInt 16 (-26215)).toInt * 80).natAbs + 32) / 64 ∧ (-32769 : Int) < -32768) ∧
      (8192 : Sample).toInt = 8192 ∧ (0xE000 : Sample).toInt = -8192 ∧
      ((10 : Nat) + (-16 : Int) < 0 ∧ ((255 : Nat) : Int) < (250 : Nat) + (16 : Int) ∧ 0 ≤ (64 : Nat) + (0 : Int)) := by decide

/-- The clauses on blocks: an event still to come, none, and the outputs' states. -/
theorem witness_SamplesAndBlocksFollowTheOutputState_block :
    (atTime plant 1000).now = later ((atTime plant 1000).output 0).windowStart ((atTime plant 1000).outputCfg 0).window ∧
      ((atTime (paged (voicePage .starting) (.guard ⟨0, 0⟩ 30)) 30).output 1).state = .guard ⟨0, 0⟩ 30 ∧
      (500 = later (chimeDone 0).periodStart (chimeDone 0).length) ∧ plant.timedEvent = none ∧ onAir.timedEvent = none ∧
      (plant.output 15).state = .free ∧ Runs plant ∧ (onAir.output 1).state = .audible ⟨0, 0⟩ ∧
      (∀ st, (paged (voicePage st) (.audible ⟨0, 0⟩)).pageAt ⟨0, 0⟩ = some (voicePage st)) ∧
      ((chimeDone 0).sounding ≤ ageOf 200 (chimeDone 0).periodStart ∧
        ageOf 199 (chimeDone 0).periodStart < (chimeDone 0).sounding) ∧
      ((voicePage .live).chime = none ∧ (voicePage .live).state = .live ∧ (voicePage .live).source = .input 1) :=
  ⟨by decide +kernel, by decide +kernel, by decide +kernel, by decide +kernel, by decide +kernel, by decide +kernel, plant_runs,
    by decide +kernel, fun _ => rfl, by decide +kernel, by decide⟩

/-- Output 9 with what its window, ending at 1,000, has measured. -/
def measured (count sum clips gt : Nat) (atLimit hold : Bool) : State :=
  atTime ((plant.updOutput 9 fun x => { x with count := count, sum := sum, clips := clips, gt := gt, atLimit := atLimit }).updCfg
    fun c => { c with outputs := c.outputs.set 9 { OutputCfg.defaults with hold := hold } }) 1000

theorem witness_WindowEndDecidesTheGain :
    (∀ x ∈ [measured 0 0 0 64 false true, measured 0 0 41 64 false false, measured 15 0 40 64 false false,
        measured 16 28816 0 159 false false, measured 16 28816 0 160 true false, measured 16 28816 0 160 false false,
        measured 16 19184 0 64 false false, measured 16 19200 0 64 false false],
      x.power = .running ∧ x.heldAvail = [] ∧ x.now = later (x.output 9).windowStart (x.outputCfg 9).window) ∧
      (1800 < 28816 / 16 ∧ 19184 / 16 < 1200 ∧ 1200 ≤ 19200 / 16 ∧ 19200 / 16 ≤ 1800 ∧ 40 < 41) := by decide +kernel

/-! ### Queries, edits, saves -/

theorem witness_QueriesReportAndChangeNothing :
    (∀ f, Ready (head plant f) f []) ∧ (511 < 512 ∧ 512 < 65536 ∧ 31 < 32 ∧ 15 < 16) ∧ plant.findCall 65535 = none ∧
      (waiting [queuedCall 7]).findCall 7 = some (queuedCall 7) ∧
      Ready (head (waiting [queuedCall 7]) (req 0x22 (put2 7))) (req 0x22 (put2 7)) [] ∧
      (∃ ref : Option PageRef → List (Nat × Nat), ref none = [(1, 255), (1, 0)] ∧
        ∀ r, ref (some r) = [(1, r.id.val), (1, r.gen.toNat)]) ∧
      (plant.page 15 = none ∧ onAir.page 0 = some (voicePage .live) ∧ onAir.waitOrder[1 - 1]? = some 0 ∧ 0 ∈ onAir.waitOrder) ∧
      (∀ r d, (onAir.output 0).state ≠ .guard r d) ∧ (∀ r pg, (onAir.output 0).state = .audible r → onAir.pageAt r ≠ some pg) ∧
      ([9, 9, 9, 9].length = plant.cfg.digitWidth ∧ (∀ x ∈ [9, 9, 9, 9], x ≤ 9)) ∧
      ([1, 2, 3].length ≠ plant.cfg.digitWidth ∧ ∃ x ∈ [1, 2, 3, 10], 9 < x) := by
  have h0 : (onAir.output 0).state = .free := by decide +kernel
  refine ⟨plant_ready, by decide, by decide +kernel, by decide +kernel, ready_head _ (by decide +kernel) (by decide +kernel),
    ⟨fun | none => [(1, 255), (1, 0)] | some r => [(1, r.id.val), (1, r.gen.toNat)], rfl, fun _ => rfl⟩, by decide +kernel, ?_, ?_,
    by decide +kernel, by decide +kernel⟩
  · intro r d h
    rw [h0] at h
    cases h
  · intro r pg h
    rw [h0] at h
    cases h

/-- A listing of the plant's entries from [2, 2, 0, 0] on, in number order. -/
theorem witness_QueriesReportAndChangeNothing_dir :
    let number (l : List Nat) := l.foldl (fun n x => n * 10 + x) 0
    let es : List DirEntry := [{ number := [2, 2, 0, 0], target := .pilot 3 }, { number := [4, 1, 1, 7], target := .station 117 },
      { number := [7, 0, 0, 1], target := .orbit 1 }]
    es.Perm (plant.cfg.directory.filter fun e => decide (number [2, 2, 0, 0] ≤ number e.number)) ∧
      es.Pairwise (fun a b => number a.number < number b.number) := by decide +kernel

theorem witness_DigitWidthIsSetOnAnEmptyDirectory :
    (∀ f, Ready (head base f) f []) ∧ base.save = none ∧ (2 < 3 ∧ 6 < 7) ∧ plant.cfg.directory ≠ [] ∧ plant.save = none ∧
      (∀ f, Ready (head plant f) f []) ∧ base.cfg.directory = [] :=
  ⟨base_ready, rfl, by decide, by decide +kernel, by decide +kernel, plant_ready, rfl⟩

theorem witness_DirectoryEditsCheckedInOrder :
    (∀ f, Ready (head plant f) f []) ∧ (∀ f, Ready (head saving f) f []) ∧ saving.save.isSome = true ∧ plant.save = none ∧
      1 < 2 ∧ ([1, 2, 3].length ≠ plant.cfg.digitWidth ∧ [4, 1, 1, 8].length = plant.cfg.digitWidth) ∧
      (∀ t : DirTarget, t.codes ≠ (3, 0)) ∧ DirTarget.codes (.orbit 19) = (2, 19) ∧
      ((∃ e ∈ plant.cfg.directory, e.number = [4, 1, 1, 7]) ∧ (∀ e ∈ plant.cfg.directory, e.number ≠ [4, 1, 1, 8]) ∧
        (∃ e ∈ plant.cfg.directory, e.target = .pilot 3) ∧ (∀ e ∈ plant.cfg.directory, e.target ≠ .orbit 19) ∧
        plant.cfg.directory.length < 1024) ∧
      1024 ≤ (plant.updCfg fun c =>
        { c with directory := List.replicate 1024 { number := [1, 1, 1, 1], target := .station 0 } }).cfg.directory.length := by
  refine ⟨plant_ready, fun f => ready_head f rfl rfl, rfl, by decide +kernel, by decide, by decide +kernel, ?_, rfl,
    by decide +kernel, by decide +kernel⟩
  intro t h
  cases t <;> cases h

/-- SET_STATION of stations 510 to 511: in use. -/
def stationBody : List Octet := put2 510 ++ put2 511 ++ put1 1 ++ put1 1

/-- Its octets read. -/
def rawStation : RawStation :=
  { first := 510, last := 511, mask := 1, inUse := some 1, pickupGroup := none, searchList := none, override := none,
    directAny := none, classLimit := none, mapSet := none }

theorem witness_StationEditsActOnTheirRange :
    rawStation.Spells stationBody ∧ plant.save = none ∧ (∀ f, Ready (head plant f) f []) ∧
      (∃ f, rawStation.fields = some f ∧ f.inUse = some true) ∧ rawStation.first ≤ rawStation.last ∧ rawStation.last ≤ 511 ∧
      ({ rawStation with mask := 128 } : RawStation).fields = none ∧ (511 < 510 + 2) ∧
      (∃ f, ({ rawStation with inUse := none, mask := 0 } : RawStation).fields = some f ∧ f.inUse = none) ∧
      NoCallWaits plant ∧ (∀ i ∈ [(510 : StationId), 511], (plant.station i).state = .unused) ∧
      ((plant.station 117).state = .idle ∧ (plant.station 511).state ≠ .ringing 7) :=
  ⟨(readSetStation_iff _ _).1 rfl, by decide +kernel, plant_ready, ⟨_, rfl, rfl⟩, by decide, by decide, rfl, by decide, ⟨_, rfl, rfl⟩,
    plant_nobody_waits,
    by decide +kernel, by decide +kernel⟩

/-- SET_GROUP of group 31: enabled. -/
def groupBody : List Octet := putNumber 4 (2 ^ 31) ++ put2 1 ++ put1 1

/-- Its octets read. -/
def rawGroup : RawGroup :=
  { groups := 2 ^ 31, mask := 1, enabled := some 1, algorithm := none, noAnswer := none, queueLimit := none, maxWait := none,
    target := none, escDelay := none, escZones := none, chime := none, repeatInterval := none }

theorem witness_GroupEditsWriteTheirGroups :
    rawGroup.Spells groupBody ∧ plant.save = none ∧ (∀ f, Ready (head plant f) f []) ∧
      rawGroup.groups ≠ 0 ∧
      (∃ f, rawGroup.fields = some f ∧ f.enabled ≠ some false ∧ f.queueLimit = none ∧ f.escDelay = none) ∧
      ({ rawGroup with enabled := some 2 } : RawGroup).fields = none ∧
      (1024 ≤ ({ rawGroup with mask := 1024 } : RawGroup).mask ∧ 1 < 2 ∧ 3 < 4 ∧ 60 < 61 ∧ 24 < 25 ∧ 900 < 901 ∧ 600 < 601) :=
  ⟨(readSetGroup_iff _ _).1 (by decide +kernel), by decide +kernel, plant_ready, by decide, ⟨_, rfl, by decide, rfl, rfl⟩, rfl,
    by decide⟩

/-- SET_GROUP of group 3: disabled, a limit of 0, or a delay. -/
def liveBodies : List (List Octet) :=
  [putNumber 4 8 ++ put2 1 ++ put1 0, putNumber 4 8 ++ put2 8 ++ put1 0, putNumber 4 8 ++ put2 64 ++ put2 0,
    putNumber 4 8 ++ put2 64 ++ put2 10]

/-- Their octets read. -/
def liveGroups : List RawGroup :=
  [{ rawGroup with groups := 8, enabled := some 0 }, { rawGroup with groups := 8, mask := 8, enabled := none, queueLimit := some 0 },
    { rawGroup with groups := 8, mask := 64, enabled := none, escDelay := some 0 },
    { rawGroup with groups := 8, mask := 64, enabled := none, escDelay := some 10 }]

theorem agrees_head {s : State} (f : Frame) (h : CallsAgree s) : CallsAgree (head s f) := h

theorem waiting_agrees (c : Call) (hc : c = queuedCall 7 ∨ c = urgentNow) (t : Time) : CallsAgree (atTime (waiting [c]) t) := by
  have hst : c.handle = 7 ∧ c.state = .queued ∧ c.currentGroup = some 3 ∧ c.offered = [] := by
    rcases hc with rfl | rfl <;> exact ⟨rfl, rfl, rfl, rfl⟩
  have e : (atTime (waiting [c]) t).calls = [c] := rfl
  have hq : ∀ g, ((atTime (waiting [c]) t).group g).queue = if g = 3 then [7] else [] := by
    show ∀ g, ((waiting [c]).group g).queue = if g = 3 then [7] else []
    rcases hc with rfl | rfl <;> decide +kernel
  have hs : ∀ i : StationId, ((atTime (waiting [c]) t).station i).state =
      if i = 117 ∨ i = 118 ∨ i = 119 then .idle else .unused := fun i => congrArg Station.state (plant_station i)
  have hl : ∀ g, ((atTime (waiting [c]) t).group g).queue.length ≤ ((atTime (waiting [c]) t).groupCfg g).queueLimit := by
    show ∀ g, ((waiting [c]).group g).queue.length ≤ ((waiting [c]).groupCfg g).queueLimit
    rcases hc with rfl | rfl <;> decide +kernel
  have ho : (atTime (waiting [c]) t).link.callOrders = [] := rfl
  refine ⟨by rw [e]; simp, ?_, ?_, ?_, ?_, by rw [ho]; simp, ?_, nofun, plant_members, nofun, nofun⟩
  · intro d hd
    rw [e, List.mem_singleton] at hd
    subst hd
    have h3 : d.handle ∈ ((atTime (waiting [d]) t).group 3).queue := by rw [hq, if_pos rfl, hst.1]; simp
    have h0 : ((atTime (waiting [d]) t).groupCfg 3).escDelay = 0 := rfl
    have h4 : d.escDeadline = none := by rcases hc with rfl | rfl <;> rfl
    rcases hc with rfl | rfl <;>
      exact ⟨⟨3, rfl, h3, by rw [h4, h0]; simp⟩, rfl, rfl, rfl, rfl, rfl, rfl, rfl, rfl⟩
  · intro g
    refine ⟨by rw [hq]; split <;> simp, hl g, fun h hh => ?_⟩
    rw [hq] at hh
    split at hh
    · rename_i k
      subst k
      rw [List.mem_singleton] at hh
      subst hh
      exact ⟨c, (find_one e 7 c).mpr ⟨hst.1.symm, rfl⟩, hst.2.1, hst.2.2.1⟩
    · cases hh
  · intro d hd f hf
    rw [e, List.mem_singleton] at hd hf
    subst hd hf
    intros
    rfl
  · intro i h
    rw [hs]
    constructor
    · intro k
      split at k <;> cases k
    · rintro ⟨d, k, hk⟩
      obtain ⟨-, rfl⟩ := (find_one e h d).mp k
      rw [hst.2.2.2] at hk
      cases hk
  · intro h
    rw [ho]
    constructor
    · simp
    · rintro ⟨d, k, hk⟩
      obtain ⟨-, rfl⟩ := (find_one e h d).mp k
      rw [hst.2.1] at hk
      cases hk

theorem witness_GroupEditsActAtOnce :
    (∀ x ∈ liveGroups.zip liveBodies, x.1.Spells x.2) ∧
      liveGroups.map (fun q => (q.groups, (q.fields.map fun f => (f.enabled, f.queueLimit, f.escDelay)))) =
        [(2 ^ (3 : GroupId).val, some (some false, none, none)), (8, some (none, some 0, none)), (8, some (none, none, some 0)),
          (8, some (none, none, some 10))] ∧
      (CallsAgree ringing117 ∧ (ringing117.groupCfg 3).enabled = true ∧ (ringing117.groupCfg 4).enabled = false ∧
        (∃ c, ringing117.findCall 7 = some c ∧ c.state = .offering ∧ c.currentGroup = some 3)) ∧
      (∀ t, CallsAgree (atTime (waiting [queuedCall 7]) t) ∧ CallsAgree (atTime (waiting [urgentNow]) t)) ∧
      (((waiting [urgentNow]).group 3).queue = [] ++ [7] ∧ ([] : List Handle).length = min 0 ((waiting [urgentNow]).group 3).queue.length) ∧
      ((waiting [urgentNow]).inEscalation 3 = true ∧ (waiting [queuedCall 7]).inEscalation 3 = false) ∧
      (atTime (waiting [queuedCall 7]) 9999).queueAge (queuedCall 7) < seconds 10 ∧
      seconds 10 ≤ (atTime (waiting [queuedCall 7]) 10000).queueAge (queuedCall 7) :=
  ⟨fun x hx => (readSetGroup_iff x.2 x.1).1 ((by decide +kernel : ∀ x ∈ liveGroups.zip liveBodies,
      StateT.run readSetGroup x.2 = some (x.1, [])) x hx), by decide +kernel, ⟨ringing117_agrees, by decide +kernel, by decide +kernel, groupRing [117], by decide +kernel⟩,
    fun t => ⟨waiting_agrees _ (.inl rfl) t, waiting_agrees _ (.inr rfl) t⟩, by decide +kernel, by decide +kernel, by decide +kernel,
    by decide +kernel⟩

/-- A group's member list. -/
def listed (ms : List Member) : State :=
  plant.updCfg fun c => { c with groups := c.groups.set 3 { maintenance with members := ms } }

theorem witness_MemberEditsCheckedInOrder :
    (∀ f, Ready (head plant f) f []) ∧ plant.save = none ∧ (31 < 32 ∧ 511 < 512 ∧ 3 < 4) ∧
      ((plant.groupCfg 3).members.length < 3 ∧ 1 < 2 ∧ 2 ≤ (plant.groupCfg 3).members.length) ∧
      (118 ∈ (plant.groupCfg 3).members.map Member.station ∧ 119 ∉ (plant.groupCfg 3).members.map Member.station) ∧
      (32 ≤ ((listed (List.replicate 32 { station := 117, loggedIn := true })).groupCfg 3).members.length ∧
        119 ∉ ((listed (List.replicate 32 { station := 117, loggedIn := true })).groupCfg 3).members.map Member.station) ∧
      ((plant.groupCfg 3).members.length < 32 ∧
        (List.finRange 32).countP (fun k => decide ((119 : StationId) ∈ (plant.groupCfg k).members.map Member.station)) < 4 ∧
        ((List.finRange 32).map fun k => (plant.groupCfg k).members.length).sum < 512) ∧
      NoCallWaits plant ∧ (∃ m ∈ (plant.groupCfg 3).members, m.station = 118 ∧ m.loggedIn = true) ∧
      (∀ m ∈ ((listed [{ station := 118, loggedIn := false }]).groupCfg 3).members, m.station = 118 → m.loggedIn = false) ∧
      (plant.station 118).state = .idle ∧
      (let ms := (plant.groupCfg 3).members;
        ms = [] ++ { station := 117, loggedIn := true } :: [{ station := 118, loggedIn := true }] ∧
          ms = [{ station := 117, loggedIn := true }] ++ { station := 118, loggedIn := true } :: [] ∧
          (117 : StationId) ∉ ([{ station := 118, loggedIn := true }] : List Member).map Member.station) ∧
      (∀ sts ∈ [[117], [117, 118]], let s := ringing plant (groupRing sts);
        s.save = none ∧ s.dispatchOpen = true ∧ s.heldAvail = [] ∧ (s.station 117).state = .ringing 7 ∧
          s.findCall 7 = some (groupRing sts) ∧ (groupRing sts).currentGroup = some 3 ∧
          (groupRing sts).offerKind = some .group) ∧
      (∃ x ∈ (groupRing [117, 118]).offered, x.station ≠ 117) ∧ (∀ x ∈ (groupRing [117]).offered, x.station = 117) :=
  ⟨plant_ready, by decide +kernel, by decide, by decide +kernel, by decide +kernel, by decide +kernel, by decide +kernel,
    plant_nobody_waits, by decide +kernel, by decide +kernel, by decide +kernel, by decide +kernel, by decide +kernel,
    by decide +kernel, by decide +kernel⟩

theorem witness_PlainRecordEdits :
    (∀ f, Ready (head plant f) f []) ∧ plant.save = none ∧ (511 < 512 ∧ 63 < 64 ∧ 15 < 16 ∧ 7 < 8 ∧ 1000 < 1010 ∧ 8 < 9) ∧
      ((none : Option PickupGroup).map Fin.val).getD 255 = 255 ∧ ((some 63 : Option PickupGroup).map Fin.val).getD 255 = 63 ∧
      (∀ e ∈ [(0, 64, 0), (1, 32, 0), (2, 0, 0), (0, 0, 2)],
        1 < e.1 ∨ (e.1 = 0 ∧ 63 < e.2.1) ∨ (e.1 = 1 ∧ 31 < e.2.1) ∨ 1 < e.2.2) ∧
      ¬ (([⟨.pg 5, true⟩, ⟨.pg 5, false⟩] : List SearchEntry).map SearchEntry.key).Nodup ∧
      (([⟨.pg 5, true⟩, ⟨.hq 5, false⟩] : List SearchEntry).map SearchEntry.key).Nodup ∧
      (3 < 4 ∧ 31 < 32 ∧ (∃ d ∈ [511, 512], 511 < d)) ∧ (¬ ([4, 4] : List StationId).Nodup ∧ ([4, 5] : List StationId).Nodup) ∧
      (∃ p pg, onAir.page p = some pg ∧ pg.cls ≠ .emergency ∧ pg.mapSet = 0 ∧ 3 ∈ pg.zones) ∧
      ¬ ∃ p pg, onAir.page p = some pg ∧ pg.cls ≠ .emergency ∧ pg.mapSet = 0 ∧ 4 ∈ pg.zones := by
  refine ⟨plant_ready, by decide +kernel, by decide, rfl, rfl, by decide, by decide, by decide, by decide, by decide,
    ⟨0, voicePage .live, by decide +kernel⟩, ?_⟩
  rintro ⟨p, pg, h, -, -, hz⟩
  rw [onAir_pages] at h
  split at h
  · cases h
    revert hz
    decide
  · cases h

/-- SET_OUTPUT of output 15: GT 200. -/
def outputBody : List Octet := put2 0x8000 ++ put2 1 ++ put1 200

/-- Its octets read. -/
def rawOutput : RawOutput :=
  { outputs := 0x8000, mask := 1, gt := some 200, gmin := none, gmax := none, gceil := none, stepSize := none, ut := none,
    lt := none, ct := none, window := none, settle := none, hold := none }

/-- The same in range. -/
def outputFields (lt : Option Nat) : OutputFields :=
  { gt := some 200, gmin := none, gmax := none, gceil := none, stepSize := none, ut := none, lt := lt, ct := none,
    window := none, settle := none, hold := none }

theorem witness_OutputEditsClampAndRestart :
    rawOutput.Spells outputBody ∧ plant.save = none ∧ (∀ f, Ready (head plant f) f []) ∧
      rawOutput.outputs ≠ 0 ∧ rawOutput.fields = some (outputFields none) ∧
      ({ rawOutput with gt := some 256 } : RawOutput).fields = none ∧
      ({ rawOutput with lt := some 1800 } : RawOutput).fields = some (outputFields (some 1800)) ∧
      (plant.outputCfg 15).ut ≤ ((outputFields (some 1800)).write (plant.outputCfg 15)).lt ∧
      (∀ o : OutputId, ((outputFields none).write (plant.outputCfg o)).lt < ((outputFields none).write (plant.outputCfg o)).ut ∧
        ((outputFields none).write (plant.outputCfg o)).gmin ≤ ((outputFields none).write (plant.outputCfg o)).gmax) :=
  ⟨(readSetOutput_iff _ _).1 (by decide +kernel), by decide +kernel, plant_ready, by decide, rfl, rfl, rfl, by decide +kernel,
    by decide +kernel⟩

/-- The octets of a SET_SYSTEM with D alone, and with no field. -/
def rawSystem (width : Option Nat) : RawSystem :=
  { mask := if width.isSome then 1 else 0, width := width, attendant := none, park := none, guard := none, period := none,
    emergency := none, alert := none, voice := none, background := none }

theorem witness_SystemEditsAndEditsDuringASave :
    (rawSystem (some 6)).Spells (put2 1 ++ put1 6) ∧ (∃ f, (rawSystem (some 6)).fields = some f ∧
      f.width.isSome = true) ∧ (rawSystem (some 7)).fields = none ∧ plant.save = none ∧ plant.cfg.directory ≠ [] ∧
      base.cfg.directory = [] ∧ base.save = none ∧ (∀ f, Ready (head plant f) f []) ∧ (∀ f, Ready (head base f) f []) ∧
      (editKind 0x30 ∧ editKind 0x39) ∧ saving.save.isSome = true ∧ (∀ f, Ready (head saving f) f []) ∧
      (WholeBody (req 0x39 [7, 0, 200, 3]) ∧ WholeBody (req 0x30 (put2 1 ++ put1 6))) ∧
      ¬ WholeBody (req 0x39 [7, 0, 200]) ∧ ¬ WholeBody (req 0x30 (put2 1)) := by
  have hd : (rawSystem (some 6)).Spells (put2 1 ++ put1 6) := (readSystem_iff _ _).1 (by decide +kernel)
  refine ⟨hd, ⟨_, rfl, rfl⟩, rfl, by decide +kernel, by decide +kernel, rfl, rfl, plant_ready, base_ready,
    ⟨by unfold editKind; decide, by unfold editKind; decide⟩, rfl, fun f => ready_head f rfl rfl,
    ⟨show fixedLength 0x39 = some 4 from rfl, ⟨rawSystem (some 6), hd⟩⟩,
    show ¬ fixedLength 0x39 = some 3 from by decide, ?_⟩
  rintro ⟨v, h⟩
  have e : readSystem.run (put2 1) = none := by decide +kernel
  have h' : readSystem.run (put2 1) = some (v, []) := (readSystem_iff _ _).2 h
  rw [e] at h'
  cases h'

theorem witness_SavesBeginAndEndAndResetIsAwaited :
    (∀ f, Ready (head base f) f []) ∧ base.save = none ∧ base.link.saveDone = none ∧ saving.save.isSome = true ∧
      (∀ f, Ready (head saving f) f []) ∧ Runs saving ∧ saving.save = some { config := base.cfg, deadline := 1500 } ∧
      (atTime saving 1500).now = 1500 ∧ Runs base :=
  ⟨base_ready, rfl, rfl, rfl, fun f => ready_head f rfl rfl, ⟨rfl, rfl⟩, rfl, rfl, base_runs⟩

end Sys2Proof.Tests
end

