-- ==== Sys2Proof/Proofs/Stations.lean ====
section
/-! SUPPORT. A station's change of state, its mark in the station order set, and the agreement of the stations. -/

namespace Sys2Proof.Machine
namespace State

/-! ## What a presentation reads (R16) -/

/-- A presentation reads the call of a ring, the page of a desk, and nothing else. -/
theorem present_congr {s t : State} {st : StationState}
    (hc : ∀ h, st = .ringing h → (t.findCall h).map (fun c => (decide (c.state = .recalling), c.caller)) =
      (s.findCall h).map fun c => (decide (c.state = .recalling), c.caller))
    (hp : ∀ r, st = .pageListen r → (t.pageAt r).map Page.source = (s.pageAt r).map Page.source) :
    t.present st = s.present st := by
  cases st with
  | ringing h =>
    have e := hc h rfl
    simp only [present]
    cases ht : t.findCall h <;> cases hs : s.findCall h <;> simp_all
  | pageListen r =>
    have e := hp r rfl
    simp only [present]
    cases ht : t.pageAt r <;> cases hs : s.pageAt r <;> simp_all
  | unused => rfl
  | outOfService => rfl
  | idle => rfl
  | busy => rfl

/-- What is presented depends on the calls and the pages alone. -/
theorem present_of_eq {s t : State} (hc : t.calls = s.calls) (hp : t.pages = s.pages) (st : StationState) :
    t.present st = s.present st :=
  present_congr (fun _ _ => by simp [findCall, hc]) (fun _ _ => by simp [pageAt, page, hp])

/-! ## The station order set after a change of state (R17) -/

@[simp] theorem enterState_calls (s : State) (i : StationId) (st : StationState) : (s.enterState i st).calls = s.calls := by
  rw [(s.enterState_stays i st).1]

@[simp] theorem enterState_cfg (s : State) (i : StationId) (st : StationState) : (s.enterState i st).cfg = s.cfg := by
  rw [(s.enterState_stays i st).1]

@[simp] theorem enterState_groups (s : State) (i : StationId) (st : StationState) : (s.enterState i st).groups = s.groups := by
  rw [(s.enterState_stays i st).1]

@[simp] theorem enterState_pages (s : State) (i : StationId) (st : StationState) : (s.enterState i st).pages = s.pages := by
  rw [(s.enterState_stays i st).1]

@[simp] theorem enterState_outputs (s : State) (i : StationId) (st : StationState) : (s.enterState i st).outputs = s.outputs := by
  rw [(s.enterState_stays i st).1]

@[simp] theorem enterState_heldAvail (s : State) (i : StationId) (st : StationState) :
    (s.enterState i st).heldAvail = s.heldAvail := by
  rw [(s.enterState_stays i st).1]

theorem enterState_station_self (s : State) (i : StationId) (st : StationState) :
    (s.enterState i st).station i = { s.station i with state := st } := by
  rw [enterState_station, if_pos rfl]

theorem enterState_station_ne (s : State) {i j : StationId} (h : j ≠ i) (st : StationState) :
    (s.enterState i st).station j = s.station j := by
  rw [enterState_station, if_neg h]

theorem enterState_present (s : State) (i : StationId) (st st' : StationState) :
    (s.enterState i st).present st' = s.present st' :=
  present_of_eq (s.enterState_calls i st) (s.enterState_pages i st) st'

/-- The order set after a change of state, by the table of R17: the mark goes, stays, or is new. -/
theorem enterState_orders (s : State) (i : StationId) (st : StationState) :
    (s.enterState i st).link.stationOrders =
      if s.present st = (s.station i).lastSent then s.link.stationOrders.filter fun m => !(m.station == i)
      else if s.marked i then s.link.stationOrders
      else s.link.stationOrders ++ [{ station := i, time := s.now }] := by
  have hp : (s.updStation i fun r => { r with state := st }).present st = s.present st := present_of_eq rfl rfl st
  have hm : (s.updStation i fun r => { r with state := st }).marked i = s.marked i := rfl
  unfold enterState markStation
  simp only [station_updStation_self, hp, hm]
  split
  · rfl
  · split <;> rfl

/-- A station is marked when the order set holds it. -/
theorem marked_iff (s : State) (i : StationId) : s.marked i = true ↔ i ∈ s.link.stationOrders.map Mark.station := by
  simp [marked, List.any_eq_true]

/-- After its change of state a station is marked exactly when its presentation differs from the last sent one. -/
theorem enterState_marked_self (s : State) (i : StationId) (st : StationState) :
    (s.enterState i st).marked i = true ↔ s.present st ≠ (s.station i).lastSent := by
  rw [marked_iff, enterState_orders]
  by_cases hp : s.present st = (s.station i).lastSent
  · simp [hp]
  · by_cases hm : s.marked i = true
    · simpa [hp, hm] using (s.marked_iff i).1 hm
    · simp [hp, hm]

/-- A station's change of state leaves the mark of every other station. -/
theorem enterState_marked_ne (s : State) {i j : StationId} (h : j ≠ i) (st : StationState) :
    (s.enterState i st).marked j = s.marked j := by
  rw [Bool.eq_iff_iff, marked_iff, marked_iff, enterState_orders]
  split
  · simp only [List.mem_map, List.mem_filter]
    constructor
    · rintro ⟨m, ⟨hm, -⟩, e⟩
      exact ⟨m, hm, e⟩
    · rintro ⟨m, hm, rfl⟩
      exact ⟨m, ⟨hm, by simpa using h⟩, rfl⟩
  · split
    · rfl
    · simp [h]

/-- The order set holds no station twice after a change of state when it held none twice before. -/
theorem enterState_orders_nodup (s : State) (i : StationId) (st : StationState)
    (h : (s.link.stationOrders.map Mark.station).Nodup) :
    ((s.enterState i st).link.stationOrders.map Mark.station).Nodup := by
  rw [enterState_orders]
  split
  · exact h.sublist (List.filter_sublist.map _)
  · split
    · exact h
    · rename_i hm
      rw [marked_iff] at hm
      simpa [List.nodup_append, h] using fun m hm' e => hm (List.mem_map.2 ⟨m, hm', e⟩)

/-- Stations of a list that enter one state after another. -/
theorem enterAll (st : StationId → StationState) (l : List StationId) (s : State) :
    OnlyStations s (l.foldl (fun s i => s.enterState i (st i)) s) ∧
      StationsIn s (l.foldl (fun s i => s.enterState i (st i)) s) l st := by
  simpa using enterStates id st l s

end State

/-- Settles O20, by the order set that a change of state leaves. -/
theorem stationOrderMarking : Obligations.StationOrderMarking := by
  intro s i st
  have orders := s.enterState_orders i st
  refine ⟨_, rfl, s.enterState_stays i st, s.enterState_station_self i st, fun j h => s.enterState_station_ne h st, ?_, ?_, ?_,
    ?_, ?_, s.enterState_orders_nodup i st⟩
  · intro hm hp
    rw [orders, if_neg hp, if_neg (by simp [hm])]
  · intro hm hp
    rw [orders, if_pos hp]
    refine List.filter_eq_self.2 fun m hmem => ?_
    have : i ∉ s.link.stationOrders.map Mark.station := fun h => by simp [(s.marked_iff i).2 h] at hm
    simpa using fun e => this (List.mem_map.2 ⟨m, hmem, e⟩)
  · intro hm hp
    rw [orders, if_neg hp, if_pos hm]
  · intro hm hp
    rw [orders, if_pos hp]
    exact List.filter_congr fun m _ => by by_cases e : m.station = i <;> simp [e]
  · rw [s.enterState_present, s.enterState_station_self]
    exact s.enterState_marked_self i st

/-! ## The agreement of the stations (R3, R17) -/

/-- Every station but those of `D` is UNUSED exactly when it is not in use (R3). -/
def UseFits (D : StationId → Prop) (s : State) : Prop :=
  ∀ i, ¬ D i → ((s.station i).state = .unused ↔ (s.stationCfg i).inUse = false)

/-- The order set holds no station twice. -/
def OrdersOnce (s : State) : Prop := (s.link.stationOrders.map Mark.station).Nodup

/-- The station is marked exactly when its presentation differs from the last sent one (R17). -/
def MarkFits (s : State) (i : StationId) : Prop :=
  s.marked i = true ↔ s.present (s.station i).state ≠ (s.station i).lastSent

/-- The stations agree, but for "in use" of the stations of `D`, which a SET_STATION has written and not yet acted on. -/
structure StationsFit (D : StationId → Prop) (s : State) : Prop where
  use : UseFits D s
  once : OrdersOnce s
  marks : ∀ i, MarkFits s i

theorem stationsAgree_iff (s : State) : StationsAgree s ↔ StationsFit (fun _ => False) s :=
  ⟨fun ⟨h1, h2, h3⟩ => ⟨fun i _ => h1 i, h2, h3⟩, fun h => ⟨fun i => h.use i id, h.once, h.marks⟩⟩

theorem MarkFits.enterState_self (s : State) (i : StationId) (st : StationState) : MarkFits (s.enterState i st) i := by
  unfold MarkFits
  rw [s.enterState_present, s.enterState_station_self]
  exact s.enterState_marked_self i st

theorem MarkFits.enterState {s : State} {j : StationId} (h : MarkFits s j) (i : StationId) (st : StationState) :
    MarkFits (s.enterState i st) j := by
  by_cases e : j = i
  · subst e
    exact enterState_self s j st
  · unfold MarkFits
    rw [s.enterState_present, s.enterState_station_ne e, s.enterState_marked_ne e]
    exact h

/-- A change of state to one of use or disuse, as the station's "in use" says. -/
theorem UseFits.enterState {D D' : StationId → Prop} {s : State} (q : UseFits D s) {i : StationId} {st : StationState}
    (hi : ¬ D' i → (st = .unused ↔ (s.stationCfg i).inUse = false)) (hD : ∀ j, j ≠ i → ¬ D' j → ¬ D j) :
    UseFits D' (s.enterState i st) := by
  intro j hj
  have hcfg : (s.enterState i st).stationCfg j = s.stationCfg j := by simp [State.stationCfg]
  rw [hcfg]
  by_cases e : j = i
  · subst e
    rw [s.enterState_station_self]
    exact hi hj
  · rw [s.enterState_station_ne e]
    exact q j (hD j e hj)

namespace StationsFit

variable {D D' : StationId → Prop} {s t : State}

/-- A change of a station's state in keeping with its "in use". -/
theorem enterState' (q : StationsFit D s) {i : StationId} {st : StationState}
    (hi : ¬ D' i → (st = .unused ↔ (s.stationCfg i).inUse = false)) (hD : ∀ j, j ≠ i → ¬ D' j → ¬ D j) :
    StationsFit D' (s.enterState i st) :=
  ⟨q.use.enterState hi hD, s.enterState_orders_nodup i st q.once, fun j => (q.marks j).enterState i st⟩

/-- A station in use enters a state of use. -/
theorem enterState (q : StationsFit D s) {i : StationId} {st : StationState} (hst : st ≠ .unused)
    (hi : ¬ D i → (s.stationCfg i).inUse = true) : StationsFit D (s.enterState i st) :=
  q.enterState' (fun h => by simp [hst, hi h]) fun _ _ => id

/-- A station that is not UNUSED is in use. -/
theorem inUse_of_state (q : StationsFit D s) {i : StationId} (h : (s.station i).state ≠ .unused) (hD : ¬ D i) :
    (s.stationCfg i).inUse = true := by
  have := (q.use i hD).not.1 h
  simpa using this

/-- An update that leaves every station, its "in use", its mark and its presentation. -/
theorem of_eq (q : StationsFit D s) (h1 : t.stations = s.stations) (h2 : ∀ i, (t.stationCfg i).inUse = (s.stationCfg i).inUse)
    (h3 : t.link.stationOrders = s.link.stationOrders)
    (h4 : ∀ i, t.present (s.station i).state = s.present (s.station i).state) : StationsFit D t := by
  have hs : ∀ i, t.station i = s.station i := fun i => by simp [State.station, h1]
  refine ⟨fun i hi => ?_, ?_, fun i => ?_⟩
  · rw [hs, h2]
    exact q.use i hi
  · unfold OrdersOnce
    rw [h3]
    exact q.once
  · have hm : t.marked i = s.marked i := by simp [State.marked, h3]
    unfold MarkFits
    rw [hs, hm, h4]
    exact q.marks i

/-- An update that writes no station, call, page, configuration or station order. -/
theorem of_views (q : StationsFit D s) (h1 : t.stations = s.stations) (h2 : t.cfg = s.cfg) (h3 : t.calls = s.calls)
    (h4 : t.pages = s.pages) (h5 : t.link.stationOrders = s.link.stationOrders) : StationsFit D t :=
  q.of_eq h1 (fun i => by simp [State.stationCfg, h2]) h5 fun i => State.present_of_eq h3 h4 _

theorem weaken (q : StationsFit D s) (h : ∀ i, ¬ D' i → ¬ D i) : StationsFit D' s :=
  ⟨fun i hi => q.use i (h i hi), q.once, q.marks⟩

end StationsFit
end Sys2Proof.Machine
end

