-- ==== Sys2Proof/Proofs/Pages.lean ====
section
/-! SUPPORT. What the Page Arbiter keeps: pages, outputs, listening stations and escalation pages in agreement, one lemma for each of its operations. -/

namespace Sys2Proof.Machine
namespace State

/-! ## Page references (R113) -/

theorem pageAt_refOf (s : State) (p : PageId) : s.pageAt (s.refOf p) = s.page p := by simp [pageAt, refOf]

theorem pageAt_iff (s : State) (r : PageRef) (pg : Page) :
    s.pageAt r = some pg ↔ s.refOf r.id = r ∧ s.page r.id = some pg := by
  obtain ⟨p, n⟩ := r
  simp [pageAt, refOf]

theorem mem_held (s : State) (p : PageId) (o : OutputId) :
    o ∈ s.held p ↔ (s.output o).state.holder = some (s.refOf p) := by simp [held]

theorem held_eq_nil (s : State) (p : PageId) :
    s.held p = [] ↔ ∀ o, (s.output o).state.holder ≠ some (s.refOf p) := by
  simp [List.eq_nil_iff_forall_not_mem, mem_held]

theorem refOf_ne (s : State) {p q : PageId} (h : q ≠ p) : s.refOf q ≠ s.refOf p := fun e => h (congrArg PageRef.id e)

theorem refOf_updPageRec_ne (s : State) {p q : PageId} (h : q ≠ p) (f : PageRec → PageRec) :
    (s.updPageRec p f).refOf q = s.refOf q := by
  unfold refOf
  rw [s.pages_updPageRec_ne h f]

theorem pageAt_updPageRec_ne (s : State) {p : PageId} {r : PageRef} (h : r.id ≠ p) (f : PageRec → PageRec) :
    (s.updPageRec p f).pageAt r = s.pageAt r := by
  unfold pageAt
  rw [s.pages_updPageRec_ne h f, s.page_updPageRec_ne h f]

theorem pageAt_updPage (s : State) (p : PageId) (f : Page → Page) (r : PageRef) :
    (s.updPage p f).pageAt r = if r.id = p then (s.pageAt r).map f else s.pageAt r := by
  split
  · rename_i h
    subst h
    have e := s.refOf_updPage r.id r.id f
    simp only [refOf, PageRef.mk.injEq, true_and] at e
    unfold pageAt
    rw [e, page_updPage_self]
    split <;> rfl
  · rename_i h
    exact s.pageAt_updPageRec_ne h _

theorem held_congr {s t : State} {p : PageId} (ho : ∀ o, (t.output o).state.holder = (s.output o).state.holder)
    (hp : t.refOf p = s.refOf p) : t.held p = s.held p := by
  unfold held
  exact List.filter_congr fun o _ => by rw [ho, hp]

theorem mem_joined (s : State) (p : PageId) (i : StationId) :
    i ∈ s.joined p ↔ ∃ pg, s.page p = some pg ∧ i ∈ pg.deskList ∧ (s.station i).state = .pageListen (s.refOf p) := by
  unfold joined
  cases s.page p <;> simp

/-- A group is in escalation when its queue holds an escalated call (R81). -/
theorem inEscalation_iff (s : State) (g : GroupId) :
    s.inEscalation g = true ↔ ∃ h ∈ (s.group g).queue, ∃ c, s.findCall h = some c ∧ c.escalated = true := by
  simp [inEscalation, escalatedCalls, List.filter_eq_nil_iff, Option.any_eq_true]

theorem inEscalation_of_eq {s t : State} {g : GroupId} (hc : t.calls = s.calls)
    (hq : (t.group g).queue = (s.group g).queue) : t.inEscalation g = s.inEscalation g := by
  simp [inEscalation, escalatedCalls, hq, findCall, hc]

end State

/-! ## Requests of pages -/

/-- The fields of a page that its request set and no doing of the arbiter changes (R116, R128). -/
def Page.request (pg : Page) : Option GroupId × Source × OutputSet × List StationId × Option Nat :=
  (pg.escGroup, pg.source, pg.zoneOutputs, pg.deskList, pg.waitLimit)

theorem Page.request_eq_iff (a b : Page) :
    a.request = b.request ↔ a.escGroup = b.escGroup ∧ a.source = b.source ∧ a.zoneOutputs = b.zoneOutputs ∧
      a.deskList = b.deskList ∧ a.waitLimit = b.waitLimit := by
  simp [Page.request]

/-- From `s` to `t` the same pages are in use, for the same requests. -/
def SamePages (s t : State) : Prop :=
  ∀ p, t.refOf p = s.refOf p ∧ (t.page p).map Page.request = (s.page p).map Page.request

namespace SamePages

variable {s t : State}

theorem of_eq (h : t.pages = s.pages) : SamePages s t := fun p => by simp [State.refOf, State.page, h]

theorem symm (h : SamePages s t) : SamePages t s := fun p => ⟨(h p).1.symm, (h p).2.symm⟩

theorem updPage (s : State) (p : PageId) {f : Page → Page} (hf : ∀ x, (f x).request = x.request) :
    SamePages s (s.updPage p f) := by
  intro q
  refine ⟨s.refOf_updPage p q f, ?_⟩
  by_cases e : q = p
  · subst e
    rw [State.page_updPage_self]
    cases s.page q <;> simp [hf]
  · rw [s.page_updPage_ne e]

theorem page (h : SamePages s t) {p : PageId} {pg : Page} (hp : s.page p = some pg) :
    ∃ pg', t.page p = some pg' ∧ pg'.request = pg.request := by
  have e := (h p).2
  rw [hp] at e
  simpa [Option.map_eq_some_iff] using e

theorem pageAt (h : SamePages s t) {r : PageRef} {pg : Page} (hp : s.pageAt r = some pg) :
    ∃ pg', t.pageAt r = some pg' ∧ pg'.request = pg.request := by
  rw [State.pageAt_iff] at hp
  obtain ⟨pg', h1, h2⟩ := h.page hp.2
  exact ⟨pg', (State.pageAt_iff t r pg').2 ⟨(h r.id).1.trans hp.1, h1⟩, h2⟩

theorem source (h : SamePages s t) (r : PageRef) : (t.pageAt r).map Page.source = (s.pageAt r).map Page.source := by
  cases e : s.pageAt r with
  | some pg =>
    obtain ⟨pg', h1, h2⟩ := h.pageAt e
    simp [h1, ((Page.request_eq_iff _ _).1 h2).2.1]
  | none =>
    cases e' : t.pageAt r with
    | none => rfl
    | some pg =>
      obtain ⟨pg', h1, -⟩ := h.symm.pageAt e'
      simp [e] at h1

theorem present (h : SamePages s t) (hc : t.calls = s.calls) (st : StationState) : t.present st = s.present st :=
  State.present_congr (fun _ _ => by simp [State.findCall, hc]) fun r _ => h.source r

end SamePages

/-- From `s` to `t` no page has been made, and none has ended but for want of a wait (R136). -/
structure Keeps (s t : State) : Prop where
  made : ∀ p pg', t.page p = some pg' → t.refOf p = s.refOf p ∧ ∃ pg, s.page p = some pg ∧ pg'.request = pg.request
  kept : ∀ p pg, s.page p = some pg → pg.waitLimit ≠ some 0 → (t.page p).isSome = true

namespace Keeps

variable {s t u : State}

theorem of_same (h : SamePages s t) : Keeps s t :=
  ⟨fun p _ hp => ⟨(h p).1, (h.symm.page hp).imp fun _ x => ⟨x.1, x.2.symm⟩⟩, fun p _ hp _ => by
    obtain ⟨_, h1, -⟩ := h.page hp
    simp [h1]⟩

theorem of_eq (h : t.pages = s.pages) : Keeps s t := of_same (.of_eq h)

theorem refl (s : State) : Keeps s s := of_eq rfl

theorem trans (h : Keeps s t) (k : Keeps t u) : Keeps s u := by
  refine ⟨fun p pg hp => ?_, fun p pg hp hw => ?_⟩
  · obtain ⟨e1, pg1, h1, r1⟩ := k.made p pg hp
    obtain ⟨e2, pg2, h2, r2⟩ := h.made p pg1 h1
    exact ⟨e1.trans e2, pg2, h2, r1.trans r2⟩
  · obtain ⟨pg1, h1⟩ := Option.isSome_iff_exists.1 (h.kept p pg hp hw)
    obtain ⟨-, pg2, h2, r2⟩ := h.made p pg1 h1
    rw [hp] at h2
    obtain rfl := Option.some.inj h2
    exact k.kept p pg1 h1 (by rw [((Page.request_eq_iff _ _).1 r2).2.2.2.2]; exact hw)

end Keeps

/-! ## The agreement of the pages -/

/-- Outputs, pages and listening stations agree, but that the pages of `L` may have lost their last output and not yet been
dealt with (R112, R124, R130, R135, R136, R138). -/
structure PagesFit (L : List PageRef) (s : State) : Prop where
  holder : ∀ o r, (s.output o).state.holder = some r →
    ∃ pg, s.pageAt r = some pg ∧ pg.state ≠ .waiting ∧ o ∈ outputsOf pg.zoneOutputs
  waits : ∀ p pg, s.page p = some pg → s.held p = [] → pg.state = .waiting ∨ s.refOf p ∈ L
  listens : ∀ i r, (s.station i).state = .pageListen r → ∃ pg, s.pageAt r = some pg ∧ i ∈ pg.deskList
  chime : ∀ p pg, s.page p = some pg → pg.state = .waiting → pg.chime = none

/-- The escalation pages of every group but those of `X` agree with the group and its queue (R81, R82, R84, R128). -/
structure EscFits (X : GroupId → Prop) (s : State) : Prop where
  page : ∀ g r, ¬ X g → (s.group g).escPage = some r →
    s.inEscalation g = true ∧ ∃ pg, s.pageAt r = some pg ∧ pg.escGroup = some g
  again : ∀ g, ¬ X g → ((s.group g).repeatDeadline.isSome = true ∨ (s.group g).repeatDue = true) → s.inEscalation g = true
  made : ∀ p pg g, ¬ X g → s.page p = some pg → pg.escGroup = some g → (s.group g).escPage = some (s.refOf p)

theorem pagesAgree_iff (s : State) :
    PagesAgree s ↔ PagesFit [] s ∧ EscFits (fun _ => False) s ∧ s.cfg.RepeatsFit ∧
      (∀ c, s.stored = some c → c.RepeatsFit) ∧ ∀ r, s.save = some r → r.config.RepeatsFit := by
  constructor
  · rintro ⟨h1, h2, h3, h4, h5, h6, h7, h8⟩
    exact ⟨⟨h1, fun p pg hp hh => .inl ((h2 p pg hp).2 hh), h3, h7⟩,
      ⟨fun g r _ => h4 g r, fun g _ => h5 g, fun p pg g _ => h6 p pg g⟩, h8⟩
  · rintro ⟨a, e, h8⟩
    refine ⟨a.holder, fun p pg hp => ⟨fun hw => ?_, fun hh => ?_⟩, a.listens, fun g r => e.page g r id, fun g => e.again g id,
      fun p pg g => e.made p pg g id, a.chime, h8⟩
    · rw [State.held_eq_nil]
      intro o ho
      obtain ⟨pg', h1, h2, -⟩ := a.holder o _ ho
      rw [State.pageAt_refOf, hp] at h1
      exact h2 (Option.some.inj h1 ▸ hw)
    · simpa using a.waits p pg hp hh

namespace PagesFit

variable {L L' : List PageRef} {s t : State}

/-- An update that writes no page, output holder or listening station. -/
theorem of_views (q : PagesFit L s) (h1 : t.pages = s.pages)
    (h2 : ∀ o, (t.output o).state.holder = (s.output o).state.holder)
    (h3 : ∀ i r, (t.station i).state = .pageListen r → (s.station i).state = .pageListen r) : PagesFit L t := by
  have hr : ∀ p, t.refOf p = s.refOf p := fun p => by simp [State.refOf, h1]
  have hp : ∀ p, t.page p = s.page p := fun p => by simp [State.page, h1]
  have ha : ∀ r, t.pageAt r = s.pageAt r := fun r => by simp [State.pageAt, State.page, h1]
  refine ⟨fun o r h => ?_, fun p pg h k => ?_, fun i r h => ?_, fun p pg h => ?_⟩
  · rw [ha]
    exact q.holder o r (h2 o ▸ h)
  · rw [hr]
    exact q.waits p pg (hp p ▸ h) (by rwa [State.held_congr h2 (hr p)] at k)
  · rw [ha]
    exact q.listens i r (h3 i r h)
  · exact q.chime p pg (hp p ▸ h)

theorem weaken (q : PagesFit L s) (h : ∀ p, s.refOf p ∈ L → (s.page p).isSome = true → s.held p = [] → s.refOf p ∈ L') :
    PagesFit L' s :=
  ⟨q.holder, fun p pg hp hh => (q.waits p pg hp hh).imp_right fun e => h p e (by simp [hp]) hh, q.listens, q.chime⟩

/-- A station enters a state; to listen, it is a desk station of the page. -/
theorem enterState (q : PagesFit L s) {i : StationId} {st : StationState}
    (h : ∀ r, st = .pageListen r → ∃ pg, s.pageAt r = some pg ∧ i ∈ pg.deskList) : PagesFit L (s.enterState i st) := by
  have ho : ∀ o, (s.enterState i st).output o = s.output o := fun o => by simp [State.output]
  have ha : ∀ r, (s.enterState i st).pageAt r = s.pageAt r := fun r => by simp [State.pageAt, State.page]
  have hr : ∀ p, (s.enterState i st).refOf p = s.refOf p := fun p => by simp [State.refOf]
  have hg : ∀ p, (s.enterState i st).page p = s.page p := fun p => by simp [State.page]
  refine ⟨fun o r k => ?_, fun p pg k l => ?_, fun j r k => ?_, fun p pg k => ?_⟩
  · rw [ha]
    exact q.holder o r (ho o ▸ k)
  · rw [hr]
    exact q.waits p pg (hg p ▸ k) (by rwa [State.held_congr (fun o => by rw [ho]) (hr p)] at l)
  · rw [ha]
    by_cases e : j = i
    · subst e
      rw [s.enterState_station_self] at k
      exact h r k
    · rw [s.enterState_station_ne e] at k
      exact q.listens j r k
  · exact q.chime p pg (hg p ▸ k)

/-- A page in use changes, its request staying. It may wait only while it holds nothing and plays no chime. -/
theorem updPage (q : PagesFit L s) {p : PageId} {f : Page → Page} (hf : ∀ x, (f x).request = x.request)
    (h1 : ∀ pg, s.page p = some pg → (f pg).state = .waiting → s.held p = [] ∧ (f pg).chime = none)
    (h2 : ∀ pg, s.page p = some pg → s.held p = [] → (f pg).state = .waiting ∨ s.refOf p ∈ L')
    (hL : ∀ k, k ≠ p → s.refOf k ∈ L → s.refOf k ∈ L') : PagesFit L' (s.updPage p f) := by
  have hreq := fun x => (Page.request_eq_iff _ _).1 (hf x)
  refine ⟨fun o r h => ?_, fun k pg h hh => ?_, fun i r h => ?_, fun k pg h hw => ?_⟩
  · obtain ⟨pg, k1, k2, k3⟩ := q.holder o r h
    rw [State.pageAt_updPage]
    split
    · rename_i e
      refine ⟨f pg, by rw [k1]; rfl, fun hw => ?_, by rw [(hreq pg).2.2.1]; exact k3⟩
      obtain ⟨e1, e2⟩ := (State.pageAt_iff s r pg).1 k1
      have := (h1 pg (e ▸ e2) hw).1
      rw [State.held_eq_nil] at this
      exact this o (by rw [← e, e1]; exact h)
    · exact ⟨pg, k1, k2, k3⟩
  · rw [State.refOf_updPage]
    have hh' : s.held k = [] := by rwa [State.held_congr (s := s) (t := s.updPage p f) (fun _ => rfl) (s.refOf_updPage p k f)] at hh
    by_cases e : k = p
    · subst e
      rw [State.page_updPage_self, Option.map_eq_some_iff] at h
      obtain ⟨x, hx, rfl⟩ := h
      exact h2 x hx hh'
    · rw [s.page_updPage_ne e] at h
      exact (q.waits k pg h hh').imp_right (hL k e)
  · obtain ⟨pg, k1, k2⟩ := q.listens i r h
    rw [State.pageAt_updPage, k1]
    split
    · exact ⟨f pg, rfl, by rw [(hreq pg).2.2.2.1]; exact k2⟩
    · exact ⟨pg, rfl, k2⟩
  · by_cases e : k = p
    · subst e
      rw [State.page_updPage_self, Option.map_eq_some_iff] at h
      obtain ⟨x, hx, rfl⟩ := h
      exact (h1 x hx hw).2
    · rw [s.page_updPage_ne e] at h
      exact q.chime k pg h hw

end PagesFit

namespace EscFits

variable {X X' : GroupId → Prop} {s t : State}

/-- An update that leaves every group, and every page in use for its request. -/
theorem of_same (q : EscFits X s) (h1 : t.groups = s.groups) (h2 : t.calls = s.calls) (h3 : SamePages s t) :
    EscFits X t := by
  have hg : ∀ g, t.group g = s.group g := fun g => by simp [State.group, h1]
  have he : ∀ g, t.inEscalation g = s.inEscalation g := fun g => State.inEscalation_of_eq h2 (by rw [hg])
  refine ⟨fun g r hx h => ?_, fun g hx h => ?_, fun p pg g hx hp h => ?_⟩
  · obtain ⟨k1, pg, k2, k3⟩ := q.page g r hx (hg g ▸ h)
    obtain ⟨pg', h4, h5⟩ := h3.pageAt k2
    exact ⟨he g ▸ k1, pg', h4, ((Page.request_eq_iff _ _).1 h5).1.trans k3⟩
  · exact he g ▸ q.again g hx (hg g ▸ h)
  · obtain ⟨pg', h4, h5⟩ := h3.symm.page hp
    rw [hg, (h3 p).1]
    exact q.made p pg' g hx h4 (((Page.request_eq_iff _ _).1 h5).1.trans h)

theorem weaken (q : EscFits X s) (h : ∀ g, ¬ X' g → ¬ X g) : EscFits X' s :=
  ⟨fun g r hx => q.page g r (h g hx), fun g hx => q.again g (h g hx), fun p pg g hx => q.made p pg g (h g hx)⟩

end EscFits
end Sys2Proof.Machine
end

