-- ==== Sys2Proof/Proofs/Arbiter.lean ====
section
/-! SUPPORT. The operations of the Page Arbiter, each with what it keeps of the agreement of pages and stations. -/

namespace Sys2Proof.Machine

/-- From `s` to `t` the Page Arbiter has worked: no call, queue, ring or configuration has changed. -/
structure Calm (s t : State) : Prop where
  calls : t.calls = s.calls
  cfg : t.cfg = s.cfg
  queue : ∀ g, (t.group g).queue = (s.group g).queue
  rings : ∀ i h, (t.station i).state = .ringing h ↔ (s.station i).state = .ringing h

namespace Calm

variable {s t u : State}

theorem refl (s : State) : Calm s s := ⟨rfl, rfl, fun _ => rfl, fun _ _ => Iff.rfl⟩

theorem trans (h : Calm s t) (k : Calm t u) : Calm s u :=
  ⟨k.calls.trans h.calls, k.cfg.trans h.cfg, fun g => (k.queue g).trans (h.queue g), fun i x => (k.rings i x).trans (h.rings i x)⟩

theorem of_eq (h1 : t.calls = s.calls) (h2 : t.cfg = s.cfg) (h3 : ∀ g, (t.group g).queue = (s.group g).queue)
    (h4 : t.stations = s.stations) : Calm s t :=
  ⟨h1, h2, h3, fun i h => by simp [State.station, h4]⟩

theorem findCall (h : Calm s t) (k : Handle) : t.findCall k = s.findCall k := by simp [State.findCall, h.calls]

theorem inEscalation (h : Calm s t) (g : GroupId) : t.inEscalation g = s.inEscalation g :=
  State.inEscalation_of_eq h.calls (h.queue g)

theorem inUse (h : Calm s t) (i : StationId) : t.stationCfg i = s.stationCfg i := by simp [State.stationCfg, h.cfg]

/-- A station that does not ring enters a state in which it does not ring. -/
theorem enterState (s : State) {i : StationId} {st : StationState} (h1 : ∀ h, (s.station i).state ≠ .ringing h)
    (h2 : ∀ h, st ≠ .ringing h) : Calm s (s.enterState i st) := by
  refine ⟨by simp, by simp, fun g => by simp [State.group], fun j h => ?_⟩
  by_cases e : j = i
  · subst e
    rw [s.enterState_station_self]
    simp [h1, h2]
  · rw [s.enterState_station_ne e]

end Calm

/-- The state `s` that the Page Arbiter has made of `s0`: stations, pages and escalation pages agree, but for the stations of `D`, the
groups of `X` and the pages of `L`. -/
structure Fit (D : StationId → Prop) (X : GroupId → Prop) (s0 : State) (L : List PageRef) (s : State) : Prop where
  calm : Calm s0 s
  stations : StationsFit D s
  pages : PagesFit L s
  esc : EscFits X s

namespace Fit

variable {D : StationId → Prop} {X X' : GroupId → Prop} {s0 s t : State} {L L' : List PageRef}

theorem start (h1 : StationsFit D s) (h2 : PagesFit L s) (h3 : EscFits X s) : Fit D X s L s := ⟨Calm.refl s, h1, h2, h3⟩

/-- An update that writes none of the fields that the agreement reads. -/
theorem of_views (q : Fit D X s0 L s) (h1 : t.stations = s.stations) (h2 : t.cfg = s.cfg) (h3 : t.calls = s.calls)
    (h4 : t.pages = s.pages) (h5 : t.link.stationOrders = s.link.stationOrders) (h6 : t.groups = s.groups)
    (h7 : ∀ o, (t.output o).state.holder = (s.output o).state.holder) : Fit D X s0 L t :=
  ⟨q.calm.trans (.of_eq h3 h2 (fun g => by simp [State.group, h6]) h1), q.stations.of_views h1 h2 h3 h4 h5,
    q.pages.of_views h4 h7 fun i r => by simp [State.station, h1], q.esc.of_same h6 h3 (.of_eq h4)⟩

theorem advise (q : Fit D X s0 L s) (a : Advisory) : Fit D X s0 L (s.advise a) := by
  refine q.of_views rfl rfl rfl rfl ?_ rfl fun _ => rfl
  rw [State.advise, State.updLink_link]
  split <;> rfl

theorem advisePage (q : Fit D X s0 L s) (p : PageId) (e : PageEvent) : Fit D X s0 L (s.advisePage p e) := by
  unfold State.advisePage
  split
  · exact q
  · exact q.advise _

theorem holdAvail (q : Fit D X s0 L s) (l : List StationId) : Fit D X s0 L (s.holdAvail l) :=
  q.of_views rfl rfl rfl rfl rfl rfl fun _ => rfl

/-- A station that does not ring enters a state of use in which it does not ring. -/
theorem enterState (q : Fit D X s0 L s) {i : StationId} {st : StationState} (hst : st ≠ .unused)
    (hi : ¬ D i → (s.stationCfg i).inUse = true) (h1 : ∀ h, (s.station i).state ≠ .ringing h) (h2 : ∀ h, st ≠ .ringing h)
    (hl : ∀ r, st = .pageListen r → ∃ pg, s.pageAt r = some pg ∧ i ∈ pg.deskList) : Fit D X s0 L (s.enterState i st) :=
  ⟨q.calm.trans (.enterState s h1 h2), q.stations.enterState hst hi, q.pages.enterState hl,
    q.esc.of_same (s.enterState_groups i st) (s.enterState_calls i st) (.of_eq (s.enterState_pages i st))⟩

/-! ### Desk speakers (R122, R124) -/

theorem joinDesk (q : Fit D X s0 L s) {p : PageId} {pg : Page} (hp : s.page p = some pg) (c : PageClass) {i : StationId}
    (hi : i ∈ pg.deskList) : Fit D X s0 L (State.joinDesk p c s i) := by
  have listens : ∀ r, StationState.pageListen (s.refOf p) = .pageListen r → ∃ pg, s.pageAt r = some pg ∧ i ∈ pg.deskList := by
    rintro r e
    obtain rfl := StationState.pageListen.inj e
    exact ⟨pg, by rw [State.pageAt_refOf, hp], hi⟩
  unfold State.joinDesk
  split
  · rename_i h
    simp only [State.isIdle, Bool.and_eq_true, decide_eq_true_eq] at h
    exact q.enterState (by simp) (fun _ => h.1) (by simp [h.2]) (by simp) listens
  · split
    · rename_i r hr
      have used : ¬ D i → (s.stationCfg i).inUse = true := q.stations.inUse_of_state (by simp [hr])
      split
      · split
        · exact q.enterState (by simp) used (by simp [hr]) (by simp) listens
        · exact q
      · exact q
    · exact q

theorem joinDesk_pages (p : PageId) (c : PageClass) (s : State) (i : StationId) : (State.joinDesk p c s i).pages = s.pages := by
  unfold State.joinDesk
  repeat' split
  all_goals simp

theorem joinDesk_outputs (p : PageId) (c : PageClass) (s : State) (i : StationId) :
    (State.joinDesk p c s i).outputs = s.outputs := by
  unfold State.joinDesk
  repeat' split
  all_goals simp

theorem joinDesks (q : Fit D X s0 L s) (p : PageId) :
    Fit D X s0 L (s.joinDesks p) ∧ (s.joinDesks p).pages = s.pages ∧ (s.joinDesks p).outputs = s.outputs := by
  unfold State.joinDesks
  split
  · exact ⟨q, rfl, rfl⟩
  · rename_i pg hp
    refine List.foldlRecOn (motive := fun t => Fit D X s0 L t ∧ t.pages = s.pages ∧ t.outputs = s.outputs) _ _ ⟨q, rfl, rfl⟩
      fun t ⟨ht, hpages, hout⟩ i hi =>
        ⟨ht.joinDesk (by simpa [State.page, hpages] using hp) _ hi, (joinDesk_pages p _ t i).trans hpages,
          (joinDesk_outputs p _ t i).trans hout⟩

/-- A page releases its joined stations; then no station listens to it. -/
theorem releaseJoined (q : Fit D X s0 L s) (p : PageId) :
    Fit D X s0 L (s.releaseJoined p) ∧ (s.releaseJoined p).pages = s.pages ∧ (s.releaseJoined p).outputs = s.outputs ∧
      (s.releaseJoined p).groups = s.groups ∧
      ∀ i, ((s.releaseJoined p).station i).state ≠ .pageListen (s.refOf p) := by
  have listening : ∀ i ∈ s.joined p, (s.station i).state = .pageListen (s.refOf p) := fun i hi => by
    obtain ⟨_, -, -, e⟩ := (s.mem_joined p i).1 hi
    exact e
  have fold := List.foldlRecOn
    (motive := fun t => Fit D X s0 L t ∧ ∀ i ∈ s.joined p, (t.station i).state ≠ .unused ∧ ∀ h, (t.station i).state ≠ .ringing h)
    (s.joined p) (fun t i => t.enterState i .idle) ⟨q, fun i hi => by simp [listening i hi]⟩
    fun t ⟨ht, hs⟩ i hi =>
      ⟨ht.enterState (by simp) (ht.stations.inUse_of_state (hs i hi).1) (hs i hi).2 (by simp) (by simp), fun j hj => by
        rw [t.enterState_station]
        split
        · simp
        · exact hs j hj⟩
  obtain ⟨⟨h1, -⟩, h2, h3, -⟩ := State.enterAll (fun _ => .idle) (s.joined p) s
  refine ⟨fold.1.holdAvail _, (by rw [h1] : State.pages (List.foldl _ s _) = s.pages),
    (by rw [h1] : State.outputs (List.foldl _ s _) = s.outputs), (by rw [h1] : State.groups (List.foldl _ s _) = s.groups),
    fun i => ?_⟩
  change (State.station ((s.joined p).foldl (fun t i => t.enterState i .idle) s) i).state ≠ _
  by_cases hi : i ∈ s.joined p
  · rw [h2 i hi]
    simp
  · rw [h3 i hi]
    intro e
    obtain ⟨pg, k1, k2⟩ := q.pages.listens i _ e
    exact hi ((s.mem_joined p i).2 ⟨pg, by rwa [State.pageAt_refOf] at k1, k2, e⟩)

/-! ### Outputs granted and released (R132, R137) -/

/-- Outputs changed one after another: nothing else is written. -/
theorem updOutputs_stays (F : State → OutputId → Output → Output) (l : List OutputId) (s : State) :
    l.foldl (fun s o => s.updOutput o (F s o)) s =
      { s with outputs := (l.foldl (fun s o => s.updOutput o (F s o)) s).outputs } := by
  induction l generalizing s with
  | nil => rfl
  | cons o l ih => rw [List.foldl_cons, ih]; rfl

/-- Outputs of a list given the holder `k` one after another: they have it, the others keep theirs. -/
theorem updOutputs_holder (F : State → OutputId → Output → Output) (k : Option PageRef)
    (hF : ∀ s o x, (F s o x).state.holder = k) (l : List OutputId) (s : State) (o : OutputId) :
    ((l.foldl (fun s o => s.updOutput o (F s o)) s).output o).state.holder =
      if o ∈ l then k else (s.output o).state.holder := by
  induction l generalizing s with
  | nil => simp
  | cons x l ih =>
    rw [List.foldl_cons, ih]
    by_cases e : o = x
    · subst e
      simp [hF]
    · rw [State.output_updOutput_ne s e]
      simp [e]

/-- The holders of outputs change: each that an output takes is a page that has started and wants it. -/
theorem holders (q : Fit D X s0 L s) (h1 : t = { s with outputs := t.outputs })
    (h2 : ∀ o r, (t.output o).state.holder = some r → (s.output o).state.holder ≠ some r →
      ∃ pg, s.pageAt r = some pg ∧ pg.state ≠ .waiting ∧ o ∈ outputsOf pg.zoneOutputs)
    (h3 : ∀ p pg, s.page p = some pg → t.held p = [] → pg.state = .waiting ∨ s.refOf p ∈ L') : Fit D X s0 L' t := by
  obtain ⟨outs, rfl⟩ : ∃ outs, t = { s with outputs := outs } := ⟨_, h1⟩
  have pages : PagesFit L' { s with outputs := outs } := by
    refine ⟨fun o r h => ?_, h3, q.pages.listens, q.pages.chime⟩
    by_cases e : (s.output o).state.holder = some r
    · exact q.pages.holder o r e
    · exact h2 o r h e
  exact ⟨q.calm.trans (.of_eq rfl rfl (fun _ => rfl) rfl), q.stations.of_views rfl rfl rfl rfl rfl, pages,
    q.esc.of_same rfl rfl (.of_eq rfl)⟩

/-- The outputs that a page that has started takes are granted to it; the pages that held them may hold nothing now. -/
theorem grants (q : Fit D X s0 L s) {p : PageId} {pg : Page} (hp : s.page p = some pg) (hw : pg.state ≠ .waiting)
    {outs : List OutputId} (ho : ∀ o ∈ outs, o ∈ outputsOf pg.zoneOutputs) (hne : outs ≠ [])
    (hL : ∀ r ∈ L, r ≠ s.refOf p → r ∈ L') (hl : ∀ o ∈ outs, ∀ r, (s.output o).state.holder = some r → r ∈ L') :
    Fit D X s0 L' (outs.foldl (State.grant (s.refOf p)) s) ∧ (outs.foldl (State.grant (s.refOf p)) s).pages = s.pages := by
  have stays := updOutputs_stays
    (fun s' _ x => { x with state := .guard (s.refOf p) (later s'.now s'.cfg.guardInterval) }) outs s
  have holder := updOutputs_holder
    (fun s' _ x => { x with state := .guard (s.refOf p) (later s'.now s'.cfg.guardInterval) }) (some (s.refOf p))
    (fun _ _ _ => rfl) outs s
  change outs.foldl (State.grant (s.refOf p)) s = _ at stays
  change ∀ o, (State.output (outs.foldl (State.grant (s.refOf p)) s) o).state.holder = _ at holder
  refine ⟨q.holders stays (fun o r h1 h2 => ?_) fun k pk hk hh => ?_, by rw [stays]⟩
  · rw [holder] at h1
    split at h1
    · rename_i hmem
      obtain rfl := Option.some.inj h1
      exact ⟨pg, by rw [State.pageAt_refOf, hp], hw, ho o hmem⟩
    · exact absurd h1 h2
  · have hr : (outs.foldl (State.grant (s.refOf p)) s).refOf k = s.refOf k := by rw [stays]; rfl
    rw [State.held_eq_nil, hr] at hh
    by_cases e : k = p
    · subst e
      obtain ⟨o, hmem⟩ := List.exists_mem_of_ne_nil outs hne
      exact absurd (by rw [holder, if_pos hmem]) (hh o)
    · by_cases held : s.held k = []
      · exact (q.pages.waits k pk hk held).imp_right fun hm => hL _ hm (s.refOf_ne e)
      · obtain ⟨o, hmem⟩ := List.exists_mem_of_ne_nil _ held
        rw [State.mem_held] at hmem
        have taken : o ∈ outs := by
          by_contra hn
          exact hh o (by rw [holder, if_neg hn, hmem])
        exact .inr (hl o taken _ hmem)

/-- Every output that a page holds is released: it may hold nothing now. -/
theorem releases (q : Fit D X s0 L s) (p : PageId) :
    Fit D X s0 (s.refOf p :: L) ((s.held p).foldl State.release s) ∧
      (s.held p).foldl State.release s = { s with outputs := ((s.held p).foldl State.release s).outputs } ∧
      ∀ o, (((s.held p).foldl State.release s).output o).state.holder ≠ some (s.refOf p) := by
  have stays := updOutputs_stays (fun _ _ x => { x with state := .free }) (s.held p) s
  have holder := updOutputs_holder (fun _ _ x => { x with state := .free }) none (fun _ _ _ => rfl) (s.held p) s
  change (s.held p).foldl State.release s = _ at stays
  change ∀ o, (State.output ((s.held p).foldl State.release s) o).state.holder = _ at holder
  have kept : ∀ o r, (State.output ((s.held p).foldl State.release s) o).state.holder = some r →
      (s.output o).state.holder = some r ∧ r ≠ s.refOf p := by
    intro o r h
    rw [holder] at h
    split at h
    · simp at h
    · rename_i hn
      exact ⟨h, fun e => hn ((s.mem_held p o).2 (e ▸ h))⟩
  refine ⟨q.holders stays (fun o r h1 h2 => absurd (kept o r h1).1 h2) fun k pk hk hh => ?_, stays,
    fun o h => (kept o _ h).2 rfl⟩
  have hr : ((s.held p).foldl State.release s).refOf k = s.refOf k := by rw [stays]; rfl
  by_cases e : k = p
  · subst e
    exact .inr (by simp)
  · refine (q.pages.waits k pk hk ?_).imp_right fun hm => by simp [hm]
    rw [State.held_eq_nil] at hh ⊢
    intro o ho
    have hn : o ∉ s.held p := fun hm => s.refOf_ne e (Option.some.inj (ho.symm.trans ((s.mem_held p o).1 hm)))
    exact hh o (by rw [holder, if_neg hn, hr, ho])

/-! ### The states of a page -/

theorem updPage (q : Fit D X s0 L s) {p : PageId} {f : Page → Page} (hf : ∀ x, (f x).request = x.request)
    (h1 : ∀ pg, s.page p = some pg → (f pg).state = .waiting → s.held p = [] ∧ (f pg).chime = none)
    (h2 : ∀ pg, s.page p = some pg → s.held p = [] → (f pg).state = .waiting ∨ s.refOf p ∈ L')
    (hL : ∀ k, k ≠ p → s.refOf k ∈ L → s.refOf k ∈ L') : Fit D X s0 L' (s.updPage p f) :=
  ⟨q.calm.trans (.of_eq rfl rfl (fun _ => rfl) rfl),
    q.stations.of_eq rfl (fun _ => rfl) rfl fun _ => (SamePages.updPage s p hf).present rfl _,
    q.pages.updPage hf h1 h2 hL, q.esc.of_same rfl rfl (SamePages.updPage s p hf)⟩

/-- A page that holds nothing returns to WAITING (R119, R136). -/
theorem toWaiting (q : Fit D X s0 L s) {p : PageId} (h : s.held p = []) (hL : ∀ k, k ≠ p → s.refOf k ∈ L → s.refOf k ∈ L') :
    Fit D X s0 L' (s.toWaiting p) :=
  q.updPage (fun _ => rfl) (fun _ _ _ => ⟨h, rfl⟩) (fun _ _ _ => .inl rfl) hL

end Fit
end Sys2Proof.Machine
end

