-- ==== Sys2Proof/Proofs/Takes.lean ====
section
/-! SUPPORT. Takes, losses, reviews, and the ends of pages, each with what it keeps of the agreement of pages and stations. -/

namespace Sys2Proof.Machine

/-- The record of a page in use becomes FREE: the escalation pages of the groups left agree when its own group forgets it. -/
theorem EscFits.gone {X X' : GroupId → Prop} {s t : State} (q : EscFits X s) {p : PageId} {pg : Page} (hp : s.page p = some pg)
    (hX : ∀ g, ¬ X' g → ¬ X g) (hc : t.calls = s.calls) (hq : ∀ g, (t.group g).queue = (s.group g).queue)
    (hn : t.page p = none) (hk : ∀ k : PageId, k ≠ p → t.pages[k] = s.pages[k])
    (hr : ∀ g, ¬ X' g → ((t.group g).repeatDeadline.isSome = true ∨ (t.group g).repeatDue = true) →
      (s.group g).repeatDeadline.isSome = true ∨ (s.group g).repeatDue = true)
    (he : ∀ g, ¬ X' g → (t.group g).escPage = if pg.escGroup = some g then none else (s.group g).escPage) :
    EscFits X' t := by
  have hin : ∀ g, t.inEscalation g = s.inEscalation g := fun g => State.inEscalation_of_eq hc (hq g)
  refine ⟨fun g r hx h => ?_, fun g hx h => hin g ▸ q.again g (hX g hx) (hr g hx h), fun k pk g hx hpk h => ?_⟩
  · rw [he g hx] at h
    split at h
    · simp at h
    · rename_i hne
      obtain ⟨h1, pk, h2, h3⟩ := q.page g r (hX g hx) h
      have e : r.id ≠ p := fun e => by
        rw [State.pageAt_iff, e, hp] at h2
        exact hne (Option.some.inj h2.2 ▸ h3)
      refine ⟨hin g ▸ h1, pk, ?_, h3⟩
      rw [State.pageAt_iff] at h2 ⊢
      simpa [State.refOf, State.page, hk r.id e] using h2
  · have e : k ≠ p := fun e => by simp [e, hn] at hpk
    have hpk' : s.page k = some pk := by simpa [State.page, hk k e] using hpk
    have hs := q.made k pk g (hX g hx) hpk' h
    have hne : pg.escGroup ≠ some g := fun hg =>
      s.refOf_ne e (Option.some.inj (hs.symm.trans (q.made p pg g (hX g hx) hp hg)))
    rw [he g hx, if_neg hne, hs]
    simp [State.refOf, hk k e]

/-- While a group has no escalation page, no page in use is its own. -/
theorem EscFits.unmade {X : GroupId → Prop} {s : State} (q : EscFits X s) {g : GroupId} (hx : ¬ X g)
    (h : (s.group g).escPage = none) : ∀ p pg, s.page p = some pg → pg.escGroup ≠ some g := by
  intro p pg hp e
  have := q.made p pg g hx hp e
  simp [h] at this

namespace Fit

variable {D : StationId → Prop} {X X' : GroupId → Prop} {s0 s t : State} {L L' : List PageRef}

/-- The record of a page that holds nothing and to which no station listens becomes FREE. -/
theorem freeRecord {p : PageId} {pg : Page} (q : Fit D X s0 L s) (hp : s.page p = some pg)
    (hL : ∀ k, k ≠ p → s.refOf k ∈ L → s.refOf k ∈ L')
    (ho : ∀ o, (s.output o).state.holder ≠ some (s.refOf p)) (hl : ∀ i, (s.station i).state ≠ .pageListen (s.refOf p))
    (hX : ∀ g, ¬ X' g → ¬ X g ∧ pg.escGroup ≠ some g) (f : PageRec → PageRec) (hf : ∀ x, (f x).page = none) :
    Fit D X' s0 L' (s.updPageRec p f) := by
  have gone : (s.updPageRec p f).page p = none := by
    unfold State.page
    rw [State.pages_updPageRec_self]
    exact hf _
  have other : ∀ r, r ≠ s.refOf p → (s.pageAt r).isSome = true → (s.updPageRec p f).pageAt r = s.pageAt r := by
    intro r hr hs
    refine s.pageAt_updPageRec_ne (fun e => hr ?_) f
    obtain ⟨pk, hk⟩ := Option.isSome_iff_exists.1 hs
    rw [← ((State.pageAt_iff s r pk).1 hk).1, e]
  have live : ∀ k pk, (s.updPageRec p f).page k = some pk → k ≠ p ∧ s.page k = some pk := by
    intro k pk hk
    have e : k ≠ p := fun e => by simp [e, gone] at hk
    exact ⟨e, by rwa [s.page_updPageRec_ne e] at hk⟩
  refine ⟨q.calm.trans (.of_eq rfl rfl (fun _ => rfl) rfl), ?_, ⟨fun o r h => ?_, fun k pk hk hh => ?_, fun i r h => ?_,
    fun k pk hk hw => ?_⟩, ?_⟩
  · refine q.stations.of_eq rfl (fun _ => rfl) rfl fun i => State.present_congr (fun _ _ => rfl) fun r hr => ?_
    obtain ⟨pk, hk, -⟩ := q.pages.listens i r hr
    rw [other r (fun e => hl i (e ▸ hr)) (by simp [hk])]
  · obtain ⟨pk, hk, h2⟩ := q.pages.holder o r h
    exact ⟨pk, by rw [other r (fun e => ho o (e ▸ h)) (by simp [hk]), hk], h2⟩
  · obtain ⟨e, hk'⟩ := live k pk hk
    have hr := s.refOf_updPageRec_ne e f
    rw [hr]
    refine (q.pages.waits k pk hk' ?_).imp_right (hL k e)
    rwa [State.held_congr (s := s) (t := s.updPageRec p f) (fun _ => rfl) hr] at hh
  · obtain ⟨pk, hk, h2⟩ := q.pages.listens i r h
    exact ⟨pk, by rw [other r (fun e => hl i (e ▸ h)) (by simp [hk]), hk], h2⟩
  · exact q.pages.chime k pk (live k pk hk).2 hw
  · exact q.esc.gone hp (fun g hx => (hX g hx).1) rfl (fun _ => rfl) gone (fun k e => s.pages_updPageRec_ne e f)
      (fun _ _ h => h) fun g hx => by rw [if_neg (hX g hx).2]; rfl

/-- Steps 1 to 6 of a page's end: the record is FREE, every other record is as it was, and no group has changed. -/
theorem endPageRecord (q : Fit D X s0 L s) {p : PageId} {pg : Page} (hp : s.page p = some pg)
    (hL : ∀ k, k ≠ p → s.refOf k ∈ L → s.refOf k ∈ L') (hX : ∀ g, ¬ X' g → ¬ X g ∧ pg.escGroup ≠ some g) (why : EndReason) :
    Fit D X' s0 L' (s.endPageRecord p why) ∧ (s.endPageRecord p why).groups = s.groups ∧
      (s.endPageRecord p why).page p = none ∧ ∀ k : PageId, k ≠ p → (s.endPageRecord p why).pages[k] = s.pages[k] := by
  obtain ⟨q1, stays, free⟩ := q.releases p
  obtain ⟨q2, hpages, hout, hgr, quiet⟩ := q1.releaseJoined p
  unfold State.endPageRecord
  rw [hp]
  dsimp only
  generalize hA : (s.held p).foldl State.release s = A at *
  have hAp : A.pages = s.pages := by rw [stays]
  have hAg : A.groups = s.groups := by rw [stays]
  generalize hB : A.releaseJoined p = B at *
  have hpg : B.pages = s.pages := hpages.trans hAp
  have hr : ∀ k, B.refOf k = s.refOf k := fun k => by simp [State.refOf, hpg]
  have hrA : A.refOf p = s.refOf p := by simp [State.refOf, hAp]
  have q3 := q2.freeRecord (X' := X') (L' := L') (p := p) (pg := pg) (by simpa [State.page, hpg] using hp)
    (fun k e h => by
      rw [hr] at h ⊢
      exact (List.mem_cons.1 h).elim (fun h => absurd h (s.refOf_ne e)) (hL k e))
    (fun o => by rw [hr, State.output, hout]; exact free o) (fun i => by rw [hr, ← hrA]; exact quiet i) hX
    (fun x => { gen := x.gen + 1, page := none }) fun _ => rfl
  refine ⟨q3.advise _, hgr.trans hAg, ?_, fun k e => ?_⟩
  · show (B.updPageRec p fun x => { gen := x.gen + 1, page := none }).page p = none
    unfold State.page
    rw [State.pages_updPageRec_self]
  · show (B.updPageRec p fun x => { gen := x.gen + 1, page := none }).pages[k] = _
    rw [State.pages_updPageRec_ne _ e]
    simp [hpg]

/-- A change of groups alone that leaves their queues. -/
theorem withGroups (q : Fit D X s0 L s) (ht : t = { s with groups := t.groups })
    (hq : ∀ g, (t.group g).queue = (s.group g).queue) (he : EscFits X' t) : Fit D X' s0 L t := by
  obtain ⟨gr, rfl⟩ : ∃ gr, t = { s with groups := gr } := ⟨_, ht⟩
  exact ⟨q.calm.trans (.of_eq rfl rfl hq rfl), q.stations.of_views rfl rfl rfl rfl rfl,
    q.pages.of_views rfl (fun _ => rfl) fun _ _ h => h, he⟩

theorem forgetEscPage_stays (s : State) (r : PageRef) (g : Option GroupId) :
    s.forgetEscPage r g = { s with groups := (s.forgetEscPage r g).groups } := by
  unfold State.forgetEscPage
  split
  · rfl
  · split <;> rfl

theorem forgetEscPage_group (s : State) (r : PageRef) (g : Option GroupId) (k : GroupId) :
    (s.forgetEscPage r g).group k =
      if g = some k ∧ (s.group k).escPage = some r then { s.group k with escPage := none } else s.group k := by
  unfold State.forgetEscPage
  split
  · simp
  · rename_i x
    by_cases e : k = x
    · subst e
      split <;> simp [*]
    · split
      · rw [s.group_updGroup_ne e]
        simp [Ne.symm e]
      · simp [Ne.symm e]

/-- A stripped page: WAITING again, or ended when it has no wait. -/
theorem strip (q : Fit D X s0 L s) {p : PageId} {pg : Page} (hp : s.page p = some pg) (hh : s.held p = [])
    (hL : ∀ k, k ≠ p → s.refOf k ∈ L → s.refOf k ∈ L') : Fit D X s0 L' (s.strip p pg) := by
  unfold State.strip
  split
  · obtain ⟨q1, hg, hn, hk⟩ := q.endPageRecord (X' := fun g => X g ∨ pg.escGroup = some g) hp hL (fun g h => not_or.1 h) .preempted
    have group := forgetEscPage_group (s.endPageRecord p .preempted) (s.refOf p) pg.escGroup
    have stays := forgetEscPage_stays (s.endPageRecord p .preempted) (s.refOf p) pg.escGroup
    have same : ∀ k, (s.endPageRecord p .preempted).group k = s.group k := fun k => by simp [State.group, hg]
    generalize hu : s.endPageRecord p .preempted = u at *
    have hc : u.calls = s.calls := q1.calm.calls.trans q.calm.calls.symm
    refine q1.withGroups stays (fun g => by rw [group]; split <;> rfl) (q.esc.gone hp (fun _ h => h) ?_ (fun g => ?_) ?_ ?_
      (fun g _ => ?_) fun g hx => ?_)
    · rw [stays]; exact hc
    · rw [group]; split <;> simp [same]
    · rw [stays]; exact hn
    · rw [stays]; exact hk
    · rw [group]; split <;> simp [same]
    · rw [group, same]
      by_cases e : pg.escGroup = some g
      · simp [e, q.esc.made p pg g hx hp e]
      · simp [e]
  · exact (releaseJoined (q.toWaiting hh hL) p).1.advisePage p _

/-- A losing page is dealt with. -/
theorem settleLoss {r : PageRef} (q : Fit D X s0 (r :: L) s) : Fit D X s0 L (s.settleLoss r) := by
  unfold State.settleLoss
  split
  · rename_i hr
    refine ⟨q.calm, q.stations, q.pages.weaken fun p hm hp _ => ?_, q.esc⟩
    rcases List.mem_cons.1 hm with e | h
    · rw [← e, State.pageAt_refOf] at hr
      simp [hr] at hp
    · exact h
  · rename_i pg hr
    obtain ⟨e, hp⟩ := (State.pageAt_iff s r pg).1 hr
    split
    · rename_i hh
      refine q.strip hp hh fun k hk hm => ?_
      rcases List.mem_cons.1 hm with h | h
      · exact absurd (congrArg PageRef.id h) hk
      · exact h
    · rename_i hh
      refine ⟨q.calm, q.stations, q.pages.weaken fun p hm _ hp => ?_, q.esc⟩
      rcases List.mem_cons.1 hm with h | h
      · rw [← h] at hh
        exact absurd hp hh
      · exact h

theorem settleLosses (l : List PageRef) : ∀ {s : State}, Fit D X s0 l s → Fit D X s0 [] (l.foldl State.settleLoss s) := by
  induction l with
  | nil => exact id
  | cons r l ih => exact fun q => ih q.settleLoss

theorem mem_losersOf (s : State) (outs : List OutputId) (r : PageRef) :
    r ∈ s.losersOf outs ↔ ∃ o ∈ outs, (s.output o).state.holder = some r := by
  rw [State.losersOf, keepFirst_eq, List.mem_eraseDups]
  simp

/-- Grants and a change of the page commute. -/
theorem grants_updPage (r : PageRef) (p : PageId) (f : Page → Page) (outs : List OutputId) (s : State) :
    outs.foldl (State.grant r) (s.updPage p f) = (outs.foldl (State.grant r) s).updPage p f := by
  induction outs generalizing s with
  | nil => rfl
  | cons o outs ih => exact ih (State.grant r s o)

/-- Steps 1 to 3 of a take of outputs that the page wants. -/
theorem takeSteps (q : Fit D X s0 [] s) {p : PageId} {pg : Page} {outs : List OutputId} (hp : s.page p = some pg)
    (ho : ∀ o ∈ outs, o ∈ outputsOf pg.zoneOutputs) (hne : outs ≠ []) : Fit D X s0 [] (s.takeSteps p outs) := by
  unfold State.takeSteps
  dsimp only
  refine settleLosses _ ?_
  rw [hp]
  by_cases hw : pg.state = .waiting
  · rw [if_pos (by simp [hw])]
    let f : Page → Page := fun pg => { pg with state := .starting, waitDeadline := none, started := true, chime := none }
    have q1 : Fit D X s0 [s.refOf p] (s.updPage p f) :=
      q.updPage (fun _ => rfl) (by simp [f]) (fun _ _ _ => .inr (by simp)) (by simp)
    have q2 := q1.grants (pg := f pg) (L' := s.losersOf outs) (by rw [State.page_updPage_self, hp]; rfl) (by simp [f]) ho hne
      (by simp) fun o h r hr => (mem_losersOf s outs r).2 ⟨o, h, hr⟩
    rw [State.refOf_updPage, grants_updPage] at q2
    exact ((q2.1.advisePage p _).joinDesks p).1
  · rw [if_neg (by simp [hw])]
    exact (q.grants hp hw ho hne (by simp) fun o h r hr => (mem_losersOf s outs r).2 ⟨o, h, hr⟩).1

/-- What a page takes it wants. -/
theorem takeableOf_subset (s : State) (c : PageClass) (whole : Bool) (outs : List OutputId) :
    ∀ o ∈ s.takeableOf c whole outs, o ∈ outs := by
  intro o h
  unfold State.takeableOf at h
  split at h
  · split at h
    · exact h
    · simp at h
  · exact (List.mem_filter.1 h).1

/-- The first taker of the wait order is a page in use, and takes some of the outputs it wants. -/
theorem firstTaker_takes {p : PageId} {outs : List OutputId} (h : s.firstTaker = some (p, outs)) :
    outs ≠ [] ∧ ∃ pg, s.page p = some pg ∧ ∀ o ∈ outs, o ∈ outputsOf pg.zoneOutputs := by
  obtain ⟨k, -, hk⟩ := List.exists_of_findSome?_eq_some h
  cases ht : s.takeable k with
  | nil => simp [ht] at hk
  | cons o l =>
    simp only [ht, Option.some.injEq, Prod.mk.injEq] at hk
    obtain ⟨rfl, rfl⟩ := hk
    unfold State.takeable at ht
    cases hp : s.page k with
    | none => simp [hp] at ht
    | some pg =>
      refine ⟨by simp, pg, rfl, fun x hx => ?_⟩
      simp only [hp] at ht
      have := takeableOf_subset s _ _ _ x (ht ▸ hx)
      simp only [State.wanted, hp, List.mem_filter] at this
      exact this.1

theorem reviewWalks (n : Nat) : ∀ {s : State}, Fit D X s0 [] s → Fit D X s0 [] (State.reviewWalks n s) := by
  induction n with
  | zero => exact id
  | succ n ih =>
    intro s q
    unfold State.reviewWalks
    split
    · exact q
    · rename_i p outs h
      obtain ⟨hne, pg, hp, ho⟩ := firstTaker_takes h
      exact ih (q.takeSteps hp ho hne)

theorem reviewPages (q : Fit D X s0 [] s) : Fit D X s0 [] s.reviewPages := q.reviewWalks _

end Fit

/-! ### What takes and reviews do to the pages in use -/

namespace Keeps

theorem of_advise (s : State) (a : Advisory) : Keeps s (s.advise a) := of_eq rfl

theorem of_advisePage (s : State) (p : PageId) (e : PageEvent) : Keeps s (s.advisePage p e) := by
  unfold State.advisePage
  split
  · exact refl s
  · exact of_advise s _

theorem of_joinDesks (s : State) (p : PageId) : Keeps s (s.joinDesks p) := by
  unfold State.joinDesks
  split
  · exact refl s
  · exact of_eq (List.foldlRecOn (motive := fun t : State => t.pages = s.pages) _ _ rfl fun t h i _ =>
      (Fit.joinDesk_pages p _ t i).trans h)

theorem of_releaseJoined (s : State) (p : PageId) : Keeps s (s.releaseJoined p) :=
  of_eq (List.foldlRecOn (motive := fun t : State => t.pages = s.pages) _ _ rfl fun t h i _ => (t.enterState_pages i .idle).trans h)

theorem of_updPage (s : State) (p : PageId) {f : Page → Page} (hf : ∀ x, (f x).request = x.request) : Keeps s (s.updPage p f) :=
  of_same (.updPage s p hf)

theorem of_grants (r : PageRef) (outs : List OutputId) (s : State) : Keeps s (outs.foldl (State.grant r) s) :=
  of_eq (List.foldlRecOn (motive := fun t : State => t.pages = s.pages) _ _ rfl fun _ h _ _ => h)

theorem of_enterStarting (s : State) (p : PageId) : Keeps s (s.enterStarting p) := by
  unfold State.enterStarting
  exact Keeps.trans (Keeps.trans (of_updPage s p (by exact fun _ => rfl)) (of_advisePage _ p _)) (of_joinDesks _ p)

/-- The end of a page with no wait. -/
theorem of_endPageRecord {s : State} {p : PageId} {pg : Page} (hp : s.page p = some pg) (hw : pg.waitLimit = some 0)
    (why : EndReason) : Keeps s (s.endPageRecord p why) := by
  have freed : ∀ (u : State) (f : PageRec → PageRec), u.pages = s.pages → (∀ x, (f x).page = none) →
      Keeps s (u.updPageRec p f) := by
    intro u f hu hf
    have same := Keeps.of_eq hu
    refine ⟨fun k pk hk => ?_, fun k pk hk hwk => ?_⟩
    · have e : k ≠ p := fun e => by
        subst e
        unfold State.page at hk
        rw [State.pages_updPageRec_self, hf] at hk
        simp at hk
      rw [u.page_updPageRec_ne e] at hk
      rw [u.refOf_updPageRec_ne e]
      exact same.made k pk hk
    · have e : k ≠ p := fun e => by
        subst e
        rw [hp] at hk
        exact hwk (Option.some.inj hk ▸ hw)
      rw [u.page_updPageRec_ne e]
      exact same.kept k pk hk hwk
  unfold State.endPageRecord
  rw [hp]
  refine (freed (State.releaseJoined _ p) (fun x => { gen := x.gen + 1, page := none }) ?_ fun _ => rfl).trans (of_advise _ _)
  have h1 : ((s.held p).foldl State.release s).pages = s.pages :=
    List.foldlRecOn (motive := fun t : State => t.pages = s.pages) _ _ rfl fun _ h _ _ => h
  exact List.foldlRecOn (motive := fun t : State => t.pages = s.pages) _ _ h1 fun t h i _ => (t.enterState_pages i .idle).trans h

theorem of_settleLoss (s : State) (r : PageRef) : Keeps s (s.settleLoss r) := by
  unfold State.settleLoss
  split
  · exact refl s
  · rename_i pg hr
    split
    · unfold State.strip
      split
      · rename_i hw
        refine (of_endPageRecord ((State.pageAt_iff s r pg).1 hr).2 hw .preempted).trans (of_eq ?_)
        rw [Fit.forgetEscPage_stays]
      · unfold State.toWaiting
        exact Keeps.trans (Keeps.trans (of_updPage s r.id (by exact fun _ => rfl)) (of_releaseJoined _ _)) (of_advisePage _ _ _)
    · exact refl s

theorem of_takeSteps (s : State) (p : PageId) (outs : List OutputId) : Keeps s (s.takeSteps p outs) := by
  unfold State.takeSteps
  refine List.foldlRecOn (motive := Keeps s) _ _ ?_ fun t h r _ => h.trans (of_settleLoss t r)
  split
  · exact (of_grants _ _ s).trans (of_enterStarting _ p)
  · exact of_grants _ _ s

theorem of_reviewWalks (n : Nat) : ∀ s, Keeps s (State.reviewWalks n s) := by
  induction n with
  | zero => exact refl
  | succ n ih =>
    intro s
    unfold State.reviewWalks
    split
    · exact refl s
    · exact (of_takeSteps s _ _).trans (ih _)

theorem of_reviewPages (s : State) : Keeps s s.reviewPages := of_reviewWalks _ s

end Keeps
end Sys2Proof.Machine
end

