-- ==== Sys2Proof/Proofs/Escalations.lean ====
section
/-! SUPPORT. Pages accepted, escalation pages, the ends of pages and their chimes, each with what it keeps of the agreement of pages and stations. -/

namespace Sys2Proof.Machine
namespace EscFits

variable {X : GroupId → Prop} {s : State} {g : GroupId}

/-- A group whose escalation page and repeat are brought into agreement. -/
theorem settle (q : EscFits (fun k => X k ∨ k = g) s) {f : Group → Group} (hf : (f (s.group g)).queue = (s.group g).queue)
    (h1 : ∀ r, (f (s.group g)).escPage = some r → s.inEscalation g = true ∧ ∃ pg, s.pageAt r = some pg ∧ pg.escGroup = some g)
    (h2 : (f (s.group g)).repeatDeadline.isSome = true ∨ (f (s.group g)).repeatDue = true → s.inEscalation g = true)
    (h3 : ∀ p pg, s.page p = some pg → pg.escGroup = some g → (f (s.group g)).escPage = some (s.refOf p)) :
    EscFits X (s.updGroup g f) := by
  have hq : ∀ k, ((s.updGroup g f).group k).queue = (s.group k).queue := fun k => by
    by_cases e : k = g
    · subst e
      rw [State.group_updGroup_self, hf]
    · rw [s.group_updGroup_ne e]
  have hin : ∀ k, (s.updGroup g f).inEscalation k = s.inEscalation k := fun k => State.inEscalation_of_eq rfl (hq k)
  refine ⟨fun k r hx h => ?_, fun k hx h => ?_, fun p pg k hx hp h => ?_⟩ <;> by_cases e : k = g
  · subst e
    rw [State.group_updGroup_self] at h
    exact hin k ▸ h1 r h
  · rw [s.group_updGroup_ne e] at h
    exact hin k ▸ q.page k r (not_or.2 ⟨hx, e⟩) h
  · subst e
    rw [State.group_updGroup_self] at h
    exact hin k ▸ h2 h
  · rw [s.group_updGroup_ne e] at h
    exact hin k ▸ q.again k (not_or.2 ⟨hx, e⟩) h
  · subst e
    rw [State.group_updGroup_self]
    exact h3 p pg hp h
  · rw [s.group_updGroup_ne e]
    exact q.made p pg k (not_or.2 ⟨hx, e⟩) hp h

/-- A group has at most one page in use of its own. -/
theorem only (q : EscFits X s) (hx : ¬ X g) {p k : PageId} {pg pk : Page} (hp : s.page p = some pg) (hk : s.page k = some pk)
    (h1 : pg.escGroup = some g) (h2 : pk.escGroup = some g) : k = p := by
  by_contra e
  exact s.refOf_ne e (Option.some.inj ((q.made k pk g hx hk h2).symm.trans (q.made p pg g hx hp h1)))

end EscFits

namespace Fit

variable {D : StationId → Prop} {X : GroupId → Prop} {s0 s t : State} {g : GroupId}

/-- The group `g` is settled. -/
theorem settle (q : Fit D (fun k => X k ∨ k = g) s0 [] s) {f : Group → Group}
    (hf : (f (s.group g)).queue = (s.group g).queue)
    (h1 : ∀ r, (f (s.group g)).escPage = some r → s.inEscalation g = true ∧ ∃ pg, s.pageAt r = some pg ∧ pg.escGroup = some g)
    (h2 : (f (s.group g)).repeatDeadline.isSome = true ∨ (f (s.group g)).repeatDue = true → s.inEscalation g = true)
    (h3 : ∀ p pg, s.page p = some pg → pg.escGroup = some g → (f (s.group g)).escPage = some (s.refOf p)) :
    Fit D X s0 [] (s.updGroup g f) := by
  refine q.withGroups rfl (fun k => ?_) (q.esc.settle hf h1 h2 h3)
  by_cases e : k = g
  · subst e
    rw [State.group_updGroup_self, hf]
  · rw [s.group_updGroup_ne e]

theorem exempt (q : Fit D X s0 [] s) (g : GroupId) : Fit D (fun k => X k ∨ k = g) s0 [] s :=
  ⟨q.calm, q.stations, q.pages, q.esc.weaken fun _ h => (not_or.1 h).1⟩

theorem inEscalation_eq (q : Fit D X s0 [] s) {X' : GroupId → Prop} (k : Fit D X' s0 [] t) (g : GroupId) :
    t.inEscalation g = s.inEscalation g := (k.calm.inEscalation g).trans (q.calm.inEscalation g).symm

/-- The repeat of a group in escalation is set or cleared. -/
theorem setRepeat (q : Fit D X s0 [] s) (hx : ¬ X g) {f : Group → Group} (hf : (f (s.group g)).queue = (s.group g).queue)
    (he : (f (s.group g)).escPage = (s.group g).escPage) (hin : s.inEscalation g = true) : Fit D X s0 [] (s.updGroup g f) :=
  (q.exempt g).settle hf (fun r h => q.esc.page g r hx (he ▸ h)) (fun _ => hin) fun p pg hp h => he ▸ q.esc.made p pg g hx hp h

/-! ### Pages accepted (R116, R117, R119) -/

/-- A FREE record takes a page that waits, holding nothing. -/
theorem newRecord (q : Fit D X s0 [] s) {p : PageId} {pg : Page} (hp : s.page p = none) (hw : pg.state = .waiting)
    (hc : pg.chime = none) (hesc : ∀ g, pg.escGroup = some g → X g) :
    Fit D X s0 [] (s.updPageRec p fun r => { r with page := some pg }) := by
  have hr : ∀ k, (s.updPageRec p fun r => { r with page := some pg }).refOf k = s.refOf k := fun k => by
    by_cases e : k = p
    · subst e
      unfold State.refOf
      rw [State.pages_updPageRec_self]
    · exact s.refOf_updPageRec_ne e _
  have hself : (s.updPageRec p fun r => { r with page := some pg }).page p = some pg := by
    unfold State.page
    rw [State.pages_updPageRec_self]
  have old : ∀ r pk, s.pageAt r = some pk → (s.updPageRec p fun r => { r with page := some pg }).pageAt r = some pk := by
    intro r pk h
    rw [s.pageAt_updPageRec_ne (fun e => ?_), h]
    rw [State.pageAt_iff, e, hp] at h
    exact absurd h.2 (by simp)
  have fresh : ∀ k pk, (s.updPageRec p fun r => { r with page := some pg }).page k = some pk →
      (k = p ∧ pk = pg) ∨ s.page k = some pk := by
    intro k pk h
    by_cases e : k = p
    · subst e
      rw [hself] at h
      exact .inl ⟨rfl, (Option.some.inj h).symm⟩
    · rw [s.page_updPageRec_ne e] at h
      exact .inr h
  have hin : ∀ g, (s.updPageRec p fun r => { r with page := some pg }).inEscalation g = s.inEscalation g := fun _ => rfl
  refine ⟨q.calm.trans (.of_eq rfl rfl (fun _ => rfl) rfl), ?_, ⟨fun o r h => ?_, fun k pk hk hh => ?_, fun i r h => ?_,
    fun k pk hk hwk => ?_⟩, ⟨fun g r hx h => ?_, fun g hx h => q.esc.again g hx h, fun k pk g hx hk h => ?_⟩⟩
  · refine q.stations.of_eq rfl (fun _ => rfl) rfl fun i => State.present_congr (fun _ _ => rfl) fun r h => ?_
    obtain ⟨pk, hk, -⟩ := q.pages.listens i r h
    rw [old r pk hk, hk]
  · obtain ⟨pk, hk, h2⟩ := q.pages.holder o r h
    exact ⟨pk, old r pk hk, h2⟩
  · rcases fresh k pk hk with ⟨-, rfl⟩ | h
    · exact .inl hw
    · rw [hr]
      refine q.pages.waits k pk h ?_
      rwa [State.held_congr (s := s) (t := s.updPageRec p fun r => { r with page := some pg }) (fun _ => rfl) (hr k)] at hh
  · obtain ⟨pk, hk, h2⟩ := q.pages.listens i r h
    exact ⟨pk, old r pk hk, h2⟩
  · rcases fresh k pk hk with ⟨-, rfl⟩ | h
    · exact hc
    · exact q.pages.chime k pk h hwk
  · obtain ⟨h1, pk, h2, h3⟩ := q.esc.page g r hx h
    exact ⟨h1, pk, old r pk h2, h3⟩
  · rcases fresh k pk hk with ⟨-, rfl⟩ | h'
    · exact absurd (hesc g h) hx
    · rw [hr]
      exact q.esc.made k pk g hx h' h

/-- An accepted page starts or waits. -/
theorem acceptPage (q : Fit D X s0 [] s) {p : PageId} {pg : Page} (hp : s.page p = none) (hw : pg.state = .waiting)
    (hc : pg.chime = none) (hesc : ∀ g, pg.escGroup = some g → X g) :
    Fit D X s0 [] (s.acceptPage p pg) ∧ Keeps (s.updPageRec p fun r => { r with page := some pg }) (s.acceptPage p pg) := by
  have q1 := q.newRecord hp hw hc hesc
  have hself : (s.updPageRec p fun r => { r with page := some pg }).page p = some pg := by
    unfold State.page
    rw [State.pages_updPageRec_self]
  unfold State.acceptPage
  dsimp only
  split
  · refine ⟨(q1.toWaiting ?_ (by simp)).advisePage p _, .trans ?_ (Keeps.of_advisePage _ p _)⟩
    · rw [State.held_eq_nil]
      intro o ho
      obtain ⟨pk, h1, h2, -⟩ := q1.pages.holder o _ ho
      rw [State.pageAt_refOf, hself] at h1
      exact h2 (Option.some.inj h1 ▸ hw)
    · unfold State.toWaiting
      exact Keeps.of_updPage _ p (by exact fun _ => rfl)
  · rename_i hne
    exact ⟨(q1.takeSteps hself (takeableOf_subset s _ _ _) hne).reviewPages,
      (Keeps.of_takeSteps _ p _).trans (Keeps.of_reviewPages _)⟩

/-! ### Escalation pages (R81 to R84) -/

theorem adviseEscalate (q : Fit D X s0 [] s) (g : GroupId) (r : EscReport) : Fit D X s0 [] (s.adviseEscalate g r) := q.advise _

/-- A page attempt of a group in escalation that has no page. -/
theorem pageAttempt (q : Fit D X s0 [] s) (hx : ¬ X g) (hn : (s.group g).escPage = none) (hin : s.inEscalation g = true)
    (hrep : s.cfg.RepeatsFit) : Fit D X s0 [] (s.pageAttempt g) := by
  unfold State.pageAttempt
  dsimp only
  split
  · exact q.adviseEscalate g _
  · split
    · exact q.adviseEscalate g _
    · rename_i p hfree
      have hp : s.page p = none := by simpa using List.find?_some hfree
      generalize hpg : s.escPageOf g (s.escZones g) = pg
      have hg : pg.escGroup = some g := by rw [← hpg]; rfl
      have hlim : pg.waitLimit ≠ some 0 := by
        have := hrep g
        rw [← hpg]
        simp only [State.escPageOf, State.groupCfg, ne_eq, Option.some.injEq]
        intro e
        exact absurd this (by rw [show s.cfg.groups[g].repeatInterval = 0 from e]; decide)
      obtain ⟨q1, k⟩ := (q.exempt g).acceptPage (pg := pg) hp (by rw [← hpg]; rfl) (by rw [← hpg]; rfl) fun x hx' => by
        rw [hg] at hx'
        exact .inr (Option.some.inj hx').symm
      have hself : (s.updPageRec p fun r => { r with page := some pg }).page p = some pg := by
        unfold State.page
        rw [State.pages_updPageRec_self]
      have href : (s.updPageRec p fun r => { r with page := some pg }).refOf p = s.refOf p := by
        unfold State.refOf
        rw [State.pages_updPageRec_self]
      obtain ⟨pk, hk⟩ := Option.isSome_iff_exists.1 (k.kept p pg hself hlim)
      obtain ⟨e1, pg', e2, e3⟩ := k.made p pk hk
      obtain rfl := Option.some.inj (hself.symm.trans e2)
      rw [href] at e1
      have hin' : (s.acceptPage p pg).inEscalation g = true := (q.inEscalation_eq q1 g).trans hin
      refine (q1.settle rfl (fun r h => ⟨hin', pk, ?_, ?_⟩) (fun _ => hin') fun l pl hl h => ?_).adviseEscalate g _
      · obtain rfl := Option.some.inj h
        rw [← e1, State.pageAt_refOf, hk]
      · exact ((Page.request_eq_iff _ _).1 e3).1.trans hg
      · obtain ⟨l1, pl', l2, l3⟩ := k.made l pl hl
        by_cases e : l = p
        · subst e
          rw [e1]
        · rw [s.page_updPageRec_ne e] at l2
          exact absurd (((Page.request_eq_iff _ _).1 l3).1.symm.trans h) (q.esc.unmade hx hn l pl' l2)

/-- Escalation starts for a group whose queue holds an escalated call. -/
theorem escalationStart (q : Fit D X s0 [] s) (hx : ¬ X g) (hn : (s.group g).escPage = none) (hin : s.inEscalation g = true)
    (hrep : s.cfg.RepeatsFit) : Fit D X s0 [] (s.escalationStart g) := by
  have q1 : Fit D X s0 [] (s.updGroup g fun x => { x with repeatDue := false, repeatDeadline := some (s.repeatFrom g) }) :=
    q.setRepeat hx rfl rfl hin
  exact q1.pageAttempt hx (by rw [State.group_updGroup_self]; exact hn) ((q.inEscalation_eq q1 g).trans hin) hrep

/-- A page ends: every group but its own is as before, and its own is told, but of a clearing. -/
theorem endPage (q : Fit D X s0 [] s) (p : PageId) {why : EndReason} (hwhy : why ≠ .escalationCleared)
    (hx : ∀ pg g, s.page p = some pg → pg.escGroup = some g → ¬ X g) (hrep : s.cfg.RepeatsFit) :
    Fit D X s0 [] (s.endPage p why) := by
  unfold State.endPage
  split
  · exact q
  · rename_i pg hp
    have told : Fit D X s0 []
        (match pg.escGroup with
          | none => s.endPageRecord p why
          | some g => if why = .escalationCleared then s.endPageRecord p why
            else (s.endPageRecord p why).escPageEnded (s.refOf p) g) := by
      split
      · rename_i he
        exact (q.endPageRecord hp (by simp) (fun g h => ⟨h, by simp [he]⟩) why).1
      · rename_i g he
        have hg := hx pg g hp he
        obtain ⟨q1, hgr, hn, hk⟩ := q.endPageRecord (X' := fun k => X k ∨ k = g) (L' := []) hp (by simp)
          (fun k h => ⟨(not_or.1 h).1, fun e => (not_or.1 h).2 (Option.some.inj (e.symm.trans he))⟩) why
        have hgroup : (s.endPageRecord p why).group g = s.group g := by simp [State.group, hgr]
        have hcfg : (s.endPageRecord p why).cfg = s.cfg := q1.calm.cfg.trans q.calm.cfg.symm
        have hesc := q.esc.made p pg g hg hp he
        have hin : (s.endPageRecord p why).inEscalation g = true :=
          (q.inEscalation_eq q1 g).trans (q.esc.page g _ hg hesc).1
        generalize s.endPageRecord p why = u at *
        have q2 : Fit D X s0 [] (u.updGroup g fun x => { x with escPage := none }) := by
          refine q1.settle rfl (fun r h => by simp at h) (fun _ => hin) fun k pk hpk h => ?_
          have e : k ≠ p := fun e => by simp [e, hn] at hpk
          exact absurd (q.esc.only hg hp (by simpa [State.page, hk k e] using hpk) he h) e
        rw [if_neg hwhy]
        unfold State.escPageEnded
        rw [hgroup, if_pos hesc]
        dsimp only
        split
        · have hin2 := (q1.inEscalation_eq q2 g).trans hin
          have q3 : Fit D X s0 [] ((u.updGroup g fun x => { x with escPage := none }).updGroup g
              fun x => { x with repeatDue := false }) := q2.setRepeat hg rfl rfl hin2
          have q4 := q3.pageAttempt hg (by simp) ((q2.inEscalation_eq q3 g).trans hin2) (hcfg ▸ hrep)
          exact q4.setRepeat hg rfl rfl ((q2.inEscalation_eq q4 g).trans hin2)
        · exact q2
    dsimp only
    by_cases hh : s.held p = []
    · rw [if_pos hh]
      exact told
    · rw [if_neg hh]
      exact told.reviewPages

/-- Escalation of the group `g` is cleared; whether its queue still holds an escalated call does not matter. -/
theorem escalationClear (q : Fit D (fun k => X k ∨ k = g) s0 [] s)
    (h1 : ∀ r, (s.group g).escPage = some r → ∃ pg, s.pageAt r = some pg ∧ pg.escGroup = some g)
    (h2 : ∀ p pg, s.page p = some pg → pg.escGroup = some g → (s.group g).escPage = some (s.refOf p)) :
    Fit D X s0 [] (s.escalationClear g) := by
  have cleared : ∀ u, Fit D (fun k => X k ∨ k = g) s0 [] u → (∀ p pg, u.page p = some pg → pg.escGroup ≠ some g) →
      Fit D X s0 [] ((u.updGroup g fun x => { x with escPage := none, repeatDeadline := none, repeatDue := false }).adviseEscalate g
        .cleared) := fun u qu hu =>
    (qu.settle rfl (fun r h => by simp at h) (fun h => by simp at h) fun p pg hp h => absurd h (hu p pg hp)).adviseEscalate g _
  unfold State.escalationClear
  dsimp only
  cases he : (s.group g).escPage with
  | none => exact cleared s q fun p pg hp h => by simp [he] at h2; exact h2 p pg hp h
  | some r =>
    obtain ⟨pg, hr, hg⟩ := h1 r he
    obtain ⟨e, hp⟩ := (State.pageAt_iff s r pg).1 hr
    dsimp only
    rw [if_pos (by simp [hr])]
    obtain ⟨q1, -, hn, hk⟩ := q.endPageRecord (X' := fun k => X k ∨ k = g) (L' := []) hp (by simp)
      (fun k h => ⟨h, fun e => (not_or.1 h).2 (Option.some.inj (e.symm.trans hg))⟩) .escalationCleared
    have none_left : ∀ k pk, (s.endPageRecord r.id .escalationCleared).page k = some pk → pk.escGroup ≠ some g := by
      intro k pk hpk h
      have e' : k ≠ r.id := fun e' => by simp [e', hn] at hpk
      have := h2 k pk (by simpa [State.page, hk k e'] using hpk) h
      rw [he] at this
      exact e' (congrArg PageRef.id (Option.some.inj this)).symm
    have ended : s.endPage r.id .escalationCleared =
        if s.held r.id = [] then s.endPageRecord r.id .escalationCleared
        else (s.endPageRecord r.id .escalationCleared).reviewPages := by
      unfold State.endPage
      rw [hp]
      dsimp only
      rw [hg]
      simp
    rw [ended]
    split
    · exact cleared _ q1 none_left
    · refine cleared _ q1.reviewPages fun k pk hpk h => ?_
      obtain ⟨-, pk', h3, h4⟩ := (Keeps.of_reviewPages _).made k pk hpk
      exact none_left k pk' h3 (((Page.request_eq_iff _ _).1 h4).1.symm.trans h)

/-! ### Opening steps and chimes (R134, R142 to R145) -/

/-- A page that has started changes, and stays started. -/
theorem updStarted (q : Fit D X s0 [] s) {p : PageId} {pg : Page} (hp : s.page p = some pg) (hw : pg.state ≠ .waiting)
    {f : Page → Page} (hf : ∀ x, (f x).request = x.request) (hfw : (f pg).state ≠ .waiting) :
    Fit D X s0 [] (s.updPage p f) := by
  refine q.updPage hf (fun pk hk h => ?_) (fun pk hk h => ?_) (by simp)
  · obtain rfl := Option.some.inj (hp.symm.trans hk)
    exact absurd h hfw
  · obtain rfl := Option.some.inj (hp.symm.trans hk)
    exact absurd (by simpa using q.pages.waits p pg hp h) hw

theorem openingStep (q : Fit D X s0 [] s) (p : PageId) : Fit D X s0 [] (s.openingStep p) := by
  unfold State.openingStep
  split
  · exact q
  · rename_i pg hp
    split
    · rename_i h
      have hw : pg.state ≠ .waiting := by simp [h.1]
      split
      · exact q.updStarted hp hw (by exact fun _ => rfl) hw
      · exact (q.updStarted hp hw (by exact fun _ => rfl) (by simp)).advisePage p _
      · exact (q.updStarted hp hw (by exact fun _ => rfl) (by simp)).advisePage p _
    · exact q

/-- The chime of a page completes. -/
theorem chimeComplete (q : Fit D (fun _ => False) s0 [] s) {p : PageId} {pg : Page} (hp : s.page p = some pg)
    (hw : pg.state ≠ .waiting) (hrep : s.cfg.RepeatsFit) : Fit D (fun _ => False) s0 [] (s.chimeComplete p pg) := by
  have q1 : Fit D (fun _ => False) s0 [] (s.updPage p fun x => { x with chime := none }) :=
    q.updStarted hp hw (by exact fun _ => rfl) hw
  unfold State.chimeComplete
  dsimp only
  split
  · exact (q1.updStarted (pg := { pg with chime := none }) (by rw [State.page_updPage_self, hp]; rfl) hw (by exact fun _ => rfl)
      (by simp)).advisePage p _
  · exact q1.endPage p (by simp) (fun _ _ _ _ => id) hrep

end Fit
end Sys2Proof.Machine
end

