-- ==== Sys2Proof/Proofs/Hunting.lean ====
section
/-! SUPPORT. What the Hunt Engine keeps: calls, queues and rings in agreement with the stations and the pages, and the engine's elementary moves. -/

namespace Sys2Proof.Machine

/-! ## The agreement of calls, queues and rings -/

/-- Handles are distinct, a station rings for a call exactly when the call lists it, a queue holds calls QUEUED at its group, each
once, and a QUEUED call rings nowhere (R28, R33, R66). -/
structure CallsFit (s : State) : Prop where
  handles : (s.calls.map Call.handle).Nodup
  rings : ∀ i h, (s.station i).state = .ringing h ↔ ∃ c, s.findCall h = some c ∧ i ∈ c.offered.map Offer.station
  queue : ∀ g, ∀ h ∈ (s.group g).queue, ∃ c, s.findCall h = some c ∧ c.state = .queued ∧ c.currentGroup = some g
  once : ∀ g, (s.group g).queue.Nodup
  waits : ∀ h c, s.findCall h = some c → c.state = .queued → c.offered = []

/-- What the agreement of stations, pages and escalations is without that of the calls. Left out are "in use" of the stations of `D`
and the marks of the stations of `E`. -/
structure Rest (D E : StationId → Prop) (s : State) : Prop where
  use : UseFits D s
  once : OrdersOnce s
  marks : ∀ i, ¬ E i → MarkFits s i
  pages : PagesFit [] s
  esc : EscFits (fun _ => False) s
  repeats : s.cfg.RepeatsFit

/-- The records agree, but for "in use" of the stations of `D`. -/
structure Sound (D : StationId → Prop) (s : State) : Prop where
  calls : CallsFit s
  rest : Rest D (fun _ => False) s

/-- The call is in use, rings nowhere and stands in no queue. -/
def Loose (s : State) (h : Handle) (c : Call) : Prop :=
  s.findCall h = some c ∧ c.offered = [] ∧ ∀ g, h ∉ (s.group g).queue

/-- From `s` to `t` no call but `h` has joined a queue. -/
def Fewer (h : Handle) (s t : State) : Prop := ∀ k, k ≠ h → ∀ g, k ∈ (t.group g).queue → k ∈ (s.group g).queue

theorem Fewer.refl (h : Handle) (s : State) : Fewer h s s := fun _ _ _ => id

theorem Fewer.trans {h : Handle} {s t u : State} (a : Fewer h s t) (b : Fewer h t u) : Fewer h s u :=
  fun k e g m => a k e g (b k e g m)

theorem Fewer.of_queue {h : Handle} {s t : State} (e : ∀ g, (t.group g).queue = (s.group g).queue) : Fewer h s t :=
  fun _ _ g m => e g ▸ m

theorem Fewer.of_groups {h : Handle} {s t : State} (e : t.groups = s.groups) : Fewer h s t :=
  .of_queue fun g => by simp [State.group, e]

theorem State.updCall_handles (s : State) (h : Handle) {f : Call → Call} (hf : ∀ c, (f c).handle = c.handle) :
    (s.updCall h f).calls.map Call.handle = s.calls.map Call.handle := by
  simp only [State.updCall, List.map_map]
  refine List.map_congr_left fun c _ => ?_
  by_cases e : c.handle = h <;> simp [e, hf]

namespace CallsFit

variable {s t : State}

/-- A call in a queue is QUEUED there and rings nowhere. -/
theorem of_queue (q : CallsFit s) {g : GroupId} {h : Handle} {c : Call} (hm : h ∈ (s.group g).queue) (hc : s.findCall h = some c) :
    c.state = .queued ∧ c.currentGroup = some g ∧ c.offered = [] := by
  obtain ⟨c', h1, h2, h3⟩ := q.queue g h hm
  obtain rfl := Option.some.inj (hc.symm.trans h1)
  exact ⟨h2, h3, q.waits h c hc h2⟩

/-- A call stands in the queue of one group at most. -/
theorem queue_unique (q : CallsFit s) {g k : GroupId} {h : Handle} (hg : h ∈ (s.group g).queue) (hk : h ∈ (s.group k).queue) :
    k = g := by
  obtain ⟨c, hc, -, h1⟩ := q.queue g h hg
  obtain ⟨-, h2, -⟩ := q.of_queue hk hc
  exact Option.some.inj (h2.symm.trans h1)

/-- No station rings for a call that lists none. -/
theorem quiet (q : CallsFit s) {h : Handle} {c : Call} (hc : s.findCall h = some c) (ho : c.offered = []) (i : StationId) :
    (s.station i).state ≠ .ringing h := by
  rw [ne_eq, q.rings]
  rintro ⟨c', h1, h2⟩
  obtain rfl := Option.some.inj (hc.symm.trans h1)
  simp [ho] at h2

/-- The doings of the Page Arbiter leave the agreement of the calls. -/
theorem of_calm (q : CallsFit s) (h : Calm s t) : CallsFit t := by
  refine ⟨by rw [h.calls]; exact q.handles, fun i k => ?_, fun g k hk => ?_, fun g => ?_, fun k c hk => ?_⟩
  · rw [h.rings, h.findCall]
    exact q.rings i k
  · rw [h.findCall]
    exact q.queue g k (h.queue g ▸ hk)
  · rw [h.queue]
    exact q.once g
  · rw [h.findCall] at hk
    exact q.waits k c hk

/-- The call `h` has become `c'`, and with it the stations that ring for it and the queue it stands in. -/
theorem change (q : CallsFit s) {h : Handle} {c' : Call} (hh : t.calls.map Call.handle = s.calls.map Call.handle)
    (hself : t.findCall h = some c') (hne : ∀ k, k ≠ h → t.findCall k = s.findCall k)
    (hring : ∀ i, (t.station i).state = .ringing h ↔ i ∈ c'.offered.map Offer.station)
    (hother : ∀ i k, k ≠ h → ((t.station i).state = .ringing k ↔ (s.station i).state = .ringing k))
    (hfew : Fewer h s t) (hq : ∀ g, h ∈ (t.group g).queue → c'.state = .queued ∧ c'.currentGroup = some g)
    (honce : ∀ g, (t.group g).queue.Nodup) (hw : c'.state = .queued → c'.offered = []) : CallsFit t := by
  refine ⟨hh ▸ q.handles, fun i k => ?_, fun g k hk => ?_, honce, fun k c hk => ?_⟩ <;> by_cases e : k = h
  · subst e
    rw [hring, hself]
    simp
  · rw [hother i k e, hne k e]
    exact q.rings i k
  · subst e
    exact ⟨c', hself, hq g hk⟩
  · rw [hne k e]
    exact q.queue g k (hfew k e g hk)
  · subst e
    obtain rfl := Option.some.inj (hself.symm.trans hk)
    exact hw
  · rw [hne k e] at hk
    exact q.waits k c hk

end CallsFit

/-! ## The rest -/

/-- An update of groups that leaves their escalation pages and repeats, and takes no group out of escalation. -/
theorem EscFits.of_groups {X : GroupId → Prop} {s t : State} (q : EscFits X s) (hp : SamePages s t)
    (h1 : ∀ g, (t.group g).escPage = (s.group g).escPage ∧ (t.group g).repeatDeadline = (s.group g).repeatDeadline ∧
      (t.group g).repeatDue = (s.group g).repeatDue)
    (h2 : ∀ g, s.inEscalation g = true → t.inEscalation g = true) : EscFits X t := by
  refine ⟨fun g r hx h => ?_, fun g hx h => ?_, fun p pg g hx hpg h => ?_⟩
  · rw [(h1 g).1] at h
    obtain ⟨k1, pg, k2, k3⟩ := q.page g r hx h
    obtain ⟨pg', k4, k5⟩ := hp.pageAt k2
    exact ⟨h2 g k1, pg', k4, ((Page.request_eq_iff _ _).1 k5).1.trans k3⟩
  · rw [(h1 g).2.1, (h1 g).2.2] at h
    exact h2 g (q.again g hx h)
  · obtain ⟨pg', k1, k2⟩ := hp.symm.page hpg
    rw [(h1 g).1, (hp p).1]
    exact q.made p pg' g hx k1 (((Page.request_eq_iff _ _).1 k2).1.trans h)

namespace Rest

variable {D D' E E' : StationId → Prop} {s t : State}

theorem stations (q : Rest D (fun _ => False) s) : StationsFit D s := ⟨q.use, q.once, fun i => q.marks i id⟩

theorem fit (q : Rest D (fun _ => False) s) : Fit D (fun _ => False) s [] s := .start q.stations q.pages q.esc

theorem of_fit {s0 : State} (k : Fit D (fun _ => False) s0 [] t) (h : s0.cfg.RepeatsFit) : Rest D (fun _ => False) t :=
  ⟨k.stations.use, k.stations.once, fun i _ => k.stations.marks i, k.pages, k.esc, k.calm.cfg ▸ h⟩

/-- An update that writes no field which the agreement reads. -/
theorem of_views (q : Rest D E s) (h1 : t.stations = s.stations) (h2 : t.cfg = s.cfg) (h3 : t.calls = s.calls)
    (h4 : t.pages = s.pages) (h5 : t.link.stationOrders = s.link.stationOrders) (h6 : t.groups = s.groups)
    (h7 : t.outputs = s.outputs) : Rest D E t := by
  have hs : ∀ i, t.station i = s.station i := fun i => by simp [State.station, h1]
  refine ⟨fun i hi => ?_, ?_, fun i hi => ?_, q.pages.of_views h4 (fun o => by simp [State.output, h7]) fun i r => by rw [hs]; exact id,
    q.esc.of_same h6 h3 (.of_eq h4), h2 ▸ q.repeats⟩
  · rw [hs, State.stationCfg, h2]
    exact q.use i hi
  · unfold OrdersOnce
    rw [h5]
    exact q.once
  · have hm : t.marked i = s.marked i := by simp [State.marked, h5]
    unfold MarkFits
    rw [hs, hm, State.present_of_eq h3 h4]
    exact q.marks i hi

theorem advise (q : Rest D E s) (a : Advisory) : Rest D E (s.advise a) := by
  refine q.of_views rfl rfl rfl rfl ?_ rfl rfl
  rw [State.advise, State.updLink_link]
  split <;> rfl

/-- A station enters a state that is not listening, in keeping with its "in use"; its mark is right then. -/
theorem enterState' (q : Rest D E s) {i : StationId} {st : StationState}
    (hi : ¬ D' i → (st = .unused ↔ (s.stationCfg i).inUse = false)) (hD : ∀ j, j ≠ i → ¬ D' j → ¬ D j)
    (hE : ∀ j, j ≠ i → ¬ E' j → ¬ E j) (hl : ∀ r, st ≠ .pageListen r) : Rest D' E' (s.enterState i st) := by
  refine ⟨q.use.enterState hi hD, s.enterState_orders_nodup i st q.once, fun j hj => ?_, q.pages.enterState fun r h => absurd h (hl r),
    q.esc.of_same (s.enterState_groups i st) (s.enterState_calls i st) (.of_eq (s.enterState_pages i st)), by simpa using q.repeats⟩
  by_cases e : j = i
  · subst e
    exact MarkFits.enterState_self s j st
  · exact (q.marks j (hE j e hj)).enterState i st

/-- A station in use enters a state of use that is not listening. -/
theorem enterState (q : Rest D E s) {i : StationId} {st : StationState} (hst : st ≠ .unused)
    (hi : ¬ D i → (s.stationCfg i).inUse = true) (hl : ∀ r, st ≠ .pageListen r) : Rest D E (s.enterState i st) :=
  q.enterState' (fun h => by simp [hst, hi h]) (fun _ _ => id) (fun _ _ => id) hl

theorem inUse_of_state (q : Rest D E s) {i : StationId} (h : (s.station i).state ≠ .unused) (hD : ¬ D i) :
    (s.stationCfg i).inUse = true := by simpa using (q.use i hD).not.1 h

/-- Stations in use enter states of use that are not listening; the marks of all of them are right then. -/
theorem enterAll (st : StationId → StationState) (l : List StationId) (hst : ∀ i, st i ≠ .unused ∧ ∀ r, st i ≠ .pageListen r)
    (hE : ∀ j, j ∉ l → ¬ E' j → ¬ E j) (hi : ∀ i ∈ l, ¬ D i → (s.stationCfg i).inUse = true) (q : Rest D E s) :
    Rest D E' (l.foldl (fun s i => s.enterState i (st i)) s) := by
  induction l generalizing s E with
  | nil => exact ⟨q.use, q.once, fun i h => q.marks i (hE i (by simp) h), q.pages, q.esc, q.repeats⟩
  | cons i l ih =>
    have q1 : Rest D (fun j => E j ∧ j ≠ i) (s.enterState i (st i)) :=
      q.enterState' (fun h => by simp [(hst i).1, hi i (by simp) h]) (fun _ _ => id) (fun j e h he => h ⟨he, e⟩) (hst i).2
    refine ih (fun j hj h he => hE j (by simp [hj, he.2]) h he.1) (fun j hj h => ?_) q1
    have : (s.enterState i (st i)).stationCfg j = s.stationCfg j := by simp [State.stationCfg]
    rw [this]
    exact hi j (by simp [hj]) h

/-- A call changes. Stations that ring for it and show something else then have lost their marks, and in a queue it stays escalated or
not. -/
theorem updCall (q : Rest D E s) {h : Handle} {f : Call → Call} (hf : ∀ c, (f c).handle = c.handle)
    (hE : ∀ i, ¬ E' i → ¬ E i)
    (hshown : ∀ c, s.findCall h = some c → ∀ i, ¬ E' i → (s.station i).state = .ringing h →
      decide ((f c).state = .recalling) = decide (c.state = .recalling) ∧ (f c).caller = c.caller)
    (hesc : ∀ c g, s.findCall h = some c → h ∈ (s.group g).queue → c.escalated = true → (f c).escalated = true) :
    Rest D E' (s.updCall h f) := by
  refine ⟨q.use, q.once, fun i hi => ?_, q.pages.of_views rfl (fun _ => rfl) fun _ _ => id,
    q.esc.of_groups (.of_eq rfl) (fun _ => ⟨rfl, rfl, rfl⟩) fun g hg => ?_, q.repeats⟩
  · have hp : (s.updCall h f).present (s.station i).state = s.present (s.station i).state := by
      refine State.present_congr (fun k hk => ?_) fun _ _ => rfl
      by_cases e : k = h
      · subst e
        rw [State.findCall_updCall_self s k f hf]
        cases hc : s.findCall k with
        | none => rfl
        | some c =>
          obtain ⟨h1, h2⟩ := hshown c hc i hi hk
          simp [h1, h2]
      · rw [State.findCall_updCall_ne s e f hf]
    have := q.marks i (hE i hi)
    unfold MarkFits at this ⊢
    change s.marked i = true ↔ (s.updCall h f).present (s.station i).state ≠ _
    rw [hp]
    exact this
  · rw [State.inEscalation_iff] at hg ⊢
    obtain ⟨k, hk, c, hc, he⟩ := hg
    by_cases e : k = h
    · subst e
      exact ⟨k, hk, f c, by rw [State.findCall_updCall_self s k f hf, hc]; rfl, hesc c g hc hk he⟩
    · exact ⟨k, hk, c, by rw [State.findCall_updCall_ne s e f hf]; exact hc, he⟩

/-- A group changes, but for its escalation page and its repeat, and does not leave escalation. -/
theorem updGroup (q : Rest D E s) {g : GroupId} {f : Group → Group}
    (hf : ∀ x, (f x).escPage = x.escPage ∧ (f x).repeatDeadline = x.repeatDeadline ∧ (f x).repeatDue = x.repeatDue)
    (hin : s.inEscalation g = true → (s.updGroup g f).inEscalation g = true) : Rest D E (s.updGroup g f) := by
  refine ⟨q.use, q.once, q.marks, q.pages.of_views rfl (fun _ => rfl) fun _ _ => id, q.esc.of_groups (.of_eq rfl) (fun k => ?_) fun k hk => ?_,
    q.repeats⟩ <;> by_cases e : k = g
  · subst e
    rw [State.group_updGroup_self]
    exact hf _
  · rw [s.group_updGroup_ne e]
    exact ⟨rfl, rfl, rfl⟩
  · subst e
    exact hin hk
  · rwa [State.inEscalation_of_eq (s := s) (t := s.updGroup g f) rfl (by rw [s.group_updGroup_ne e])]

/-- A call leaves a group's list; escalation is cleared with the last escalated call (R70). -/
theorem leaveQueue (q : Rest D (fun _ => False) s) (h : Handle) (g : GroupId) :
    Rest D (fun _ => False) (s.leaveQueue h g) ∧
      Calm (s.updGroup g fun x => { x with queue := x.queue.filter fun k => !(k == h) }) (s.leaveQueue h g) := by
  let f : Group → Group := fun x => { x with queue := x.queue.filter fun k => !(k == h) }
  change _ ∧ Calm (s.updGroup g f) _
  have kept : ∀ k, k ≠ g → (s.updGroup g f).inEscalation k = s.inEscalation k := fun k e =>
    State.inEscalation_of_eq rfl (by rw [s.group_updGroup_ne e])
  unfold State.leaveQueue
  dsimp only
  split
  · have q1 : Fit D (fun k => False ∨ k = g) (s.updGroup g f) [] (s.updGroup g f) := by
      refine .start (q.stations.of_views rfl rfl rfl rfl rfl) (q.pages.of_views rfl (fun _ => rfl) fun _ _ => id)
        ⟨fun k r hx => ?_, fun k hx => ?_, fun p pg k hx => ?_⟩ <;>
        (have e := (not_or.1 hx).2)
      · rw [s.group_updGroup_ne e, kept k e]
        exact q.esc.page k r id
      · rw [s.group_updGroup_ne e, kept k e]
        exact q.esc.again k id
      · rw [s.group_updGroup_ne e]
        exact q.esc.made p pg k id
    have q2 := q1.escalationClear (g := g)
      (fun r hr => (q.esc.page g r id (by rw [State.group_updGroup_self] at hr; exact hr)).2)
      (fun p pg hp hg => by rw [State.group_updGroup_self]; exact q.esc.made p pg g id hp hg)
    exact ⟨.of_fit q2 q.repeats, q2.calm⟩
  · rename_i hn
    refine ⟨q.updGroup (fun _ => ⟨rfl, rfl, rfl⟩) fun hin => ?_, .refl _⟩
    by_contra hout
    obtain ⟨k, hk, c, hc, he⟩ := (s.inEscalation_iff g).1 hin
    by_cases e : k = h
    · subst e
      exact hn (by simp [hc, he, hout])
    · refine hout ((State.inEscalation_iff _ g).2 ⟨k, ?_, c, hc, he⟩)
      rw [State.group_updGroup_self]
      simp [hk, e]

end Rest
end Sys2Proof.Machine
end

