-- ==== Sys2Proof/Proofs/Offers.lean ====
section
/-! SUPPORT. Offers, reviews, availability events and the ends of calls, each with what it keeps of the agreement. -/

namespace Sys2Proof.Machine

/-- From `s` to `t` no call has joined a queue. -/
def Shrinks (s t : State) : Prop := ∀ k g, k ∈ (t.group g).queue → k ∈ (s.group g).queue

namespace Shrinks

variable {s t u : State}

theorem refl (s : State) : Shrinks s s := fun _ _ => id

theorem trans (a : Shrinks s t) (b : Shrinks t u) : Shrinks s u := fun k g m => a k g (b k g m)

theorem fewer (a : Shrinks s t) (h : Handle) : Fewer h s t := fun k _ g m => a k g m

theorem of_groups (e : t.groups = s.groups) : Shrinks s t := fun k g m => by simpa [State.group, e] using m

theorem of_calm (a : Calm s t) : Shrinks s t := fun _ g m => a.queue g ▸ m

theorem drop (s : State) (g : GroupId) (h : Handle) :
    Shrinks s (s.updGroup g fun x => { x with queue := x.queue.filter fun k => !(k == h) }) := by
  intro k x m
  by_cases e : x = g
  · subst e
    rw [State.group_updGroup_self] at m
    exact (List.mem_filter.1 m).1
  · rwa [s.group_updGroup_ne e] at m

end Shrinks

namespace State

theorem findCall_handle {s : State} {h : Handle} {c : Call} (hc : s.findCall h = some c) : c.handle = h := by
  simpa using List.find?_some hc

/-- A station that is free for an offer is in use, and IDLE or listening to a page (R46). -/
theorem freeForOffer_iff (s : State) (i : StationId) :
    s.freeForOffer i = true ↔ (s.stationCfg i).inUse = true ∧
      ((s.station i).state = .idle ∨ ∃ r, (s.station i).state = .pageListen r ∧ ∀ pg, s.pageAt r = some pg → pg.cls ≠ .emergency) := by
  unfold freeForOffer
  rw [Bool.and_eq_true]
  refine and_congr_right fun _ => ?_
  cases hs : (s.station i).state with
  | pageListen r => cases hr : s.pageAt r <;> simp [hr]
  | _ => simp

theorem free_inUse {s : State} {i : StationId} (h : s.freeForOffer i = true) : (s.stationCfg i).inUse = true :=
  ((s.freeForOffer_iff i).1 h).1

theorem free_quiet {s : State} {i : StationId} (h : s.freeForOffer i = true) (k : Handle) : (s.station i).state ≠ .ringing k := by
  obtain ⟨-, e | ⟨r, e, -⟩⟩ := (s.freeForOffer_iff i).1 h <;> simp [e]

theorem isIdle_iff (s : State) (i : StationId) :
    s.isIdle i = true ↔ (s.stationCfg i).inUse = true ∧ (s.station i).state = .idle := by
  simp [isIdle]

/-- An element of greatest measure is an element. -/
theorem firstGreatest_mem {α : Type} {m : α → Nat} {l : List α} {x : α} (h : firstGreatest m l = some x) : x ∈ l := by
  induction l generalizing x with
  | nil => simp [firstGreatest] at h
  | cons y l ih =>
    unfold firstGreatest at h
    split at h
    · simp_all
    · rename_i z hz
      split at h <;> obtain rfl := Option.some.inj h
      · exact List.mem_cons_of_mem _ (ih hz)
      · exact List.mem_cons_self

/-- A selection yields stations that are free for an offer (R46, R47). -/
theorem select_free {s : State} {g : GroupId} {c : Call} : ∀ i ∈ s.select g c, s.freeForOffer i = true := by
  have cand : ∀ ms, ∀ i ∈ s.candidates c ms, s.freeForOffer i = true := by
    intro ms i hi
    obtain ⟨m, hm, rfl⟩ := List.mem_map.1 hi
    have := (List.mem_filter.1 hm).2
    simp only [available, Bool.and_eq_true] at this
    exact this.1.2
  intro i hi
  unfold select at hi
  dsimp only at hi
  split at hi
  · exact cand _ i (List.mem_of_mem_take hi)
  · exact cand _ i (List.mem_of_mem_take hi)
  · rw [Option.mem_toList] at hi
    exact cand _ i (firstGreatest_mem hi)
  · exact cand _ i hi

/-- A head call that competes for a station stands at the head of its group's queue. -/
theorem competitors_mem {s : State} {i : StationId} {g : GroupId} {c : Call} (h : (g, c) ∈ s.competitors i) :
    (s.group g).queue.head? = some c.handle ∧ s.findCall c.handle = some c := by
  obtain ⟨k, -, hk⟩ := List.mem_filterMap.1 h
  cases hcomp : s.competing i k with
  | none => simp [hcomp] at hk
  | some c' =>
    simp only [hcomp, Option.map_some, Option.some.injEq, Prod.mk.injEq] at hk
    obtain ⟨rfl, rfl⟩ := hk
    unfold competing at hcomp
    split at hcomp
    · rw [Option.filter_eq_some_iff, Option.bind_eq_some_iff] at hcomp
      obtain ⟨⟨x, hx, hc⟩, -⟩ := hcomp
      rw [findCall_handle hc]
      exact ⟨hx, hc⟩
    · simp at hcomp

end State

namespace Sound

variable {D D' : StationId → Prop} {s t : State} {h : Handle} {c : Call}

theorem of_fit (q : Sound D s) (k : Fit D (fun _ => False) s [] t) : Sound D t := ⟨q.calls.of_calm k.calm, .of_fit k q.rest.repeats⟩

theorem fit (q : Sound D s) : Fit D (fun _ => False) s [] s := q.rest.fit

/-- An update that writes no field which the agreement reads. -/
theorem of_views (q : Sound D s) (h1 : t.stations = s.stations) (h2 : t.cfg = s.cfg) (h3 : t.calls = s.calls)
    (h4 : t.pages = s.pages) (h5 : t.link.stationOrders = s.link.stationOrders) (h6 : t.groups = s.groups)
    (h7 : t.outputs = s.outputs) : Sound D t :=
  ⟨q.calls.of_calm (.of_eq h3 h2 (fun g => by simp [State.group, h6]) h1), q.rest.of_views h1 h2 h3 h4 h5 h6 h7⟩

theorem advise (q : Sound D s) (a : Advisory) : Sound D (s.advise a) :=
  ⟨q.calls.of_calm (.of_eq rfl rfl (fun _ => rfl) rfl), q.rest.advise a⟩

theorem setHeld (q : Sound D s) (l : List StationId) : Sound D { s with heldAvail := l } :=
  q.of_views rfl rfl rfl rfl rfl rfl rfl

/-- A group changes, but for its queue, its escalation page and its repeat. -/
theorem updGroup (q : Sound D s) {g : GroupId} {f : Group → Group}
    (hf : ∀ x, (f x).escPage = x.escPage ∧ (f x).repeatDeadline = x.repeatDeadline ∧ (f x).repeatDue = x.repeatDue ∧
      (f x).queue = x.queue) : Sound D (s.updGroup g f) := by
  have hq : ∀ k, ((s.updGroup g f).group k).queue = (s.group k).queue := fun k => by
    by_cases e : k = g
    · subst e
      rw [State.group_updGroup_self, (hf _).2.2.2]
    · rw [s.group_updGroup_ne e]
  exact ⟨q.calls.of_calm (.of_eq rfl rfl hq rfl), q.rest.updGroup (fun x => ⟨(hf x).1, (hf x).2.1, (hf x).2.2.1⟩) fun hin => by
    rwa [State.inEscalation_of_eq (s := s) (t := s.updGroup g f) rfl (hq g)]⟩

/-- A loose call changes, and stays loose. -/
theorem updLoose (q : Sound D s) (hl : Loose s h c) {f : Call → Call} (hf : ∀ c, (f c).handle = c.handle)
    (ho : (f c).offered = []) : Sound D (s.updCall h f) ∧ Loose (s.updCall h f) h (f c) := by
  obtain ⟨hc, hoff, hnq⟩ := hl
  have hself : (s.updCall h f).findCall h = some (f c) := by rw [State.findCall_updCall_self s h f hf, hc]; rfl
  refine ⟨⟨q.calls.change (s.updCall_handles h hf) hself (fun k e => State.findCall_updCall_ne s e f hf) (fun i => ?_)
    (fun _ _ _ => Iff.rfl) (.of_groups rfl) (fun g hg => absurd hg (hnq g)) q.calls.once fun _ => ho, ?_⟩, hself, ho, hnq⟩
  · exact iff_of_false (q.calls.quiet hc hoff i) (by simp [ho])
  · exact q.rest.updCall hf (fun _ => id) (fun _ _ i _ hr => absurd hr (q.calls.quiet hc hoff i))
      fun _ g _ hg => absurd hg (hnq g)

/-- A loose call begins to ring at one station, which does not ring. -/
theorem ringLoose (q : Sound D s) (hl : Loose s h c) {i : StationId} {f : Call → Call} (hf : ∀ c, (f c).handle = c.handle)
    (ho : (f c).offered.map Offer.station = [i]) (hst : (f c).state ≠ .queued) (hi : (s.stationCfg i).inUse = true)
    (hq : ∀ k, (s.station i).state ≠ .ringing k) : Sound D ((s.updCall h f).enterState i (.ringing h)) := by
  obtain ⟨hc, hoff, hnq⟩ := hl
  have r1 : Rest D (fun _ => False) (s.updCall h f) :=
    q.rest.updCall hf (fun _ => id) (fun _ _ j _ hr => absurd hr (q.calls.quiet hc hoff j)) fun _ g _ hg => absurd hg (hnq g)
  refine ⟨q.calls.change (h := h) (c' := f c) ?_ ?_ (fun k e => ?_) (fun j => ?_) (fun j k e => ?_) (.of_groups (by simp))
    (fun g hg => absurd (by simpa [State.group] using hg) (hnq g)) (fun g => by simpa [State.group] using q.calls.once g)
    (fun e => absurd e hst), r1.enterState (by simp) (fun _ => hi) (by simp)⟩
  · rw [State.enterState_calls, s.updCall_handles h hf]
  · rw [State.findCall, State.enterState_calls]
    change (s.updCall h f).findCall h = _
    rw [State.findCall_updCall_self s h f hf, hc]
    rfl
  · rw [State.findCall, State.enterState_calls]
    exact State.findCall_updCall_ne s e f hf
  · rw [State.enterState_station, ho]
    split
    · simp [*]
    · rename_i e
      exact iff_of_false (q.calls.quiet hc hoff j) (by simp [e])
  · rw [State.enterState_station]
    split
    · rename_i e'
      subst e'
      exact iff_of_false (by simpa using Ne.symm e) (hq k)
    · rfl

/-! ### Offers (R53) -/

/-- A call that rings nowhere begins to ring at stations that are free for an offer, and leaves the queue it stands in. -/
theorem ringStations (q : Sound D s) {g : GroupId} {sts : List StationId} (hc : s.findCall h = some c) (ho : c.offered = [])
    (hq : ∀ k, h ∈ (s.group k).queue → k = g) (hsts : ∀ i ∈ sts, s.freeForOffer i = true) {f : Call → Call}
    (hf : ∀ c, (f c).handle = c.handle) (hoff : (f c).offered.map Offer.station = sts) (hst : (f c).state ≠ .queued)
    (hesc : ∀ c, (f c).escalated = c.escalated) (b : Bool) (hb : b = false → ∀ k, h ∉ (s.group k).queue) :
    Sound D (if b = true then ((s.updCall h f).ringAll h sts).leaveQueue h g else (s.updCall h f).ringAll h sts) ∧
      Shrinks s (if b = true then ((s.updCall h f).ringAll h sts).leaveQueue h g else (s.updCall h f).ringAll h sts) := by
  have r1 : Rest D (fun _ => False) (s.updCall h f) :=
    q.rest.updCall hf (fun _ => id) (fun _ _ j _ hr => absurd hr (q.calls.quiet hc ho j)) fun c _ _ _ e => (hesc c).trans e
  have r2 : Rest D (fun _ => False) ((s.updCall h f).ringAll h sts) :=
    r1.enterAll (fun _ => .ringing h) sts (by simp) (fun _ _ => id) fun i hi _ => State.free_inUse (hsts i hi)
  obtain ⟨⟨stays, -⟩, rung, others, -⟩ := State.enterAll (fun _ => .ringing h) sts (s.updCall h f)
  change (s.updCall h f).ringAll h sts = _ at stays
  change ∀ i ∈ sts, (State.station ((s.updCall h f).ringAll h sts) i).state = _ at rung
  change ∀ i, i ∉ sts → State.station ((s.updCall h f).ringAll h sts) i = s.station i at others
  have fit : ∀ u : State, u.calls = (s.updCall h f).calls → u.stations = ((s.updCall h f).ringAll h sts).stations →
      (∀ k, h ∉ (u.group k).queue) → (∀ k, (u.group k).queue.Nodup) → Shrinks s u → CallsFit u := by
    intro u hu hs hn honce hsh
    have find : ∀ k, u.findCall k = (s.updCall h f).findCall k := fun k => by simp [State.findCall, hu]
    have at' : ∀ i, u.station i = State.station ((s.updCall h f).ringAll h sts) i := fun i => by simp [State.station, hs]
    refine q.calls.change (h := h) (c' := f c) (by rw [hu, s.updCall_handles h hf]) ?_ (fun k e => ?_) (fun i => ?_) (fun i k e => ?_)
      (hsh.fewer h) (fun k hk => absurd hk (hn k)) honce fun e => absurd e hst
    · rw [find, State.findCall_updCall_self s h f hf, hc]
      rfl
    · rw [find, State.findCall_updCall_ne s e f hf]
    · rw [at', hoff]
      by_cases hi : i ∈ sts
      · simp [hi, rung i hi]
      · rw [others i hi]
        exact iff_of_false (q.calls.quiet hc ho i) hi
    · rw [at']
      by_cases hi : i ∈ sts
      · rw [rung i hi]
        exact iff_of_false (by simpa using Ne.symm e) (State.free_quiet (hsts i hi) k)
      · rw [others i hi]
  have groups : ∀ k, State.group ((s.updCall h f).ringAll h sts) k = s.group k := fun k => by rw [stays]; rfl
  cases b with
  | false =>
    rw [if_neg (by simp)]
    have sh : Shrinks s ((s.updCall h f).ringAll h sts) := .of_groups (by rw [stays]; rfl)
    exact ⟨⟨fit _ (by rw [stays]) rfl (fun k => groups k ▸ hb rfl k) (fun k => groups k ▸ q.calls.once k) sh, r2⟩, sh⟩
  | true =>
    rw [if_pos rfl]
    obtain ⟨r3, calm⟩ := r2.leaveQueue h g
    have sh := (Shrinks.of_groups (s := s) (t := (s.updCall h f).ringAll h sts) (by rw [stays]; rfl)).trans (.drop _ g h)
    refine ⟨⟨(fit _ (by rw [State.updGroup_calls, stays]) (by rfl) (fun k hk => ?_) (fun k => ?_) sh).of_calm calm, r3⟩,
      sh.trans (.of_calm calm)⟩ <;> by_cases e : k = g
    · subst e
      rw [State.group_updGroup_self] at hk
      simp at hk
    · rw [State.group_updGroup_ne _ e, groups] at hk
      exact e (hq k hk)
    · subst e
      rw [State.group_updGroup_self, groups]
      exact (q.calls.once k).filter _
    · rw [State.group_updGroup_ne _ e, groups]
      exact q.calls.once k

theorem updGroup_shrinks {u : State} (q : Sound D u ∧ Shrinks s u) {g : GroupId} {f : Group → Group}
    (hf : ∀ x, (f x).escPage = x.escPage ∧ (f x).repeatDeadline = x.repeatDeadline ∧ (f x).repeatDue = x.repeatDue ∧
      (f x).queue = x.queue) : Sound D (u.updGroup g f) ∧ Shrinks s (u.updGroup g f) := by
  refine ⟨q.1.updGroup hf, q.2.trans fun k x hk => ?_⟩
  by_cases e : x = g
  · subst e
    rwa [State.group_updGroup_self, (hf _).2.2.2] at hk
  · rwa [State.group_updGroup_ne _ e] at hk

/-- An offer of a call that rings nowhere and stands in no queue but the group's, to stations that are free. -/
theorem offerGroup (q : Sound D s) {g : GroupId} {sts : List StationId} (hc : s.findCall h = some c) (ho : c.offered = [])
    (hq : ∀ k, h ∈ (s.group k).queue → k = g) (hsts : ∀ i ∈ sts, s.freeForOffer i = true) :
    Sound D (s.offerGroup h g sts) ∧ Shrinks s (s.offerGroup h g sts) := by
  have hb : decide (c.state = .queued) = false → ∀ k, h ∉ (s.group k).queue := fun e k hk => by
    simp [(q.calls.of_queue hk hc).1] at e
  unfold State.offerGroup
  rw [hc]
  dsimp only
  split
  · refine updGroup_shrinks (q.ringStations hc ho hq hsts ?_ ?_ ?_ ?_ _ hb) ?_
    · exact fun _ => rfl
    · simp [ho, Function.comp_def]
    · simp
    · exact fun _ => rfl
    · exact fun _ => ⟨rfl, rfl, rfl, rfl⟩
  · refine q.ringStations hc ho hq hsts ?_ ?_ ?_ ?_ _ hb
    · exact fun _ => rfl
    · simp [ho, Function.comp_def]
    · simp
    · exact fun _ => rfl

end Sound
end Sys2Proof.Machine
end

