-- ==== Sys2Proof/Proofs/Ends.lean ====
section
/-! SUPPORT. Reviews, availability events, the ends of calls and the rings outside the groups, each with what it keeps of the agreement. -/

namespace Sys2Proof.Machine

/-- More stations may show something else than their marks say. -/
theorem Rest.exempt {D E E' : StationId → Prop} {s : State} (q : Rest D E s) (h : ∀ i, ¬ E' i → ¬ E i) : Rest D E' s :=
  { q with marks := fun i hi => q.marks i (h i hi) }

namespace Sound

variable {D : StationId → Prop} {s t : State} {h : Handle} {c : Call}

/-! ## Reviews and availability events (R58 to R60) -/

/-- The head call of a group is offered to stations that are free. -/
theorem offerHead (q : Sound D s) {g : GroupId} {sts : List StationId} (hh : (s.group g).queue.head? = some h)
    (hc : s.findCall h = some c) (hsts : ∀ i ∈ sts, s.freeForOffer i = true) :
    Sound D (s.offerGroup h g sts) ∧ Shrinks s (s.offerGroup h g sts) := by
  have hm : h ∈ (s.group g).queue := List.mem_of_mem_head? hh
  obtain ⟨-, -, ho⟩ := q.calls.of_queue hm hc
  exact q.offerGroup hc ho (fun k hk => q.calls.queue_unique hm hk) hsts

theorem reviewHeads (n : Nat) (g : GroupId) : ∀ {s : State}, Sound D s → Sound D (s.reviewHeads n g) ∧ Shrinks s (s.reviewHeads n g) := by
  induction n with
  | zero => exact fun {s} q => ⟨q, .refl s⟩
  | succ n ih =>
    intro s q
    unfold State.reviewHeads
    split
    · split
      · exact ⟨q, .refl s⟩
      · rename_i h hh
        split
        · exact ⟨q, .refl s⟩
        · rename_i c hc
          split
          · exact ⟨q, .refl s⟩
          · obtain ⟨q1, sh1⟩ := q.offerHead hh hc fun i hi => State.select_free i hi
            obtain ⟨q2, sh2⟩ := ih q1
            exact ⟨q2, sh1.trans sh2⟩
    · exact ⟨q, .refl s⟩

theorem reviewQueue (q : Sound D s) (g : GroupId) : Sound D (s.reviewQueue g) ∧ Shrinks s (s.reviewQueue g) := q.reviewHeads _ g

theorem reviewIf (q : Sound D s) (b : Bool) (g : GroupId) : Sound D (s.reviewIf b g) ∧ Shrinks s (s.reviewIf b g) := by
  unfold State.reviewIf
  split
  · exact q.reviewQueue g
  · exact ⟨q, .refl s⟩

theorem availability (q : Sound D s) (i : StationId) : Sound D (s.availability i) ∧ Shrinks s (s.availability i) := by
  unfold State.availability
  split
  · rename_i hfree
    split
    · exact ⟨q, .refl s⟩
    · rename_i g c hfirst
      obtain ⟨hh, hc⟩ := State.competitors_mem (State.firstGreatest_mem hfirst)
      obtain ⟨q1, sh1⟩ := q.offerHead hh hc (sts := [i]) (by simpa using hfree)
      obtain ⟨q2, sh2⟩ := q1.reviewQueue g
      exact ⟨q2, sh1.trans sh2⟩
  · exact ⟨q, .refl s⟩

theorem availAll (l : List StationId) : ∀ {s : State}, Sound D s → Sound D (s.availAll l) ∧ Shrinks s (s.availAll l) := by
  induction l with
  | nil => exact fun {s} q => ⟨q, .refl s⟩
  | cons i l ih =>
    intro s q
    obtain ⟨q1, sh1⟩ := q.availability i
    obtain ⟨q2, sh2⟩ := ih q1
    exact ⟨q2, sh1.trans sh2⟩

theorem flushRounds (n : Nat) : ∀ {s : State}, Sound D s → Sound D (State.flushRounds n s) := by
  induction n with
  | zero => exact fun q => q.setHeld []
  | succ n ih =>
    intro s q
    unfold State.flushRounds
    split
    · exact q
    · exact ih ((q.setHeld []).availAll _).1

theorem flush (q : Sound D s) : Sound D s.flush := q.flushRounds _

/-! ## The end of a call (R35) -/

/-- The call's record in the teardown: its stations have left their rings, it stands in no queue, and it becomes `f c`, which rings
nowhere. The state `u` is that before the stations leave; its calls are those of `s` but for what the call shows. -/
theorem tearDown {u : State} (q : Sound D s) (hc : s.findCall h = some c) {f1 f2 : Call → Call} {st : StationId → StationState}
    (hf1 : ∀ c, (f1 c).handle = c.handle) (hf2 : ∀ c, (f2 c).handle = c.handle)
    (hu : u.calls = (s.updCall h f1).calls) (hr : Rest D (fun i => i ∈ c.offered.map Offer.station) u)
    (hcfg : u.cfg = s.cfg)
    (hrings : ∀ i k, (u.station i).state = .ringing k ↔ (s.station i).state = .ringing k)
    (hsh : Shrinks s u) (hn : ∀ g, h ∉ (u.group g).queue) (honce : ∀ g, (u.group g).queue.Nodup)
    (hst : ∀ i, st i ≠ .unused ∧ (∀ r, st i ≠ .pageListen r) ∧ ∀ k, st i ≠ .ringing k)
    (ho : (f2 (f1 c)).offered = []) (hshow : ∀ c, ((f2 c).state = .recalling ↔ c.state = .recalling) ∧ (f2 c).caller = c.caller) :
    Sound D (((c.offered.map Offer.station).foldl (fun s i => s.enterState i (st i)) u).updCall h f2) ∧
      Shrinks s (((c.offered.map Offer.station).foldl (fun s i => s.enterState i (st i)) u).updCall h f2) ∧
      (((c.offered.map Offer.station).foldl (fun s i => s.enterState i (st i)) u).updCall h f2).findCall h = some (f2 (f1 c)) := by
  obtain ⟨⟨stays, -⟩, left, others, -⟩ := State.enterAll st (c.offered.map Offer.station) u
  have r1 : Rest D (fun _ => False) ((c.offered.map Offer.station).foldl (fun s i => s.enterState i (st i)) u) := by
    refine hr.enterAll st _ (fun i => ⟨(hst i).1, (hst i).2.1⟩) (fun j hj _ => hj) fun i hi hD => ?_
    have hring : (s.station i).state = .ringing h := (q.calls.rings i h).2 ⟨c, hc, hi⟩
    simpa [State.stationCfg, hcfg] using q.rest.inUse_of_state (by simp [hring]) hD
  generalize (c.offered.map Offer.station).foldl (fun s i => s.enterState i (st i)) u = v at *
  have groups : v.groups = u.groups := by rw [stays]
  have group : ∀ g, v.group g = u.group g := fun g => by simp [State.group, groups]
  have calls : v.calls = (s.updCall h f1).calls := by rw [stays, hu]
  have find : ∀ k, v.findCall k = (s.updCall h f1).findCall k := fun k => by simp [State.findCall, calls]
  have sh : Shrinks s (v.updCall h f2) := hsh.trans (.of_groups groups)
  have found : (v.updCall h f2).findCall h = some (f2 (f1 c)) := by
    rw [State.findCall_updCall_self _ h f2 hf2, find, State.findCall_updCall_self _ h f1 hf1, hc]
    rfl
  have quiet : ∀ i, (v.station i).state ≠ .ringing h := fun i => by
    by_cases hi : i ∈ c.offered.map Offer.station
    · rw [left i hi]
      exact (hst i).2.2 h
    · rw [others i hi, ne_eq, hrings, q.calls.rings]
      rintro ⟨c', h1, h2⟩
      obtain rfl := Option.some.inj (hc.symm.trans h1)
      exact hi h2
  refine ⟨⟨q.calls.change (h := h) (c' := f2 (f1 c)) ?_ found (fun k e => ?_) (fun i => ?_) (fun i k e => ?_) (sh.fewer h)
    (fun g hg => absurd (group g ▸ hg) (hn g)) (fun g => ?_) fun _ => ho, r1.updCall hf2 (fun _ => id) (fun x _ i _ _ => ?_)
      fun _ g _ hg => absurd (group g ▸ hg) (hn g)⟩, sh, found⟩
  · rw [State.updCall_handles _ h hf2, calls, State.updCall_handles _ h hf1]
  · rw [State.findCall_updCall_ne _ e f2 hf2, find, State.findCall_updCall_ne _ e f1 hf1]
  · exact iff_of_false (quiet i) (by simp [ho])
  · change (v.station i).state = _ ↔ _
    by_cases hi : i ∈ c.offered.map Offer.station
    · rw [left i hi, (q.calls.rings i h).2 ⟨c, hc, hi⟩]
      exact iff_of_false ((hst i).2.2 k) (by simpa using Ne.symm e)
    · rw [others i hi, hrings]
  · change (v.group g).queue.Nodup
    rw [group]
    exact honce g
  · obtain ⟨h1, h2⟩ := hshow x
    simp [h1, h2]

/-- The teardown of a call that has left its queue, with the review and the availability events after it. -/
theorem endCall (q : Sound D s) (h : Handle) (o : CallOutcome) (st : Option StationId) :
    Sound D (s.endCall h o st) ∧ Shrinks s (s.endCall h o st) := by
  unfold State.endCall
  cases hc : s.findCall h with
  | none => exact ⟨q, .refl s⟩
  | some c =>
    dsimp only
    have r1 : Rest D (fun i => i ∈ c.offered.map Offer.station)
        ((s.updCall h fun c => { c with state := .ending, outcome := some o, outcomeStation := st }).updLink fun l =>
          { l with callOrders := l.callOrders ++ [h] }) := by
      refine Rest.of_views (s := s.updCall h fun c => { c with state := .ending, outcome := some o, outcomeStation := st })
        (q.rest.updCall (by exact fun _ => rfl) (fun _ _ => id) (fun x hx i hi hr => ?_) (by exact fun _ _ _ _ => id)) rfl rfl rfl rfl rfl rfl rfl
      obtain ⟨c', hc', hi'⟩ := (q.calls.rings i h).1 hr
      obtain rfl := Option.some.inj (hc.symm.trans hc')
      exact absurd hi' hi
    have hst : ∀ i, (if some i = st then StationState.busy else .idle) ≠ .unused ∧
        (∀ r, (if some i = st then StationState.busy else .idle) ≠ .pageListen r) ∧
        ∀ k, (if some i = st then StationState.busy else .idle) ≠ .ringing k := fun i => by split <;> simp
    have place : ∀ g, h ∈ (s.group g).queue → (if c.state = .queued then c.currentGroup else none) = some g := fun g hg => by
      obtain ⟨h1, h2, -⟩ := q.calls.of_queue hg hc
      rw [if_pos h1, h2]
    have silent : ∀ g, (if c.state = .queued then c.currentGroup else none) = some g → c.offered = [] := fun g hg => by
      split at hg
      · exact q.calls.waits h c hc ‹_›
      · simp at hg
    generalize hs1 : ((s.updCall h fun c => { c with state := .ending, outcome := some o, outcomeStation := st }).updLink fun l =>
      { l with callOrders := l.callOrders ++ [h] }) = s1 at *
    have same : s1 = { s with calls := s1.calls, link := s1.link } := by rw [← hs1]; rfl
    have calls : s1.calls = (s.updCall h fun c => { c with state := .ending, outcome := some o, outcomeStation := st }).calls := by
      rw [← hs1]; rfl
    have group : ∀ g, s1.group g = s.group g := fun g => by rw [same]; rfl
    have cfg : s1.cfg = s.cfg := by rw [same]
    have station : ∀ i, s1.station i = s.station i := fun i => by rw [same]; rfl
    have down : ∀ u : State, u.calls = s1.calls → Rest D (fun i => i ∈ c.offered.map Offer.station) u → u.cfg = s.cfg → _ → _ → _ → _ → _ :=
      fun u h1 h2 h3 h4 h5 h6 h7 => q.tearDown hc (u := u) (f1 := fun c => { c with state := .ending, outcome := some o, outcomeStation := st })
        (f2 := fun c =>
          { c with
            offered := [], currentGroup := none, tried := [], ringDeadline := none, waitDeadline := none, escDeadline := none,
            parkDeadline := none, escalated := false, waitPassed := c.waitPassed && o.takesRing, offerKind := none, orbit := none,
            parker := none }) (by exact fun _ => rfl) (by exact fun _ => rfl) (h1.trans calls) h2 h3 h4 h5 h6 h7 hst rfl
              (by exact fun _ => ⟨Iff.rfl, rfl⟩)
    simp only [List.foldl_map] at down
    have fin : ∀ {u : State}, Sound D u ∧ Shrinks s u → Sound D (u.availAll ((c.offered.map Offer.station).filter fun i => ¬ some i = st)) ∧
        Shrinks s (u.availAll ((c.offered.map Offer.station).filter fun i => ¬ some i = st)) := fun ⟨q1, sh1⟩ =>
      (q1.availAll _).imp id sh1.trans
    generalize (if c.state = .queued then c.currentGroup else none) = place' at *
    cases place' with
    | none =>
      have away : ∀ g, h ∉ (s1.group g).queue := fun g hg => by
        rw [group] at hg
        exact absurd (place g hg) (by simp)
      obtain ⟨q3, sh3, -⟩ := down s1 rfl r1 cfg (fun i k => by rw [station]) (.of_groups (by rw [same])) away fun g => by
        rw [group]
        exact q.calls.once g
      exact fin ⟨q3, sh3⟩
    | some g =>
      obtain ⟨r2, calm⟩ := (r1.exempt (E' := fun _ => False) (by simp [silent g rfl])).leaveQueue h g
      have queue : ∀ k, ((s1.leaveQueue h g).group k).queue = if k = g then (s.group k).queue.filter fun x => !(x == h) else (s.group k).queue :=
        fun k => by
          rw [calm.queue]
          split
          · rename_i e
            rw [e, State.group_updGroup_self, group]
          · rename_i e
            rw [State.group_updGroup_ne _ e, group]
      obtain ⟨q3, sh3, -⟩ := down (s1.leaveQueue h g) calm.calls (r2.exempt fun _ _ => id) (calm.cfg.trans cfg)
        (fun i k => by rw [calm.rings, ← station]; rfl)
        (fun k x hx => by
          rw [queue] at hx
          split at hx
          · exact (List.mem_filter.1 hx).1
          · exact hx)
        (fun k hk => by
          rw [queue] at hk
          split at hk
          · simp at hk
          · exact ‹¬ k = g› (by simpa [eq_comm] using place k hk))
        (fun k => by
          rw [queue]
          split
          · exact (q.calls.once k).filter _
          · exact q.calls.once k)
      exact fin ((q3.reviewIf _ g).imp id sh3.trans)

end Sound
end Sys2Proof.Machine
end

