-- ==== Sys2Proof/Proofs/Overflows.lean ====
section
/-! SUPPORT. Rings outside the groups, overflow hop by hop, entries into queues and no-answer, each with what it keeps of the agreement. -/

namespace Sys2Proof.Machine

namespace Loose

variable {s t : State} {h : Handle} {c : Call}

theorem of_eq (hl : Loose s h c) (h1 : t.calls = s.calls) (h2 : t.groups = s.groups) : Loose t h c := by
  obtain ⟨hc, ho, hn⟩ := hl
  exact ⟨by simpa [State.findCall, h1] using hc, ho, fun g => by simpa [State.group, h2] using hn g⟩

end Loose

namespace State

/-- The attendant that a call may go to is in use and IDLE (R15, R78). -/
theorem idleAttendant_idle {s : State} {a : StationId} (h : s.idleAttendant = some a) :
    (s.stationCfg a).inUse = true ∧ (s.station a).state = .idle :=
  (s.isIdle_iff a).1 (Option.filter_eq_some_iff.1 h).2

/-- An offer to a new arrival goes to a selection (R47). -/
theorem arrivalAt_offer {s : State} {g : GroupId} {c : Call} {sts : List StationId} (h : s.arrivalAt g c = .offer sts) :
    sts = s.select g c := by
  have entry : s.entryTest g c ≠ .offer sts := by
    unfold entryTest
    dsimp only
    repeat' split
    all_goals simp
  unfold arrivalAt at h
  split at h
  · simp at h
  · split at h
    · exact absurd h entry
    · split at h
      · exact absurd h entry
      · exact (Arrival.offer.inj h).symm

end State

namespace Sound

variable {D : StationId → Prop} {s t : State} {h : Handle} {c : Call}

/-! ## Rings outside the groups (R77, R78, R105) -/

theorem ringOne (q : Sound D s) (hl : Loose s h c) {i : StationId} (hi : (s.stationCfg i).inUse = true)
    (hq : ∀ k, (s.station i).state ≠ .ringing k) (k : OfferKind) (ms : Nat) :
    Sound D (s.ringOne h i k ms) ∧ Shrinks s (s.ringOne h i k ms) := by
  unfold State.ringOne
  exact ⟨q.ringLoose hl (by exact fun _ => rfl) rfl (by simp) hi hq, .of_groups (by simp)⟩

theorem ringIdle (q : Sound D s) (hl : Loose s h c) {a : StationId} (ha : (s.stationCfg a).inUse = true ∧ (s.station a).state = .idle)
    (k : OfferKind) (ms : Nat) : Sound D (s.ringOne h a k ms) ∧ Shrinks s (s.ringOne h a k ms) :=
  q.ringOne hl ha.1 (by simp [ha.2]) k ms

theorem toAttendant (q : Sound D s) (hl : Loose s h c) : Sound D (s.toAttendant h) ∧ Shrinks s (s.toAttendant h) := by
  unfold State.toAttendant
  split
  · exact q.ringIdle hl (State.idleAttendant_idle ‹_›) _ _
  · exact q.endCall h _ _

theorem fallToAttendant (q : Sound D s) (hl : Loose s h c) (r : RouteReason) :
    Sound D (s.fallToAttendant h r) ∧ Shrinks s (s.fallToAttendant h r) := by
  unfold State.fallToAttendant
  split
  · exact ⟨q, .refl s⟩
  · exact (q.advise _).toAttendant (hl.of_eq rfl rfl)

theorem recallToAttendant (q : Sound D s) (hl : Loose s h c) :
    Sound D (s.recallToAttendant h) ∧ Shrinks s (s.recallToAttendant h) := by
  unfold State.recallToAttendant
  split
  · exact ⟨q, .refl s⟩
  · split
    · split
      · exact q.endCall h _ _
      · exact q.ringIdle hl (State.idleAttendant_idle ‹_›) _ _
    · exact q.endCall h _ _

/-! ## Overflow (R75) -/

/-- One hop: the call rings or ends, or it is left loose for the group it arrives at next. -/
theorem hop (q : Sound D s) (hl : Loose s h c) (g : GroupId) (r : RouteReason) :
    (Sound D (s.hop h g r).1 ∧ Shrinks s (s.hop h g r).1) ∧ ((s.hop h g r).2.isSome = true → ∃ c', Loose (s.hop h g r).1 h c') := by
  unfold State.hop
  rw [hl.1]
  dsimp only
  generalize hs1 : ((s.updCall h _).advise _ : State) = s1
  have q1 : Sound D s1 ∧ ∃ c', Loose s1 h c' := by
    obtain ⟨q0, hl0⟩ := q.updLoose hl (f := fun x =>
      { x with
        state := .offering, currentGroup := none, tried := [], waitDeadline := none, waitPassed := false,
        arrivalWait := none, escDeadline := none, escalated := false, hops := _ }) (by exact fun _ => rfl) hl.2.1
    rw [← hs1]
    exact ⟨q0.advise _, _, hl0.of_eq rfl rfl⟩
  have sh1 : Shrinks s s1 := .of_groups (by rw [← hs1]; rfl)
  obtain ⟨q1, c1, hl1⟩ := q1
  split
  · exact ⟨(q1.endCall h _ _).imp id sh1.trans, by simp⟩
  · exact ⟨(q1.toAttendant hl1).imp id sh1.trans, by simp⟩
  · split
    · rename_i t hfree
      exact ⟨(q1.ringOne hl1 (State.free_inUse hfree) (State.free_quiet hfree) _ _).imp id sh1.trans, by simp⟩
    · exact ⟨(q1.fallToAttendant hl1 _).imp id sh1.trans, by simp⟩
  · obtain ⟨q2, hl2⟩ := q1.updLoose hl1 (f := fun x => { x with currentGroup := some _, arrivalWait := some _ }) (by exact fun _ => rfl)
      hl1.2.1
    exact ⟨⟨q2, sh1.trans (.of_groups rfl)⟩, fun _ => ⟨_, hl2⟩⟩

/-! ## Entries into queues (R68, R69) -/

/-- A loose call becomes QUEUED at a group and takes a place in its queue. -/
theorem placeInQueue (q : Sound D s) (hl : Loose s h c) {g : GroupId} {f : Call → Call} {ins : List Handle → List Handle}
    (hf : ∀ c, (f c).handle = c.handle) (hst : (f c).state = .queued ∧ (f c).currentGroup = some g) (ho : (f c).offered = [])
    (hins : ∀ l, (ins l).Perm (h :: l)) :
    Sound D ((s.updCall h f).updGroup g fun x => { x with queue := ins x.queue }) := by
  obtain ⟨hc, hoff, hnq⟩ := hl
  have queue : ∀ k, (((s.updCall h f).updGroup g fun x => { x with queue := ins x.queue }).group k).queue =
      if k = g then ins (s.group k).queue else (s.group k).queue := fun k => by
    split
    · rename_i e
      rw [e, State.group_updGroup_self]
      rfl
    · rename_i e
      rw [State.group_updGroup_ne _ e]
      rfl
  have self : (s.updCall h f).findCall h = some (f c) := by rw [State.findCall_updCall_self s h f hf, hc]; rfl
  refine ⟨q.calls.change (h := h) (c' := f c) (s.updCall_handles h hf) self (fun k e => State.findCall_updCall_ne s e f hf) (fun i => ?_)
    (fun _ _ _ => Iff.rfl) (fun k e x hk => ?_) (fun k hk => ?_) (fun k => ?_) fun _ => ho, ?_⟩
  · exact iff_of_false (q.calls.quiet hc hoff i) (by simp [ho])
  · rw [queue] at hk
    split at hk
    · exact (List.mem_cons.1 ((hins _).mem_iff.1 hk)).resolve_left e
    · exact hk
  · rw [queue] at hk
    split at hk
    · rename_i e
      exact ⟨hst.1, e ▸ hst.2⟩
    · exact absurd hk (hnq k)
  · rw [queue]
    split
    · exact (hins _).nodup_iff.2 (List.nodup_cons.2 ⟨hnq k, q.calls.once k⟩)
    · exact q.calls.once k
  · have r1 : Rest D (fun _ => False) (s.updCall h f) :=
      q.rest.updCall hf (fun _ => id) (fun _ _ i _ hr => absurd hr (q.calls.quiet hc hoff i)) fun _ k _ hk => absurd hk (hnq k)
    refine r1.updGroup (fun _ => ⟨rfl, rfl, rfl⟩) fun hin => ?_
    rw [State.inEscalation_iff] at hin ⊢
    obtain ⟨k, hk, x, hx, he⟩ := hin
    refine ⟨k, ?_, x, hx, he⟩
    rw [State.group_updGroup_self]
    exact (hins _).mem_iff.2 (List.mem_cons_of_mem _ hk)

theorem enterQueue (q : Sound D s) (hl : Loose s h c) (g : GroupId) (returning : Bool) (tried : List StationId) :
    Sound D (s.enterQueue h g returning tried) ∧ Fewer h s (s.enterQueue h g returning tried) := by
  obtain ⟨entry, flag, -, -, t, rfl, e⟩ := enterQueue_eq hl.1 g returning tried
  rw [e]
  let ins : List Handle → List Handle := fun l => if returning = true then h :: l else l ++ [h]
  have hins : ∀ l, (ins l).Perm (h :: l) := fun l => by
    dsimp only [ins]
    split
    · exact .refl _
    · exact List.perm_append_singleton h l
  have q1 : Sound D _ := q.placeInQueue hl (g := g) (ins := ins)
    (f := fun x => x.queuedAt g tried entry (s.waitOnEntry c) (s.groupCfg g).escDelay flag) (by exact fun _ => rfl) ⟨rfl, rfl⟩ rfl hins
  generalize ht : ((s.updCall h fun x => x.queuedAt g tried entry (s.waitOnEntry c) (s.groupCfg g).escDelay flag).updGroup g fun x =>
    { x with queue := ins x.queue }) = t at q1
  have self : t.findCall h = some (c.queuedAt g tried entry (s.waitOnEntry c) (s.groupCfg g).escDelay flag) := by
    rw [← ht]
    change (s.updCall h _).findCall h = _
    rw [State.findCall_updCall_self s h _ (by exact fun _ => rfl), hl.1]
    rfl
  have group : t.group g = { s.group g with queue := ins (s.group g).queue } := by
    rw [← ht, State.group_updGroup_self]
    rfl
  have few : Fewer h s t := fun k ek x hk => by
    by_cases ex : x = g
    · subst ex
      rw [group] at hk
      exact (List.mem_cons.1 ((hins _).mem_iff.1 hk)).resolve_left ek
    · rw [← ht, State.group_updGroup_ne _ ex] at hk
      exact hk
  split
  · rename_i hs
    simp only [Bool.and_eq_true, Bool.not_eq_true'] at hs
    obtain ⟨hflag, hout⟩ := hs
    have hn : (t.group g).escPage = none := by
      rw [group]
      cases hp : (s.group g).escPage with
      | none => rfl
      | some r => simp [(q.rest.esc.page g r id hp).1] at hout
    have k := q1.fit.escalationStart id hn ((t.inEscalation_iff g).2 ⟨h, by rw [group]; exact (hins _).mem_iff.2 (by simp), _, self, hflag⟩)
      q1.rest.repeats
    exact ⟨q1.of_fit k, few.trans (.of_queue k.calm.queue)⟩
  · exact ⟨q1, few⟩

/-! ## Arrivals and routing (R47, R75, R76) -/

theorem arrive (n : Nat) : ∀ {s : State} {c : Call}, Sound D s → Loose s h c → ∀ g,
    Sound D (State.arrive n s h g) ∧ Fewer h s (State.arrive n s h g) := by
  induction n with
  | zero => exact fun {s} _ q _ _ => ⟨q, .refl h s⟩
  | succ n ih =>
    intro s c q hl g
    unfold State.arrive
    rw [hl.1]
    dsimp only
    split
    · rename_i sts hoffer
      rw [State.arrivalAt_offer hoffer]
      exact (q.offerGroup hl.1 hl.2.1 (fun k hk => absurd hk (hl.2.2 k)) fun i hi => State.select_free i hi).imp id fun sh => sh.fewer h
    · exact q.enterQueue hl g _ _
    · rename_i r _
      obtain ⟨⟨q1, sh1⟩, hnext⟩ := q.hop hl g r
      split
      · rename_i e
        rw [e] at q1 sh1
        exact ⟨q1, sh1.fewer h⟩
      · rename_i e
        rw [e] at q1 sh1 hnext
        obtain ⟨c1, hl1⟩ := hnext rfl
        exact (ih q1 hl1 _).imp id (sh1.fewer h).trans

theorem route (q : Sound D s) (hl : Loose s h c) (g : GroupId) (r : RouteReason) :
    Sound D (s.route h g r) ∧ Fewer h s (s.route h g r) := by
  unfold State.route
  obtain ⟨⟨q1, sh1⟩, hnext⟩ := q.hop hl g r
  split
  · rename_i e
    rw [e] at q1 sh1
    exact ⟨q1, sh1.fewer h⟩
  · rename_i e
    rw [e] at q1 sh1 hnext
    obtain ⟨c1, hl1⟩ := hnext rfl
    exact (q1.arrive _ hl1 _).imp id (sh1.fewer h).trans

/-! ## Rings that stop (R54, R75) -/

/-- Every station of a call that is not QUEUED leaves its ring, and the call is loose. -/
theorem stopRings (q : Sound D s) (hc : s.findCall h = some c) (hq : c.state ≠ .queued) :
    Sound D (s.stopRings h) ∧ Shrinks s (s.stopRings h) ∧ Loose (s.stopRings h) h { c with offered := [], ringDeadline := none } := by
  have away : ∀ g, h ∉ (s.group g).queue := fun g hg => hq (q.calls.of_queue hg hc).1
  obtain ⟨q1, sh, found⟩ := q.tearDown hc (u := s) (f1 := id) (f2 := fun c => { c with offered := [], ringDeadline := none })
    (st := fun _ => .idle) (by exact fun _ => rfl) (by exact fun _ => rfl) (by simp [State.updCall]) (q.rest.exempt fun _ _ => id) rfl
    (by exact fun _ _ => Iff.rfl) (.refl s) away q.calls.once (by simp) rfl (by exact fun _ => ⟨Iff.rfl, rfl⟩)
  have e : s.stopRings h = (((c.offered.map Offer.station).foldl (fun s i => s.enterState i .idle) s).updCall h fun c =>
      { c with offered := [], ringDeadline := none }) := by
    unfold State.stopRings State.ringingFor
    rw [hc]
  rw [e]
  exact ⟨q1, sh, found, rfl, fun g hg => away g (sh h g hg)⟩

/-! ## Overflow of a call from its group (R75) -/

/-- A queued call leaves the group's queue, and is loose. -/
theorem leaveQueue (q : Sound D s) (hc : s.findCall h = some c) (hq : c.state = .queued) {g : GroupId}
    (hg : ∀ k, h ∈ (s.group k).queue → k = g) :
    Sound D (s.leaveQueue h g) ∧ Shrinks s (s.leaveQueue h g) ∧ Loose (s.leaveQueue h g) h c := by
  obtain ⟨r1, calm⟩ := q.rest.leaveQueue h g
  have queue : ∀ k, ((s.updGroup g fun x => { x with queue := x.queue.filter fun k => !(k == h) }).group k).queue =
      if k = g then (s.group k).queue.filter fun x => !(x == h) else (s.group k).queue := fun k => by
    split
    · rename_i e
      rw [e, State.group_updGroup_self]
    · rename_i e
      rw [State.group_updGroup_ne _ e]
  have fits : CallsFit (s.updGroup g fun x => { x with queue := x.queue.filter fun k => !(k == h) }) := by
    refine ⟨q.calls.handles, q.calls.rings, fun k x hx => q.calls.queue k x (Shrinks.drop s g h x k hx), fun k => ?_, q.calls.waits⟩
    rw [queue]
    split
    · exact (q.calls.once k).filter _
    · exact q.calls.once k
  refine ⟨⟨fits.of_calm calm, r1⟩, (Shrinks.drop s g h).trans (.of_calm calm), (calm.findCall h).trans hc, q.calls.waits h c hc hq,
    fun k hk => ?_⟩
  rw [calm.queue, queue] at hk
  split at hk
  · simp at hk
  · exact ‹¬ k = g› (hg k hk)

/-- A call that stands in no queue but that of `g` overflows from there. -/
theorem overflowMove (q : Sound D s) {g : GroupId} (hg : ∀ k, h ∈ (s.group k).queue → k = g) (r : RouteReason) :
    Sound D (s.overflowMove h g r) ∧ Fewer h s (s.overflowMove h g r) := by
  unfold State.overflowMove
  split
  · exact ⟨q, .refl h s⟩
  · rename_i c hc
    split
    · rename_i hq
      obtain ⟨q1, sh1, hl⟩ := q.leaveQueue hc hq hg
      obtain ⟨q2, few2⟩ := q1.route hl g r
      exact (q2.reviewIf _ g).imp id fun sh3 => ((sh1.fewer h).trans few2).trans (sh3.fewer h)
    · rename_i hq
      obtain ⟨q1, sh1, hl⟩ := q.stopRings hc hq
      exact (q1.route hl g r).imp id (sh1.fewer h).trans

theorem overflow (q : Sound D s) {g : GroupId} (hg : ∀ k, h ∈ (s.group k).queue → k = g) (r : RouteReason) :
    Sound D (s.overflow h g r) ∧ Fewer h s (s.overflow h g r) := by
  unfold State.overflow
  obtain ⟨q1, few1⟩ := q.overflowMove hg r
  exact (q1.availAll _).imp id fun sh => few1.trans (sh.fewer h)

/-! ## No answer (R54, R69) -/

theorem returnToQueue (q : Sound D s) (hl : Loose s h c) (g : GroupId) (left : List StationId) : Sound D (s.returnToQueue h g left) := by
  unfold State.returnToQueue
  rw [hl.1]
  dsimp only
  split
  · exact (q.route hl g _).1
  · split
    · exact (q.route hl g _).1
    · have q1 := (q.enterQueue hl g true (c.tried.filter fun i => left.contains i)).1
      split
      · split
        · rename_i t ht
          exact (q1.overflow (fun k hk => q1.calls.queue_unique (List.mem_of_getLast? ht) hk) _).1
        · exact q1
      · exact q1

theorem lookAgain (q : Sound D s) (hl : Loose s h c) (left : List StationId) : Sound D (s.lookAgain h left) := by
  unfold State.lookAgain
  rw [hl.1]
  dsimp only
  split
  · exact q
  · rename_i g _
    have free : ∀ i ∈ (if (s.groupCfg g).algorithm = .simultaneous then [] else s.select g c), s.freeForOffer i = true := fun i hi => by
      split at hi
      · simp at hi
      · exact State.select_free i hi
    generalize (if (s.groupCfg g).algorithm = .simultaneous then [] else s.select g c) = sts at free ⊢
    split
    · exact q.returnToQueue hl _ left
    · exact (q.offerGroup hl.1 hl.2.1 (fun k hk => absurd hk (hl.2.2 k)) free).1

/-- A call that rings nowhere any more proceeds as on no-answer. -/
theorem ringEnded (q : Sound D s) (hl : Loose s h c) (left : List StationId) : Sound D (s.ringEnded h left) := by
  unfold State.ringEnded
  rw [hl.1]
  dsimp only
  split
  · exact q.lookAgain hl left
  · exact (q.fallToAttendant hl _).1
  · exact (q.endCall h _ _).1
  · exact (q.recallToAttendant hl).1
  · exact q

theorem ringExpired (q : Sound D s) (hc : s.findCall h = some c) (hq : c.state ≠ .queued) : Sound D (s.ringExpired h) := by
  unfold State.ringExpired
  obtain ⟨q1, -, hl⟩ := q.stopRings hc hq
  exact ((q1.ringEnded hl _).availAll _).1

end Sound
end Sys2Proof.Machine
end

