-- ==== Sys2Proof/Proofs/Leaving.lean ====
section
/-! SUPPORT. A station that leaves a ring, the deadlines of calls, and the edits of groups and members, each with what it keeps of the agreement. -/

namespace Sys2Proof.Machine
namespace Sound

variable {D D' : StationId → Prop} {s t : State} {h : Handle} {c : Call}

/-! ## A station leaves the ring of a call (R33, R55) -/

/-- A station leaves the call's offered stations and its ring for a state in keeping with its "in use". -/
theorem leaveOffer (q : Sound D s) {i : StationId} {st : StationState} (hr : (s.station i).state = .ringing h)
    (hi : ¬ D' i → (st = .unused ↔ (s.stationCfg i).inUse = false)) (hD : ∀ j, j ≠ i → ¬ D' j → ¬ D j)
    (hl : ∀ r, st ≠ .pageListen r) (hn : ∀ k, st ≠ .ringing k) :
    ∃ c, s.findCall h = some c ∧ c.state ≠ .queued ∧
      ((s.updCall h fun c => { c with offered := c.offered.filter fun x => !(x.station == i) }).enterState i st).findCall h =
        some { c with offered := c.offered.filter fun x => !(x.station == i) } ∧
      Sound D' ((s.updCall h fun c => { c with offered := c.offered.filter fun x => !(x.station == i) }).enterState i st) ∧
      Shrinks s ((s.updCall h fun c => { c with offered := c.offered.filter fun x => !(x.station == i) }).enterState i st) := by
  obtain ⟨c, hc, hmem⟩ := (q.calls.rings i h).1 hr
  have hq : c.state ≠ .queued := fun e => by simp [q.calls.waits h c hc e] at hmem
  have away : ∀ g, h ∉ (s.group g).queue := fun g hg => hq (q.calls.of_queue hg hc).1
  have hf : ∀ c : Call, ({ c with offered := c.offered.filter fun x => !(x.station == i) } : Call).handle = c.handle := fun _ => rfl
  have self : ((s.updCall h fun c => { c with offered := c.offered.filter fun x => !(x.station == i) }).enterState i st).findCall h =
      some { c with offered := c.offered.filter fun x => !(x.station == i) } := by
    rw [State.findCall, State.enterState_calls]
    change (s.updCall h _).findCall h = _
    rw [State.findCall_updCall_self s h _ hf, hc]
    rfl
  have r1 : Rest D (fun _ => False) (s.updCall h fun c => { c with offered := c.offered.filter fun x => !(x.station == i) }) :=
    q.rest.updCall hf (fun _ => id) (fun _ _ _ _ _ => ⟨rfl, rfl⟩) fun _ _ _ _ => id
  refine ⟨c, hc, hq, self, ⟨q.calls.change (h := h) (by rw [State.enterState_calls, s.updCall_handles h hf]) self (fun k e => ?_) (fun j => ?_)
    (fun j k e => ?_) (.of_groups (by simp)) (fun g hg => absurd (by simpa [State.group] using hg) (away g))
    (fun g => by simpa [State.group] using q.calls.once g) (fun e => absurd e hq), r1.enterState' hi hD (fun _ _ => id) hl⟩,
    .of_groups (by simp)⟩
  · rw [State.findCall, State.enterState_calls]
    exact State.findCall_updCall_ne s e _ hf
  · rw [State.enterState_station]
    split
    · rename_i e
      exact iff_of_false (hn h) (by simp [e])
    · rename_i e
      change (s.station j).state = _ ↔ _
      rw [q.calls.rings]
      constructor
      · rintro ⟨c', hc', hj⟩
        obtain rfl := Option.some.inj (hc.symm.trans hc')
        obtain ⟨x, hx, rfl⟩ := List.mem_map.1 hj
        exact List.mem_map.2 ⟨x, List.mem_filter.2 ⟨hx, by simpa using e⟩, rfl⟩
      · intro hj
        obtain ⟨x, hx, rfl⟩ := List.mem_map.1 hj
        exact ⟨c, hc, List.mem_map.2 ⟨x, (List.mem_filter.1 hx).1, rfl⟩⟩
  · rw [State.enterState_station]
    split
    · rename_i e'
      subst e'
      rw [hr]
      exact iff_of_false (hn k) (by simpa using Ne.symm e)
    · rfl

/-- A station leaves the ring of a call, which rings on or proceeds as on no-answer. -/
theorem leaveRing (q : Sound D s) {i : StationId} {st : StationState} (hr : (s.station i).state = .ringing h)
    (hi : ¬ D' i → (st = .unused ↔ (s.stationCfg i).inUse = false)) (hD : ∀ j, j ≠ i → ¬ D' j → ¬ D j)
    (hl : ∀ r, st ≠ .pageListen r) (hn : ∀ k, st ≠ .ringing k) : Sound D' (s.leaveRing i h st) := by
  obtain ⟨c, hc, hq, self, q1, sh1⟩ := q.leaveOffer hr hi hD hl hn
  unfold State.leaveRing
  generalize (s.updCall h fun c => { c with offered := c.offered.filter fun x => !(x.station == i) }).enterState i st = s1 at *
  dsimp only
  have q2 : Sound D' (if s1.ringingFor h = [] then (s1.updCall h fun c => { c with ringDeadline := none }).ringEnded h [i] else s1) := by
    split
    · rename_i he
      have ho : c.offered.filter (fun x => !(x.station == i)) = [] := by
        unfold State.ringingFor at he
        rw [self] at he
        exact List.map_eq_nil_iff.1 he
      have away : ∀ g, h ∉ (s1.group g).queue := fun g hg => hq (q.calls.of_queue (sh1 h g hg) hc).1
      obtain ⟨q3, hl3⟩ := q1.updLoose ⟨self, ho, away⟩ (f := fun c => { c with ringDeadline := none }) (by exact fun _ => rfl) ho
      exact q3.ringEnded hl3 _
    · exact q1
  split
  · exact (q2.availability i).1
  · exact q2

/-- A station in use leaves the ring of a call for a state of use. -/
theorem leaveRing_used (q : Sound D s) {i : StationId} {st : StationState} (hr : (s.station i).state = .ringing h)
    (hst : st ≠ .unused ∧ (∀ r, st ≠ .pageListen r) ∧ ∀ k, st ≠ .ringing k) : Sound D (s.leaveRing i h st) :=
  q.leaveRing hr (fun hD => by simp [hst.1, q.rest.inUse_of_state (by simp [hr]) hD]) (fun _ _ => id) hst.2.1 hst.2.2

/-- A station that does not ring enters a state of no ring, in keeping with its "in use". -/
theorem enterState (q : Sound D s) {i : StationId} {st : StationState} (hr : ∀ k, (s.station i).state ≠ .ringing k)
    (hi : ¬ D' i → (st = .unused ↔ (s.stationCfg i).inUse = false)) (hD : ∀ j, j ≠ i → ¬ D' j → ¬ D j)
    (hl : ∀ r, st ≠ .pageListen r) (hn : ∀ k, st ≠ .ringing k) : Sound D' (s.enterState i st) :=
  ⟨q.calls.of_calm (.enterState s hr hn), q.rest.enterState' hi hD (fun _ _ => id) hl⟩

/-- A station's idle-since time and its mark are read by no agreement. -/
theorem updStation (q : Sound D s) (i : StationId) {f : Station → Station} (hf : ∀ x, (f x).state = x.state ∧ (f x).lastSent = x.lastSent) :
    Sound D (s.updStation i f) := by
  have state : ∀ j, ((s.updStation i f).station j).state = (s.station j).state ∧
      ((s.updStation i f).station j).lastSent = (s.station j).lastSent := fun j => by
    by_cases e : j = i
    · subst e
      rw [State.station_updStation_self]
      exact hf _
    · rw [State.station_updStation_ne s e]
      exact ⟨rfl, rfl⟩
  refine ⟨q.calls.of_calm ⟨rfl, rfl, fun _ => rfl, fun j h => by rw [(state j).1]⟩, fun j hj => ?_, q.rest.once, fun j hj => ?_,
    q.rest.pages.of_views rfl (fun _ => rfl) fun j r => ?_, q.rest.esc.of_same rfl rfl (.of_eq rfl), q.rest.repeats⟩
  · rw [(state j).1]
    exact q.rest.use j hj
  · unfold MarkFits
    rw [(state j).1, (state j).2]
    exact q.rest.marks j hj
  · rw [(state j).1]
    exact id

theorem enterFreshIdle (q : Sound D s) {i : StationId} (hr : ∀ k, (s.station i).state ≠ .ringing k) (hi : (s.stationCfg i).inUse = true)
    (hD : ∀ j, j ≠ i → ¬ D' j → ¬ D j) : Sound D' (s.enterFreshIdle i) := by
  unfold State.enterFreshIdle
  have q1 : Sound D (s.updStation i fun r => { r with idleSince := s.now, saturated := false }) :=
    q.updStation i (by exact fun _ => ⟨rfl, rfl⟩)
  exact q1.enterState (by rw [State.station_updStation_self]; exact hr) (fun _ => iff_of_false (by simp) (by rw [Bool.not_eq_false]; exact hi)) hD
    (by simp) (by simp)

end Sound
end Sys2Proof.Machine
end

