-- ==== Sys2Proof/Proofs/Deadlines.lean ====
section
/-! SUPPORT. Edits of call records that ring on or wait on, the deadlines of calls and groups, each with what it keeps of the agreement. -/

namespace Sys2Proof.Machine

/-- The call keeps its handle, its caller, its state, its group and its offered stations. -/
def Call.SameRing (c d : Call) : Prop :=
  d.handle = c.handle ∧ d.caller = c.caller ∧ d.state = c.state ∧ d.currentGroup = c.currentGroup ∧ d.offered = c.offered

namespace State

theorem findCall_map (s : State) {f : Call → Call} (hf : ∀ c, (f c).handle = c.handle) (h : Handle) :
    ({ s with calls := s.calls.map f } : State).findCall h = (s.findCall h).map f := by
  simp only [findCall, List.find?_map]
  congr 2
  funext c
  simp [hf]

/-- The calls are rewritten, each staying escalated if it was: no group leaves escalation. -/
theorem inEscalation_map (s : State) {f : Call → Call} (hf : ∀ c, (f c).handle = c.handle)
    (hesc : ∀ c, c.escalated = true → (f c).escalated = true) {g : GroupId} (hg : s.inEscalation g = true) :
    ({ s with calls := s.calls.map f } : State).inEscalation g = true := by
  rw [inEscalation_iff] at hg ⊢
  obtain ⟨k, hk, c, hc, he⟩ := hg
  exact ⟨k, hk, f c, by rw [s.findCall_map hf, hc]; rfl, hesc c he⟩

/-- The calls are rewritten, each keeping its ring and its place. -/
theorem present_mapCalls (s : State) {f : Call → Call} (hf : ∀ c : Call, c.SameRing (f c)) (st : StationState) :
    ({ s with calls := s.calls.map f } : State).present st = s.present st := by
  refine present_congr (fun h _ => ?_) fun _ _ => rfl
  rw [s.findCall_map fun c => (hf c).1]
  cases s.findCall h with
  | none => rfl
  | some c =>
    obtain ⟨-, h2, h3, -⟩ := hf c
    simp [h2, h3]

end State

theorem CallsFit.mapCalls {s : State} (q : CallsFit s) {f : Call → Call} (hf : ∀ c : Call, c.SameRing (f c)) :
    CallsFit { s with calls := s.calls.map f } := by
  have find := s.findCall_map fun c => (hf c).1
  refine ⟨?_, fun i h => ?_, fun g h hh => ?_, q.once, fun h c hc hq => ?_⟩
  · have : (s.calls.map f).map Call.handle = s.calls.map Call.handle := by
      rw [List.map_map]
      exact List.map_congr_left fun c _ => (hf c).1
    exact this ▸ q.handles
  · rw [find]
    change (s.station i).state = _ ↔ _
    rw [q.rings]
    constructor
    · rintro ⟨c, hc, hi⟩
      exact ⟨f c, by rw [hc]; rfl, by rw [(hf c).2.2.2.2]; exact hi⟩
    · rintro ⟨d, hd, hi⟩
      obtain ⟨c, hc, rfl⟩ := Option.map_eq_some_iff.1 hd
      exact ⟨c, hc, by rw [(hf c).2.2.2.2] at hi; exact hi⟩
  · obtain ⟨c, h1, h2, h3⟩ := q.queue g h hh
    obtain ⟨-, -, e1, e2, -⟩ := hf c
    exact ⟨f c, by rw [find, h1]; rfl, e1.trans h2, e2.trans h3⟩
  · rw [find] at hc
    obtain ⟨d, hd, rfl⟩ := Option.map_eq_some_iff.1 hc
    obtain ⟨-, -, e1, -, e3⟩ := hf d
    rw [e3]
    exact q.waits h d hd (e1 ▸ hq)

namespace Sound

variable {D : StationId → Prop} {s t : State} {h : Handle} {c : Call}

/-- The calls are rewritten, each keeping its ring and its place, and no group leaves escalation. -/
theorem mapCalls (q : Sound D s) {f : Call → Call} (hf : ∀ c : Call, c.SameRing (f c))
    (hin : ∀ g, s.inEscalation g = true → ({ s with calls := s.calls.map f } : State).inEscalation g = true) :
    Sound D { s with calls := s.calls.map f } := by
  have st := q.rest.stations.of_eq (t := { s with calls := s.calls.map f }) rfl (fun _ => rfl) rfl fun i => s.present_mapCalls hf _
  exact ⟨q.calls.mapCalls hf, st.use, st.once, fun i _ => st.marks i, q.rest.pages.of_views rfl (fun _ => rfl) fun _ _ => id,
    q.rest.esc.of_groups (.of_eq rfl) (fun _ => ⟨rfl, rfl, rfl⟩) hin, q.rest.repeats⟩

/-- One call is rewritten, keeping its ring and its place, and stays escalated if it was. -/
theorem updCall (q : Sound D s) (h : Handle) {f : Call → Call} (hf : ∀ c : Call, c.SameRing (f c))
    (hesc : ∀ c, c.escalated = true → (f c).escalated = true) : Sound D (s.updCall h f) := by
  let F : Call → Call := fun c => if c.handle == h then f c else c
  have hF : ∀ c : Call, c.SameRing (F c) := fun c => by
    dsimp only [F]
    split
    · exact hf c
    · exact ⟨rfl, rfl, rfl, rfl, rfl⟩
  refine q.mapCalls hF fun g => s.inEscalation_map (fun c => (hF c).1) fun c he => ?_
  dsimp only [F]
  split
  · exact hesc c he
  · exact he

/-! ## Deadlines of calls (R71, R80, R103) -/

theorem waitExpired (q : Sound D s) (h : Handle) : Sound D (s.waitExpired h) := by
  unfold State.waitExpired
  split
  · exact q
  · rename_i c hc
    split
    · rename_i g _ hg
      refine (q.overflow (fun k hk => ?_) _).1
      obtain ⟨-, h2, -⟩ := q.calls.of_queue hk hc
      exact Option.some.inj (h2.symm.trans hg)
    · exact q.updCall h (fun _ => ⟨rfl, rfl, rfl, rfl, rfl⟩) fun _ => id

/-- Escalation starts at a group that was not in escalation and whose queue holds an escalated call now. -/
theorem escalationStart (q : Sound D t) {g : GroupId} (hn : (t.group g).escPage = none) (hin : t.inEscalation g = true) :
    Sound D (t.escalationStart g) := q.of_fit (q.fit.escalationStart id hn hin q.rest.repeats)

theorem escPage_none (q : Sound D s) {g : GroupId} (h : s.inEscalation g = false) : (s.group g).escPage = none := by
  cases hp : (s.group g).escPage with
  | none => rfl
  | some r => simp [(q.rest.esc.page g r id hp).1] at h

theorem escExpired (q : Sound D s) (hplace : ∀ c g, s.findCall h = some c → c.currentGroup = some g → h ∈ (s.group g).queue) :
    Sound D (s.escExpired h) := by
  unfold State.escExpired
  split
  · exact q
  · rename_i c hc
    have q1 : Sound D (s.updCall h fun c => { c with escDeadline := none, escalated := true }) :=
      q.updCall h (fun _ => ⟨rfl, rfl, rfl, rfl, rfl⟩) fun _ _ => rfl
    dsimp only
    split
    · rename_i g hg
      split
      · exact q1
      · rename_i hout
        refine q1.escalationStart (q.escPage_none (g := g) (by simpa using hout)) ((State.inEscalation_iff _ g).2 ⟨h, hplace c g hc hg,
          { c with escDeadline := none, escalated := true }, ?_, rfl⟩)
        rw [State.findCall_updCall_self s h _ (by exact fun _ => rfl), hc]
        rfl
    · exact q1

theorem parkExpired (q : Sound D s) (hl : ∀ c, s.findCall h = some c → Loose s h c) : Sound D (s.parkExpired h) := by
  unfold State.parkExpired
  split
  · exact q
  · rename_i c hc
    split
    · rename_i i hi
      have hidle := (s.isIdle_iff i).1 (Option.filter_eq_some_iff.1 hi).2
      exact q.ringLoose (hl c hc) (by exact fun _ => rfl) rfl (by simp) hidle.1 (by simp [hidle.2])
    · obtain ⟨q1, hl1⟩ := q.updLoose (hl c hc) (f := fun c => { c with parkDeadline := none }) (by exact fun _ => rfl) (hl c hc).2.1
      exact (q1.recallToAttendant hl1).1

/-! ## Deadlines of groups (R83) -/

theorem repeatExpired (q : Sound D s) {g : GroupId} (hd : (s.group g).repeatDeadline.isSome = true) : Sound D (s.repeatExpired g) := by
  have hin : s.inEscalation g = true := q.rest.esc.again g id (.inl hd)
  unfold State.repeatExpired
  split
  · rename_i hn
    have k1 : Fit D (fun _ => False) s [] (s.updGroup g fun x => { x with repeatDeadline := none }) := q.fit.setRepeat id rfl rfl hin
    have k2 := k1.pageAttempt id (by rw [State.group_updGroup_self]; exact hn) ((q.fit.inEscalation_eq k1 g).trans hin) q.rest.repeats
    exact q.of_fit (k2.setRepeat id rfl rfl ((q.fit.inEscalation_eq k2 g).trans hin))
  · exact q.of_fit (q.fit.setRepeat id rfl rfl hin)

end Sound
end Sys2Proof.Machine
end

