-- ==== Sys2Proof/Proofs/Edits.lean ====
section
/-! SUPPORT. The edits of the configuration with their live effects, each with what it keeps of the agreement. -/

namespace Sys2Proof.Machine

/-- Sorting keeps the elements, each as often as before. -/
theorem insertBy_perm {α : Type} (before : α → α → Bool) (x : α) (l : List α) : (insertBy before x l).Perm (x :: l) := by
  induction l with
  | nil => exact .refl _
  | cons y l ih =>
    unfold insertBy
    split
    · exact .refl _
    · exact (ih.cons y).trans (.swap x y l)

theorem sortBy_perm {α : Type} (before : α → α → Bool) (l : List α) : (sortBy before l).Perm l := by
  induction l with
  | nil => exact .refl _
  | cons x l ih => exact (insertBy_perm before x _).trans (ih.cons x)

/-- The calls that ring for a group are OFFERING there, each listed once. -/
theorem State.offeringAt_perm (s : State) (g : GroupId) :
    (s.offeringAt g).Perm ((s.calls.filter fun c => decide (c.state = .offering) && decide (c.currentGroup = some g)).map Call.handle) :=
  (sortBy_perm _ _).map _

namespace Sound

variable {D D' : StationId → Prop} {s t : State} {h : Handle} {c : Call}

/-! ## Configuration fields -/

/-- An edit of the configuration that leaves every "in use" but those of `D'`. -/
theorem updCfg' (q : Sound D s) {f : WorkingConfig → WorkingConfig} (hD : ∀ i, ¬ D' i → ¬ D i)
    (hf : ∀ i, ¬ D' i → ((s.updCfg f).stationCfg i).inUse = (s.stationCfg i).inUse) (hr : (f s.cfg).RepeatsFit) :
    Sound D' (s.updCfg f) :=
  ⟨⟨q.calls.handles, q.calls.rings, q.calls.queue, q.calls.once, q.calls.waits⟩, fun i hi => by rw [hf i hi]; exact q.rest.use i (hD i hi),
    q.rest.once, fun i hi => q.rest.marks i hi, q.rest.pages.of_views rfl (fun _ => rfl) fun _ _ => id,
    q.rest.esc.of_same rfl rfl (.of_eq rfl), hr⟩

/-- An edit of the configuration that leaves every "in use". -/
theorem updCfg (q : Sound D s) {f : WorkingConfig → WorkingConfig} (hf : ∀ c (i : StationId), (f c).stations[i].inUse = c.stations[i].inUse)
    (hr : ∀ c, c.RepeatsFit → (f c).RepeatsFit) : Sound D (s.updCfg f) :=
  q.updCfg' (fun _ => id) (fun i _ => hf s.cfg i) (hr _ q.rest.repeats)

/-! ## Members (R45, R61 to R63) -/

theorem updMembers (q : Sound D s) (g : GroupId) (f : List Member → List Member) : Sound D (s.updMembers g f) := by
  refine q.updCfg (fun _ _ => rfl) fun c hc k => ?_
  by_cases e : k = g
  · subst e
    simpa using hc k
  · have : g.val ≠ k.val := fun e' => e (Fin.ext e'.symm)
    simpa [Vector.getElem_set_ne, this] using hc k

theorem cancelGroupRing (q : Sound D s) (g : GroupId) (i : StationId) : Sound D (s.cancelGroupRing g i) := by
  unfold State.cancelGroupRing
  split
  · rename_i h hr
    split
    · exact q.leaveRing_used hr (by simp)
    · exact q
  · exact q

theorem untry (q : Sound D s) (g : GroupId) (i : StationId) : Sound D (s.untry g i) := by
  refine q.mapCalls (fun c => ?_) fun k => s.inEscalation_map (fun c => ?_) fun c he => ?_
  · split <;> exact ⟨rfl, rfl, rfl, rfl, rfl⟩
  · split <;> rfl
  · split <;> exact he

theorem acceptAdd (q : Sound D s) (g : GroupId) (i : StationId) (pos : Nat) (flag : Bool) : Sound D (acceptAdd s g i pos flag) := by
  unfold Machine.acceptAdd
  dsimp only
  split
  · exact ((q.updMembers g _).availability i).1
  · exact q.updMembers g _

theorem acceptRemove (q : Sound D s) (g : GroupId) (i : StationId) : Sound D (acceptRemove s g i) := by
  have q1 : Sound D (s.updGroup g fun x => { x with cursor := cursorAfter (s.groupCfg g).members i x.cursor }) :=
    q.updGroup fun _ => ⟨rfl, rfl, rfl, rfl⟩
  exact ((q1.updMembers g _).untry g i).cancelGroupRing g i

theorem acceptLogin (q : Sound D s) (g : GroupId) (i : StationId) : Sound D (acceptLogin s g i) := by
  unfold Machine.acceptLogin
  split
  · exact q
  · exact ((q.updMembers g _).availability i).1

theorem acceptLogout (q : Sound D s) (g : GroupId) (i : StationId) : Sound D (acceptLogout s g i) := by
  unfold Machine.acceptLogout
  split
  · exact (q.updMembers g _).cancelGroupRing g i
  · exact q

/-! ## Groups (R72, R74, R86) -/

/-- Calls that stand in no queue but that of the group overflow from it, one after another. -/
theorem overflowMoves (g : GroupId) (r : RouteReason) (l : List Handle) : ∀ {s : State}, Sound D s → l.Nodup →
    (∀ h ∈ l, ∀ k, h ∈ (s.group k).queue → k = g) → Sound D (l.foldl (fun s h => s.overflowMove h g r) s) := by
  induction l with
  | nil => exact fun q _ _ => q
  | cons h l ih =>
    intro s q hn hg
    obtain ⟨hx, hn'⟩ := List.nodup_cons.1 hn
    obtain ⟨q1, few⟩ := q.overflowMove (hg h (by simp)) r
    exact ih q1 hn' fun x hm k hk => hg x (by simp [hm]) k (few x (fun e => hx (e ▸ hm)) k hk)

theorem overflowQueue (q : Sound D s) (g : GroupId) : Sound D (s.overflowQueue g) :=
  overflowMoves g _ _ q (q.calls.once g) fun _ hm _ hk => q.calls.queue_unique hm hk

theorem overflowOffers (q : Sound D s) (g : GroupId) : Sound D (s.overflowOffers g) := by
  have hn : (s.offeringAt g).Nodup :=
    (s.offeringAt_perm g).nodup_iff.2 (q.calls.handles.sublist (List.filter_sublist.map _))
  refine ((overflowMoves g _ _ q hn fun h hm k hk => ?_).availAll _).1
  obtain ⟨c, hc, e⟩ := List.mem_map.1 ((s.offeringAt_perm g).mem_iff.1 hm)
  obtain ⟨c', h1, h2, -⟩ := q.calls.queue k h hk
  obtain ⟨hmem, hcond⟩ := List.mem_filter.1 hc
  have : c = c' := List.inj_on_of_nodup_map q.calls.handles hmem (List.mem_of_find?_eq_some h1) (e.trans (State.findCall_handle h1).symm)
  subst this
  simp [h2] at hcond

theorem disableGroup (q : Sound D s) (g : GroupId) : Sound D (s.disableGroup g) := (q.overflowQueue g).overflowOffers g

theorem lowerLimit (n : Nat) (g : GroupId) : ∀ {s : State}, Sound D s → Sound D (State.lowerLimit n g s) := by
  induction n with
  | zero => exact fun q => q
  | succ n ih =>
    intro s q
    unfold State.lowerLimit
    split
    · split
      · rename_i h hh
        exact ih (q.overflow (fun k hk => q.calls.queue_unique (List.mem_of_getLast? hh) hk) _).1
      · exact q
    · exact q

theorem redelayed_all (delay : Nat) (l : List Handle) : ∀ {s : State}, Sound D s →
    Sound D (l.foldl (fun s h => s.updCall h (s.redelayed delay)) s) ∧
      (l.foldl (fun s h => s.updCall h (s.redelayed delay)) s).groups = s.groups := by
  induction l with
  | nil => exact fun q => ⟨q, rfl⟩
  | cons h l ih =>
    intro s q
    refine ih (q.updCall h (fun c => ?_) fun c hc => ?_)
    · unfold State.redelayed
      repeat' split
      all_goals exact ⟨rfl, rfl, rfl, rfl, rfl⟩
    · unfold State.redelayed
      rw [if_pos hc]
      exact hc

theorem delaySet (q : Sound D s) (g : GroupId) (delay : Nat) : Sound D (s.delaySet g delay) := by
  obtain ⟨q1, groups⟩ := redelayed_all delay (s.group g).queue q
  unfold State.delaySet
  dsimp only
  split
  · rename_i hs
    simp only [Bool.and_eq_true, Bool.not_eq_true'] at hs
    exact q1.escalationStart (by rw [State.group, groups]; exact q.escPage_none hs.2) hs.1
  · exact q1

theorem delayCleared (q : Sound D s) (g : GroupId) : Sound D (s.delayCleared g) := by
  unfold State.delayCleared
  dsimp only
  generalize hF : (fun c : Call => if c.currentGroup = some g ∧ (c.state = .queued ∨ c.state = .offering) then
    { c with escalated := false, escDeadline := none } else c) = F
  have same : ∀ c : Call, c.SameRing (F c) := fun c => by
    rw [← hF]
    dsimp only
    split <;> exact ⟨rfl, rfl, rfl, rfl, rfl⟩
  have others : ∀ k, k ≠ g → s.inEscalation k = true → ({ s with calls := s.calls.map F } : State).inEscalation k = true := by
    intro k e hk
    rw [State.inEscalation_iff] at hk ⊢
    obtain ⟨h, hm, c, hc, he⟩ := hk
    refine ⟨h, hm, F c, by rw [s.findCall_map fun c => (same c).1, hc]; rfl, ?_⟩
    obtain ⟨-, hg, -⟩ := q.calls.of_queue hm hc
    rw [← hF]
    dsimp only
    rwa [if_neg (by simp [hg, e])]
  split
  · have q1 := q.calls.mapCalls same
    have k1 : Fit D (fun k => False ∨ k = g) { s with calls := s.calls.map F } [] { s with calls := s.calls.map F } := by
      refine .start (q.rest.stations.of_eq rfl (fun _ => rfl) rfl fun i => s.present_mapCalls same _)
        (q.rest.pages.of_views rfl (fun _ => rfl) fun _ _ => id) ⟨fun k r hx h => ?_, fun k hx h => ?_, fun p pg k hx => ?_⟩ <;>
        (have e := (not_or.1 hx).2)
      · obtain ⟨h1, h2⟩ := q.rest.esc.page k r id h
        exact ⟨others k e h1, h2⟩
      · exact others k e (q.rest.esc.again k id h)
      · exact q.rest.esc.made p pg k id
    have k2 := k1.escalationClear (g := g) (fun r hr => (q.rest.esc.page g r id hr).2) (fun p pg hp hg => q.rest.esc.made p pg g id hp hg)
    exact ⟨q1.of_calm k2.calm, .of_fit k2 q.rest.repeats⟩
  · rename_i hout
    refine q.mapCalls same fun k hk => others k (fun e => hout (e ▸ hk)) hk

theorem live (q : Sound D s) (f : GroupFields) (b : Bool) (g : GroupId) : Sound D (f.live b s g) := by
  unfold GroupFields.live
  dsimp only
  have q1 : Sound D (if b = true ∧ f.enabled = some false then s.disableGroup g else s) := by
    split
    · exact q.disableGroup g
    · exact q
  generalize (if b = true ∧ f.enabled = some false then s.disableGroup g else s) = s1 at *
  have q2 : Sound D (if f.queueLimit.isSome then State.lowerLimit (s1.group g).queue.length g s1 else s1) := by
    split
    · exact q1.lowerLimit _ g
    · exact q1
  split
  · exact q2
  · exact q2.delayCleared g
  · exact q2.delaySet g _

theorem acceptSetGroup (q : Sound D s) (mask : Nat) {f : GroupFields} (hf : ∀ n, f.repeatInterval = some n → 10 ≤ n) :
    Sound D (acceptSetGroup s mask f) := by
  unfold Machine.acceptSetGroup
  dsimp only
  refine List.foldlRecOn (motive := fun t : State => Sound D t) (groupsIn mask) _ (q.updCfg (fun _ _ => rfl) fun c hc g => ?_)
    fun t q g _ => q.live f _ g
  have := hc g
  simp only [Fin.getElem_fin, Vector.getElem_mapFinIdx]
  split
  · cases h : f.repeatInterval with
    | none => simpa [GroupFields.write, h] using this
    | some n => simpa [GroupFields.write, h] using hf n h
  · exact this

/-! ## Stations (R3, R182) -/

theorem bringIntoUse (q : Sound D s) {i : StationId} (hi : (s.stationCfg i).inUse = true) (hD : ∀ j, j ≠ i → ¬ D' j → ¬ D j) :
    Sound D' (s.bringIntoUse i) := by
  unfold State.bringIntoUse
  split
  · rename_i h
    exact ((q.enterFreshIdle (by simp [h]) hi hD).availability i).1
  · rename_i h
    refine ⟨q.calls, fun j hj => ?_, q.rest.once, q.rest.marks, q.rest.pages, q.rest.esc, q.rest.repeats⟩
    by_cases e : j = i
    · subst e
      exact iff_of_false h (by simp [hi])
    · exact q.rest.use j (hD j e hj)

theorem takeOutOfUse (q : Sound D s) {i : StationId} (hi : (s.stationCfg i).inUse = false) (hD : ∀ j, j ≠ i → ¬ D' j → ¬ D j) :
    Sound D' (s.takeOutOfUse i) := by
  have leave : (∀ k, (s.station i).state ≠ .ringing k) → Sound D' (s.enterState i .unused) := fun h =>
    q.enterState h (fun _ => iff_of_true rfl hi) hD (by simp) (by simp)
  unfold State.takeOutOfUse
  split
  · rename_i h
    refine ⟨q.calls, fun j hj => ?_, q.rest.once, q.rest.marks, q.rest.pages, q.rest.esc, q.rest.repeats⟩
    by_cases e : j = i
    · subst e
      exact iff_of_true h hi
    · exact q.rest.use j (hD j e hj)
  · rename_i hr
    exact q.leaveRing hr (fun _ => iff_of_true rfl hi) hD (by simp) (by simp)
  all_goals
    rename_i h
    exact leave (by simp [h])

theorem applyInUse (q : Sound D s) {i : StationId} {b : Bool} (hi : (s.stationCfg i).inUse = b) (hD : ∀ j, j ≠ i → ¬ D' j → ¬ D j) :
    Sound D' (s.applyInUse b i) := by
  unfold State.applyInUse
  split
  · rename_i hb
    exact q.bringIntoUse (hi.trans hb) hD
  · rename_i hb
    exact q.takeOutOfUse (hi.trans (by simpa using hb)) hD

end Sound

namespace Quiet

variable {s0 s : State}

theorem overflowMoves (q : Quiet s0 s) (g : GroupId) (r : RouteReason) (l : List Handle) :
    Quiet s0 (l.foldl (fun s h => s.overflowMove h g r) s) := foldl (fun h q => q.overflowMove h g r) l q

theorem disableGroup (q : Quiet s0 s) (g : GroupId) : Quiet s0 (s.disableGroup g) :=
  ((q.overflowMoves g _ _).overflowMoves g _ _).availAll _

theorem lowerLimit (n : Nat) (g : GroupId) (q : Quiet s0 s) : Quiet s0 (State.lowerLimit n g s) := by
  induction n generalizing s with
  | zero => exact q
  | succ n ih =>
    unfold State.lowerLimit
    split
    · split
      · exact ih (q.overflow _ g _)
      · exact q
    · exact q

theorem delaySet (q : Quiet s0 s) (g : GroupId) (delay : Nat) : Quiet s0 (s.delaySet g delay) := by
  have q1 := foldl (f := fun s h => s.updCall h (s.redelayed delay)) (fun h q => q.updCall h _) (s.group g).queue q
  unfold State.delaySet
  dsimp only
  split
  · exact q1.escalationStart g
  · exact q1

theorem delayCleared (q : Quiet s0 s) (g : GroupId) : Quiet s0 (s.delayCleared g) := by
  unfold State.delayCleared
  dsimp only
  split
  · exact (q.setCalls _).escalationClear g
  · exact q.setCalls _

theorem live (q : Quiet s0 s) (f : GroupFields) (b : Bool) (g : GroupId) : Quiet s0 (f.live b s g) := by
  unfold GroupFields.live
  dsimp only
  have q1 : Quiet s0 (if b = true ∧ f.enabled = some false then s.disableGroup g else s) := by
    split
    · exact q.disableGroup g
    · exact q
  generalize (if b = true ∧ f.enabled = some false then s.disableGroup g else s) = s1 at *
  have q2 : Quiet s0 (if f.queueLimit.isSome then State.lowerLimit (s1.group g).queue.length g s1 else s1) := by
    split
    · exact q1.lowerLimit _ g
    · exact q1
  split
  · exact q2
  · exact q2.delayCleared g
  · exact q2.delaySet g _

theorem untry (q : Quiet s0 s) (g : GroupId) (i : StationId) : Quiet s0 (s.untry g i) := q.setCalls _

theorem cancelGroupRing (q : Quiet s0 s) (g : GroupId) (i : StationId) : Quiet s0 (s.cancelGroupRing g i) := by
  unfold State.cancelGroupRing
  split
  · split
    · exact q.leaveRing i _ _
    · exact q
  · exact q

end Quiet

theorem Quiet.applyInUse {s0 s : State} (q : Quiet s0 s) (b : Bool) (i : StationId) : Quiet s0 (s.applyInUse b i) := by
  unfold State.applyInUse
  split
  · unfold State.bringIntoUse
    split
    · exact (q.enterFreshIdle i).availability i
    · exact q
  · unfold State.takeOutOfUse
    split
    · exact q
    · exact q.leaveRing i _ _
    all_goals exact q.enterState i _

namespace Sound

variable {D : StationId → Prop} {s : State}

/-- The stations of a list are brought into use or taken out of it one after another, as their configuration says already. -/
theorem applyInUses (b : Bool) (l : List StationId) : ∀ {s : State}, Sound (fun i => i ∈ l) s →
    (∀ i ∈ l, (s.stationCfg i).inUse = b) → Sound (fun _ => False) (l.foldl (State.applyInUse b) s) := by
  induction l with
  | nil => exact fun q _ => by simpa using q
  | cons i l ih =>
    intro s q hi
    have cfg : (s.applyInUse b i).cfg = s.cfg := ((Quiet.refl s).applyInUse b i).cfg
    refine ih (q.applyInUse (hi i (by simp)) fun j e hj hm => ?_) fun j hj => ?_
    · exact hj ((List.mem_cons.1 hm).resolve_left e)
    · rw [State.stationCfg, cfg]
      exact hi j (by simp [hj])

theorem acceptSetStation (q : Sound (fun _ => False) s) (first last : Nat) (f : StationFields) :
    Sound (fun _ => False) (acceptSetStation s first last f) := by
  have inUse : ∀ i : StationId, ((s.writeStations first last f.write).stationCfg i).inUse =
      if first ≤ i.val ∧ i.val ≤ last then f.inUse.getD (s.stationCfg i).inUse else (s.stationCfg i).inUse := fun i => by
    simp only [State.writeStations, State.updCfg, State.stationCfg, Fin.getElem_fin, Vector.getElem_mapFinIdx]
    split <;> rfl
  have member : ∀ i, i ∈ stationsIn first last ↔ first ≤ i.val ∧ i.val ≤ last := fun i => by simp [stationsIn]
  unfold Machine.acceptSetStation
  dsimp only
  split
  · rename_i h
    exact q.updCfg' (fun _ _ => id) (fun i _ => (inUse i).trans (by simp [h])) q.rest.repeats
  · rename_i b h
    have q1 : Sound (fun i => i ∈ stationsIn first last) (s.writeStations first last f.write) :=
      q.updCfg' (fun _ _ => id) (fun i hi => by rw [member] at hi; exact (inUse i).trans (if_neg hi)) q.rest.repeats
    refine applyInUses b _ q1 fun i hi => ?_
    rw [inUse, if_pos ((member i).1 hi), h]
    rfl

end Sound
end Sys2Proof.Machine
end

