-- ==== Sys2Proof/Proofs/Requests.lean ====
section
/-! SUPPORT. Every request, each with what its handling keeps of the agreement. -/

namespace Sys2Proof.Machine

/-- The records agree, and every configuration held repeats no sooner than after 10 s. -/
structure Whole (s : State) : Prop where
  sound : Sound (fun _ => False) s
  stored : ∀ c, s.stored = some c → c.RepeatsFit
  save : ∀ r, s.save = some r → r.config.RepeatsFit

namespace Whole

variable {s t : State}

/-- An agreement kept while the stored copy and the save stand. -/
theorem next (w : Whole s) (q : Sound (fun _ => False) t) (h1 : t.stored = s.stored) (h2 : t.save = s.save) : Whole t :=
  ⟨q, h1 ▸ w.stored, h2 ▸ w.save⟩

theorem quiet (w : Whole s) (q : Sound (fun _ => False) t) (h : Quiet s t) : Whole t := w.next q h.stored h.save

/-- An update that writes no field which the agreement reads. -/
theorem of_views (w : Whole s) (h1 : t.stations = s.stations) (h2 : t.cfg = s.cfg) (h3 : t.calls = s.calls)
    (h4 : t.pages = s.pages) (h5 : t.link.stationOrders = s.link.stationOrders) (h6 : t.groups = s.groups)
    (h7 : t.outputs = s.outputs) (h8 : t.stored = s.stored) (h9 : t.save = s.save) : Whole t :=
  w.next (w.sound.of_views h1 h2 h3 h4 h5 h6 h7) h8 h9

theorem fit (w : Whole s) (k : Fit (fun _ => False) (fun _ => False) s [] t) (h : Quiet s t) : Whole t := w.quiet (w.sound.of_fit k) h

/-! ## The shapes of a handling (R169 to R171) -/

section
variable {α : Type}

theorem withBody (w : Whole s) (r : Reader α) (body : List Octet) {k : α → Handled} (h : ∀ v, Whole (k v).st) :
    Whole (withBody r body s k).st := by
  unfold Machine.withBody
  split
  · exact h _
  · exact w

theorem orBadValue (w : Whole s) (o : Option α) {k : α → Handled} (h : ∀ v, o = some v → Whole (k v).st) :
    Whole (orBadValue s o k).st := by
  unfold Machine.orBadValue
  split
  · exact w
  · exact h _ rfl

theorem unlessSaving (w : Whole s) {k : Handled} (h : Whole k.st) : Whole (unlessSaving s k).st := by
  unfold Machine.unlessSaving
  split
  · exact w
  · exact h

theorem orBadUnless (w : Whole s) (b : Bool) {k : Handled} (h : Whole k.st) : Whole (orBadUnless s b k).st := by
  unfold Machine.orBadUnless
  split
  · exact h
  · exact w

theorem withRequester (w : Whole s) (i : Nat) {k : StationId → Handled} (h : ∀ r, Whole (k r).st) : Whole (withRequester s i k).st := by
  refine w.orBadValue _ fun r _ => ?_
  split
  · exact h r
  · exact w

end

/-! ## Calls (chapters 2, 3 and 5) -/

theorem endCall (w : Whole s) (h : Handle) (o : CallOutcome) (st : Option StationId) : Whole (s.endCall h o st) :=
  w.quiet (w.sound.endCall h o st).1 ((Quiet.refl s).endCall h o st)

theorem pickCall (w : Whole s) (r : StationId) (h : Handle) : Whole (pickCall s r h).st := w.endCall h _ _

/-- A new record, with a handle that no call in use has, which rings nowhere and stands in no queue. -/
theorem addCall (w : Whole s) {c : Call} (hnew : s.findCall c.handle = none) (ho : c.offered = []) :
    Whole (s.addCall c) ∧ Loose (s.addCall c) c.handle c := by
  have self : (s.addCall c).findCall c.handle = some c := by
    simp only [State.findCall, State.addCall, List.find?_append] at hnew ⊢
    simp [hnew]
  have ne : ∀ k, k ≠ c.handle → (s.addCall c).findCall k = s.findCall k := fun k e => by
    simp [State.findCall, State.addCall, List.find?_append, Ne.symm e]
  have away : ∀ g, c.handle ∉ (s.group g).queue := fun g hg => by
    obtain ⟨d, hd, -⟩ := w.sound.calls.queue g _ hg
    simp [hnew] at hd
  have quiet : ∀ i, (s.station i).state ≠ .ringing c.handle := fun i hi => by
    obtain ⟨d, hd, -⟩ := (w.sound.calls.rings i _).1 hi
    simp [hnew] at hd
  have fits : CallsFit (s.addCall c) := by
    refine ⟨?_, fun i h => ?_, fun g h hh => ?_, w.sound.calls.once, fun h d hd hq => ?_⟩
    · rw [State.addCall, List.map_append]
      refine List.nodup_append.2 ⟨w.sound.calls.handles, by simp, fun h hh k hk => ?_⟩
      rw [List.map_singleton, List.mem_singleton] at hk
      subst hk
      rintro rfl
      obtain ⟨d, hd, e⟩ := List.mem_map.1 hh
      exact List.find?_eq_none.1 hnew d hd (by simp [e])
    · by_cases e : h = c.handle
      · subst e
        refine iff_of_false (quiet i) ?_
        rintro ⟨d, hd, hi⟩
        obtain rfl := Option.some.inj (self.symm.trans hd)
        simp [ho] at hi
      · rw [ne h e]
        exact w.sound.calls.rings i h
    · rw [ne h fun e => away g (e ▸ hh)]
      exact w.sound.calls.queue g h hh
    · by_cases e : h = c.handle
      · subst e
        obtain rfl := Option.some.inj (self.symm.trans hd)
        exact ho
      · rw [ne h e] at hd
        exact w.sound.calls.waits h d hd hq
  have shown : ∀ i, (s.addCall c).present (s.station i).state = s.present (s.station i).state := fun i =>
    State.present_congr (fun h hh => by rw [ne h fun e => quiet i (e ▸ hh)]) fun _ _ => rfl
  have st := w.sound.rest.stations.of_eq (t := s.addCall c) rfl (fun _ => rfl) rfl shown
  refine ⟨w.next ⟨fits, st.use, st.once, fun i _ => st.marks i, w.sound.rest.pages.of_views rfl (fun _ => rfl) fun _ _ => id,
    w.sound.rest.esc.of_groups (.of_eq rfl) (fun _ => ⟨rfl, rfl, rfl⟩) fun g hg => ?_, w.sound.rest.repeats⟩ rfl rfl, self, ho, away⟩
  rw [State.inEscalation_iff] at hg ⊢
  obtain ⟨k, hk, d, hd, he⟩ := hg
  exact ⟨k, hk, d, by rw [ne k fun e => away g (e ▸ hk)]; exact hd, he⟩

theorem flush (w : Whole s) : Whole s.flush := w.quiet w.sound.flush (Quiet.refl s).flush

theorem handleCallIn (w : Whole s) (body : List Octet) : Whole (handleCallIn body s).st := by
  refine w.withBody _ body fun ⟨h, pilot, caller, flag⟩ => w.orBadValue _ fun noPickup _ => ?_
  split
  · exact w
  · split
    · exact w
    · rename_i hnew
      split
      · exact w
      · split
        · exact w
        · rename_i g _ _
          obtain ⟨w1, hl⟩ := w.addCall (c := arrivedCall h caller noPickup g (s.groupCfg g).maxWait s.now)
            (by simpa [arrivedCall] using hnew) rfl
          exact (w1.quiet (w1.sound.arrive _ hl g).1 ((Quiet.refl _).arrive _ _ g)).flush
      · exact w

theorem handleAnswer (w : Whole s) (body : List Octet) : Whole (handleAnswer body s).st := by
  refine w.withBody _ body fun ⟨i, h⟩ => w.orBadValue _ fun i _ => ?_
  split
  · exact w
  · split
    · exact w.endCall h _ _
    · exact w

theorem handleHangup (w : Whole s) (body : List Octet) : Whole (handleHangup body s).st := by
  refine w.withBody _ body fun h => ?_
  split
  · exact w
  · split
    · exact w
    · split
      · exact w
      · exact w.endCall h _ _

theorem handleReport (w : Whole s) {effect : State → StationId → State} (he : ∀ i, Whole (effect s i)) (body : List Octet) :
    Whole (handleReport effect body s).st := by
  refine w.withBody _ body fun ⟨i, r⟩ => w.orBadValue _ fun i _ => ?_
  split
  · exact w
  · exact he i

/-- A station of use enters another state of use, no ring and no page. -/
theorem enterState (w : Whole s) {i : StationId} {st : StationState} (hu : (s.station i).state ≠ .unused)
    (hr : ∀ k, (s.station i).state ≠ .ringing k) (hst : st ≠ .unused ∧ (∀ r, st ≠ .pageListen r) ∧ ∀ k, st ≠ .ringing k) :
    Whole (s.enterState i st) :=
  w.quiet (w.sound.enterState hr (fun _ => by simp [hst.1, w.sound.rest.inUse_of_state hu id]) (fun _ _ => id) hst.2.1 hst.2.2)
    ((Quiet.refl s).enterState i st)

theorem leaveRing (w : Whole s) {i : StationId} {h : Handle} (hr : (s.station i).state = .ringing h) {st : StationState}
    (hst : st ≠ .unused ∧ (∀ r, st ≠ .pageListen r) ∧ ∀ k, st ≠ .ringing k) : Whole (s.leaveRing i h st) :=
  w.quiet (w.sound.leaveRing_used hr hst) ((Quiet.refl s).leaveRing i h st)

theorem freshIdle (w : Whole s) {i : StationId} (hu : (s.station i).state ≠ .unused) (hr : ∀ k, (s.station i).state ≠ .ringing k) :
    Whole ((s.enterFreshIdle i).availability i) :=
  w.quiet ((w.sound.enterFreshIdle hr (w.sound.rest.inUse_of_state hu id) fun _ _ => id).availability i).1
    (((Quiet.refl s).enterFreshIdle i).availability i)

theorem reportOffhook (w : Whole s) (i : StationId) : Whole (reportOffhook s i) := by
  unfold Machine.reportOffhook
  split
  · exact w.enterState (by simp [*]) (by simp [*]) (by simp)
  · exact w.leaveRing ‹_› (by simp)
  · exact w.enterState (by simp [*]) (by simp [*]) (by simp)
  all_goals exact w

theorem reportOutOfService (w : Whole s) (i : StationId) : Whole (reportOutOfService s i) := by
  unfold Machine.reportOutOfService
  split
  · exact w.enterState (by simp [*]) (by simp [*]) (by simp)
  · exact w.enterState (by simp [*]) (by simp [*]) (by simp)
  · exact w.leaveRing ‹_› (by simp)
  · exact w.enterState (by simp [*]) (by simp [*]) (by simp)
  all_goals exact w

theorem reportOnhook (w : Whole s) (i : StationId) : Whole (reportOnhook s i) := by
  unfold Machine.reportOnhook
  split
  · exact w.freshIdle (by simp [*]) (by simp [*])
  all_goals exact w

theorem reportInService (w : Whole s) (i : StationId) : Whole (reportInService s i) := by
  unfold Machine.reportInService
  split
  · exact w.freshIdle (by simp [*]) (by simp [*])
  all_goals exact w

theorem handlePickup (w : Whole s) (body : List Octet) : Whole (handlePickup body s).st := by
  refine w.withBody _ body fun i => w.withRequester i fun r => ?_
  split
  · exact w
  · split
    · exact w
    · exact w.pickCall r _

theorem handleDpickup (w : Whole s) (body : List Octet) : Whole (handleDpickup body s).st := by
  refine w.withBody _ body fun ⟨i, d⟩ => w.withRequester i fun r => ?_
  split
  · exact w
  · split
    · exact w
    · unfold dpickupStation
      repeat' split
      all_goals first
        | exact w
        | exact w.pickCall r _
    · unfold dpickupPilot
      split
      · exact w
      · exact w.pickCall r _
    · unfold dpickupOrbit
      split
      · exact w
      · split
        · exact w.endCall _ _ _
        · exact w

theorem handlePark (w : Whole s) (body : List Octet) : Whole (handlePark body s).st := by
  refine w.withBody _ body fun ⟨i, h, o, f, d⟩ => w.withRequester i fun r => w.orBadValue _ fun asked _ => w.orBadValue _ fun noPickup _ => ?_
  split
  · exact w
  · split
    · exact w
    · rename_i hnew
      split
      · exact w
      · split
        · exact (w.addCall (by simpa [parkedCall] using hnew) rfl).1
        · exact w

/-! ## Pages (chapter 6) -/

theorem freePage_free {p : PageId} (h : s.freePage = some p) : s.page p = none := by
  simpa using List.find?_some h

theorem handlePage (w : Whole s) (body : List Octet) : Whole (handlePage body s).st := by
  refine w.withBody _ body fun q => w.orBadValue _ fun f _ => ?_
  dsimp only
  split
  · exact w
  · unfold startPage
    dsimp only
    split
    · exact w
    · rename_i p hp
      split
      · exact w
      · exact w.fit (w.sound.fit.acceptPage (freePage_free hp) rfl rfl (by simp [pageOf])).1 ((Quiet.refl s).acceptPage p _)

theorem endPage (w : Whole s) (p : PageId) {why : EndReason} (h : why ≠ .escalationCleared) : Whole (s.endPage p why) :=
  w.fit (w.sound.fit.endPage p h (fun _ _ _ _ => id) w.sound.rest.repeats) ((Quiet.refl s).endPage p why)

theorem handlePageEnd (w : Whole s) (body : List Octet) : Whole (handlePageEnd body s).st := by
  refine w.withBody _ body fun ⟨p, g⟩ => w.orBadValue _ fun p _ => ?_
  split
  · exact w.endPage p (by simp)
  · exact w

/-! ## Edits of the configuration (R181, R182) -/

/-- An edit that writes no "in use" and no repeat interval below 10 s. -/
theorem updCfg (w : Whole s) {f : WorkingConfig → WorkingConfig} (hf : ∀ c (i : StationId), (f c).stations[i].inUse = c.stations[i].inUse)
    (hr : ∀ c, c.RepeatsFit → (f c).RepeatsFit) : Whole (s.updCfg f) :=
  w.next (w.sound.updCfg hf hr) rfl rfl

theorem acceptCfg (w : Whole s) {f : WorkingConfig → WorkingConfig} {l : List Octet} (h1 : ∀ c, (f c).stations = c.stations)
    (h2 : ∀ c, (f c).groups = c.groups) : Whole (accept (s.updCfg f) l).st :=
  w.updCfg (fun c i => by simp [h1]) fun c hc g => by simpa [h2] using hc g

theorem handleSetSystem (w : Whole s) (body : List Octet) : Whole (handleSetSystem body s).st := by
  refine w.withBody _ body fun q => w.unlessSaving (w.orBadValue _ fun f _ => ?_)
  split
  · exact w
  · exact w.acceptCfg (fun _ => rfl) fun _ => rfl

theorem handleSetDirAdd (w : Whole s) (body : List Octet) : Whole (handleSetDirAdd body s).st := by
  refine w.withBody _ body fun ⟨op, number, kind, target⟩ => w.unlessSaving (w.orBadUnless _ (w.orBadValue _ fun t _ => ?_))
  split
  · exact w
  · split
    · exact w
    · exact w.acceptCfg (fun _ => rfl) fun _ => rfl

theorem handleSetDirRemove (w : Whole s) (body : List Octet) : Whole (handleSetDirRemove body s).st := by
  refine w.withBody _ body fun ⟨op, number, kind, target⟩ => w.unlessSaving (w.orBadUnless _ ?_)
  split
  · exact w.acceptCfg (fun _ => rfl) fun _ => rfl
  · exact w

theorem handleSetStation (w : Whole s) (body : List Octet) : Whole (handleSetStation body s).st := by
  refine w.withBody _ body fun q => w.unlessSaving (w.orBadUnless _ (w.orBadValue _ fun f _ => ?_))
  have k : (acceptSetStation s q.first q.last f).stored = s.stored ∧ (acceptSetStation s q.first q.last f).save = s.save := by
    unfold acceptSetStation
    dsimp only
    split
    · exact ⟨rfl, rfl⟩
    · have k := Quiet.foldl (f := State.applyInUse ‹Bool›) (fun i q => q.applyInUse _ i) (stationsIn q.first q.last)
        (Quiet.refl (s.writeStations q.first q.last f.write))
      exact ⟨k.stored, k.save⟩
  exact w.next (w.sound.acceptSetStation _ _ f) k.1 k.2

theorem handleSetPickup (w : Whole s) (body : List Octet) : Whole (handleSetPickup body s).st := by
  refine w.withBody _ body fun ⟨first, last, group⟩ => w.unlessSaving (w.orBadUnless _ (w.orBadValue _ fun g _ => ?_))
  have inUse : ∀ (c : WorkingConfig) (i : StationId), ({ c with
      stations := c.stations.mapFinIdx fun i x _ => if first ≤ i ∧ i ≤ last then { x with pickupGroup := g } else x } : WorkingConfig).stations[i].inUse =
      c.stations[i].inUse := fun c i => by
    simp only [Fin.getElem_fin, Vector.getElem_mapFinIdx]
    split <;> rfl
  exact w.updCfg inUse (by exact fun _ => id)

theorem handleSetList (w : Whole s) (body : List Octet) : Whole (handleSetList body s).st := by
  refine w.withBody _ body fun ⟨l, raw⟩ => w.unlessSaving (w.orBadValue _ fun l _ => w.orBadUnless _ (w.orBadValue _ fun es _ => ?_))
  split
  · exact w.acceptCfg (fun _ => rfl) fun _ => rfl
  · exact w

theorem handleSetMap (w : Whole s) (body : List Octet) : Whole (handleSetMap body s).st := by
  refine w.withBody _ body fun q => w.unlessSaving (w.orBadValue _ fun ⟨m, z, e⟩ _ => ?_)
  dsimp only
  split
  · exact w
  · split
    · exact w
    · exact w.acceptCfg (fun _ => rfl) fun _ => rfl

/-- An output changes, but for its holder. -/
theorem updOutput (w : Whole s) {o : OutputId} {f : Output → Output} (hf : (f (s.output o)).state.holder = (s.output o).state.holder) :
    Whole (s.updOutput o f) := by
  refine w.next (w.sound.of_fit (w.sound.fit.of_views rfl rfl rfl rfl rfl rfl fun k => ?_)) rfl rfl
  by_cases e : k = o
  · subst e
    rw [State.output_updOutput_self]
    exact hf
  · rw [State.output_updOutput_ne s e]

theorem handleSetOutput (w : Whole s) (body : List Octet) : Whole (handleSetOutput body s).st := by
  refine w.withBody _ body fun q => w.unlessSaving (w.orBadUnless _ (w.orBadValue _ fun f _ => ?_))
  refine w.orBadUnless _ ?_
  refine List.foldlRecOn (motive := fun t : State => Whole t) _ _ (w.updCfg (by exact fun _ _ => rfl) (by exact fun _ => id)) fun t w o _ => w.updOutput ?_
  unfold OutputFields.live
  dsimp only
  split <;> rfl

theorem handleSetChime (w : Whole s) (body : List Octet) : Whole (handleSetChime body s).st :=
  w.withBody _ body fun ⟨_, _, _⟩ => w.unlessSaving <| w.orBadValue _ fun _ _ => w.orBadValue _ fun _ _ => w.orBadValue _ fun _ _ =>
    w.acceptCfg (fun _ => rfl) fun _ => rfl

/-- A repeat interval of a SET_GROUP in range is 10 s or more (R86). -/
theorem repeatInterval_ge {q : RawGroup} {f : GroupFields} (h : q.fields = some f) (n : Nat) (hn : f.repeatInterval = some n) : 10 ≤ n := by
  unfold RawGroup.fields at h
  simp only [Option.bind_eq_bind, Option.bind_eq_some_iff] at h
  obtain ⟨_, -, _, -, _, -, _, -, _, -, _, -, _, -, _, -, _, -, r, hr, h⟩ := h
  split at h
  · obtain rfl := Option.some.inj h
    cases hq : q.repeatInterval with
    | none => simp_all [presentOf]
    | some v =>
      simp only [hq, presentOf, stepped] at hr
      split at hr <;> simp_all
  · simp at h

theorem handleSetGroup (w : Whole s) (body : List Octet) : Whole (handleSetGroup body s).st := by
  refine w.withBody _ body fun q => w.unlessSaving (w.orBadUnless _ (w.orBadValue _ fun f hf => ?_))
  have k : Quiet (s.updCfg fun c =>
      { c with groups := c.groups.mapFinIdx fun i x _ => if q.groups.testBit i then f.write x else x }) (acceptSetGroup s q.groups f) :=
    Quiet.foldl (fun g k => k.live f _ g) _ (Quiet.refl _)
  exact w.next (w.sound.acceptSetGroup _ (repeatInterval_ge hf)) k.stored k.save

theorem handleMember (w : Whole s) {effect : State → GroupId → StationId → State} (he : ∀ g i, Whole (effect s g i)) (body : List Octet) :
    Whole (handleMember effect body s).st := by
  refine w.withBody _ body fun ⟨g, _, i, _, _⟩ => w.unlessSaving (w.orBadValue _ fun g _ => w.orBadValue _ fun i _ => ?_)
  split
  · exact he g i
  · exact w

theorem handleSetMembersAdd (w : Whole s) (body : List Octet) : Whole (handleSetMembersAdd body s).st := by
  refine w.withBody _ body fun ⟨g, op, i, pos, flag⟩ => w.unlessSaving (w.orBadValue _ fun g _ => w.orBadValue _ fun i _ =>
    w.orBadValue _ fun flag _ => w.orBadUnless _ ?_)
  split
  · exact w
  · split
    · exact w
    · have k : (acceptAdd s g i pos flag).stored = s.stored ∧ (acceptAdd s g i pos flag).save = s.save := by
        unfold acceptAdd
        dsimp only
        split
        · have k := (Quiet.refl (s.updMembers g fun ms => ms.take pos ++ { station := i, loggedIn := flag } :: ms.drop pos)).availability i
          exact ⟨k.stored, k.save⟩
        · exact ⟨rfl, rfl⟩
      exact w.next (w.sound.acceptAdd g i pos flag) k.1 k.2

theorem acceptRemove (w : Whole s) (g : GroupId) (i : StationId) : Whole (acceptRemove s g i) := by
  have k : Quiet ((s.updGroup g fun x => { x with cursor := cursorAfter (s.groupCfg g).members i x.cursor }).updMembers g fun ms =>
      ms.filter fun m => !(m.station == i)) (Machine.acceptRemove s g i) := ((Quiet.refl _).untry g i).cancelGroupRing g i
  exact w.next (w.sound.acceptRemove g i) k.stored k.save

theorem acceptLogin (w : Whole s) (g : GroupId) (i : StationId) : Whole (acceptLogin s g i) := by
  have k : (Machine.acceptLogin s g i).stored = s.stored ∧ (Machine.acceptLogin s g i).save = s.save := by
    unfold Machine.acceptLogin
    split
    · exact ⟨rfl, rfl⟩
    · have k := (Quiet.refl (s.updMembers g (setLoggedIn i true))).availability i
      exact ⟨k.stored, k.save⟩
  exact w.next (w.sound.acceptLogin g i) k.1 k.2

theorem acceptLogout (w : Whole s) (g : GroupId) (i : StationId) : Whole (acceptLogout s g i) := by
  have k : (Machine.acceptLogout s g i).stored = s.stored ∧ (Machine.acceptLogout s g i).save = s.save := by
    unfold Machine.acceptLogout
    split
    · have k := (Quiet.refl (s.updMembers g (setLoggedIn i false))).cancelGroupRing g i
      exact ⟨k.stored, k.save⟩
    · exact ⟨rfl, rfl⟩
  exact w.next (w.sound.acceptLogout g i) k.1 k.2

/-! ## Saves, the reset and the queries (chapter 10, 9.6) -/

theorem handleSave (w : Whole s) (body : List Octet) : Whole (handleSave body s).st := by
  refine w.withBody _ body fun _ => ?_
  split
  · exact w
  · exact ⟨w.sound.of_views rfl rfl rfl rfl rfl rfl rfl, nofun, fun r h => Option.some.inj h ▸ w.sound.rest.repeats⟩

theorem handleReset (w : Whole s) (body : List Octet) : Whole (handleReset body s).st :=
  w.withBody _ body fun _ => w.of_views rfl rfl rfl rfl rfl rfl rfl rfl rfl

theorem queryBy (w : Whole s) (n k : Nat) (content : State → Fin k → List Octet) (body : List Octet) :
    Whole (queryBy n k content body s).st := w.withBody _ body fun _ => w.orBadValue _ fun _ _ => w

theorem handleStatus (w : Whole s) (body : List Octet) : Whole (handleStatus body s).st := w.withBody _ body fun _ => w

theorem handleGetOrbits (w : Whole s) (body : List Octet) : Whole (handleGetOrbits body s).st := w.withBody _ body fun _ => w

theorem handleGetCall (w : Whole s) (body : List Octet) : Whole (handleGetCall body s).st := by
  refine w.withBody _ body fun h => ?_
  split
  · exact w
  · split <;> exact w

theorem handleGetDir (w : Whole s) (body : List Octet) : Whole (handleGetDir body s).st := by
  refine w.withBody _ body fun d => ?_
  split <;> exact w

end Whole
end Sys2Proof.Machine
end

