-- ==== Sys2Proof/Proofs/Steps.lean ====
section
/-! SUPPORT. The link, the events and the resets, each with what it keeps of the agreement; and every step of the machine. -/

namespace Sys2Proof.Machine
namespace Whole

variable {s t : State}

/-! ## The transmitter (R172 to R174) -/

/-- An update of the link that leaves the station order set. -/
theorem updLink (w : Whole s) {f : Link → Link} (h : (f s.link).stationOrders = s.link.stationOrders) : Whole (s.updLink f) :=
  w.of_views rfl rfl rfl rfl h rfl rfl rfl rfl

theorem sendFrame (w : Whole s) (item : TxItem) (f : Frame) : Whole (s.sendFrame item f) := w.updLink rfl

theorem takeReply (w : Whole s) (r : Reply) (rest : List Reply) : Whole (s.takeReply r rest) := (w.sendFrame _ _).updLink rfl

/-- The station whose order is taken has its present presentation for its last sent one, and no mark. -/
theorem takeStationOrder (w : Whole s) {m : Mark} {rest : List Mark} (h : s.link.stationOrders = m :: rest) :
    Whole (s.takeStationOrder m rest) := by
  generalize ht : s.takeStationOrder m rest = t
  have once : ((m :: rest).map Mark.station).Nodup := h ▸ w.sound.rest.once
  have at' : ∀ i, t.station i =
      (s.updStation m.station fun r => { r with lastSent := s.present (s.station m.station).state }).station i := fun i => by
    rw [← ht]
    rfl
  have self : t.station m.station = { s.station m.station with lastSent := s.present (s.station m.station).state } := by
    rw [at', State.station_updStation_self]
  have ne : ∀ i, i ≠ m.station → t.station i = s.station i := fun i e => by
    rw [at', State.station_updStation_ne s e]
  have state : ∀ i, (t.station i).state = (s.station i).state := fun i => by
    by_cases e : i = m.station
    · rw [e, self]
    · rw [ne i e]
  have stays : t = { s with stations := t.stations, link := t.link } := by rw [← ht]; rfl
  have cfg : t.cfg = s.cfg := by rw [stays]
  have orders : t.link.stationOrders = rest := by rw [← ht]; rfl
  have present : ∀ st, t.present st = s.present st := State.present_of_eq (by rw [stays]) (by rw [stays])
  refine w.next ⟨w.sound.calls.of_calm ⟨by rw [stays], cfg, fun g => by rw [stays]; rfl, fun i k => by rw [state]⟩, fun i hi => ?_, ?_,
    fun i _ => ?_, w.sound.rest.pages.of_views (by rw [stays]) (fun o => by rw [stays]; rfl) (fun i r => by rw [state]; exact id),
    w.sound.rest.esc.of_same (by rw [stays]) (by rw [stays]) (.of_eq (by rw [stays])), cfg ▸ w.sound.rest.repeats⟩ (by rw [stays]) (by rw [stays])
  · rw [state, State.stationCfg, cfg]
    exact w.sound.rest.use i hi
  · unfold OrdersOnce
    rw [orders]
    exact (List.nodup_cons.1 once).2
  · unfold MarkFits
    rw [state, present, State.marked_iff, orders]
    by_cases e : i = m.station
    · subst e
      rw [self]
      exact iff_of_false (List.nodup_cons.1 once).1 (by simp)
    · have := w.sound.rest.marks i id
      unfold MarkFits at this
      rw [ne i e, ← this, State.marked_iff, h]
      simp [e]

theorem transmitTake (w : Whole s) : Whole s.transmitTake := by
  unfold State.transmitTake
  split
  · exact w
  · exact w.takeReply _ _
  · split
    · exact w
    · unfold State.takeOther
      split
      · exact (w.sendFrame _ _).updLink rfl
      · exact (w.sendFrame _ _).updLink rfl
      · exact w.sendFrame _ _
      · exact w.takeStationOrder ‹_›
      · exact (w.sendFrame _ _).updLink rfl
      · exact w

theorem finish (w : Whole s) : Whole s.finish := w.flush.transmitTake

theorem answer (w : Whole s) (f : Frame) (r : Result) (c : List Octet) : Whole (s.answer f r c) := (w.updLink rfl).transmitTake

/-! ## Dispatch and events (R169) -/

theorem of_dispatch {row : Row} {f : Frame} {handle : State → Handled} (e : dispatch row f handle s = .next t) (w : Whole s)
    (h : ∀ u, Whole u → Whole (handle u).st) : Whole t := by
  obtain ⟨rest, -, -, -, e'⟩ | e' := dispatch_answers row f handle s <;> rw [e'] at e <;> cases e
  · exact (h _ (w.updLink rfl)).flush.answer _ _ _
  · exact w

theorem of_event {b : Bool} {effect : State → State} (e : event s b effect = .next t) (w : Whole s) (h : b = true → Whole (effect s)) :
    Whole t := by
  obtain ⟨-, hb, e'⟩ | e' := event_answers s b effect <;> rw [e'] at e <;> cases e
  · exact (h hb).finish
  · exact w

/-! ## Resets (R187) -/

theorem defaults_repeatsFit : WorkingConfig.defaults.RepeatsFit := fun g => by
  simp [WorkingConfig.defaults, GroupCfg.defaults]

/-- Right after a reset stations are IDLE or UNUSED, and nothing is in use. -/
theorem afterReset (s : State) (power : Power) {cfg : WorkingConfig} (h : cfg.RepeatsFit) (gains : Vector Nat 16) (cause : StartCause)
    (origin : StartOrigin) : Sound (fun _ => False) (s.afterReset power cfg gains cause origin) := by
  have station : ∀ i, (s.afterReset power cfg gains cause origin).station i = State.stationAfterReset cfg.stations[i] := fun i => by
    simp [State.afterReset, State.station]
  have state : ∀ i, ((s.afterReset power cfg gains cause origin).station i).state = .idle ∨
      ((s.afterReset power cfg gains cause origin).station i).state = .unused := fun i => by
    rw [station]
    unfold State.stationAfterReset
    dsimp only
    split <;> simp
  have group : ∀ g, (s.afterReset power cfg gains cause origin).group g = Group.afterReset := fun g => by
    simp [State.afterReset, State.group]
  have page : ∀ p, (s.afterReset power cfg gains cause origin).page p = none := fun p => by
    simp [State.afterReset, State.page]
  have holder : ∀ o, ((s.afterReset power cfg gains cause origin).output o).state.holder = none := fun o => by
    simp [State.afterReset, State.output, Output.afterReset, OutputState.holder]
  have noCall : ∀ k, (s.afterReset power cfg gains cause origin).findCall k = none := fun _ => rfl
  refine ⟨⟨by simp [State.afterReset], fun i k => ?_, fun g k hk => ?_, fun g => ?_, fun k c hk => ?_⟩, fun i _ => ?_, by
      simp [OrdersOnce, State.afterReset, Link.afterReset], fun i _ => ?_, ⟨fun o r ho => ?_, fun p pg hp => ?_, fun i r hi => ?_, fun p pg hp => ?_⟩,
    ⟨fun g r _ hg => ?_, fun g _ hg => ?_, fun p pg g _ hp => ?_⟩, h⟩
  · rw [noCall]
    obtain e | e := state i <;> simp [e]
  · simp [group, Group.afterReset] at hk
  · simp [group, Group.afterReset]
  · simp [noCall] at hk
  · rw [station]
    change _ ↔ cfg.stations[i].inUse = false
    unfold State.stationAfterReset
    dsimp only
    split <;> simp_all
  · have hm : (s.afterReset power cfg gains cause origin).marked i = false := rfl
    have hs : ((s.afterReset power cfg gains cause origin).station i).lastSent = .quiet := by rw [station]; rfl
    unfold MarkFits
    rw [hm, hs]
    obtain e | e := state i <;> simp [e, State.present]
  · simp [holder] at ho
  · simp [page] at hp
  · obtain e | e := state i <;> simp [e] at hi
  · simp [page] at hp
  · simp [group, Group.afterReset] at hg
  · simp [group, Group.afterReset] at hg
  · simp [page] at hp

theorem powerOn (w : Whole s) (b : Bool) : Whole (s.powerOn b) := by
  have hs : ∀ c, (if b = true then s.stored else none) = some c → c.RepeatsFit := fun c hc => by
    split at hc
    · exact w.stored c hc
    · simp at hc
  have hcfg : ((if b = true then s.stored else none).getD WorkingConfig.defaults).RepeatsFit := by
    generalize (if b = true then s.stored else none) = x at *
    cases x with
    | none => exact defaults_repeatsFit
    | some c => exact hs c rfl
  exact ⟨(afterReset s .running hcfg _ .power _).of_views rfl rfl rfl rfl rfl rfl rfl, hs, nofun⟩

theorem warmReset (w : Whole s) (power : Power) (cause : StartCause) : Whole (s.warmReset power cause) :=
  ⟨afterReset s power w.sound.rest.repeats _ cause .retained, w.stored, nofun⟩

/-! ## The end of a transmission (R38) -/

/-- The record of an ENDING call becomes FREE. -/
theorem dropCall (w : Whole s) {h : Handle} {c : Call} (hc : s.findCall h = some c) (ho : c.offered = []) (hq : c.state ≠ .queued) :
    Whole (s.dropCall h) := by
  have gone : (s.dropCall h).findCall h = none := by
    simp [State.findCall, State.dropCall]
  have ne : ∀ k, k ≠ h → (s.dropCall h).findCall k = s.findCall k := fun k e => by
    simp only [State.findCall, State.dropCall, List.find?_filter]
    refine congrArg (fun p => s.calls.find? p) (funext fun d => ?_)
    by_cases hd : d.handle = k
    · simp [hd, e]
    · simp [hd]
  have away : ∀ g, h ∉ (s.group g).queue := fun g hg => hq (w.sound.calls.of_queue hg hc).1
  have quiet := w.sound.calls.quiet hc ho
  have fits : CallsFit (s.dropCall h) := by
    refine ⟨w.sound.calls.handles.sublist (List.filter_sublist.map _), fun i k => ?_, fun g k hk => ?_, w.sound.calls.once, fun k d hd => ?_⟩
    · by_cases e : k = h
      · subst e
        exact iff_of_false (quiet i) (by simp [gone])
      · rw [ne k e]
        exact w.sound.calls.rings i k
    · rw [ne k fun e => away g (e ▸ hk)]
      exact w.sound.calls.queue g k hk
    · by_cases e : k = h
      · subst e
        simp [gone] at hd
      · rw [ne k e] at hd
        exact w.sound.calls.waits k d hd
  have shown : ∀ i, (s.dropCall h).present (s.station i).state = s.present (s.station i).state := fun i =>
    State.present_congr (fun k hk => by rw [ne k fun e => quiet i (e ▸ hk)]) fun _ _ => rfl
  have st := w.sound.rest.stations.of_eq (t := s.dropCall h) rfl (fun _ => rfl) rfl shown
  refine w.next ⟨fits, st.use, st.once, fun i _ => st.marks i, w.sound.rest.pages.of_views rfl (fun _ => rfl) fun _ _ => id,
    w.sound.rest.esc.of_groups (.of_eq rfl) (fun _ => ⟨rfl, rfl, rfl⟩) fun g hg => ?_, w.sound.rest.repeats⟩ rfl rfl
  rw [State.inEscalation_iff] at hg ⊢
  obtain ⟨k, hk, d, hd, he⟩ := hg
  exact ⟨k, hk, d, by rw [ne k fun e => away g (e ▸ hk)]; exact hd, he⟩

theorem transmissionEnds (w : Whole s) (hc : CallsAgree s) {f : TxFrame} (hf : s.link.tx = some f) : Whole (s.transmissionEnds f) := by
  unfold State.transmissionEnds
  split
  · exact w.warmReset _ _
  · rename_i h hi
    obtain ⟨-, fits, -, -, -, -, ending, line, -⟩ := hc
    obtain ⟨c, h1, h2⟩ := (ending h).1 (line f h hf hi)
    have := fits c (List.mem_of_find?_eq_some h1)
    unfold CallFits at this
    rw [h2] at this
    exact ((w.dropCall h1 this.2.1 (by simp [h2])).updLink rfl).finish
  · exact (w.updLink rfl).finish
  · exact (w.updLink rfl).finish
  · exact (w.updLink rfl).finish

/-! ## The line (R167, R168) -/

/-- The receiver writes the link alone, and of it no station order. -/
theorem receiveOctet (w : Whole s) (o : Octet) (stopBit : Bool) : Whole (s.receiveOctet o stopBit) := by
  have abandoned : ∀ {u : State}, Whole u → Whole u.abandonFrame := fun w => w.updLink rfl
  have hunt : ∀ {u : State}, Whole u → Whole (u.huntOctet o stopBit) := fun {u} w => by
    unfold State.huntOctet
    split
    · exact w.updLink rfl
    · exact w
  have complete : ∀ {u : State} (f : Frame), Whole u → Whole (u.completeFrame f) := fun {u} f w => by
    refine w.updLink ?_
    split
    · split <;> rfl
    · rfl
  have close : ∀ os, Whole (s.closeFrame os) := fun os => by
    unfold State.closeFrame
    split
    · dsimp only
      split
      · exact complete _ (w.updLink rfl)
      · exact abandoned w
    · exact abandoned w
  have inside : ∀ os, Whole (s.frameOctet os o) := fun os => by
    unfold State.frameOctet
    split
    · exact w
    · split
      · exact abandoned w
      · split
        · exact close _
        · exact w.updLink rfl
  unfold State.receiveOctet
  split
  · exact hunt w
  · split
    · exact hunt (abandoned w)
    · split
      · exact abandoned w
      · exact inside _

theorem receiveAll (w : Whole s) (os : List Octet) : Whole (s.receiveAll os) :=
  List.foldlRecOn (motive := fun t : State => Whole t) os _ w fun _ w o _ => w.receiveOctet o true

/-! ## Deadlines and age marks -/

/-- A call with a kind of ring is not QUEUED (R27). -/
theorem ringing_unqueued (hc : CallsAgree s) {h : Handle} {c : Call} (h1 : s.findCall h = some c) {k : OfferKind} (hk : c.offerKind = some k) :
    c.state ≠ .queued := fun e => by
  obtain ⟨-, fits, -⟩ := hc
  have := fits c (List.mem_of_find?_eq_some h1)
  unfold CallFits at this
  rw [e] at this
  simp [this.2.2.2.2.2.2.2.2] at hk

theorem ringExpired (w : Whole s) (hc : CallsAgree s) {k : OfferKind} {h : Handle} (hd : s.ringDue k h = true) : Whole (s.ringExpired h) := by
  obtain ⟨c, h1, h2⟩ := Option.any_eq_true _ _ |>.1 hd
  unfold State.ringDueFor at h2
  simp only [Bool.and_eq_true, decide_eq_true_eq] at h2
  exact w.quiet (w.sound.ringExpired h1 (ringing_unqueued hc h1 h2.1)) ((Quiet.refl s).ringExpired h)

theorem waitExpired (w : Whole s) (h : Handle) : Whole (s.waitExpired h) := by
  have k : Quiet s (s.waitExpired h) := by
    unfold State.waitExpired
    split
    · exact .refl s
    · split
      · exact (Quiet.refl s).overflow h _ _
      · exact (Quiet.refl s).updCall h _
  exact w.quiet (w.sound.waitExpired h) k

theorem escExpired (w : Whole s) (hc : CallsAgree s) {h : Handle} (hd : (s.findCall h).any s.escDueFor = true) : Whole (s.escExpired h) := by
  obtain ⟨c, h1, h2⟩ := Option.any_eq_true _ _ |>.1 hd
  unfold State.escDueFor at h2
  simp only [Bool.and_eq_true, decide_eq_true_eq] at h2
  have k : Quiet s (s.escExpired h) := by
    unfold State.escExpired
    split
    · exact .refl s
    · dsimp only
      split
      · split
        · exact (Quiet.refl s).updCall h _
        · exact ((Quiet.refl s).updCall h _).escalationStart _
      · exact (Quiet.refl s).updCall h _
  refine w.quiet (w.sound.escExpired fun c' g hc' hg => ?_) k
  obtain rfl := Option.some.inj (h1.symm.trans hc')
  obtain ⟨-, fits, -⟩ := hc
  have := fits c (List.mem_of_find?_eq_some h1)
  unfold CallFits at this
  rw [h2.1] at this
  obtain ⟨⟨g', e, hm, -⟩, -⟩ := this
  obtain rfl := Option.some.inj (e.symm.trans hg)
  exact State.findCall_handle h1 ▸ hm

theorem parkExpired (w : Whole s) (hc : CallsAgree s) {h : Handle} (hd : (s.findCall h).any s.parkDueFor = true) : Whole (s.parkExpired h) := by
  obtain ⟨c, h1, h2⟩ := Option.any_eq_true _ _ |>.1 hd
  unfold State.parkDueFor at h2
  simp only [Bool.and_eq_true, decide_eq_true_eq] at h2
  have k : Quiet s (s.parkExpired h) := by
    unfold State.parkExpired
    split
    · exact .refl s
    · split
      · exact ((Quiet.refl s).updCall h _).enterState _ _
      · exact ((Quiet.refl s).updCall h _).recallToAttendant h
  refine w.quiet (w.sound.parkExpired fun c' hc' => ?_) k
  obtain rfl := Option.some.inj (h1.symm.trans hc')
  obtain ⟨-, fits, -⟩ := hc
  have := fits c (List.mem_of_find?_eq_some h1)
  unfold CallFits at this
  rw [h2.1] at this
  exact ⟨h1, this.2.1, fun g hg => by simp [(w.sound.calls.of_queue hg h1).1] at h2⟩

theorem repeatExpired (w : Whole s) {g : GroupId} (hd : s.repeatDue g = true) : Whole (s.repeatExpired g) := by
  have hs : (s.group g).repeatDeadline = some s.now := by simpa [State.repeatDue, State.due] using hd
  have k : Quiet s (s.repeatExpired g) := by
    unfold State.repeatExpired
    split
    · exact (((Quiet.refl s).updGroup g _).pageAttempt g).updGroup g _
    · exact (Quiet.refl s).updGroup g _
  exact w.quiet (w.sound.repeatExpired (by simp [hs])) k

theorem guardEnds (w : Whole s) (o : OutputId) : Whole (s.guardEnds o) := by
  unfold State.guardEnds
  split
  · rename_i r _ hg
    have w1 : Whole (s.updOutput o fun x => { x with state := .audible r }) := w.updOutput (by rw [hg]; rfl)
    dsimp only
    split
    · exact w1.fit (w1.sound.fit.openingStep _) ((Quiet.refl _).openingStep _)
    · exact w1
  · exact w

theorem periodEnds (w : Whole s) (p : PageId) : Whole (s.periodEnds p) := by
  unfold State.periodEnds
  split
  · exact w
  · rename_i pg hp
    split
    · exact w
    · rename_i c hc
      have hw : pg.state ≠ .waiting := fun e => by simp [w.sound.rest.pages.chime p pg hp e] at hc
      split
      · exact w.fit (w.sound.fit.chimeComplete hp hw w.sound.rest.repeats) ((Quiet.refl s).chimeComplete p pg)
      · exact w.fit (w.sound.fit.updStarted hp hw (by exact fun _ => rfl) hw) ((Quiet.refl s).updPage p _)

theorem endWindow (w : Whole s) (o : OutputId) : Whole (s.endWindow o) := by
  have w1 : Whole (s.updOutput o (State.closeWindow s.now (s.outputCfg o))) := w.updOutput rfl
  unfold State.endWindow
  dsimp only
  split
  · exact w1.next (w1.sound.advise _) rfl rfl
  · exact w1

theorem buildBlock_state (s : State) (inputs : Vector (Vector Sample 8) 4) (noise : Vector Envelope 16) (o : OutputId) :
    (s.buildBlock inputs noise o).state = (s.output o).state := by
  unfold State.buildBlock
  dsimp only
  split
  · rfl
  · split <;> rfl

theorem outputBlock (w : Whole s) (inputs : Vector (Vector Sample 8) 4) (noise : Vector Envelope 16) :
    Whole (s.buildBlocks inputs noise).tick := by
  have stays : (s.buildBlocks inputs noise).tick =
      { s with now := s.now + 1, outputs := Vector.ofFn (s.buildBlock inputs noise), pins := { inputs := inputs, noise := noise } } := rfl
  rw [stays]
  refine w.next (w.sound.of_fit (w.sound.fit.of_views rfl rfl rfl rfl rfl rfl fun o => ?_)) rfl rfl
  rw [← buildBlock_state s inputs noise o]
  simp [State.output]

theorem endSave (w : Whole s) (o : SaveOutcome) : Whole (endSave s o) := by
  unfold Machine.endSave
  split
  · exact w
  · rename_i r hr
    refine ⟨w.sound.of_views rfl rfl rfl rfl rfl rfl rfl, fun c hc => ?_, nofun⟩
    change (if o = .ok then some r.config else none) = some c at hc
    split at hc
    · exact Option.some.inj hc ▸ w.save r hr
    · simp at hc

theorem requestAged (w : Whole s) (p : PageId) : Whole (s.updPage p fun x => { x with requestAgeMark := true }) := by
  refine w.fit (w.sound.fit.updPage (by exact fun _ => rfl) (fun pg hp h => ⟨?_, w.sound.rest.pages.chime p pg hp h⟩) (fun pg hp hh => ?_) (by simp))
    ((Quiet.refl s).updPage p _)
  · rw [State.held_eq_nil]
    intro o ho
    obtain ⟨pg', h1, h2, -⟩ := w.sound.rest.pages.holder o _ ho
    rw [State.pageAt_refOf, hp] at h1
    exact h2 (Option.some.inj h1 ▸ h)
  · exact .inl (by simpa using w.sound.rest.pages.waits p pg hp hh)

/-! ## Every command and every step -/

theorem exec (w : Whole s) (hc : CallsAgree s) (i : Instr) (e : exec i s = .next t) : Whole t := by
  unfold Machine.exec at e
  cases i with
  | powerOnReset b => cases e; exact w.powerOn b
  | pinReset =>
    dsimp only at e
    unfold execPinReset at e
    split at e <;> cases e
    · exact w.warmReset _ _
    · exact w
  | linkReset =>
    dsimp only at e
    unfold execLinkReset at e
    split at e
    · rename_i f _ hf
      split at e <;> cases e
      · exact w.transmissionEnds hc hf
      · exact w
    · cases e
      exact w
  | frameTransmitted =>
    dsimp only at e
    unfold execFrameTransmitted at e
    split at e <;> cases e
    · exact w.transmissionEnds hc ‹_›
    · exact w
  | leavesReset =>
    dsimp only at e
    unfold execLeavesReset at e
    split at e <;> cases e
    · exact w.of_views rfl rfl rfl rfl rfl rfl rfl rfl rfl
    · exact w
  | lossOfPower =>
    cases e
    exact ⟨w.sound.of_views rfl rfl rfl rfl rfl rfl rfl, w.stored, nofun⟩
  | frameReceived k tag body check => exact of_event e w fun _ => w.receiveAll _
  | octetReceived o b => exact of_event e w fun _ => w.receiveOctet o b
  | rxOctetTimeout => exact of_event e w fun _ => w.updLink rfl
  | unknownKind k tag body => exact of_dispatch e w fun _ w => w
  | callIn tag body => exact of_dispatch e w fun _ w => w.handleCallIn body
  | answer tag body => exact of_dispatch e w fun _ w => w.handleAnswer body
  | hangup tag body => exact of_dispatch e w fun _ w => w.handleHangup body
  | stationOffhook tag body => exact of_dispatch e w fun _ w => w.handleReport w.reportOffhook body
  | stationOnhook tag body => exact of_dispatch e w fun _ w => w.handleReport w.reportOnhook body
  | stationOutOfService tag body => exact of_dispatch e w fun _ w => w.handleReport w.reportOutOfService body
  | stationInService tag body => exact of_dispatch e w fun _ w => w.handleReport w.reportInService body
  | pickup tag body => exact of_dispatch e w fun _ w => w.handlePickup body
  | dpickup tag body => exact of_dispatch e w fun _ w => w.handleDpickup body
  | park tag body => exact of_dispatch e w fun _ w => w.handlePark body
  | page tag body => exact of_dispatch e w fun _ w => w.handlePage body
  | pageEnd tag body => exact of_dispatch e w fun _ w => w.handlePageEnd body
  | status tag body => exact of_dispatch e w fun _ w => w.handleStatus body
  | getStation tag body => exact of_dispatch e w fun _ w => w.queryBy _ _ _ body
  | getCall tag body => exact of_dispatch e w fun _ w => w.handleGetCall body
  | listQueue tag body => exact of_dispatch e w fun _ w => w.queryBy _ _ _ body
  | getOrbits tag body => exact of_dispatch e w fun _ w => w.handleGetOrbits body
  | getPage tag body => exact of_dispatch e w fun _ w => w.queryBy _ _ _ body
  | getOutput tag body => exact of_dispatch e w fun _ w => w.queryBy _ _ _ body
  | getGroup tag body => exact of_dispatch e w fun _ w => w.queryBy _ _ _ body
  | getDir tag body => exact of_dispatch e w fun _ w => w.handleGetDir body
  | setSystem tag body => exact of_dispatch e w fun _ w => w.handleSetSystem body
  | setDirAdd tag body => exact of_dispatch e w fun _ w => w.handleSetDirAdd body
  | setDirRemove tag body => exact of_dispatch e w fun _ w => w.handleSetDirRemove body
  | setStation tag body => exact of_dispatch e w fun _ w => w.handleSetStation body
  | setGroup tag body => exact of_dispatch e w fun _ w => w.handleSetGroup body
  | setMembersAdd tag body => exact of_dispatch e w fun _ w => w.handleSetMembersAdd body
  | setMembersRemove tag body => exact of_dispatch e w fun _ w => w.handleMember w.acceptRemove body
  | setMembersLogin tag body => exact of_dispatch e w fun _ w => w.handleMember w.acceptLogin body
  | setMembersLogout tag body => exact of_dispatch e w fun _ w => w.handleMember w.acceptLogout body
  | setPickup tag body => exact of_dispatch e w fun _ w => w.handleSetPickup body
  | setList tag body => exact of_dispatch e w fun _ w => w.handleSetList body
  | setMap tag body => exact of_dispatch e w fun _ w => w.handleSetMap body
  | setOutput tag body => exact of_dispatch e w fun _ w => w.handleSetOutput body
  | setChime tag body => exact of_dispatch e w fun _ w => w.handleSetChime body
  | save tag body => exact of_dispatch e w fun _ w => w.handleSave body
  | reset tag body => exact of_dispatch e w fun _ w => w.handleReset body
  | noAnswerExpiry h => exact of_event e w fun hd => w.ringExpired hc hd
  | targetRingExpiry h => exact of_event e w fun hd => w.ringExpired hc hd
  | attendantRingExpiry h => exact of_event e w fun _ => w.endCall h _ _
  | recallRingExpiry h => exact of_event e w fun hd => w.ringExpired hc hd
  | waitDeadlineExpiry h => exact of_event e w fun _ => w.waitExpired h
  | escalationDeadlineExpiry h => exact of_event e w fun hd => w.escExpired hc hd
  | parkDeadlineExpiry h => exact of_event e w fun hd => w.parkExpired hc hd
  | repeatDeadlineExpiry g => exact of_event e w fun hd => w.repeatExpired hd
  | pageWaitExpiry p => exact of_event e w fun _ => w.endPage p (by simp)
  | guardExpiry o => exact of_event e w fun _ => w.guardEnds o
  | chimePeriodEnd p => exact of_event e w fun _ => w.periodEnds p
  | windowEnd o => exact of_event e w fun _ => w.endWindow o
  | outputBlock inputs noise => exact of_event e w fun _ => w.outputBlock inputs noise
  | saveWriteComplete b => exact of_event e w fun _ => w.endSave _
  | saveDeadlineExpiry => exact of_event e w fun _ => w.endSave _
  | idleAgeSaturated i => exact of_event e w fun _ => w.next (w.sound.updStation i fun _ => ⟨rfl, rfl⟩) rfl rfl
  | queueAgeSaturated h =>
    exact of_event e w fun _ => w.next (w.sound.updCall h (fun _ => ⟨rfl, rfl, rfl, rfl, rfl⟩) fun _ => id) rfl rfl
  | arrivalAgeSaturated h =>
    exact of_event e w fun _ => w.next (w.sound.updCall h (fun _ => ⟨rfl, rfl, rfl, rfl, rfl⟩) fun _ => id) rfl rfl
  | requestAgeSaturated p => exact of_event e w fun _ => w.requestAged p

theorem idle (w : Whole s) : Whole s.idle := by
  unfold State.idle
  split
  · exact w
  · split
    · exact w.transmitTake
    · exact w.of_views rfl rfl rfl rfl rfl rfl rfl rfl rfl

theorem step (w : Whole s) (hc : CallsAgree s) (e : step s = .next t) : Whole t := by
  unfold Machine.step at e
  split at e
  · rename_i i rest _
    exact Whole.exec (s := { s with pending := rest }) (w.of_views rfl rfl rfl rfl rfl rfl rfl rfl rfl) hc i e
  · cases e
    exact w.idle

end Whole

/-- Calls, pages and stations that agree are whole. -/
theorem whole_of_agree {s : State} (hc : CallsAgree s) (hp : PagesAgree s) (hs : StationsAgree s) : Whole s := by
  obtain ⟨handles, fits, queues, -, rings, -⟩ := hc
  obtain ⟨pages, esc, cfg, stored, save⟩ := (pagesAgree_iff s).1 hp
  have st := (stationsAgree_iff s).1 hs
  refine ⟨⟨⟨handles, rings, fun g h hh => ((queues g).2.2 h hh), fun g => (queues g).1, fun h c hc hq => ?_⟩, st.use, st.once,
    fun i _ => st.marks i, pages, esc, cfg⟩, stored, save⟩
  have := fits c (List.mem_of_find?_eq_some hc)
  unfold CallFits at this
  rw [hq] at this
  exact this.2.1

theorem Whole.agree {s : State} (w : Whole s) : PagesAgree s ∧ StationsAgree s :=
  ⟨(pagesAgree_iff s).2 ⟨w.sound.rest.pages, w.sound.rest.esc, w.sound.rest.repeats, w.stored, w.save⟩,
    (stationsAgree_iff s).2 w.sound.rest.stations⟩

/-- Settles O8, by the agreement that every command keeps. -/
theorem pageAndStationRecordsStayInAgreement : Obligations.PageAndStationRecordsStayInAgreement := by
  intro s t hc hp hs e
  exact ((whole_of_agree hc hp hs).step hc e).agree

end Sys2Proof.Machine
end

