-- ==== Sys2Proof/Proofs/Handlings.lean ====
section
/-! SUPPORT. The shapes of a handling, one equation per case; and the answer of a frame that is ready. -/

namespace Sys2Proof.Machine

/-! ## The shapes of a handling (R169 to R171, R184) -/

section
variable {α : Type} {r : Reader α} {body : List Octet} {s : State}

theorem withBody_of {v : α} (h : StateT.run r body = some (v, [])) (s : State) (k : α → Handled) : withBody r body s k = k v := by
  unfold withBody
  rw [h]

/-- A body that the layout does not fit is BAD_LENGTH. -/
theorem withBody_bad (h : ∀ v, StateT.run r body ≠ some (v, [])) (s : State) (k : α → Handled) :
    withBody r body s k = refuse s .badLength := by
  unfold withBody
  split
  · exact absurd ‹_› (h _)
  · rfl

@[simp] theorem orBadValue_none (s : State) (k : α → Handled) : orBadValue s none k = refuse s .badValue := rfl

@[simp] theorem orBadValue_some (s : State) (v : α) (k : α → Handled) : orBadValue s (some v) k = k v := rfl

end

@[simp] theorem orBadUnless_true (s : State) (k : Handled) : orBadUnless s true k = k := rfl

@[simp] theorem orBadUnless_false (s : State) (k : Handled) : orBadUnless s false k = refuse s .badValue := rfl

theorem unlessSaving_none {s : State} (h : s.save = none) (k : Handled) : unlessSaving s k = k := by
  simp [unlessSaving, h]

theorem unlessSaving_some {s : State} (h : s.save.isSome = true) (k : Handled) : unlessSaving s k = refuse s .saving := by
  simp [unlessSaving, h]

/-! ## The answer of a frame that is ready (R169) -/

section
variable {row : Row} {f : Frame} {handle : State → Handled} {s u : State} {rest : List Frame} {r : Result} {c : List Octet}

theorem dispatch_served (hrow : f.row = row) (h : handle (s.takeHead rest) = { result := r, content := c, st := u })
    (hu : u.heldAvail = []) (ready : Ready s f rest) : dispatch row f handle s = .next (u.answer f r c) := by
  rw [dispatch_ready ready hrow, serve_settled h hu]

/-- A request whose handling changes no state. -/
theorem dispatch_answered (hrow : f.row = row) (h : handle (s.takeHead rest) = { result := r, content := c, st := s.takeHead rest })
    (ready : Ready s f rest) : dispatch row f handle s = .next ((s.takeHead rest).answer f r c) :=
  dispatch_served hrow h ready.2.2 ready

/-- A request whose handling may hold back availability events. -/
theorem dispatch_flushed (hrow : f.row = row) (h : handle (s.takeHead rest) = { result := r, content := c, st := u })
    (ready : Ready s f rest) : dispatch row f handle s = .next (u.flush.answer f r c) := by
  rw [dispatch_ready ready hrow]
  unfold serve
  rw [h]

end

end Sys2Proof.Machine
end

