-- ==== Sys2Proof/Proofs/Directory.lean ====
section
/-! SUPPORT. SET_DIR, its checks in their order and its two edits; and how a presented number resolves. -/

namespace Sys2Proof.Machine

/-- The operation octet of a SET_DIR decides its row (R21). -/
theorem setDir_row {tag : Octet} {op : Nat} (h : op < 256) (l : List Octet) :
    (⟨0x31, tag, put1 op ++ l⟩ : Frame).row = if op = 1 then .setDirRemove else .setDirAdd := by
  have e : (((put1 op ++ l).getD 0 0).toNat) = op := by simp [put1_eq, Nat.mod_eq_of_lt h]
  change setDirRow (put1 op ++ l) = _
  unfold setDirRow
  rw [e]
  split
  · rfl
  · rename_i h1
    rw [if_neg (by simpa using h1)]

theorem finOf_eq_some_iff {n v : Nat} {i : Fin n} : finOf n v = some i ↔ i.val = v := by
  unfold finOf
  split
  · simp [Fin.ext_iff, eq_comm]
  · rename_i h
    exact iff_of_false (by simp) fun e => h (e ▸ i.isLt)

/-- A directory target by its codes (R21, R166). -/
theorem dirTargetOf_iff (kind v : Nat) (t : DirTarget) : dirTargetOf kind v = some t ↔ t.codes = (kind, v) := by
  unfold dirTargetOf
  split
  · cases t <;> simp [DirTarget.codes, Option.map_eq_some_iff, finOf_eq_some_iff]
  · cases t <;> simp [DirTarget.codes, Option.map_eq_some_iff, finOf_eq_some_iff]
  · cases t <;> simp [DirTarget.codes, Option.map_eq_some_iff, finOf_eq_some_iff]
  · rename_i h0 h1 h2
    cases t <;> simp [DirTarget.codes, Ne.symm h0, Ne.symm h1, Ne.symm h2]

/-- A kind and a target that are no target's codes name none. -/
theorem dirTargetOf_none {kind v : Nat} (h : ∀ t : DirTarget, t.codes ≠ (kind, v)) : dirTargetOf kind v = none :=
  Option.eq_none_iff_forall_ne_some.2 fun t e => h t ((dirTargetOf_iff kind v t).1 e)

/-- A number of an edit is good when it has D digits, each 0 to 9 (R21). -/
theorem exactNumber_iff (s : State) (d : List Nat) : exactNumber s d = true ↔ d.length = s.cfg.digitWidth ∧ ∀ x ∈ d, x ≤ 9 := by
  simp [exactNumber]

theorem numberHeld_iff (s : State) (d : List Nat) : numberHeld s d = true ↔ ∃ e ∈ s.cfg.directory, e.number = d := by
  simp [numberHeld]

/-- A pilot's group and an orbit have one entry at most; a station any number (R21 check 2). -/
theorem targetTaken_iff (s : State) (t : DirTarget) :
    targetTaken s t = true ↔ ∃ e ∈ s.cfg.directory, e.target = t ∧ ∀ i, t ≠ .station i := by
  cases t <;> simp [targetTaken]

section
variable {s : State} {body : List Octet} {op kind target : Nat} {d : List Nat}

theorem handleSetDirAdd_eq (h : StateT.run readSetDir body = some ((op, d, kind, target), [])) (s : State) :
    handleSetDirAdd body s = unlessSaving s (orBadUnless s (decide (op = 0) && exactNumber s d)
      (orBadValue s (dirTargetOf kind target) fun t =>
        if numberHeld s d = true ∨ targetTaken s t = true then refuse s .duplicate
        else if 1024 ≤ s.cfg.directory.length then refuse s .full
        else accept (s.updCfg fun c => { c with directory := c.directory ++ [{ number := d, target := t }] }) [])) :=
  withBody_of h s _

theorem handleSetDirRemove_eq (h : StateT.run readSetDir body = some ((op, d, kind, target), [])) (s : State) :
    handleSetDirRemove body s = unlessSaving s (orBadUnless s (exactNumber s d)
      (if numberHeld s d = true then
        accept (s.updCfg fun c => { c with directory := c.directory.filter fun e => decide (e.number ≠ d) }) []
      else refuse s .unknown)) := withBody_of h s _

end

/-- Settles O52, by the equations of the two handlings. -/
theorem directoryEditsCheckedInOrder : Obligations.DirectoryEditsCheckedInOrder := by
  intro s tag op kind target d rest f body badNumber hop hkind htarget hl hd hbody hf hbad
  have read : StateT.run readSetDir body = some ((op, d, kind, target), []) :=
    (readSetDir_takes body _ []).2 ⟨⟨hop, ⟨hl, hd⟩, hkind, htarget⟩, by simp [hbody]⟩
  have row : f.row = if op = 1 then .setDirRemove else .setDirAdd := by
    rw [hf, hbody, List.append_assoc, List.append_assoc]
    exact setDir_row hop _
  have request : f.request = if op = 1 then .setDirRemove tag body else .setDirAdd tag body := by
    unfold Frame.request
    rw [row, hf]
    by_cases h1 : op = 1
    · rw [if_pos h1, if_pos h1]
    · rw [if_neg h1, if_neg h1]
  have good : exactNumber (s.takeHead rest) d = true ↔ ¬ badNumber := by
    rw [exactNumber_iff, hbad]
    push Not
    rfl
  have bad : badNumber → exactNumber (s.takeHead rest) d = false := fun h =>
    Bool.eq_false_iff.2 fun e => good.1 e h
  have held : numberHeld (s.takeHead rest) d = true ↔ ∃ e ∈ s.cfg.directory, e.number = d := numberHeld_iff _ _
  have taken : ∀ t, targetTaken (s.takeHead rest) t = true ↔ ∃ e ∈ s.cfg.directory, e.target = t ∧ ∀ i, t ≠ .station i :=
    targetTaken_iff _
  subst hf
  have add : op ≠ 1 → (⟨0x31, tag, body⟩ : Frame).row = .setDirAdd := fun h => row.trans (if_neg h)
  have remove : op = 1 → (⟨0x31, tag, body⟩ : Frame).row = .setDirRemove := fun h => row.trans (if_pos h)
  refine ⟨fun hs => ?_, fun hs => ?_⟩
  · rw [request]
    have saving : (s.takeHead rest).save.isSome = true := hs
    by_cases h1 : op = 1
    · rw [if_pos h1]
      exact dispatch_answered (remove h1) (by rw [handleSetDirRemove_eq read, unlessSaving_some saving]; rfl)
    · rw [if_neg h1]
      exact dispatch_answered (add h1) (by rw [handleSetDirAdd_eq read, unlessSaving_some saving]; rfl)
  have still : (s.takeHead rest).save = none := hs
  refine ⟨fun h1 => ?_, fun h0 => ⟨fun h => ?_, fun t hn ht => ?_⟩,
    fun h1 => ⟨fun h => ?_, fun hn h => ?_, fun hn h ready => ?_⟩⟩
  · rw [request, if_neg (by omega)]
    refine dispatch_answered (add (by omega)) ?_
    rw [handleSetDirAdd_eq read, unlessSaving_none still, decide_eq_false (by omega)]
    rfl
  · refine dispatch_answered (add (by omega)) ?_
    rw [handleSetDirAdd_eq read, unlessSaving_none still]
    by_cases hb : badNumber
    · rw [bad hb, Bool.and_false]
      rfl
    · rw [good.2 hb, dirTargetOf_none (h.resolve_left hb), decide_eq_true h0]
      rfl
  · have checked := fun u : State => handleSetDirAdd_eq read u
    rw [(dirTargetOf_iff _ _ _).2 ht] at checked
    simp only [orBadValue_some] at checked
    refine ⟨fun h => ?_, fun h => ⟨fun full => ?_, fun room ready => ?_⟩⟩
    · obtain ⟨e, he, h⟩ := h
      refine dispatch_answered (add (by omega)) ?_
      rw [checked, unlessSaving_none still, good.2 hn, decide_eq_true h0,
        if_pos (h.imp (fun h => held.2 ⟨e, he, h⟩) fun h => (taken t).2 ⟨e, he, h⟩)]
      rfl
    all_goals
      have fresh : ¬ (numberHeld (s.takeHead rest) d = true ∨ targetTaken (s.takeHead rest) t = true) := by
        rintro (hh | hh)
        · obtain ⟨e, he, hd⟩ := held.1 hh
          exact (h e he).1 hd
        · obtain ⟨e, he, hd, hne⟩ := (taken t).1 hh
          exact ((h e he).2 hd).elim hne
    · refine dispatch_answered (add (by omega)) ?_
      rw [checked, unlessSaving_none still, good.2 hn, decide_eq_true h0, if_neg fresh, if_pos (by exact full)]
      rfl
    · refine dispatch_served (add (by omega)) ?_ (by exact ready.2.2) ready
      rw [checked, unlessSaving_none still, good.2 hn, decide_eq_true h0, if_neg fresh, if_neg (by exact not_le.2 room)]
      rfl
  · refine dispatch_answered (remove h1) ?_
    rw [handleSetDirRemove_eq read, unlessSaving_none still, bad h]
    rfl
  · refine dispatch_answered (remove h1) ?_
    rw [handleSetDirRemove_eq read, unlessSaving_none still, good.2 hn, if_neg fun hh => by
      obtain ⟨e, he, hd⟩ := held.1 hh
      exact h e he hd]
    rfl
  · refine dispatch_served (remove h1) ?_ (by exact ready.2.2) ready
    rw [handleSetDirRemove_eq read, unlessSaving_none still, good.2 hn, if_pos (held.2 h)]
    rfl

end Sys2Proof.Machine
end

