-- ==== Sys2Proof/Proofs/FieldRanges.lean ====
section
/-! SUPPORT. The ranges of the fields of an edit: when a present field is out of its range, and what is written otherwise. -/

namespace Sys2Proof.Machine

/-! ## One field that may be absent (R166) -/

section
variable {α β γ : Type} {f : α → Option β} {x : Option α} {y : Option β}

theorem presentOf_none_iff : presentOf f x = none ↔ ∃ v, x = some v ∧ f v = none := by
  cases x <;> simp [presentOf]

theorem presentOf_some_iff : presentOf f x = some y ↔ (x = none ∧ y = none) ∨ ∃ v w, x = some v ∧ f v = some w ∧ y = some w := by
  cases x <;> simp [presentOf, Option.map_eq_some_iff, eq_comm]

/-- The value of a present field in range, seen through a view `g` that its code `c` agrees with. -/
theorem presentOf_view {c : α → γ} {g : β → γ} (hf : ∀ v w, f v = some w → g w = c v) (h : presentOf f x = some y) :
    y.map g = x.map c := by
  obtain ⟨rfl, rfl⟩ | ⟨v, w, rfl, hw, rfl⟩ := presentOf_some_iff.1 h
  · rfl
  · exact congrArg some (hf v w hw)

/-- The record after the write, seen through a view: the present value, or what stood there. -/
theorem presentOf_getD {c : α → γ} {g : β → γ} (hf : ∀ v w, f v = some w → g w = c v) (h : presentOf f x = some y) (k : β) :
    g (y.getD k) = (x.map c).getD (g k) := by
  rw [← presentOf_view hf h]
  cases y <;> rfl

/-- The code of the record after the write: that of the present field, or of what stood there. -/
theorem presentOf_code {f : Nat → Option β} {x : Option Nat} {g : β → Nat} (hf : ∀ v w, f v = some w → g w = v)
    (h : presentOf f x = some y) (k : β) : g (y.getD k) = x.getD (g k) := by
  simpa using presentOf_getD (c := id) hf h k

end

/-! ## The ranges by their codes -/

theorem stepped_some {lo hi unit v w : Nat} (h : stepped lo hi unit v = some w) : w = v := by
  unfold stepped at h
  split at h
  · exact (Option.some.inj h).symm
  · cases h

theorem stepped_none_iff {lo hi unit v : Nat} : stepped lo hi unit v = none ↔ v < lo ∨ hi < v ∨ v % unit ≠ 0 := by
  unfold stepped
  split <;> simp <;> omega

theorem finOf_none_iff {n v : Nat} : finOf n v = none ↔ n ≤ v := by
  unfold finOf
  split <;> simp <;> omega

theorem finOrNone_none_iff {n absent v : Nat} : finOrNone n absent v = none ↔ n ≤ v ∧ v ≠ absent := by
  unfold finOrNone
  split
  · simp [*]
  · simp [finOf_none_iff, *]

theorem finOrNone_code {n absent : Nat} {v : Nat} {w : Option (Fin n)} (h : finOrNone n absent v = some w) :
    (w.map Fin.val).getD absent = v := by
  unfold finOrNone at h
  split at h
  · obtain rfl := Option.some.inj h
    exact Eq.symm ‹_›
  · obtain ⟨i, hi, rfl⟩ := Option.map_eq_some_iff.1 h
    exact finOf_eq_some_iff.1 hi

theorem flagOf_none_iff {v : Nat} : flagOf v = none ↔ 1 < v := by
  obtain _ | _ | v := v <;> simp [flagOf]

theorem flagOf_code {v : Nat} {b : Bool} (h : flagOf v = some b) : b = decide (v = 1) := by
  unfold flagOf at h
  split at h <;> cases h <;> rfl

theorem classOf_none_iff {v : Nat} : classOf v = none ↔ 3 < v := by
  obtain _ | _ | _ | _ | v := v <;> simp [classOf]

theorem classOf_code {v : Nat} {c : PageClass} (h : classOf v = some c) : c.num = v := by
  unfold classOf at h
  split at h <;> cases h <;> rfl

/-- A signed octet, as two's complement reads it (R166). -/
theorem signedOf_eq {v : Nat} (h : v < 256) : signedOf v = if v < 128 then (v : Int) else (v : Int) - 256 := by
  simp only [signedOf, BitVec.toInt_eq_toNat_cond, BitVec.toNat_ofNat]
  split <;> split <;> omega

theorem offsetOf_none_iff {v : Nat} : offsetOf v = none ↔ signedOf v < -64 ∨ 64 < signedOf v := by
  unfold offsetOf
  split <;> simp <;> omega

theorem offsetOf_some {v : Nat} {w : Int} (h : offsetOf v = some w) : w = signedOf v := by
  unfold offsetOf at h
  split at h
  · exact (Option.some.inj h).symm
  · cases h

/-! ## A list of fields read in turn -/

theorem bind_eq_none_or {α β : Type} {o : Option α} {k : α → Option β} {p : Prop} (h : ∀ a, k a = none ↔ p) :
    o.bind k = none ↔ o = none ∨ p := by
  cases o <;> simp [h]

end Sys2Proof.Machine
end

