-- ==== Sys2Proof/Proofs/SystemEdits.lean ====
section
/-! SUPPORT. SET_SYSTEM: its ranges, its writes, the D rule. -/

namespace Sys2Proof.Machine

theorem RawSystem.fields_iff (q : RawSystem) (f : SystemFields) : q.fields = some f ↔
    presentOf (stepped 3 6 1) q.width = some f.width ∧ presentOf (finOrNone 512 65535) q.attendant = some f.attendant ∧
      presentOf (stepped 30 600 1) q.park = some f.park ∧ presentOf (stepped 0 150 10) q.guard = some f.guard ∧
      presentOf (stepped 100 1000 10) q.period = some f.period ∧ presentOf offsetOf q.emergency = some f.emergency ∧
      presentOf offsetOf q.alert = some f.alert ∧ presentOf offsetOf q.voice = some f.voice ∧
      presentOf offsetOf q.background = some f.background ∧ q.mask < 512 := by
  simp only [RawSystem.fields, Option.bind_eq_bind, Option.bind_eq_some_iff, Option.ite_none_right_eq_some]
  constructor
  · rintro ⟨_, h0, _, h1, _, h2, _, h3, _, h4, _, h5, _, h6, _, h7, _, h8, hm, e⟩
    cases e
    exact ⟨h0, h1, h2, h3, h4, h5, h6, h7, h8, hm⟩
  · rintro ⟨h0, h1, h2, h3, h4, h5, h6, h7, h8, hm⟩
    exact ⟨_, h0, _, h1, _, h2, _, h3, _, h4, _, h5, _, h6, _, h7, _, h8, hm, rfl⟩

theorem RawSystem.fields_none_iff (q : RawSystem) : q.fields = none ↔
    ¬ q.mask < 512 ∨ presentOf (stepped 3 6 1) q.width = none ∨ presentOf (finOrNone 512 65535) q.attendant = none ∨
      presentOf (stepped 30 600 1) q.park = none ∨ presentOf (stepped 0 150 10) q.guard = none ∨
      presentOf (stepped 100 1000 10) q.period = none ∨ presentOf offsetOf q.emergency = none ∨
      presentOf offsetOf q.alert = none ∨ presentOf offsetOf q.voice = none ∨ presentOf offsetOf q.background = none := by
  rw [or_comm (a := ¬ q.mask < 512)]
  simp only [or_assoc]
  unfold RawSystem.fields
  iterate 9 refine bind_eq_none_or fun _ => ?_
  simp

section
variable {q : RawSystem} {body : List Octet} {tag : Octet} {s : State} {rest : List Frame}

theorem handleSetSystem_eq (hq : q.Spells body) (hs : s.save = none) : handleSetSystem body s =
    orBadValue s q.fields fun f =>
      if f.width.isSome = true ∧ s.cfg.directory ≠ [] then refuse s .notEmpty else accept (s.updCfg f.write) [] :=
  (withBody_of ((readSystem_iff _ _).2 hq) s _).trans (unlessSaving_none hs _)

theorem setSystem_badValue (hq : q.Spells body) (hs : s.save = none) (hf : q.fields = none) :
    Answers s rest (.setSystem tag body) ⟨0x30, tag, body⟩ .badValue [] :=
  dispatch_answered (row := .setSystem) rfl (by rw [handleSetSystem_eq hq (by exact hs), hf]; rfl)

theorem setSystem_notEmpty {f : SystemFields} (hq : q.Spells body) (hs : s.save = none) (hf : q.fields = some f)
    (hw : f.width.isSome = true) (hd : s.cfg.directory ≠ []) :
    Answers s rest (.setSystem tag body) ⟨0x30, tag, body⟩ .notEmpty [] :=
  dispatch_answered (row := .setSystem) rfl
    (by rw [handleSetSystem_eq hq (by exact hs), hf, orBadValue_some, if_pos ⟨hw, hd⟩]; rfl)

theorem setSystem_accepted {f : SystemFields} (hq : q.Spells body) (hs : s.save = none) (hf : q.fields = some f)
    (h : f.width = none ∨ s.cfg.directory = []) (ready : Ready s ⟨0x30, tag, body⟩ rest) :
    exec (.setSystem tag body) s = .next (((s.takeHead rest).updCfg f.write).answer ⟨0x30, tag, body⟩ .ok []) := by
  refine dispatch_served (row := .setSystem) rfl ?_ (by exact ready.2.2) ready
  rw [handleSetSystem_eq hq (by exact hs), hf, orBadValue_some, if_neg]
  · rfl
  · rintro ⟨hw, hd⟩
    obtain h | h := h
    · rw [h] at hw
      cases hw
    · exact hd h

end

/-! ## How a number resolves (R20, R22) -/

/-- The octets of a SET_SYSTEM with D alone. -/
def widthRequest (w : Nat) : RawSystem :=
  { mask := 1, width := some w, attendant := none, park := none, guard := none, period := none, emergency := none, alert := none,
    voice := none, background := none }

theorem widthRequest_spells {w : Nat} (h : w < 256) : (widthRequest w).Spells (put2 1 ++ put1 w) := by
  refine ⟨show 1 < 65536 by decide, (marks_iff _ _).2 ?_, ?_, ?_, rfl⟩
  · simp [marksFrom, widthRequest, Nat.testBit]
  all_goals simp [widthRequest, h]

theorem widthRequest_fields_none {w : Nat} (h : w < 3 ∨ 6 < w) : (widthRequest w).fields = none :=
  (RawSystem.fields_none_iff _).2 (.inr (.inl (presentOf_none_iff.2 ⟨w, rfl, stepped_none_iff.2 (by omega)⟩)))

/-- The fields of a SET_SYSTEM with D alone. -/
def widthFields (w : Nat) : SystemFields :=
  { width := some w, attendant := none, park := none, guard := none, period := none, emergency := none, alert := none,
    voice := none, background := none }

theorem widthRequest_fields {w : Nat} (h3 : 3 ≤ w) (h6 : w ≤ 6) : (widthRequest w).fields = some (widthFields w) :=
  (RawSystem.fields_iff _ _).2 ⟨by simp [presentOf, widthRequest, widthFields, stepped, h3, h6, Nat.mod_one], rfl, rfl, rfl, rfl, rfl,
    rfl, rfl, rfl, show 1 < 512 by decide⟩

theorem reduceDigits_long (cut last : List Digit) : reduceDigits last.length (cut ++ last) = last := by
  simp [reduceDigits]

theorem reduceDigits_short {w : Nat} {d : List Digit} (h : d.length ≤ w) : reduceDigits w d = List.replicate (w - d.length) 0 ++ d := by
  unfold reduceDigits
  split
  · have e : d.length = w := le_antisymm h ‹_›
    simp [e]
  · rfl

/-- Settles O51, by the equations of SET_SYSTEM for a request with D alone, and those of the reduction of a number. -/
theorem digitWidthIsSetOnAnEmptyDirectory : Obligations.DigitWidthIsSetOnAnEmptyDirectory := by
  refine ⟨rfl, fun s t tag w rest body hw hbody hs ht => ?_⟩
  have spells : (widthRequest w).Spells body := hbody ▸ widthRequest_spells hw
  refine ⟨fun h => setSystem_badValue spells hs (widthRequest_fields_none h),
    fun h3 h6 hd => setSystem_notEmpty spells hs (widthRequest_fields h3 h6) rfl hd,
    fun h3 h6 hd ready => ?_, fun target htarget => ⟨fun cut last hl => ?_, fun d hd => ?_⟩, fun d => ?_⟩
  · rw [setSystem_accepted spells hs (widthRequest_fields h3 h6) (.inr hd) ready, ht]
    rfl
  all_goals subst ht
  · subst hl
    rw [htarget]
    exact congrArg (fun x => (s.cfg.directory.find? fun e => decide (e.number = x)).map DirEntry.target) (reduceDigits_long cut last)
  · rw [htarget]
    exact congrArg (fun x => (s.cfg.directory.find? fun e => decide (e.number = x)).map DirEntry.target) (reduceDigits_short hd)
  · exact exactNumber_iff _ _

end Sys2Proof.Machine
end

