-- ==== Sys2Proof/Proofs/WholeBodies.lean ====
section
/-! SUPPORT. The body of a configuration edit is whole exactly when the reader of its KIND takes it all. -/

namespace Sys2Proof.Machine

/-! ## Readers of a fixed number of octets (R171) -/

/-- A reader that takes `n` octets, whatever they are, and fails when there are fewer. -/
def Reader.Sized {α : Type} (r : Reader α) (n : Nat) : Prop :=
  ∀ b, (n ≤ b.length → ∃ v, StateT.run r b = some (v, b.drop n)) ∧ (b.length < n → StateT.run r b = none)

theorem readOctet_sized : Reader.Sized readOctet 1 := by
  intro b
  cases b with
  | nil => exact ⟨fun h => absurd h (by decide), fun _ => rfl⟩
  | cons o b => exact ⟨fun _ => ⟨_, rfl⟩, fun h => absurd h (by simp)⟩

theorem pure_sized {α : Type} (v : α) : Reader.Sized (pure v) 0 := fun _ => ⟨fun _ => ⟨v, rfl⟩, fun h => absurd h (by simp)⟩

theorem Reader.Sized.bind {α β : Type} {r : Reader α} {k : α → Reader β} {m n : Nat} (h : r.Sized m) (hk : ∀ v, (k v).Sized n) :
    Reader.Sized (r >>= k) (m + n) := by
  intro b
  refine ⟨fun hb => ?_, fun hb => ?_⟩
  · obtain ⟨v, hv⟩ := (h b).1 (by omega)
    obtain ⟨w, hw⟩ := (hk v (b.drop m)).1 (by rw [List.length_drop]; omega)
    exact ⟨w, by rw [StateT.run_bind, hv]; simpa [List.drop_drop] using hw⟩
  · by_cases hm : m ≤ b.length
    · obtain ⟨v, hv⟩ := (h b).1 hm
      rw [StateT.run_bind, hv]
      exact (hk v (b.drop m)).2 (by rw [List.length_drop]; omega)
    · rw [StateT.run_bind, (h b).2 (by omega)]
      rfl

theorem readWide_sized : Reader.Sized readWide 2 :=
  readOctet_sized.bind fun _ => readOctet_sized.bind fun _ => pure_sized _

theorem Reader.Sized.whole_iff {α : Type} {r : Reader α} {n : Nat} (h : r.Sized n) (body : List Octet) :
    (∃ v, StateT.run r body = some (v, [])) ↔ body.length = n := by
  by_cases hn : n ≤ body.length
  · obtain ⟨v, hv⟩ := (h body).1 hn
    rw [hv]
    simp only [Option.some.injEq, Prod.mk.injEq, exists_eq_left', List.drop_eq_nil_iff]
    omega
  · rw [(h body).2 (by omega)]
    refine iff_of_false ?_ (by omega)
    rintro ⟨_, h⟩
    cases h

theorem readSetMembers_sized : Reader.Sized readSetMembers 6 :=
  readOctet_sized.bind fun _ => readOctet_sized.bind fun _ => readWide_sized.bind fun _ => readOctet_sized.bind fun _ =>
    readOctet_sized.bind fun _ => pure_sized _

theorem readSetPickup_sized : Reader.Sized readSetPickup 5 :=
  readWide_sized.bind fun _ => readWide_sized.bind fun _ => readOctet_sized.bind fun _ => pure_sized _

theorem readSetChime_sized : Reader.Sized readSetChime 4 :=
  readOctet_sized.bind fun _ => readWide_sized.bind fun _ => readOctet_sized.bind fun _ => pure_sized _

/-! ## Whole bodies by their readers -/

section
variable (tag : Octet) (body : List Octet)

theorem whole_setMembers : WholeBody ⟨0x34, tag, body⟩ ↔ ∃ v, StateT.run readSetMembers body = some (v, []) :=
  (Option.some_inj.trans eq_comm).trans (readSetMembers_sized.whole_iff body).symm

theorem whole_setPickup : WholeBody ⟨0x35, tag, body⟩ ↔ ∃ v, StateT.run readSetPickup body = some (v, []) :=
  (Option.some_inj.trans eq_comm).trans (readSetPickup_sized.whole_iff body).symm

theorem whole_setChime : WholeBody ⟨0x39, tag, body⟩ ↔ ∃ v, StateT.run readSetChime body = some (v, []) :=
  (Option.some_inj.trans eq_comm).trans (readSetChime_sized.whole_iff body).symm

theorem whole_setSystem : WholeBody ⟨0x30, tag, body⟩ ↔ ∃ v, StateT.run readSystem body = some (v, []) :=
  exists_congr fun q => (readSystem_iff body q).symm

theorem whole_setStation : WholeBody ⟨0x32, tag, body⟩ ↔ ∃ v, StateT.run readSetStation body = some (v, []) :=
  exists_congr fun q => (readSetStation_iff body q).symm

theorem whole_setGroup : WholeBody ⟨0x33, tag, body⟩ ↔ ∃ v, StateT.run readSetGroup body = some (v, []) :=
  exists_congr fun q => (readSetGroup_iff body q).symm

theorem whole_setOutput : WholeBody ⟨0x38, tag, body⟩ ↔ ∃ v, StateT.run readSetOutput body = some (v, []) :=
  exists_congr fun q => (readSetOutput_iff body q).symm

theorem whole_setDir : WholeBody ⟨0x31, tag, body⟩ ↔ ∃ v, StateT.run readSetDir body = some (v, []) := by
  constructor
  · rintro ⟨op, d, kind, target, hop, hd, hk, ht, hb⟩
    exact ⟨(op, d, kind, target), (readSetDir_takes _ _ _).2 ⟨⟨hop, hd, hk, ht⟩, hb.trans (List.append_nil _).symm⟩⟩
  · rintro ⟨v, hv⟩
    obtain ⟨⟨hop, hd, hk, ht⟩, hb⟩ := (readSetDir_takes _ _ _).1 hv
    exact ⟨_, _, _, _, hop, hd, hk, ht, hb.trans (List.append_nil _)⟩

theorem whole_setList : WholeBody ⟨0x36, tag, body⟩ ↔ ∃ v, StateT.run readSetList body = some (v, []) := by
  constructor
  · rintro ⟨l, es, hl, hn, he, hb⟩
    exact ⟨(l, es), (readSetList_takes _ _ _).2 ⟨⟨hl, hn, he⟩,
      by rw [List.append_nil]; exact hb.trans (List.append_assoc _ _ _)⟩⟩
  · rintro ⟨v, hv⟩
    obtain ⟨⟨hl, hn, he⟩, hb⟩ := (readSetList_takes _ _ _).1 hv
    exact ⟨_, _, hl, hn, he, by rw [List.append_nil] at hb; exact hb.trans (List.append_assoc _ _ _).symm⟩

theorem whole_setMap : WholeBody ⟨0x37, tag, body⟩ ↔ ∃ v, StateT.run readSetMap body = some (v, []) := by
  constructor
  · rintro ⟨m, z, valid, outputs, reserved, desks, hm, hz, hv, ho, hr, hn, hd, hb⟩
    exact ⟨⟨m, z, valid, outputs, reserved, desks⟩, (readSetMap_takes _ _ _).2 ⟨⟨hm, hz, hv, ho, hr, hn, hd⟩,
      by rw [List.append_nil]; exact hb.trans (List.append_assoc _ _ _)⟩⟩
  · rintro ⟨v, hv⟩
    obtain ⟨⟨hm, hz, hv, ho, hr, hn, hd⟩, hb⟩ := (readSetMap_takes _ _ _).1 hv
    exact ⟨_, _, _, _, _, _, hm, hz, hv, ho, hr, hn, hd, by rw [List.append_nil] at hb; exact hb.trans (List.append_assoc _ _ _).symm⟩

end

/-! ## Edits during a save (R184) -/

/-- An edit whose handling reads its body and then looks for a save: SAVING when the body is whole, and otherwise BAD_LENGTH. -/
theorem dispatch_duringSave {α : Type} {row : Row} {f : Frame} {i : Instr} {r : Reader α} {handle : State → Handled} {s : State}
    {rest : List Frame} (hi : f.request = i) (hrow : f.row = row) (hexec : exec i s = dispatch row f handle s)
    (whole : WholeBody f ↔ ∃ v, StateT.run r f.body = some (v, []))
    (good : ∀ (v : α) (u : State), StateT.run r f.body = some (v, []) → u.save.isSome = true → handle u = refuse u .saving)
    (bad : ∀ u : State, (∀ v, StateT.run r f.body ≠ some (v, [])) → handle u = refuse u .badLength) (hs : s.save.isSome = true) :
    (WholeBody f → Answers s rest f.request f .saving []) ∧ (¬ WholeBody f → Answers s rest f.request f .badLength []) := by
  unfold Answers
  rw [hi, hexec]
  refine ⟨fun h => ?_, fun h => ?_⟩
  · obtain ⟨v, hv⟩ := whole.1 h
    exact dispatch_answered hrow (good v _ hv hs)
  · exact dispatch_answered hrow (bad _ fun v hv => h (whole.2 ⟨v, hv⟩))

theorem setDirRow_cases (body : List Octet) : setDirRow body = .setDirRemove ∨ setDirRow body = .setDirAdd := by
  unfold setDirRow
  split
  · exact .inl rfl
  · exact .inr rfl

theorem setMembersRow_cases (body : List Octet) : setMembersRow body = .setMembersRemove ∨ setMembersRow body = .setMembersLogin ∨
    setMembersRow body = .setMembersLogout ∨ setMembersRow body = .setMembersAdd := by
  unfold setMembersRow
  split
  · exact .inl rfl
  · exact .inr (.inl rfl)
  · exact .inr (.inr (.inl rfl))
  · exact .inr (.inr (.inr rfl))

theorem editKind_iff (k : Octet) : editKind k ↔ k = 0x30 ∨ k = 0x31 ∨ k = 0x32 ∨ k = 0x33 ∨ k = 0x34 ∨ k = 0x35 ∨ k = 0x36 ∨
    k = 0x37 ∨ k = 0x38 ∨ k = 0x39 := by
  unfold editKind
  bv_omega

section
variable {f : Frame}

theorem request_setDirAdd (h : f.row = .setDirAdd) : f.request = .setDirAdd f.tag f.body := by
  unfold Frame.request
  rw [h]

theorem request_setDirRemove (h : f.row = .setDirRemove) : f.request = .setDirRemove f.tag f.body := by
  unfold Frame.request
  rw [h]

theorem request_setMembersAdd (h : f.row = .setMembersAdd) : f.request = .setMembersAdd f.tag f.body := by
  unfold Frame.request
  rw [h]

theorem request_setMembersRemove (h : f.row = .setMembersRemove) : f.request = .setMembersRemove f.tag f.body := by
  unfold Frame.request
  rw [h]

theorem request_setMembersLogin (h : f.row = .setMembersLogin) : f.request = .setMembersLogin f.tag f.body := by
  unfold Frame.request
  rw [h]

theorem request_setMembersLogout (h : f.row = .setMembersLogout) : f.request = .setMembersLogout f.tag f.body := by
  unfold Frame.request
  rw [h]

end

/-- The part of a handling that a whole body leads to, during a save. -/
theorem withBody_saving {α : Type} {r : Reader α} {body : List Octet} {u : State} {v : α} {k : α → Handled}
    (h : StateT.run r body = some (v, [])) (hk : k v = refuse u .saving) : withBody r body u k = refuse u .saving :=
  (withBody_of h u k).trans hk

theorem edit_duringSave {s : State} {f : Frame} {rest : List Frame} (hk : editKind f.kind) (hs : s.save.isSome = true) :
    (WholeBody f → Answers s rest f.request f .saving []) ∧ (¬ WholeBody f → Answers s rest f.request f .badLength []) := by
  obtain ⟨kind, tag, body⟩ := f
  obtain rfl | rfl | rfl | rfl | rfl | rfl | rfl | rfl | rfl | rfl := (editKind_iff _).1 hk
  · exact dispatch_duringSave rfl rfl rfl (whole_setSystem _ _) (handle := handleSetSystem body)
      (fun v u h hu => withBody_saving h (unlessSaving_some hu _)) (fun u h => withBody_bad h u _) hs
  · obtain h | h := setDirRow_cases body
    · exact dispatch_duringSave (request_setDirRemove h) h rfl (whole_setDir _ _) (handle := handleSetDirRemove body)
        (fun v u h hu => withBody_saving h (unlessSaving_some hu _)) (fun u h => withBody_bad h u _) hs
    · exact dispatch_duringSave (request_setDirAdd h) h rfl (whole_setDir _ _) (handle := handleSetDirAdd body)
        (fun v u h hu => withBody_saving h (unlessSaving_some hu _)) (fun u h => withBody_bad h u _) hs
  · exact dispatch_duringSave rfl rfl rfl (whole_setStation _ _) (handle := handleSetStation body)
      (fun v u h hu => withBody_saving h (unlessSaving_some hu _)) (fun u h => withBody_bad h u _) hs
  · exact dispatch_duringSave rfl rfl rfl (whole_setGroup _ _) (handle := handleSetGroup body)
      (fun v u h hu => withBody_saving h (unlessSaving_some hu _)) (fun u h => withBody_bad h u _) hs
  · obtain h | h | h | h := setMembersRow_cases body
    · exact dispatch_duringSave (request_setMembersRemove h) h rfl (whole_setMembers _ _) (handle := handleMember acceptRemove body)
        (fun v u h hu => withBody_saving h (unlessSaving_some hu _)) (fun u h => withBody_bad h u _) hs
    · exact dispatch_duringSave (request_setMembersLogin h) h rfl (whole_setMembers _ _) (handle := handleMember acceptLogin body)
        (fun v u h hu => withBody_saving h (unlessSaving_some hu _)) (fun u h => withBody_bad h u _) hs
    · exact dispatch_duringSave (request_setMembersLogout h) h rfl (whole_setMembers _ _) (handle := handleMember acceptLogout body)
        (fun v u h hu => withBody_saving h (unlessSaving_some hu _)) (fun u h => withBody_bad h u _) hs
    · exact dispatch_duringSave (request_setMembersAdd h) h rfl (whole_setMembers _ _) (handle := handleSetMembersAdd body)
        (fun v u h hu => withBody_saving h (unlessSaving_some hu _)) (fun u h => withBody_bad h u _) hs
  · exact dispatch_duringSave rfl rfl rfl (whole_setPickup _ _) (handle := handleSetPickup body)
      (fun v u h hu => withBody_saving h (unlessSaving_some hu _)) (fun u h => withBody_bad h u _) hs
  · exact dispatch_duringSave rfl rfl rfl (whole_setList _ _) (handle := handleSetList body)
      (fun v u h hu => withBody_saving h (unlessSaving_some hu _)) (fun u h => withBody_bad h u _) hs
  · exact dispatch_duringSave rfl rfl rfl (whole_setMap _ _) (handle := handleSetMap body)
      (fun v u h hu => withBody_saving h (unlessSaving_some hu _)) (fun u h => withBody_bad h u _) hs
  · exact dispatch_duringSave rfl rfl rfl (whole_setOutput _ _) (handle := handleSetOutput body)
      (fun v u h hu => withBody_saving h (unlessSaving_some hu _)) (fun u h => withBody_bad h u _) hs
  · exact dispatch_duringSave rfl rfl rfl (whole_setChime _ _) (handle := handleSetChime body)
      (fun v u h hu => withBody_saving h (unlessSaving_some hu _)) (fun u h => withBody_bad h u _) hs

/-! ## The writes of SET_SYSTEM (R181) -/

section
variable {q : RawSystem} {body : List Octet} {signed : Nat → Int}

/-- A class offset of a body that spells its fields reads as two's complement. -/
theorem offset_view (hsigned : ∀ v, signed v = if v < 128 then (v : Int) else (v : Int) - 256) {x : Option Nat}
    {y : Option Int} (hx : ∀ v, x = some v → v < 256) (h : presentOf offsetOf x = some y) : y = x.map signed := by
  obtain ⟨rfl, rfl⟩ | ⟨v, w, rfl, hw, rfl⟩ := presentOf_some_iff.1 h
  · rfl
  · rw [offsetOf_some hw, signedOf_eq (hx v rfl), ← hsigned]
    rfl

theorem offset_none_iff (hsigned : ∀ v, signed v = if v < 128 then (v : Int) else (v : Int) - 256) {x : Option Nat}
    (hx : ∀ v, x = some v → v < 256) :
    presentOf offsetOf x = none ↔ ∃ v, x = some v ∧ (signed v < -64 ∨ 64 < signed v) := by
  rw [presentOf_none_iff]
  refine exists_congr fun v => and_congr_right fun hv => ?_
  rw [offsetOf_none_iff, signedOf_eq (hx v hv), ← hsigned]

theorem number_view {lo hi unit : Nat} {x y : Option Nat} (h : presentOf (stepped lo hi unit) x = some y) : y = x := by
  have e := presentOf_view (g := id) (c := id) (fun v w h => stepped_some h) h
  simpa using e

/-- The ranges of SET_SYSTEM. -/
theorem system_outOfRange (hq : q.Spells body) (hsigned : ∀ v, signed v = if v < 128 then (v : Int) else (v : Int) - 256) :
    q.fields = none ↔ 512 ≤ q.mask ∨ (∃ v, q.width = some v ∧ (v < 3 ∨ 6 < v)) ∨
      (∃ v, q.attendant = some v ∧ 511 < v ∧ v ≠ 65535) ∨ (∃ v, q.park = some v ∧ (v < 30 ∨ 600 < v)) ∨
      (∃ v, q.guard = some v ∧ (150 < v ∨ v % 10 ≠ 0)) ∨ (∃ v, q.period = some v ∧ (v < 100 ∨ 1000 < v ∨ v % 10 ≠ 0)) ∨
      ∃ v, (q.emergency = some v ∨ q.alert = some v ∨ q.voice = some v ∨ q.background = some v) ∧
        (signed v < -64 ∨ 64 < signed v) := by
  obtain ⟨-, -, octets, -, -⟩ := hq
  simp only [List.mem_cons, List.not_mem_nil, or_false, forall_eq_or_imp, forall_eq] at octets
  obtain ⟨-, he, ha, hv, hb⟩ := octets
  rw [RawSystem.fields_none_iff, offset_none_iff hsigned he, offset_none_iff hsigned ha, offset_none_iff hsigned hv,
    offset_none_iff hsigned hb]
  simp only [presentOf_none_iff, stepped_none_iff, finOrNone_none_iff, Nat.mod_one, ne_eq, not_true_eq_false, or_false, not_lt,
    Nat.not_lt_zero, false_or, Nat.succ_le_iff, or_and_right, exists_or]

/-- The record after the writes of SET_SYSTEM. -/
theorem system_writes (hq : q.Spells body) (hsigned : ∀ v, signed v = if v < 128 then (v : Int) else (v : Int) - 256)
    {f : SystemFields} (hf : q.fields = some f) (c : WorkingConfig) : f.write c = { c with
      digitWidth := q.width.getD c.digitWidth, attendant := f.attendant.getD c.attendant, parkTime := q.park.getD c.parkTime
      guardInterval := q.guard.getD c.guardInterval, chimePeriod := q.period.getD c.chimePeriod
      offsets :=
        { emergency := (q.emergency.map signed).getD c.offsets.emergency
          alert := (q.alert.map signed).getD c.offsets.alert
          voice := (q.voice.map signed).getD c.offsets.voice
          background := (q.background.map signed).getD c.offsets.background } } := by
  obtain ⟨-, -, octets, -, -⟩ := hq
  simp only [List.mem_cons, List.not_mem_nil, or_false, forall_eq_or_imp, forall_eq] at octets
  obtain ⟨-, he, ha, hv, hb⟩ := octets
  obtain ⟨width, -, park, guard, period, emergency, alert, voice, background, -⟩ := (RawSystem.fields_iff q f).1 hf
  rw [SystemFields.write, number_view width, number_view park, number_view guard, number_view period,
    offset_view hsigned he emergency, offset_view hsigned ha alert, offset_view hsigned hv voice, offset_view hsigned hb background]

end

/-- The octets of a SET_SYSTEM with every field absent. -/
def emptyRequest : RawSystem :=
  { mask := 0, width := none, attendant := none, park := none, guard := none, period := none, emergency := none, alert := none,
    voice := none, background := none }

theorem emptyRequest_spells : emptyRequest.Spells (put2 0) := by
  refine ⟨show 0 < 65536 by decide, (marks_iff _ _).2 ?_, ?_, ?_, rfl⟩
  · simp [marksFrom, emptyRequest]
  all_goals simp [emptyRequest]

/-- Settles O59, by the ranges and the writes of SET_SYSTEM, and for the edits during a save by KIND. -/
theorem systemEditsAndEditsDuringASave : Obligations.SystemEditsAndEditsDuringASave := by
  refine ⟨fun s tag body rest q signed hs hq hsigned => ⟨fun hf => setSystem_badValue hq hs hf, system_outOfRange hq hsigned,
    fun f c w hf hw => ?_, fun f hf => ?_⟩, fun s tag rest hs ready => ?_, fun s f rest hk hs => edit_duringSave hk hs⟩
  · subst hw
    obtain ⟨-, attendant, -⟩ := (RawSystem.fields_iff q f).1 hf
    exact ⟨system_writes hq hsigned hf c,
      presentOf_code (g := fun a : Option StationId => (a.map Fin.val).getD 65535) (fun _ _ h => finOrNone_code h) attendant _⟩
  · obtain ⟨width, -⟩ := (RawSystem.fields_iff q f).1 hf
    exact ⟨by rw [number_view width], fun hw hd => setSystem_notEmpty hq hs hf hw hd,
      fun h ready => setSystem_accepted hq hs hf h ready⟩
  · exact setSystem_accepted emptyRequest_spells hs (f := ⟨none, none, none, none, none, none, none, none, none⟩) rfl (.inl rfl) ready

end Sys2Proof.Machine
end

