-- ==== Sys2Proof/Proofs/Resets.lean ====
section
/-! SUPPORT. The state right after reset, and what each of the resets loads, keeps and clears. -/

namespace Sys2Proof.Machine

/-! ## The machine right after reset (R23, R180, R187) -/

theorem reset_stationCfg (i : StationId) : State.reset.stationCfg i = StationCfg.defaults := by
  simp [State.stationCfg, State.reset, WorkingConfig.defaults]

theorem reset_station (i : StationId) :
    State.reset.station i = { state := .unused, idleSince := 0, saturated := false, lastSent := .quiet } := by
  simp [State.station, State.reset]

theorem reset_groupCfg (g : GroupId) : State.reset.groupCfg g = GroupCfg.defaults := by
  simp [State.groupCfg, State.reset, WorkingConfig.defaults]

theorem reset_group (g : GroupId) : State.reset.group g = Group.afterReset := by
  simp [State.group, State.reset]

theorem reset_outputCfg (o : OutputId) : State.reset.outputCfg o = OutputCfg.defaults := by
  simp [State.outputCfg, State.reset, WorkingConfig.defaults]

theorem reset_output (o : OutputId) : State.reset.output o = Output.afterReset 64 := by
  simp [State.output, State.reset]

theorem reset_gainsWithin : GainsWithin State.reset := by
  have fits : State.reset.cfg.GainsFit := fun o => by
    change (State.reset.outputCfg o).gmin ≤ (State.reset.outputCfg o).gmax
    rw [reset_outputCfg]
    decide
  refine ⟨fits, nofun, nofun, fun o => ?_⟩
  rw [reset_outputCfg, reset_output]
  decide

theorem reset_windows : WindowsHoldTheirBlocks State.reset := by
  refine ⟨nofun, fun o => ?_, nofun, nofun, fun o => ?_⟩
  · change (State.reset.outputCfg o).window ≤ 4000
    rw [reset_outputCfg]
    decide
  · rw [reset_outputCfg, reset_output]
    decide

theorem reset_membersFit : State.reset.cfg.MembersFit := by
  have empty : ∀ g : GroupId, State.reset.cfg.groups[g].members = [] := fun g => congrArg GroupCfg.members (reset_groupCfg g)
  unfold WorkingConfig.MembersFit
  simp only [empty]
  exact ⟨fun _ => ⟨List.nodup_nil, Nat.zero_le _⟩, fun _ => by simp, by simp⟩

theorem reset_callsAgree : CallsAgree State.reset := by
  have calls : State.reset.calls = [] := rfl
  have noCall : ∀ h, State.reset.findCall h = none := fun _ => rfl
  have orders : State.reset.link.callOrders = [] := rfl
  have tx : State.reset.link.tx = none := rfl
  have stored : State.reset.stored = none := rfl
  have save : State.reset.save = none := rfl
  unfold CallsAgree
  rw [calls, orders, tx, stored, save]
  refine ⟨List.nodup_nil, fun _ h => absurd h List.not_mem_nil, fun g => ?_, fun _ h => absurd h List.not_mem_nil,
    fun i h => ?_, List.nodup_nil, fun h => ?_, nofun, reset_membersFit, nofun, nofun⟩
  · rw [reset_group]
    exact ⟨List.nodup_nil, Nat.zero_le _, nofun⟩
  · simp [reset_station, noCall]
  · rw [noCall]
    exact iff_of_false List.not_mem_nil (by simp)

/-- The state right after reset is the one that a power-on reset without a stored copy leaves. -/
theorem reset_eq : State.reset = State.reset.afterReset .running WorkingConfig.defaults (Vector.replicate 16 64) .power .defaults := by
  have stations : WorkingConfig.defaults.stations.map State.stationAfterReset =
      Vector.replicate 512 { state := .unused, idleSince := 0, saturated := false, lastSent := .quiet } := Vector.map_replicate ..
  have outputs : (Vector.replicate 16 64).map Output.afterReset = Vector.replicate 16 (Output.afterReset 64) := Vector.map_replicate ..
  unfold State.afterReset
  rw [stations, outputs]
  rfl

theorem reset_whole : Whole State.reset :=
  ⟨reset_eq ▸ Whole.afterReset _ _ Whole.defaults_repeatsFit _ _ _, nofun, nofun⟩

/-- Settles O10, by the records of the state right after reset. -/
theorem resetHoldsTheDefaults : Obligations.ResetHoldsTheDefaults := by
  refine ⟨rfl, rfl, rfl, rfl, rfl, rfl, rfl, fun p => ?_, reset_stationCfg, reset_station, reset_groupCfg, reset_group, fun l => ?_,
    fun m z => ?_, reset_outputCfg, reset_output, rfl, fun p => ?_, rfl, rfl, rfl, rfl, ⟨by decide, by decide, by decide⟩,
    reset_gainsWithin, reset_windows, ⟨by decide, List.nodup_nil, fun _ h => absurd h List.not_mem_nil⟩, reset_callsAgree,
    reset_whole.agree.1, reset_whole.agree.2, nofun⟩
  all_goals simp [State.reset, WorkingConfig.defaults, ZoneEntry.defaults]

/-! ## The resets (R186, R187) -/

section
variable (s : State) (power : Power) (cfg : WorkingConfig) (gains : Vector Nat 16) (cause : StartCause) (origin : StartOrigin)

theorem afterReset_group (g : GroupId) : (s.afterReset power cfg gains cause origin).group g = Group.afterReset := by
  simp [State.afterReset, State.group]

theorem afterReset_page (p : PageId) : (s.afterReset power cfg gains cause origin).pages[p] = { gen := 0, page := none } := by
  simp [State.afterReset]

theorem afterReset_station (i : StationId) : (s.afterReset power cfg gains cause origin).station i =
    { state := if cfg.stations[i].inUse then .idle else .unused, idleSince := 0, saturated := false, lastSent := .quiet } := by
  simp [State.afterReset, State.station, State.stationAfterReset]

theorem afterReset_output (o : OutputId) :
    (s.afterReset power cfg gains cause origin).output o = Output.afterReset gains[o] := by
  simp [State.afterReset, State.output]

end

section
variable (s : State) (b : Bool)

theorem powerOn_group (g : GroupId) : (s.powerOn b).group g = Group.afterReset := by
  simp [State.powerOn, State.afterReset, State.group]

theorem powerOn_page (p : PageId) : (s.powerOn b).pages[p] = { gen := 0, page := none } := by
  simp [State.powerOn, State.afterReset]

theorem powerOn_station (i : StationId) : (s.powerOn b).station i =
    { state := if ((s.powerOn b).stationCfg i).inUse then .idle else .unused, idleSince := 0, saturated := false,
      lastSent := .quiet } := by
  simp [State.powerOn, State.afterReset, State.station, State.stationCfg, State.stationAfterReset]

theorem powerOn_output (o : OutputId) : (s.powerOn b).output o =
    Output.afterReset (max ((s.powerOn b).outputCfg o).gmin (min ((s.powerOn b).outputCfg o).gmax 64)) := by
  simp [State.powerOn, State.afterReset, State.output, State.outputCfg, State.clampNat]

end

theorem powerOn_stored {s : State} {c : WorkingConfig} (h : s.stored = some c) : s.powerOn true =
    { s.afterReset .running c (c.outputs.map fun o => State.clampNat o.gmin o.gmax 64) .power .stored with stored := some c } := by
  simp [State.powerOn, h]

theorem powerOn_defaults {s : State} {b : Bool} (h : s.stored = none ∨ b = false) : s.powerOn b =
    { s.afterReset .running WorkingConfig.defaults
        (WorkingConfig.defaults.outputs.map fun o => State.clampNat o.gmin o.gmax 64) .power .defaults with stored := none } := by
  obtain h | rfl := h
  · simp [State.powerOn, h]
  · simp [State.powerOn]

/-- Settles O11, by the equations of the resets. -/
theorem resetsLoadOrRetainTheConfiguration : Obligations.ResetsLoadOrRetainTheConfiguration := by
  refine ⟨fun _ _ => rfl, rfl, fun _ => rfl, fun b s => ⟨s.powerOn b, rfl, fun c hc hb => ?_, fun h => ?_, rfl, rfl, rfl, rfl,
    powerOn_group s b, powerOn_page s b, powerOn_station s b, powerOn_output s b, rfl, rfl⟩,
    fun s => ⟨fun h => ?_, rfl, fun hr => ⟨s.warmReset, ?_, fun f hf hi => ⟨?_, ?_⟩, fun p c => ⟨rfl, rfl, rfl, rfl, rfl, rfl, rfl,
      fun g => ?_, fun q => ?_, fun i => ?_, fun o => ?_, rfl, rfl⟩⟩⟩⟩
  · subst hb
    rw [powerOn_stored hc]
    exact ⟨rfl, rfl, rfl⟩
  · rw [powerOn_defaults h]
    exact ⟨rfl, rfl, rfl⟩
  · change execLeavesReset s = _
    unfold execLeavesReset
    rw [h]
  · change execPinReset s = _
    unfold execPinReset
    rw [hr]
  · change execLinkReset s = _
    unfold execLinkReset State.transmissionEnds
    rw [hr, hf]
    dsimp only
    rw [if_pos hi, hi]
  · change execFrameTransmitted s = _
    unfold execFrameTransmitted State.transmissionEnds
    rw [hr, hf]
    dsimp only
    rw [hi]
  · exact afterReset_group ..
  · exact afterReset_page ..
  · exact afterReset_station ..
  · rw [State.warmReset, afterReset_output]
    simp [State.output]

end Sys2Proof.Machine
end

