-- ==== Sys2Proof/Proofs/AgeMarks.lean ====
section
/-! SUPPORT. The ages, and the four events that set their marks (R12, R29, R120). -/

namespace Sys2Proof.Machine

theorem saturatedAge_marked (now t : Time) : saturatedAge now t true = 2 ^ 30 := rfl

theorem ageOf_eq (now t : Time) : ageOf now t = (now.toNat + 2 ^ 32 - t.toNat) % 2 ^ 32 := by
  unfold ageOf
  rw [BitVec.toNat_sub]
  have := t.isLt
  congr 1
  omega

theorem later_toNat (t : Time) (ms : Nat) : (later t ms).toNat = (t.toNat + ms) % 2 ^ 32 := by
  simp [later]

theorem ageReached_iff (s : State) (t : Time) : s.ageReached t = true ↔ 2 ^ 30 ≤ ageOf s.now t := by
  exact decide_eq_true_iff

/-- An event that sets a mark and holds back no availability event. -/
theorem event_marks {s : State} {b : Bool} {e : State → State} (hr : Runs s) (hb : b = true) (he : (e s).heldAvail = s.heldAvail) :
    event s b e = .next (e s).transmitTake := by
  rw [event_happens hr.1 hb, finish_none _ (he.trans hr.2)]

theorem idleAgeSaturated {s : State} {i : StationId} (hr : Runs s) (hu : (s.stationCfg i).inUse = true)
    (hm : (s.station i).saturated = false) (ha : 2 ^ 30 ≤ ageOf s.now (s.station i).idleSince) :
    exec (.idleAgeSaturated i) s = .next (s.updStation i fun x => { x with saturated := true }).transmitTake := by
  change execIdleAgeSaturated i s = _
  unfold execIdleAgeSaturated
  exact event_marks hr (by simp [State.idleAgeDueFor, hu, hm, (ageReached_iff _ _).2 ha]) rfl

theorem queueAgeSaturated {s : State} {h : Handle} {c : Call} {t : Time} (hr : Runs s) (hc : s.findCall h = some c)
    (he : c.state ≠ .ending) (hq : c.queueEntry = some t) (hm : c.queueAgeMark = false) (ha : 2 ^ 30 ≤ ageOf s.now t) :
    exec (.queueAgeSaturated h) s = .next (s.updCall h fun c => { c with queueAgeMark := true }).transmitTake := by
  change execQueueAgeSaturated h s = _
  unfold execQueueAgeSaturated
  exact event_marks hr (by simp [hc, State.queueAgeDueFor, he, hq, hm, (ageReached_iff _ _).2 ha]) rfl

theorem arrivalAgeSaturated {s : State} {h : Handle} {c : Call} (hr : Runs s) (hc : s.findCall h = some c)
    (he : c.state ≠ .ending) (hm : c.arrivalAgeMark = false) (ha : 2 ^ 30 ≤ ageOf s.now c.arrival) :
    exec (.arrivalAgeSaturated h) s = .next (s.updCall h fun c => { c with arrivalAgeMark := true }).transmitTake := by
  change execArrivalAgeSaturated h s = _
  unfold execArrivalAgeSaturated
  exact event_marks hr (by simp [hc, State.arrivalAgeDueFor, he, hm, (ageReached_iff _ _).2 ha]) rfl

theorem requestAgeSaturated {s : State} {p : PageId} {pg : Page} (hr : Runs s) (hp : s.page p = some pg)
    (hm : pg.requestAgeMark = false) (ha : 2 ^ 30 ≤ ageOf s.now pg.requestTime) :
    exec (.requestAgeSaturated p) s = .next (s.updPage p fun x => { x with requestAgeMark := true }).transmitTake := by
  change execRequestAgeSaturated p s = _
  unfold execRequestAgeSaturated
  exact event_marks hr (by simp [State.requestAgeDue, hp, hm, (ageReached_iff _ _).2 ha]) rfl

/-- Settles O37, by the four events; a set mark holds its age at the ceiling. -/
theorem ageMarksHoldAgesAtTheirCeiling : Obligations.AgeMarksHoldAgesAtTheirCeiling := by
  refine ⟨fun now t ms n => ⟨ageOf_eq now t, later_toNat t ms, Nat.mul_comm _ _⟩, fun s age hage => ⟨fun i => ?_, fun c => ?_, fun c => ?_,
    fun pg => ?_⟩, fun s hr => ⟨fun i hu hm ha => ⟨idleAgeSaturated hr hu hm ha, fun now => ?_⟩, fun h c hc he =>
      ⟨fun t hq hm ha => ⟨queueAgeSaturated hr hc he hq hm ha, fun now => ?_⟩,
        fun hm ha => ⟨arrivalAgeSaturated hr hc he hm ha, fun now => rfl⟩⟩,
      fun p pg hp hm ha => ⟨requestAgeSaturated hr hp hm ha, fun now => rfl⟩⟩⟩
  · rw [hage]
    rfl
  · unfold State.queueAge
    cases c.queueEntry with
    | none => rfl
    | some t => exact (hage t c.queueAgeMark).symm
  · rw [hage]
    rfl
  · rw [hage]
    rfl
  · simp [State.idleAge, saturatedAge_marked]
  · simp [State.queueAge, hq, saturatedAge_marked]

end Sys2Proof.Machine
end

