-- ==== Sys2Proof/Proofs/Fields.lean ====
section
/-! SUPPORT. The octets of the fields of orders and advisories (R166, R174, R176). -/

namespace Sys2Proof.Machine

/-! ## Forms of numbers (R166) -/

/-- The octets of a number, most significant first. -/
theorem putNumber_get {n v k : Nat} (h : k < n) : (putNumber n v)[k]? = some (BitVec.ofNat 8 (v / 256 ^ (n - 1 - k))) := by
  induction n generalizing v with
  | zero => exact absurd h (Nat.not_lt_zero k)
  | succ n ih =>
    rw [putNumber]
    by_cases hk : k < n
    · rw [List.getElem?_append_left (by rwa [putNumber_length]), ih hk, Nat.div_div_eq_div_mul, ← pow_succ']
      congr 4
      omega
    · obtain rfl : k = n := by omega
      rw [List.getElem?_append_right (by rw [putNumber_length]), putNumber_length]
      simp

theorem put2_two (v : Nat) : put2 v = [BitVec.ofNat 8 (v / 256), BitVec.ofNat 8 (v % 256)] := by
  rw [put2_eq]
  congr 2
  exact BitVec.eq_of_toNat_eq (by simp)

theorem putFlag_eq (b : Bool) : putFlag b = [if b = true then 1 else 0] := by
  cases b <;> rfl

theorem putDigits_eq (d : List Digit) : putDigits d = BitVec.ofNat 8 d.length :: d.map (BitVec.ofNat 8) := by
  rw [putDigits, put1_eq]
  simp only [List.map_eq_flatMap, List.singleton_append]
  rfl

theorem putOpt1_eq {absent : Option Nat → Octet} (h0 : absent none = 255) (h : ∀ n, absent (some n) = BitVec.ofNat 8 n)
    (v : Option Nat) : putOpt1 v = [absent v] := by
  cases v with
  | none => rw [h0]; rfl
  | some n => rw [h]; rfl

/-! ## What a station presents (R16) -/

theorem present_ringing {s : State} {h : Handle} {c : Call} (hc : s.findCall h = some c) :
    s.present (.ringing h) = .ring h (decide (c.state = .recalling)) c.caller := by
  simp [State.present, hc]

theorem present_listening {s : State} {r : PageRef} {pg : Page} (hp : s.pageAt r = some pg) :
    s.present (.pageListen r) = .desk r pg.source := by
  simp [State.present, hp]

/-! ## The advisory queue (R175) -/

theorem advise_room {s : State} (h : s.link.advisories.length < 32) (a : Advisory) :
    s.advise a = s.updLink fun l => { l with advisories := l.advisories ++ [a] } := by
  have h' : s.link.advisories.length < Config.advisories := h
  simp [State.advise, State.updLink, h']

theorem advise_lost {s : State} (h : 32 ≤ s.link.advisories.length) (a : Advisory) :
    s.advise a = s.updLink fun l => { l with advLost := true } := by
  have h' : ¬ s.link.advisories.length < Config.advisories := Nat.not_lt.2 h
  simp [State.advise, State.updLink, h']

/-! ## The codes of the named values (R166) -/

theorem routeReason_code {why : RouteReason} {code : Nat}
    (h : [(RouteReason.queueFull, 0), (.displaced, 1), (.waitExpired, 2), (.limitLowered, 3), (.groupDisabled, 4), (.loop, 5),
      (.targetBusy, 6), (.targetNoAnswer, 7)].lookup why = some code) : why.code = code := by
  cases why <;> exact Option.some.inj h

theorem pageState_code {st : PageState} {code : Nat}
    (h : [(PageState.waiting, 0), (.starting, 1), (.live, 2)].lookup st = some code) : st.code = code := by
  cases st <;> exact Option.some.inj h

theorem endReason_code {why : EndReason} {code : Nat}
    (h : [(EndReason.endedByHost, 0), (.complete, 1), (.waitExpired, 2), (.preempted, 3), (.escalationCleared, 4)].lookup why =
      some code) : why.code = code := by
  cases why <;> exact Option.some.inj h

/-- A report that names no page stands with a code and no reference. -/
theorem escReport_code {report : EscReport} {code : Nat}
    (h : [(EscReport.skipped, 1), (.badZone, 2), (.cleared, 3)].lookup report = some code) :
    report.code = code ∧ ∀ r, report ≠ .started r := by
  cases report with
  | started r => cases h
  | skipped => exact ⟨Option.some.inj h, nofun⟩
  | badZone => exact ⟨Option.some.inj h, nofun⟩
  | cleared => exact ⟨Option.some.inj h, nofun⟩

/-- The octets of a target (R166, log entry 14). -/
theorem putTarget_eq {dest : Target} {target : List Octet}
    (hg : ∀ k, dest = .group k → target = [1, 0, BitVec.ofNat 8 k.val]) (hs : ∀ i, dest = .station i → target = 2 :: put2 i.val)
    (hn : dest = .nowhere → target = [0, Config.unreadOctet 0, Config.unreadOctet 1])
    (ha : dest = .attendant → target = [3, Config.unreadOctet 0, Config.unreadOctet 1]) : putTarget dest = target := by
  cases dest with
  | nowhere => rw [hn rfl]; rfl
  | attendant => rw [ha rfl]; rfl
  | station i => rw [hs i rfl]; rfl
  | group k =>
    rw [hg k rfl, putTarget, put2_eq, Nat.div_eq_of_lt (by omega)]
    rfl

/-- Settles O19, by the forms of R166 and the layouts of R174 and R176. -/
theorem advisoriesAndOrdersCarryTheirFields : Obligations.AdvisoriesAndOrdersCarryTheirFields := by
  refine ⟨fun s => ⟨fun h c => present_ringing, fun r pg => present_listening, ?_⟩, fun n v => ⟨putNumber_length n v, fun k => putNumber_get⟩,
    fun _ => ⟨rfl, rfl⟩, putFlag_eq, fun _ => ⟨rfl, rfl⟩, fun _ => rfl, fun _ => rfl, fun _ => rfl, rfl, fun _ => rfl,
    fun s a => ⟨fun h => advise_room h a, fun h => advise_lost h a⟩, fun num wide absent hnum hwide h0 habs => ?_⟩
  · simp [State.present]
  obtain rfl : num = BitVec.ofNat 8 := funext hnum
  obtain rfl : wide = put2 := funext fun n => (hwide n).trans (put2_two n).symm
  have opt := putOpt1_eq h0 habs
  refine ⟨fun i => rfl, fun i h isRecall caller => ?_, fun i r k => ?_, fun i r k => ?_,
    fun h left why dest hops code target hwhy hg hs hn ha => ?_, fun g r n => rfl, fun g report n code hr => ?_,
    fun r cls st held g code hst => ?_, fun r cls why held g code hwhy => ?_, fun o gt mean ut => ?_⟩
  · simp [stationOrderBody, putDigits_eq, putFlag_eq, Presentation.code, put1_eq]
  · simp [stationOrderBody, Presentation.code, put1_eq, putRef, putSource]
  · simp [stationOrderBody, Presentation.code, put1_eq, putRef, putSource]
  · simp only [Advisory.frame, routeReason_code hwhy, putTarget_eq hg hs hn ha, opt, put1_eq, List.append_assoc, List.cons_append,
      List.nil_append]
  · obtain ⟨hcode, none⟩ := escReport_code hr
    cases report with
    | started r => exact absurd rfl (none r)
    | skipped | badZone | cleared => simp only [Advisory.frame, hcode]; rfl
  · simp only [Advisory.frame, pageState_code hst, opt, h0]
    rfl
  · simp only [Advisory.frame, endReason_code hwhy, opt]
    rfl
  · simp [Advisory.frame, put1_eq]

end Sys2Proof.Machine
end

