-- ==== Sys2Proof/Proofs/StationReports.lean ====
section
/-! SUPPORT. STATION: the row of a report, its checks, and its effect in each state but RINGING (R6 to R10). -/

namespace Sys2Proof.Machine

/-- The effect of a report by its code; the OFFHOOK row takes a report that is none of the four (R6). -/
def reportEffect : Nat → State → StationId → State
  | 1 => reportOnhook
  | 2 => reportOutOfService
  | 3 => reportInService
  | _ => reportOffhook

theorem reportEffect_other : ∀ {r : Nat}, r ≠ 1 → r ≠ 2 → r ≠ 3 → reportEffect r = reportOffhook
  | 0, _, _, _ => rfl
  | 1, h, _, _ => absurd rfl h
  | 2, _, h, _ => absurd rfl h
  | 3, _, _, h => absurd rfl h
  | _ + 4, _, _, _ => rfl

/-- The frame of a STATION request. -/
def stationFrame (tag : Octet) (v r : Nat) : Frame := ⟨0x04, tag, put2 v ++ put1 r⟩

section
variable {s : State} {tag : Octet} {v r : Nat} {i : StationId} {rest : List Frame}

theorem stationRow_eq (v : Nat) (hr : r < 256) : stationRow (put2 v ++ put1 r) =
    if r = 1 then .stationOnhook else if r = 2 then .stationOutOfService else if r = 3 then .stationInService else .stationOffhook := by
  have e : ((put2 v ++ put1 r).getD 2 0).toNat = r := by simp [put1_eq, put2_eq, Nat.mod_eq_of_lt hr]
  unfold stationRow
  rw [e]
  split
  · rfl
  · rfl
  · rfl
  · rename_i h1 h2 h3
    rw [if_neg (by simpa using h1), if_neg (by simpa using h2), if_neg (by simpa using h3)]

/-- A STATION request is handled by the effect of its report. -/
theorem exec_station (hr : r < 256) (s : State) : exec (stationFrame tag v r).request s =
    dispatch (stationFrame tag v r).row (stationFrame tag v r) (handleReport (reportEffect r) (put2 v ++ put1 r)) s := by
  have row : (stationFrame tag v r).row = _ := stationRow_eq v hr
  unfold Frame.request
  by_cases h1 : r = 1
  · rw [row, if_pos h1, h1]
    rfl
  by_cases h2 : r = 2
  · rw [row, if_neg h1, if_pos h2, h2]
    rfl
  by_cases h3 : r = 3
  · rw [row, if_neg h1, if_neg h2, if_pos h3, h3]
    rfl
  · rw [row, if_neg h1, if_neg h2, if_neg h3, reportEffect_other h1 h2 h3]
    rfl

theorem handleReport_eq (hv : v < 65536) (hr : r < 256) (effect : State → StationId → State) (s : State) :
    handleReport effect (put2 v ++ put1 r) s = orBadValue s (if 3 < r then none else finOf 512 v) fun i =>
      if (s.station i).state = .unused then refuse s .unknown else accept (effect s i) [] := by
  refine withBody_of (v := (v, r)) ?_ s _
  unfold readReport
  rw [StateT.run_bind, readWide_put2 hv]
  change StateT.run (do let r ← readOctet; pure (v, r)) (put1 r) = _
  rw [StateT.run_bind, readOctet_put1' hr]
  rfl

theorem report_badValue (hv : v < 65536) (hr : r < 256) (h : 511 < v ∨ 3 < r) :
    Answers s rest (stationFrame tag v r).request (stationFrame tag v r) .badValue [] := by
  intro ready
  rw [exec_station hr]
  refine dispatch_answered rfl ?_ ready
  rw [handleReport_eq hv hr]
  by_cases h3 : 3 < r
  · rw [if_pos h3]
    rfl
  · rw [if_neg h3, finOf_none_iff.2 (by omega)]
    rfl

theorem finOf_self {n : Nat} (i : Fin n) : finOf n i.val = some i := finOf_eq_some_iff.2 rfl

theorem report_unknown (hr : r ≤ 3) (h : (s.station i).state = .unused) :
    Answers s rest (stationFrame tag i.val r).request (stationFrame tag i.val r) .unknown [] := by
  intro ready
  rw [exec_station (by omega)]
  refine dispatch_answered rfl ?_ ready
  rw [handleReport_eq (by omega) (by omega), if_neg (by omega), finOf_self, orBadValue_some, if_pos (by exact h)]
  rfl

/-- A report of a station in use is answered OK, with its effect. -/
theorem report_ok (hr : r ≤ 3) (h : (s.station i).state ≠ .unused) (ready : Ready s (stationFrame tag i.val r) rest) :
    exec (stationFrame tag i.val r).request s =
      .next ((reportEffect r (s.takeHead rest) i).flush.answer (stationFrame tag i.val r) .ok []) := by
  rw [exec_station (by omega)]
  refine dispatch_flushed rfl ?_ ready
  rw [handleReport_eq (by omega) (by omega), if_neg (by omega), finOf_self, orBadValue_some, if_neg (by exact h)]
  rfl

/-- A report whose effect holds back no availability event. -/
theorem report_ok_settled {u : State} (hr : r ≤ 3) (h : (s.station i).state ≠ .unused)
    (ready : Ready s (stationFrame tag i.val r) rest) (e : reportEffect r (s.takeHead rest) i = u) (hu : u.heldAvail = s.heldAvail) :
    exec (stationFrame tag i.val r).request s = .next (u.answer (stationFrame tag i.val r) .ok []) := by
  rw [report_ok hr h ready, e, flush_none _ (hu.trans ready.2.2)]

end

/-! ## The effect of each report by the station's state (R7 to R10) -/

section
variable {s : State} {i : StationId}

theorem reportOffhook_moves (h : (s.station i).state = .idle ∨ ∃ p, (s.station i).state = .pageListen p) :
    reportOffhook s i = s.enterState i .busy := by
  obtain h | ⟨p, h⟩ := h <;> simp only [reportOffhook, h]

theorem reportOffhook_stays (h : (s.station i).state = .busy ∨ (s.station i).state = .outOfService) : reportOffhook s i = s := by
  obtain h | h := h <;> simp only [reportOffhook, h]

theorem reportOnhook_moves (h : (s.station i).state = .busy) : reportOnhook s i = (s.enterFreshIdle i).availability i := by
  simp only [reportOnhook, h]

theorem reportOnhook_stays (h : (s.station i).state = .idle ∨ (∃ h, (s.station i).state = .ringing h) ∨
    (∃ p, (s.station i).state = .pageListen p) ∨ (s.station i).state = .outOfService) : reportOnhook s i = s := by
  obtain h | ⟨_, h⟩ | ⟨_, h⟩ | h := h <;> simp only [reportOnhook, h]

theorem reportOutOfService_moves (h : (s.station i).state = .idle ∨ (s.station i).state = .busy ∨
    ∃ p, (s.station i).state = .pageListen p) : reportOutOfService s i = s.enterState i .outOfService := by
  obtain h | h | ⟨p, h⟩ := h <;> simp only [reportOutOfService, h]

theorem reportOutOfService_stays (h : (s.station i).state = .outOfService) : reportOutOfService s i = s := by
  simp only [reportOutOfService, h]

theorem reportInService_moves (h : (s.station i).state = .outOfService) :
    reportInService s i = (s.enterFreshIdle i).availability i := by
  simp only [reportInService, h]

theorem reportInService_stays (h : (s.station i).state = .idle ∨ (∃ h, (s.station i).state = .ringing h) ∨
    (∃ p, (s.station i).state = .pageListen p) ∨ (s.station i).state = .busy) : reportInService s i = s := by
  obtain h | ⟨_, h⟩ | ⟨_, h⟩ | h := h <;> simp only [reportInService, h]

end

/-- Settles O21, by the effect of each report in each state. -/
theorem stationReportsInEveryState : Obligations.StationReportsInEveryState := by
  intro s tag v r i rest hv hr
  refine ⟨fun ready h => report_badValue hv hr h ready, fun ready h3 hu => report_unknown h3 hu ready,
    fun ready => ⟨fun h => ?_, fun h => ?_⟩, fun ready => ⟨fun h => ?_, fun h => ?_⟩, fun ready => ⟨fun h => ?_, fun h => ?_⟩,
    fun ready => ⟨fun h => ?_, fun h => ?_⟩⟩
  · have used : (s.station i).state ≠ .unused := by obtain h | ⟨p, h⟩ := h <;> simp [h]
    exact report_ok_settled (r := 0) (by omega) used ready (reportOffhook_moves h) (by simp)
  · have used : (s.station i).state ≠ .unused := by obtain h | h := h <;> simp [h]
    exact report_ok_settled (r := 0) (by omega) used ready (reportOffhook_stays h) rfl
  · refine (report_ok (r := 1) (by omega) (by simp [h]) ready).trans ?_
    rw [show reportEffect 1 = reportOnhook from rfl, reportOnhook_moves (by exact h)]
    rfl
  · have used : (s.station i).state ≠ .unused := by obtain h | ⟨_, h⟩ | ⟨_, h⟩ | h := h <;> simp [h]
    exact report_ok_settled (r := 1) (by omega) used ready (reportOnhook_stays h) rfl
  · have used : (s.station i).state ≠ .unused := by obtain h | h | ⟨p, h⟩ := h <;> simp [h]
    exact report_ok_settled (r := 2) (by omega) used ready (reportOutOfService_moves h) (by simp)
  · exact report_ok_settled (r := 2) (by omega) (by simp [h]) ready (reportOutOfService_stays h) rfl
  · refine (report_ok (r := 3) (by omega) (by simp [h]) ready).trans ?_
    rw [show reportEffect 3 = reportInService from rfl, reportInService_moves (by exact h)]
    rfl
  · have used : (s.station i).state ≠ .unused := by obtain h | ⟨_, h⟩ | ⟨_, h⟩ | h := h <;> simp [h]
    exact report_ok_settled (r := 3) (by omega) used ready (reportInService_stays h) rfl

end Sys2Proof.Machine
end

