-- ==== Sys2Proof/Proofs/Queues.lean ====
section
/-! SUPPORT. The engines of the pages leave the queues as they are. -/

namespace Sys2Proof.Machine

/-- From `s` to `t` no queue has changed. -/
def SameQueues (s t : State) : Prop := ∀ g, (t.group g).queue = (s.group g).queue

namespace SameQueues

variable {s t u : State}

theorem refl (s : State) : SameQueues s s := fun _ => rfl

theorem trans (a : SameQueues s t) (b : SameQueues t u) : SameQueues s u := fun g => (b g).trans (a g)

theorem of_groups (h : t.groups = s.groups) : SameQueues s t := fun g => by simp [State.group, h]

theorem foldl {α : Type} {f : State → α → State} (hf : ∀ u x, SameQueues u (f u x)) (l : List α) (s : State) :
    SameQueues s (l.foldl f s) :=
  List.foldlRecOn l f (motive := fun t : State => SameQueues s t) (refl s) fun t h x _ => h.trans (hf t x)

/-- A group changes, but for its queue. -/
theorem updGroup (s : State) (g : GroupId) {f : Group → Group} (hf : ∀ x, (f x).queue = x.queue) : SameQueues s (s.updGroup g f) := by
  intro k
  by_cases h : k = g
  · subst h
    rw [State.group_updGroup_self, hf]
  · rw [s.group_updGroup_ne h]

theorem enterState (s : State) (i : StationId) (st : StationState) : SameQueues s (s.enterState i st) := .of_groups (by simp)

theorem advisePage (s : State) (p : PageId) (e : PageEvent) : SameQueues s (s.advisePage p e) := by
  unfold State.advisePage
  split
  · exact .refl s
  · exact .of_groups rfl

theorem joinDesk (p : PageId) (c : PageClass) (s : State) (i : StationId) : SameQueues s (State.joinDesk p c s i) := by
  unfold State.joinDesk
  split
  · exact .enterState s i _
  · split
    · split
      · split
        · exact .enterState s i _
        · exact .refl s
      · exact .refl s
    · exact .refl s

theorem joinDesks (s : State) (p : PageId) : SameQueues s (s.joinDesks p) := by
  unfold State.joinDesks
  split
  · exact .refl s
  · exact .foldl (.joinDesk _ _) _ s

theorem releaseJoined (s : State) (p : PageId) : SameQueues s (s.releaseJoined p) :=
  (SameQueues.foldl (fun u i => .enterState u i _) (s.joined p) s).trans (.of_groups rfl)

theorem enterStarting (s : State) (p : PageId) : SameQueues s (s.enterStarting p) :=
  ((SameQueues.of_groups (t := s.updPage p _) rfl).trans (.advisePage _ p _)).trans (.joinDesks _ p)

theorem endPageRecord (s : State) (p : PageId) (why : EndReason) : SameQueues s (s.endPageRecord p why) := by
  unfold State.endPageRecord
  split
  · exact .refl s
  · have released : SameQueues s ((s.held p).foldl State.release s) :=
      .foldl (f := State.release) (fun _ _ => .of_groups rfl) _ s
    exact (released.trans (.releaseJoined _ p)).trans (.of_groups rfl)

theorem strip (s : State) (p : PageId) (pg : Page) : SameQueues s (s.strip p pg) := by
  unfold State.strip
  split
  · refine (SameQueues.endPageRecord s p .preempted).trans ?_
    unfold State.forgetEscPage
    split
    · exact .refl _
    · split
      · exact .updGroup _ _ fun _ => rfl
      · exact .refl _
  · exact ((SameQueues.of_groups (t := s.toWaiting p) rfl).trans (.releaseJoined _ p)).trans (.advisePage _ p _)

theorem settleLoss (s : State) (r : PageRef) : SameQueues s (s.settleLoss r) := by
  unfold State.settleLoss
  split
  · exact .refl s
  · split
    · exact .strip s _ _
    · exact .refl s

theorem takeSteps (s : State) (p : PageId) (outs : List OutputId) : SameQueues s (s.takeSteps p outs) := by
  have granted : SameQueues s (outs.foldl (State.grant (s.refOf p)) s) :=
    .foldl (f := State.grant (s.refOf p)) (fun _ _ => .of_groups rfl) outs s
  unfold State.takeSteps
  refine SameQueues.trans ?_ (.foldl .settleLoss _ _)
  split
  · exact granted.trans (.enterStarting _ p)
  · exact granted

theorem reviewPages (s : State) : SameQueues s s.reviewPages := by
  unfold State.reviewPages
  generalize State.reviewBound = n
  induction n generalizing s with
  | zero => exact .refl s
  | succ n ih =>
    unfold State.reviewWalks
    split
    · exact .refl s
    · exact (SameQueues.takeSteps s _ _).trans (ih _)

theorem endCleared (s : State) (p : PageId) : SameQueues s (s.endPage p .escalationCleared) := by
  have ended := SameQueues.endPageRecord s p .escalationCleared
  unfold State.endPage
  split
  · exact .refl s
  · rename_i pg _
    dsimp only
    generalize pg.escGroup = e
    cases e with
    | none =>
      split
      · exact ended
      · exact ended.trans (.reviewPages _)
    | some g =>
      simp only [if_true]
      split
      · exact ended
      · exact ended.trans (.reviewPages _)

theorem escalationClear (s : State) (g : GroupId) : SameQueues s (s.escalationClear g) := by
  unfold State.escalationClear
  dsimp only
  refine SameQueues.trans ?_ (SameQueues.updGroup (f := fun x => { x with escPage := none, repeatDeadline := none, repeatDue := false }) _ g
    fun _ => rfl)
  split
  · split
    · exact .endCleared s _
    · exact .refl s
  · exact .refl s

/-- A call that leaves its queue leaves the others in place. -/
theorem leaveQueue (s : State) (h : Handle) (g : GroupId) :
    SameQueues (s.updGroup g fun x => { x with queue := x.queue.filter fun k => !(k == h) }) (s.leaveQueue h g) := by
  unfold State.leaveQueue
  dsimp only
  split
  · exact .escalationClear _ g
  · exact .refl _

end SameQueues

/-! ## An offer and the queues (R53) -/

theorem State.ringAll_groups (s : State) (h : Handle) (sts : List StationId) : (s.ringAll h sts).groups = s.groups := by
  obtain ⟨⟨e, -⟩, -⟩ := State.enterAll (fun _ => .ringing h) sts s
  change s.ringAll h sts = _ at e
  rw [e]

/-- An offer of a queued call takes it out of its group's queue. -/
theorem offerGroup_queue {s : State} {h : Handle} {c : Call} (hc : s.findCall h = some c) (hq : c.state = .queued) (g : GroupId)
    (sts : List StationId) : ((s.offerGroup h g sts).group g).queue = (s.group g).queue.filter fun k => !(k == h) := by
  have left : ∀ u : State, u.groups = s.groups → ((u.leaveQueue h g).group g).queue = (s.group g).queue.filter fun k => !(k == h) := by
    intro u hu
    rw [SameQueues.leaveQueue u h g g, State.group_updGroup_self]
    simp [State.group, hu]
  unfold State.offerGroup
  rw [hc]
  dsimp only
  rw [hq, if_pos (by simp)]
  split
  · rw [State.group_updGroup_self]
    exact left _ (State.ringAll_groups _ h _)
  · exact left _ (State.ringAll_groups _ h _)

end Sys2Proof.Machine
end

