-- ==== Sys2Proof/Proofs/Arbiter.lean ====
section
/-! SUPPORT. The arbiter's choice, the review of a queue, and what an offer writes (R53, R58 to R60). -/

namespace Sys2Proof.Machine

/-! ## The greatest, and the first of equals -/

/-- The first of the elements with the greatest measure, by its place in the list. -/
theorem firstGreatest_eq {α : Type} {m : α → Nat} {before after : List α} {x : α} (hb : ∀ y ∈ before, m y < m x)
    (ha : ∀ y ∈ after, m y ≤ m x) : firstGreatest m (before ++ x :: after) = some x := by
  induction before with
  | nil =>
    rw [List.nil_append, firstGreatest]
    split
    · rfl
    · rename_i z hz
      rw [if_neg (not_lt.2 (ha z (State.firstGreatest_mem hz)))]
  | cons y before ih =>
    rw [List.cons_append, firstGreatest, ih fun z hz => hb z (List.mem_cons_of_mem _ hz)]
    exact if_pos (hb y List.mem_cons_self)

/-- The groups by number, before and after a group. -/
theorem finRange_split {n : Nat} (g : Fin n) :
    ∃ before after, List.finRange n = before ++ g :: after ∧ ∀ k ∈ before, k < g := by
  obtain ⟨before, after, e⟩ := List.append_of_mem (List.mem_finRange g)
  refine ⟨before, after, e, fun k hk => ?_⟩
  have sorted : (List.finRange n).Pairwise (· < ·) := List.pairwise_lt_finRange n
  rw [e, List.pairwise_append] at sorted
  exact sorted.2.2 k hk g List.mem_cons_self

/-! ## The arbiter (R58, R59) -/

theorem competing_iff (s : State) (i : StationId) (g : GroupId) (c : Call) : s.competing i g = some c ↔
    (∃ m ∈ (s.groupCfg g).members, m.station = i ∧ m.loggedIn = true) ∧
      (∃ h, (s.group g).queue.head? = some h ∧ s.findCall h = some c) ∧ i ∉ c.tried := by
  unfold State.competing
  simp only [List.any_eq_true, Bool.and_eq_true, beq_iff_eq, Option.ite_none_right_eq_some, Option.filter_eq_some_iff,
    Option.bind_eq_some_iff, Bool.not_eq_true', List.contains_eq_mem, decide_eq_false_iff_not]

theorem availability_busy {s : State} {i : StationId} (h : s.freeForOffer i = false) : s.availability i = s := by
  simp [State.availability, h]

theorem availability_alone {s : State} {i : StationId} (h : ∀ g, s.competing i g = none) : s.availability i = s := by
  have none : s.competitors i = [] := by simp [State.competitors, h]
  unfold State.availability
  rw [none]
  split <;> rfl

/-- A free station goes to the competing head with the greatest queue age, the lower group number between equals. -/
theorem availability_oldest {s : State} {i : StationId} {g : GroupId} {c : Call} (hf : s.freeForOffer i = true)
    (hc : s.competing i g = some c)
    (oldest : ∀ g' c', s.competing i g' = some c' → s.queueAge c' < s.queueAge c ∨ (s.queueAge c' = s.queueAge c ∧ g ≤ g')) :
    s.availability i = (s.offerGroup c.handle g [i]).reviewQueue g := by
  obtain ⟨before, after, split, lower⟩ := finRange_split g
  have list : s.competitors i = before.filterMap (fun g => (s.competing i g).map fun c => (g, c)) ++
      (g, c) :: after.filterMap (fun g => (s.competing i g).map fun c => (g, c)) := by
    unfold State.competitors
    rw [split, List.filterMap_append, List.filterMap_cons, hc]
    rfl
  have first : firstGreatest (fun gc : GroupId × Call => s.queueAge gc.2) (s.competitors i) = some (g, c) := by
    rw [list]
    refine firstGreatest_eq (fun y hy => ?_) fun y hy => ?_
    · obtain ⟨k, hk, e⟩ := List.mem_filterMap.1 hy
      obtain ⟨c', hc', rfl⟩ := Option.map_eq_some_iff.1 e
      exact (oldest k c' hc').resolve_right fun h => absurd h.2 (not_le.2 (lower k hk))
    · obtain ⟨k, hk, e⟩ := List.mem_filterMap.1 hy
      obtain ⟨c', hc', rfl⟩ := Option.map_eq_some_iff.1 e
      exact (oldest k c' hc').elim le_of_lt fun h => h.1.le
  unfold State.availability
  rw [if_pos hf, first]

/-! ## The review of a queue (R60) -/

theorem reviewQueue_nothing {s : State} {g : GroupId} (h : (s.groupCfg g).enabled = false ∨ (s.group g).queue = []) :
    s.reviewQueue g = s := by
  unfold State.reviewQueue
  obtain h | h := h
  · cases (s.group g).queue.length with
    | zero => rfl
    | succ n => simp [State.reviewHeads, h]
  · rw [h]
    rfl

section
variable {s : State} {g : GroupId} {h : Handle} {c : Call}

/-- The review of a queue with a head, step by step. -/
theorem reviewQueue_head (he : (s.groupCfg g).enabled = true) (hh : (s.group g).queue.head? = some h) (hc : s.findCall h = some c) :
    s.reviewQueue g = match s.select g c with
      | [] => s
      | sts => State.reviewHeads ((s.group g).queue.length - 1) g (s.offerGroup h g sts) := by
  obtain ⟨tail, e⟩ := List.head?_eq_some_iff.1 hh
  unfold State.reviewQueue
  rw [e, List.length_cons, State.reviewHeads, if_pos he, hh]
  dsimp only
  rw [hc]
  rfl

theorem reviewQueue_unselected (he : (s.groupCfg g).enabled = true) (hh : (s.group g).queue.head? = some h)
    (hc : s.findCall h = some c) (hs : s.select g c = []) : s.reviewQueue g = s := by
  rw [reviewQueue_head he hh hc, hs]

/-- The head that is offered leaves its queue, and the review goes on with the next. -/
theorem reviewQueue_offer (he : (s.groupCfg g).enabled = true) (hh : (s.group g).queue.head? = some h)
    (hc : s.findCall h = some c) (hs : s.select g c ≠ []) (hq : c.state = .queued) (once : (s.group g).queue.Nodup) :
    s.reviewQueue g = (s.offerGroup h g (s.select g c)).reviewQueue g := by
  obtain ⟨tail, e⟩ := List.head?_eq_some_iff.1 hh
  have left : ((s.offerGroup h g (s.select g c)).group g).queue.length = (s.group g).queue.length - 1 := by
    rw [offerGroup_queue hc hq, e]
    rw [e, List.nodup_cons] at once
    have stay : tail.filter (fun k => !(k == h)) = tail := List.filter_eq_self.2 fun k hk => by
      simpa using fun e' : k = h => once.1 (e' ▸ hk)
    simp [stay]
  rw [reviewQueue_head he hh hc]
  split
  · exact absurd ‹_› hs
  · rw [← left]
    rfl

end

end Sys2Proof.Machine
end

