-- ==== Sys2Proof/Proofs/OfferEffects.lean ====
section
/-! SUPPORT. What an offer at a group writes, and the arbiter's events in a row (R46, R53, R58, R84). -/

namespace Sys2Proof.Machine

/-- The record of a call as an offer writes it; one that came from the queue starts its tried set afresh (R53). -/
def Call.offeredBy (c : Call) (s : State) (g : GroupId) (sts : List StationId) (queued : Bool) : Call :=
  { c with
    offered := c.offered ++ sts.map fun i => { station := i, start := s.now }
    tried := if queued then sts else c.tried ++ sts
    state := .offering, currentGroup := some g, offerKind := some .group
    ringDeadline := some (later s.now (seconds (s.groupCfg g).noAnswer)), escDeadline := none }

/-- A group as an offer leaves it: without the queued call, its cursor at the station of a CIRCULAR selection (R51, R70). -/
def Group.afterOffer (x : Group) (k : GroupCfg) (h : Handle) (queued : Prop) [Decidable queued] (sts : List StationId) : Group :=
  { x with
    queue := if queued then x.queue.filter fun k => decide (k ≠ h) else x.queue
    cursor := if k.algorithm = .circular ∧ sts ≠ [] then sts.head? else x.cursor }

/-- From `s` to `t` groups have changed, the group `g` as told, and nothing else has. -/
def GroupBecomes (s t : State) (g : GroupId) (x : Group) : Prop :=
  t = { s with groups := t.groups } ∧ t.group g = x ∧ ∀ k, k ≠ g → t.group k = s.group k

theorem groupBecomes_refl (s : State) (g : GroupId) : GroupBecomes s s g (s.group g) := ⟨rfl, rfl, fun _ _ => rfl⟩

theorem GroupBecomes.updGroup {s t : State} {g : GroupId} {x : Group} (b : GroupBecomes s t g x) (f : Group → Group) :
    GroupBecomes s (t.updGroup g f) g (f x) := by
  obtain ⟨e, hx, others⟩ := b
  refine ⟨?_, by rw [State.group_updGroup_self, hx], fun k hk => (t.group_updGroup_ne hk f).trans (others k hk)⟩
  rw [State.updGroup, e]

section
variable {s : State} {h : Handle} {c : Call}

/-- A call that is not escalated leaves its queue, and nothing else changes. -/
theorem leaveQueue_plain (hc : s.findCall h = some c) (he : c.escalated = false) (g : GroupId) :
    s.leaveQueue h g = s.updGroup g fun x => { x with queue := x.queue.filter fun k => decide (k ≠ h) } := by
  have same : ∀ l : List Handle, (l.filter fun k => !(k == h)) = l.filter fun k => decide (k ≠ h) := fun l =>
    List.filter_congr fun k _ => by simp [beq_eq_decide]
  unfold State.leaveQueue
  simp [hc, he, same]

theorem ringAll_rings (s : State) (h : Handle) (sts : List StationId) :
    OnlyStations s (s.ringAll h sts) ∧ StationsIn s (s.ringAll h sts) sts fun _ => .ringing h := State.enterAll _ sts s

/-- An offer writes the record, rings the stations, and then changes its group alone. -/
theorem offerGroup_becomes (hc : s.findCall h = some c) (he : c.state ≠ .queued ∨ c.escalated = false) (g : GroupId)
    (sts : List StationId) :
    GroupBecomes ((s.updCall h fun x => x.offeredBy s g sts (decide (c.state = .queued))).ringAll h sts) (s.offerGroup h g sts) g
      ((s.group g).afterOffer (s.groupCfg g) h (c.state = .queued) sts) := by
  obtain ⟨⟨stays, -⟩, -⟩ := ringAll_rings (s.updCall h fun x => x.offeredBy s g sts (decide (c.state = .queued))) h sts
  generalize hs2 : (s.updCall h fun x => x.offeredBy s g sts (decide (c.state = .queued))).ringAll h sts = s2 at *
  have offer : s.offerGroup h g sts = match (generalizing := false) (s.groupCfg g).algorithm, sts with
      | .circular, i :: _ => (if decide (c.state = .queued) = true then s2.leaveQueue h g else s2).updGroup g fun x =>
        { x with cursor := some i }
      | _, _ => if decide (c.state = .queued) = true then s2.leaveQueue h g else s2 := by
    rw [← hs2, State.offerGroup, hc]
    rfl
  have group : s2.group g = s.group g := by rw [stays]; rfl
  have found : s2.findCall h = some (c.offeredBy s g sts (decide (c.state = .queued))) := by
    rw [stays]
    change (s.updCall h _).findCall h = _
    rw [State.findCall_updCall_self s h _ (by exact fun _ => rfl), hc]
    rfl
  have left : GroupBecomes s2 (if decide (c.state = .queued) = true then s2.leaveQueue h g else s2) g
      { s.group g with queue := if c.state = .queued then (s.group g).queue.filter fun k => decide (k ≠ h) else (s.group g).queue } := by
    by_cases hq : c.state = .queued
    · rw [if_pos (decide_eq_true hq), if_pos hq, leaveQueue_plain found (he.resolve_left fun h => h hq), ← group]
      exact (groupBecomes_refl s2 g).updGroup _
    · rw [if_neg (by simpa using hq), if_neg hq, ← group]
      exact groupBecomes_refl s2 g
  generalize (if decide (c.state = .queued) = true then s2.leaveQueue h g else s2) = s3 at left offer
  rw [offer]
  unfold Group.afterOffer
  split
  · rename_i i tail ha
    rw [if_pos ⟨ha, by simp⟩]
    exact left.updGroup _
  · rename_i hne
    rw [if_neg]
    · exact left
    · rintro ⟨ha, hs⟩
      obtain ⟨i, tail, rfl⟩ := List.exists_cons_of_ne_nil hs
      exact hne i tail ha rfl

/-- An offer sets the record by R53, rings the stations, and changes its group. -/
theorem offerGroup_effect {u : State} {g : GroupId} {sts : List StationId} (hc : s.findCall h = some c) (ho : c.offered = [])
    (he : c.state ≠ .queued ∨ c.escalated = false) (hu : u = s.offerGroup h g sts) :
    OnlyHunting s u ∧ u.link.callOrders = s.link.callOrders ∧
      CallBecomes s u c (c.offeredAt g sts (if c.state = .queued then sts else c.tried ++ sts) s.now
        (seconds (s.groupCfg g).noAnswer)) ∧
      StationsIn s u sts (fun _ => .ringing h) ∧ (∀ k, k ≠ g → u.group k = s.group k) ∧
      u.group g = { s.group g with
        queue := if c.state = .queued then (s.group g).queue.filter fun k => decide (k ≠ h) else (s.group g).queue
        cursor := if (s.groupCfg g).algorithm = .circular ∧ sts ≠ [] then sts.head? else (s.group g).cursor } := by
  obtain ⟨same, group, others⟩ := offerGroup_becomes hc he g sts
  rw [← hu] at same group others
  obtain ⟨⟨stays, link⟩, rung, quiet, since⟩ :=
    ringAll_rings (s.updCall h fun x => x.offeredBy s g sts (decide (c.state = .queued))) h sts
  generalize (s.updCall h fun x => x.offeredBy s g sts (decide (c.state = .queued))).ringAll h sts = s2 at *
  have find : ∀ k, u.findCall k = (s.updCall h fun x => x.offeredBy s g sts (decide (c.state = .queued))).findCall k := fun k => by
    rw [same, stays]
    rfl
  have station : ∀ i, u.station i = s2.station i := fun i => by rw [same]; rfl
  have ulink : u.link = s2.link := by rw [same]
  have handle := State.findCall_handle hc
  refine ⟨⟨?_, ?_⟩, ?_, ⟨?_, fun k hk => ?_⟩, ⟨fun i hi => ?_, fun i hi => ?_, fun i => ?_⟩, fun k hk => ?_, group⟩
  · rw [same, stays]
    rfl
  · rw [ulink, link]
    rfl
  · rw [ulink, link]
    rfl
  · rw [handle, find, State.findCall_updCall_self s h _ (by exact fun _ => rfl), hc]
    simp [Call.offeredBy, Call.offeredAt, ho]
  · rw [find, State.findCall_updCall_ne s (handle ▸ hk) _ (by exact fun _ => rfl)]
  · rw [station]
    exact rung i hi
  · rw [station]
    exact quiet i hi
  · rw [station]
    exact since i
  · rw [others k hk, stays]
    rfl

end

/-! ## Free for an offer (R15, R46, R78) -/

theorem idleAttendant_iff (s : State) (i : StationId) : s.idleAttendant = some i ↔ s.cfg.attendant = some i ∧ s.isIdle i = true :=
  Option.filter_eq_some_iff

theorem freeForOffer_idle {s : State} {i : StationId} (h : (s.station i).state = .idle) :
    s.freeForOffer i = true ↔ (s.stationCfg i).inUse = true := by
  rw [State.freeForOffer_iff]
  exact and_iff_left (.inl h)

theorem freeForOffer_listening {s : State} {i : StationId} {r : PageRef} {pg : Page} (h : (s.station i).state = .pageListen r)
    (hp : s.pageAt r = some pg) : s.freeForOffer i = true ↔ (s.stationCfg i).inUse = true ∧ pg.cls ≠ .emergency := by
  rw [State.freeForOffer_iff]
  refine and_congr_right fun _ => ?_
  simp [h, hp]

theorem freeForOffer_engaged {s : State} {i : StationId} (h : (s.station i).state = .unused ∨ (s.station i).state = .outOfService ∨
    (s.station i).state = .busy ∨ ∃ h, (s.station i).state = .ringing h) : s.freeForOffer i = false := by
  rw [Bool.eq_false_iff]
  intro hf
  obtain ⟨-, e | ⟨r, e, -⟩⟩ := (s.freeForOffer_iff i).1 hf <;> simp [e] at h

/-! ## Events in a row (R84, R124) -/

theorem flush_once {s u : State} (h : s.heldAvail ≠ []) (hu : u = ({ s with heldAvail := [] } : State).availAll s.heldAvail)
    (hn : u.heldAvail = []) : s.flush = u := by
  obtain ⟨i, tail, e⟩ := List.exists_cons_of_ne_nil h
  have last : State.flushRounds 33 u = u := by
    rw [State.flushRounds, hn]
  rw [e] at hu
  unfold State.flush State.flushBound
  rw [State.flushRounds, e]
  dsimp only
  rw [← hu, last]

/-- Settles O28, by the arbiter's choice, the review of a queue, and the effect of an offer. -/
theorem arbiterServesTheOldestHead : Obligations.ArbiterServesTheOldestHead := by
  refine ⟨fun s i => ⟨s.isIdle_iff i, freeForOffer_idle, fun r pg => freeForOffer_listening, freeForOffer_engaged,
      idleAttendant_iff s i, rfl, fun _ => rfl, flush_none s, fun u => flush_once⟩,
    fun s i competes hcomp => ⟨availability_busy, fun h => ?_, fun g c hf hc oldest => ?_⟩,
    fun s g => ⟨reviewQueue_nothing, fun h c he hh hc => ⟨reviewQueue_unselected he hh hc, ?_⟩⟩,
    fun s u h c g sts hc ho he hu => offerGroup_effect hc ho he hu⟩
  · refine availability_alone fun g => Option.eq_none_iff_forall_ne_some.2 fun c hc => h g c ?_
    exact (hcomp g c).2 ((competing_iff s i g c).1 hc)
  · refine availability_oldest hf ((competing_iff s i g c).2 ((hcomp g c).1 hc)) fun g' c' hc' => oldest g' c' ?_
    exact (hcomp g' c').2 ((competing_iff s i g' c').1 hc')
  · rintro sts rfl hs hq once
    exact reviewQueue_offer he hh hc hs hq once

end Sys2Proof.Machine
end

