-- ==== Sys2Proof/Proofs/StationEdits.lean ====
section
/-! SUPPORT. SET_STATION: its ranges, its writes, and a change of "in use" while no call waits (R1, R3, R182). -/

namespace Sys2Proof.Machine

/-! ## Ranges and writes (R1) -/

theorem RawStation.fields_iff (q : RawStation) (f : StationFields) : q.fields = some f ↔
    presentOf flagOf q.inUse = some f.inUse ∧ presentOf (finOrNone 64 255) q.pickupGroup = some f.pickupGroup ∧
      presentOf (finOrNone 16 255) q.searchList = some f.searchList ∧ presentOf flagOf q.override = some f.override ∧
      presentOf flagOf q.directAny = some f.directAny ∧ presentOf classOf q.classLimit = some f.classLimit ∧
      presentOf (finOf 4) q.mapSet = some f.mapSet ∧ q.mask < 128 := by
  simp only [RawStation.fields, Option.bind_eq_bind, Option.bind_eq_some_iff, Option.ite_none_right_eq_some]
  constructor
  · rintro ⟨_, h0, _, h1, _, h2, _, h3, _, h4, _, h5, _, h6, hm, e⟩
    cases e
    exact ⟨h0, h1, h2, h3, h4, h5, h6, hm⟩
  · rintro ⟨h0, h1, h2, h3, h4, h5, h6, hm⟩
    exact ⟨_, h0, _, h1, _, h2, _, h3, _, h4, _, h5, _, h6, hm, rfl⟩

theorem RawStation.fields_none_iff (q : RawStation) : q.fields = none ↔
    ¬ q.mask < 128 ∨ presentOf flagOf q.inUse = none ∨ presentOf (finOrNone 64 255) q.pickupGroup = none ∨
      presentOf (finOrNone 16 255) q.searchList = none ∨ presentOf flagOf q.override = none ∨
      presentOf flagOf q.directAny = none ∨ presentOf classOf q.classLimit = none ∨ presentOf (finOf 4) q.mapSet = none := by
  rw [or_comm (a := ¬ q.mask < 128)]
  simp only [or_assoc]
  unfold RawStation.fields
  iterate 7 refine bind_eq_none_or fun _ => ?_
  simp

theorem station_outOfRange (q : RawStation) : q.fields = none ↔
    128 ≤ q.mask ∨ (∃ v, q.inUse = some v ∧ 1 < v) ∨ (∃ v, q.pickupGroup = some v ∧ 63 < v ∧ v ≠ 255) ∨
      (∃ v, q.searchList = some v ∧ 15 < v ∧ v ≠ 255) ∨ (∃ v, q.override = some v ∧ 1 < v) ∨
      (∃ v, q.directAny = some v ∧ 1 < v) ∨ (∃ v, q.classLimit = some v ∧ 3 < v) ∨ ∃ v, q.mapSet = some v ∧ 3 < v := by
  rw [RawStation.fields_none_iff]
  simp only [presentOf_none_iff, flagOf_none_iff, finOrNone_none_iff, classOf_none_iff, finOf_none_iff, not_lt, Nat.succ_le_iff]

/-- A flag that is present, and the record's flag after the write. -/
theorem flag_write {x : Option Nat} {y : Option Bool} (h : presentOf flagOf x = some y) (k : Bool) :
    y.getD k = (x.map fun v => decide (v = 1)).getD k :=
  presentOf_getD (g := id) (c := fun v => decide (v = 1)) (fun _ _ h => flagOf_code h) h k

theorem station_writes {q : RawStation} {f : StationFields} (hf : q.fields = some f) (k : StationCfg) :
    f.inUse = q.inUse.map (fun v => decide (v = 1)) ∧ (f.write k).inUse = (q.inUse.map fun v => decide (v = 1)).getD k.inUse ∧
      ((f.write k).pickupGroup.map Fin.val).getD 255 = q.pickupGroup.getD ((k.pickupGroup.map Fin.val).getD 255) ∧
      ((f.write k).searchList.map Fin.val).getD 255 = q.searchList.getD ((k.searchList.map Fin.val).getD 255) ∧
      (f.write k).override = (q.override.map fun v => decide (v = 1)).getD k.override ∧
      (f.write k).directAny = (q.directAny.map fun v => decide (v = 1)).getD k.directAny ∧
      (f.write k).classLimit.num = q.classLimit.getD k.classLimit.num ∧
      (f.write k).defaultMapSet.val = q.mapSet.getD k.defaultMapSet.val := by
  obtain ⟨inUse, pickup, list, override, directAny, limit, map, -⟩ := (RawStation.fields_iff q f).1 hf
  refine ⟨?_, flag_write inUse _, ?_, ?_, flag_write override _, flag_write directAny _, ?_, ?_⟩
  · simpa using presentOf_view (g := id) (fun _ _ h => flagOf_code h) inUse
  · exact presentOf_code (g := fun a : Option PickupGroup => (a.map Fin.val).getD 255) (fun _ _ h => finOrNone_code h) pickup _
  · exact presentOf_code (g := fun a : Option ListId => (a.map Fin.val).getD 255) (fun _ _ h => finOrNone_code h) list _
  · exact presentOf_code (fun _ _ h => classOf_code h) limit _
  · exact presentOf_code (fun _ _ h => finOf_eq_some_iff.1 h) map _

/-! ## A change of "in use" (R3) -/

/-- A station's run-time record after "in use" is written, by its state before; a station that rings is not meant. -/
def Station.afterInUse (x : Station) (b : Bool) (now : Time) : Station :=
  if b = true then if x.state = .unused then { x with state := .idle, idleSince := now, saturated := false } else x
  else { x with state := .unused }

theorem OnlyStations.noCallWaits {s t : State} (o : OnlyStations s t) (h : NoCallWaits s) : NoCallWaits t := by
  intro g
  rw [o.1]
  exact h g

theorem OnlyStations.now {s t : State} (o : OnlyStations s t) : t.now = s.now := by rw [o.1]

theorem OnlyStations.heldAvail {s t : State} (o : OnlyStations s t) : t.heldAvail = s.heldAvail := by rw [o.1]

theorem enterFreshIdle_only (s : State) (i : StationId) : OnlyStations s (s.enterFreshIdle i) :=
  (show OnlyStations s (s.updStation i _) from ⟨rfl, rfl⟩).trans (State.enterState_stays _ i _)

theorem enterFreshIdle_station (s : State) (i j : StationId) : (s.enterFreshIdle i).station j =
    if j = i then { s.station i with state := .idle, idleSince := s.now, saturated := false } else s.station j := by
  unfold State.enterFreshIdle
  rw [State.enterState_station]
  split
  · rw [State.station_updStation_self]
  · rename_i h
    exact s.station_updStation_ne h _

theorem applyInUse_effect {s : State} {i : StationId} (b : Bool) (hw : NoCallWaits s) (hr : ∀ h, (s.station i).state ≠ .ringing h) :
    OnlyStations s (State.applyInUse b s i) ∧
      ∀ j, (State.applyInUse b s i).station j = if j = i then (s.station i).afterInUse b s.now else s.station j := by
  have stays : (s.station i).afterInUse b s.now = s.station i → OnlyStations s s ∧
      ∀ j, s.station j = if j = i then (s.station i).afterInUse b s.now else s.station j := by
    refine fun e => ⟨.refl s, fun j => ?_⟩
    rw [e]
    split
    · rename_i h
      rw [h]
    · rfl
  cases b with
  | true =>
    change OnlyStations s (s.bringIntoUse i) ∧ ∀ j, (s.bringIntoUse i).station j = _
    unfold State.bringIntoUse
    split
    · rename_i hu
      rw [availability_none ((enterFreshIdle_only s i).noCallWaits hw)]
      exact ⟨enterFreshIdle_only s i, fun j => by rw [enterFreshIdle_station, Station.afterInUse, if_pos rfl, if_pos hu]⟩
    · rename_i hu
      exact stays (by rw [Station.afterInUse, if_pos rfl, if_neg hu])
  | false =>
    have enters : OnlyStations s (s.enterState i .unused) ∧
        ∀ j, (s.enterState i .unused).station j = if j = i then (s.station i).afterInUse false s.now else s.station j :=
      ⟨s.enterState_stays i _, fun j => s.enterState_station i j _⟩
    change OnlyStations s (s.takeOutOfUse i) ∧ ∀ j, (s.takeOutOfUse i).station j = _
    unfold State.takeOutOfUse
    split
    · rename_i hu
      exact stays (by rw [Station.afterInUse, if_neg (by decide), ← hu])
    · exact absurd ‹_› (hr _)
    all_goals exact enters

/-- The stations of a list, each once, of which none rings. -/
theorem applyInUse_all (b : Bool) {l : List StationId} (once : l.Nodup) {s : State} (hw : NoCallWaits s)
    (hr : ∀ i ∈ l, ∀ h, (s.station i).state ≠ .ringing h) :
    OnlyStations s (l.foldl (State.applyInUse b) s) ∧
      ∀ j, (l.foldl (State.applyInUse b) s).station j = if j ∈ l then (s.station j).afterInUse b s.now else s.station j := by
  induction l generalizing s with
  | nil => exact ⟨.refl s, fun j => by simp⟩
  | cons i l ih =>
    rw [List.nodup_cons] at once
    obtain ⟨o1, st1⟩ := applyInUse_effect b hw (hr i List.mem_cons_self)
    have same : ∀ j ∈ l, (State.applyInUse b s i).station j = s.station j := fun j hj => by
      rw [st1, if_neg fun e : j = i => once.1 (e ▸ hj)]
    obtain ⟨o2, st2⟩ := ih once.2 (o1.noCallWaits hw) fun j hj h => by
      rw [same j hj]
      exact hr j (List.mem_cons_of_mem _ hj) h
    refine ⟨o1.trans o2, fun j => ?_⟩
    rw [List.foldl_cons, st2, o1.now]
    by_cases hj : j ∈ l
    · rw [if_pos hj, if_pos (List.mem_cons_of_mem _ hj), same j hj]
    · rw [if_neg hj, st1]
      by_cases e : j = i
      · rw [if_pos e, e, if_pos List.mem_cons_self]
      · rw [if_neg e, if_neg (by simp [e, hj])]

/-! ## SET_STATION (R182) -/

theorem mem_stationsIn {first last : Nat} {i : StationId} : i ∈ stationsIn first last ↔ first ≤ i.val ∧ i.val ≤ last := by
  simp [stationsIn]

theorem stationsIn_nodup (first last : Nat) : (stationsIn first last).Nodup := (List.nodup_finRange 512).filter _

theorem writeStations_stationCfg (s : State) (first last : Nat) (f : StationCfg → StationCfg) (i : StationId) :
    (s.writeStations first last f).stationCfg i = if first ≤ i.val ∧ i.val ≤ last then f (s.stationCfg i) else s.stationCfg i := by
  simp [State.writeStations, State.updCfg, State.stationCfg]

theorem acceptSetStation_inUse {f : StationFields} {b : Bool} (hb : f.inUse = some b) (s : State) (first last : Nat) :
    acceptSetStation s first last f = (stationsIn first last).foldl (State.applyInUse b) (s.writeStations first last f.write) := by
  unfold acceptSetStation
  rw [hb]

section
variable {s : State} {q : RawStation} {body : List Octet} {tag : Octet} {rest : List Frame}

theorem handleSetStation_eq (hq : q.Spells body) (hs : s.save = none) : handleSetStation body s =
    orBadUnless s (goodRange q.first q.last) (orBadValue s q.fields fun f => accept (acceptSetStation s q.first q.last f) []) :=
  (withBody_of ((readSetStation_iff _ _).2 hq) s _).trans (unlessSaving_none hs _)

theorem setStation_badValue (hq : q.Spells body) (hs : s.save = none) (h : q.last < q.first ∨ 511 < q.last ∨ q.fields = none) :
    Answers s rest (.setStation tag body) ⟨0x32, tag, body⟩ .badValue [] := by
  refine dispatch_answered (row := .setStation) rfl ?_
  rw [handleSetStation_eq hq (by exact hs)]
  by_cases hg : goodRange q.first q.last = true
  · have range : q.first ≤ q.last ∧ q.last ≤ 511 := by simpa [goodRange] using hg
    rw [hg, (h.resolve_left (by omega)).resolve_left (by omega)]
    rfl
  · rw [Bool.not_eq_true] at hg
    rw [hg]
    rfl

theorem setStation_accepted {f : StationFields} (hq : q.Spells body) (hs : s.save = none) (h1 : q.first ≤ q.last)
    (h2 : q.last ≤ 511) (hf : q.fields = some f) (ready : Ready s ⟨0x32, tag, body⟩ rest) :
    exec (.setStation tag body) s =
      .next ((acceptSetStation (s.takeHead rest) q.first q.last f).flush.answer ⟨0x32, tag, body⟩ .ok []) := by
  refine dispatch_flushed (row := .setStation) rfl ?_ ready
  have good : goodRange q.first q.last = true := by simp [goodRange, h1, h2]
  rw [handleSetStation_eq hq (by exact hs), good, hf]
  rfl

end

/-- Settles O53, by the ranges and the writes, and the change of "in use" station by station. -/
theorem stationEditsActOnTheirRange : Obligations.StationEditsActOnTheirRange := by
  rintro s tag body rest _ q rfl hq hs
  refine ⟨setStation_badValue hq hs, station_outOfRange q, fun f k w hf hw => hw ▸ station_writes hf k,
    fun f h1 h2 hf ready => ⟨(s.takeHead rest).writeStations q.first q.last f.write, writeStations_stationCfg _ _ _ _, rfl,
      fun hb => ?_, fun b hb hw hr => ?_⟩⟩
  · rw [setStation_accepted hq hs h1 h2 hf ready]
    unfold acceptSetStation
    rw [hb, flush_none _ (by exact ready.2.2)]
  · obtain ⟨only, station⟩ := applyInUse_all b (stationsIn_nodup q.first q.last)
      (s := (s.takeHead rest).writeStations q.first q.last f.write) hw fun i hi => hr i (mem_stationsIn.1 hi).1 (mem_stationsIn.1 hi).2
    refine ⟨_, ?_, only, fun i => ?_⟩
    · rw [setStation_accepted hq hs h1 h2 hf ready, acceptSetStation_inUse hb, flush_none _ (only.heldAvail.trans ready.2.2)]
    · rw [station]
      simp only [mem_stationsIn]
      rfl

end Sys2Proof.Machine
end

