-- ==== Sys2Proof/Proofs/DirectedPickup.lean ====
section
/-! SUPPORT. DPICKUP: the requester, the number, and the call taken by the kind of the target (R90, R96 to R99). -/

namespace Sys2Proof.Machine

/-! ## Resolution (R20) -/

theorem resolve_long {s : State} {target : List Digit → Option DirTarget}
    (h : ∀ d, target d = (s.cfg.directory.find? fun e => decide (e.number = d)).map DirEntry.target) (cut : List Digit)
    {last : List Digit} (hl : last.length = s.cfg.digitWidth) : s.resolve (cut ++ last) = target last := by
  rw [h, State.resolve, ← hl, reduceDigits_long]

theorem resolve_short {s : State} {target : List Digit → Option DirTarget}
    (h : ∀ d, target d = (s.cfg.directory.find? fun e => decide (e.number = d)).map DirEntry.target) {d : List Digit}
    (hd : d.length ≤ s.cfg.digitWidth) : s.resolve d = target (List.replicate (s.cfg.digitWidth - d.length) 0 ++ d) := by
  rw [h, State.resolve, reduceDigits_short hd]

/-! ## What a requester sees, and what an orbit holds (R91, R97, R100) -/

theorem sees_iff (s : State) (r t : StationId) : s.sees r t = true ↔
    (s.stationCfg r).directAny = true ∨ ∃ n l e, (s.stationCfg t).pickupGroup = some n ∧
      (s.stationCfg r).searchList = some l ∧ e ∈ s.cfg.lists[l] ∧ e.enabled = true ∧ e.key = .pg n := by
  unfold State.sees
  rw [Bool.or_eq_true]
  refine or_congr_right ?_
  cases (s.stationCfg t).pickupGroup <;> cases (s.stationCfg r).searchList <;> simp

theorem eligible_iff (s : State) (r : StationId) (c : Call) :
    s.eligible r c = true ↔ c.noPickup = false ∨ (s.stationCfg r).override = true := by
  simp [State.eligible]

theorem not_eligible {s : State} {r : StationId} {c : Call} (h : c.noPickup = true) (ho : (s.stationCfg r).override = false) :
    s.eligible r c = false := by
  simp [State.eligible, h, ho]

theorem orbitHolder_none_iff (s : State) (o : OrbitId) : s.orbitHolder o = none ↔ ∀ c ∈ s.calls, c.orbit ≠ some o := by
  simp [State.orbitHolder]

theorem orbitHolder_holds {s : State} {o : OrbitId} {c : Call} (h : s.orbitHolder o = some c) : c ∈ s.calls ∧ c.orbit = some o :=
  ⟨List.mem_of_find?_eq_some h, by simpa using List.find?_some h⟩

/-! ## The requester and the number (R90, R96) -/

theorem goodDigits_iff (d : List Nat) : goodDigits d = true ↔ d.length ≤ 8 ∧ ∀ x ∈ d, x ≤ 9 := by
  rw [goodDigits, Bool.and_eq_true]
  exact and_congr decide_eq_true_iff (by simp)

theorem withRequester_bad {s : State} {v : Nat} (h : 511 < v) (k : StationId → Handled) :
    withRequester s v k = refuse s .badValue := by
  rw [withRequester, finOf_none_iff.2 (by omega)]
  rfl

theorem withRequester_of (s : State) (r : StationId) (k : StationId → Handled) :
    withRequester s r.val k = if (s.station r).state = .busy then k r else refuse s .refusedState := by
  rw [withRequester, finOf_self]
  rfl

/-- The frame of a DPICKUP. -/
def dpickupFrame (tag : Octet) (v : Nat) (d : List Nat) : Frame := ⟨0x11, tag, put2 v ++ putDigits d⟩

/-- What a DPICKUP of a BUSY requester does, by what its number resolves to. -/
def dpickupResolved (s : State) (r : StationId) (d : List Nat) : Handled :=
  match s.resolve d with
  | none => refuse s .unknown
  | some (.station t) => dpickupStation s r t
  | some (.pilot g) => dpickupPilot s r g
  | some (.orbit o) => dpickupOrbit s r o

section
variable {s : State} {tag : Octet} {v : Nat} {d : List Nat} {rest : List Frame} {r : StationId}

theorem handleDpickup_eq (hv : v < 65536) (hd : Carried d) (s : State) : handleDpickup (put2 v ++ putDigits d) s =
    withRequester s v fun r => if goodDigits d = false then refuse s .badValue else dpickupResolved s r d :=
  withBody_of (v := (v, d)) ((readDpickup_takes _ _ _).2 ⟨⟨hv, hd⟩, (List.append_nil _).symm⟩) s _

theorem dpickup_badRequester (hv : v < 65536) (hd : Carried d) (h : 511 < v) (ready : Ready s (dpickupFrame tag v d) rest) :
    exec (.dpickup tag (put2 v ++ putDigits d)) s = .next ((s.takeHead rest).answer (dpickupFrame tag v d) .badValue []) := by
  refine dispatch_answered (row := .dpickup) rfl ?_ ready
  rw [handleDpickup_eq hv hd, withRequester_bad h]
  rfl

theorem dpickup_refusedState (hd : Carried d) (h : (s.station r).state ≠ .busy) (ready : Ready s (dpickupFrame tag r.val d) rest) :
    exec (.dpickup tag (put2 r.val ++ putDigits d)) s =
      .next ((s.takeHead rest).answer (dpickupFrame tag r.val d) .refusedState []) := by
  refine dispatch_answered (row := .dpickup) rfl ?_ ready
  rw [handleDpickup_eq (by omega) hd, withRequester_of, if_neg (by exact h)]
  rfl

theorem dpickup_badNumber (hd : Carried d) (h : (s.station r).state = .busy) (bad : 8 < d.length ∨ ∃ x ∈ d, 9 < x)
    (ready : Ready s (dpickupFrame tag r.val d) rest) :
    exec (.dpickup tag (put2 r.val ++ putDigits d)) s = .next ((s.takeHead rest).answer (dpickupFrame tag r.val d) .badValue []) := by
  have hg : goodDigits d = false := by
    rw [Bool.eq_false_iff]
    intro hg
    obtain ⟨hl, hx⟩ := (goodDigits_iff d).1 hg
    obtain hl' | ⟨x, hm, hx'⟩ := bad
    · omega
    · exact absurd (hx x hm) (not_le.2 hx')
  refine dispatch_answered (row := .dpickup) rfl ?_ ready
  rw [handleDpickup_eq (by omega) hd, withRequester_of, if_pos (by exact h), if_pos hg]
  rfl

/-- A DPICKUP of a BUSY requester with a good number answers what its target gives. -/
theorem dpickup_handled {result : Result} {content : List Octet} {u : State} (hd : Carried d) (h : (s.station r).state = .busy)
    (hl : d.length ≤ 8) (hx : ∀ x ∈ d, x ≤ 9)
    (e : dpickupResolved (s.takeHead rest) r d = { result := result, content := content, st := u })
    (ready : Ready s (dpickupFrame tag r.val d) rest) :
    exec (.dpickup tag (put2 r.val ++ putDigits d)) s = .next (u.flush.answer (dpickupFrame tag r.val d) result content) := by
  refine dispatch_flushed (row := .dpickup) rfl ?_ ready
  rw [handleDpickup_eq (by omega) hd, withRequester_of, if_pos (by exact h), (goodDigits_iff d).2 ⟨hl, hx⟩, ← e]
  rfl

/-- A DPICKUP that takes no call. -/
theorem dpickup_refused {result : Result} (hd : Carried d) (h : (s.station r).state = .busy) (hl : d.length ≤ 8)
    (hx : ∀ x ∈ d, x ≤ 9) (e : dpickupResolved (s.takeHead rest) r d = refuse (s.takeHead rest) result)
    (ready : Ready s (dpickupFrame tag r.val d) rest) :
    exec (.dpickup tag (put2 r.val ++ putDigits d)) s = .next ((s.takeHead rest).answer (dpickupFrame tag r.val d) result []) := by
  rw [dpickup_handled hd h hl hx e ready, flush_none _ (by exact ready.2.2)]

end

/-! ## By the kind of the target (R97 to R99) -/

section
variable {s : State} {r t : StationId} {d : List Nat} {h : Handle} {c : Call} {o : OrbitId}

theorem resolved_station (hr : s.resolve d = some (.station t)) : dpickupResolved s r d = dpickupStation s r t := by
  rw [dpickupResolved, hr]

theorem resolved_orbit (hr : s.resolve d = some (.orbit o)) : dpickupResolved s r d = dpickupOrbit s r o := by
  rw [dpickupResolved, hr]

theorem dpickupStation_quiet (hs : s.sees r t = true) (hq : ∀ h, (s.station t).state ≠ .ringing h) :
    dpickupStation s r t = refuse s .nothing := by
  unfold dpickupStation
  rw [if_neg (by simp [hs])]
  split
  · exact absurd ‹_› (hq _)
  · rfl

theorem dpickupStation_ringing (hs : s.sees r t = true) (hr : (s.station t).state = .ringing h) (hc : s.findCall h = some c) :
    dpickupStation s r t = if s.eligible r c then pickCall s r h else refuse s .denied := by
  unfold dpickupStation
  rw [if_neg (by simp [hs]), hr]
  dsimp only
  rw [hc]

theorem dpickupOrbit_held (ho : s.orbitHolder o = some c) : dpickupOrbit s r o =
    if s.eligible r c then accept (s.endCall c.handle .retrieved (some r)) (put2 c.handle) else refuse s .denied := by
  unfold dpickupOrbit
  rw [ho]

end

/-- Settles O40, by the checks of the requester and the number, and then by the kind of the target. -/
theorem directedPickupTakesTheNamedCall : Obligations.DirectedPickupTakesTheNamedCall := by
  refine ⟨fun s w target hw ht => ⟨fun cut last hl => resolve_long ht cut (hl.trans hw), fun d hd => ?_, ?_⟩,
    fun s r => ⟨fun g => rfl, fun o => ⟨orbitHolder_none_iff s o, fun c => orbitHolder_holds⟩⟩,
    fun s tag v d rest f body hv hd hx hbody hf ready => ?_⟩
  · rw [hw]
    exact resolve_short ht (hw ▸ hd)
  · simpa [hw] using resolve_short ht (d := []) (Nat.zero_le _)
  subst hf hbody
  have carried : Carried d := ⟨hd, hx⟩
  refine ⟨fun h => dpickup_badRequester hv carried h ready, ?_⟩
  rintro r rfl
  refine ⟨fun h => dpickup_refusedState carried h ready, fun busy => ⟨fun bad => dpickup_badNumber carried busy bad ready,
    fun hl h9 => ⟨fun hn => ?_, fun t sees hr hsees => ?_, fun g hr => ⟨fun hg => ?_, fun h hg => ?_⟩,
      fun o hr => ⟨fun ho => ?_, fun c ho => ?_⟩⟩⟩⟩
  · exact dpickup_refused carried busy hl h9 (by rw [dpickupResolved, show (s.takeHead rest).resolve d = none from hn]) ready
  · have resolved : dpickupResolved (s.takeHead rest) r d = dpickupStation (s.takeHead rest) r t := resolved_station hr
    have hsees : sees ↔ (s.takeHead rest).sees r t = true := hsees.trans (sees_iff (s.takeHead rest) r t).symm
    refine ⟨fun h => ?_, fun h hq => ?_, fun k c h hring hc => ⟨fun hp ho => ?_, fun hok => ?_⟩⟩
    · refine dpickup_refused carried busy hl h9 (resolved.trans ?_) ready
      rw [dpickupStation, if_pos (by simpa [hsees] using h)]
    · exact dpickup_refused carried busy hl h9 (resolved.trans (dpickupStation_quiet (hsees.1 h) hq)) ready
    · refine dpickup_refused carried busy hl h9 (resolved.trans ?_) ready
      rw [dpickupStation_ringing (hsees.1 h) hring hc, not_eligible (s := s.takeHead rest) hp ho]
      rfl
    · refine dpickup_handled carried busy hl h9 (resolved.trans ?_) ready
      rw [dpickupStation_ringing (hsees.1 h) hring hc, (eligible_iff (s.takeHead rest) r c).2 hok]
      rfl
  · refine dpickup_refused carried busy hl h9 ?_ ready
    rw [dpickupResolved, show (s.takeHead rest).resolve d = _ from hr]
    dsimp only
    rw [dpickupPilot, show (s.takeHead rest).hqCall r g = _ from hg]
  · refine dpickup_handled carried busy hl h9 ?_ ready
    rw [dpickupResolved, show (s.takeHead rest).resolve d = _ from hr]
    dsimp only
    rw [dpickupPilot, show (s.takeHead rest).hqCall r g = _ from hg]
    rfl
  · refine dpickup_refused carried busy hl h9 ((resolved_orbit (s := s.takeHead rest) hr).trans ?_) ready
    rw [dpickupOrbit, (orbitHolder_none_iff (s.takeHead rest) o).2 ho]
  · have resolved : dpickupResolved (s.takeHead rest) r d = _ := (resolved_orbit (s := s.takeHead rest) hr).trans (dpickupOrbit_held ho)
    refine ⟨fun hp hov => ?_, fun hok => ?_⟩
    · refine dpickup_refused carried busy hl h9 (resolved.trans ?_) ready
      rw [not_eligible (s := s.takeHead rest) hp hov]
      rfl
    · have retrieved := dpickup_handled (tag := tag) carried busy hl h9
        (resolved.trans (if_pos ((eligible_iff (s.takeHead rest) r c).2 hok))) ready
      refine ⟨retrieved, fun hc hq hw => ?_⟩
      obtain ⟨only, torn⟩ := endCall_unqueued (s := s.takeHead rest) hc hq hw .retrieved (some r)
      have held : ((s.takeHead rest).endCall c.handle .retrieved (some r)).heldAvail = [] := by
        rw [only.1]
        exact ready.2.2
      exact ⟨_, by rw [retrieved, flush_none _ held]; rfl, only, torn⟩

end Sys2Proof.Machine
end

