-- ==== Sys2Proof/Proofs/LeavingRings.lean ====
section
/-! SUPPORT. A station leaves the ring of a call, and the call rings on or proceeds as on no-answer (R33, R55, R77, R78, R105). -/

namespace Sys2Proof.Machine

/-! ## The records of calls -/

theorem updCall_updCall (s : State) (h : Handle) (f g : Call → Call) (hf : ∀ c, (f c).handle = c.handle) :
    (s.updCall h f).updCall h g = s.updCall h fun c => g (f c) := by
  unfold State.updCall
  simp only [List.map_map]
  congr 1
  refine List.map_congr_left fun c _ => ?_
  by_cases hc : c.handle = h
  · simp [hc, hf]
  · simp [hc]

/-- A call that waits in no queue and rings nowhere ends: its record, and its place in the call order set (R35). -/
theorem endCall_ringless {s : State} {h : Handle} {c : Call} (hc : s.findCall h = some c) (hq : c.state ≠ .queued)
    (ho : c.offered = []) (o : CallOutcome) (st : Option StationId) :
    s.endCall h o st = (s.updCall h fun c => c.ended o st).updLink fun l => { l with callOrders := l.callOrders ++ [h] } := by
  have ended : ∀ x : Call, { { x with state := .ending, outcome := some o, outcomeStation := st } with
      offered := [], currentGroup := none, tried := [], ringDeadline := none, waitDeadline := none, escDeadline := none,
      parkDeadline := none, escalated := false, waitPassed := x.waitPassed && o.takesRing, offerKind := none, orbit := none,
      parker := none } = x.ended o st := fun x => by
    cases o <;> rfl
  unfold State.endCall
  rw [hc]
  simp only [if_neg hq, ho, List.map_nil, List.filter_nil, List.foldl_nil, State.availAll]
  have twice := updCall_updCall s h (fun c => { c with state := .ending, outcome := some o, outcomeStation := st })
    (fun c => { c with
      offered := [], currentGroup := none, tried := [], ringDeadline := none, waitDeadline := none, escDeadline := none,
      parkDeadline := none, escalated := false, waitPassed := c.waitPassed && o.takesRing, offerKind := none, orbit := none,
      parker := none }) fun _ => rfl
  rw [← funext ended]
  exact congrArg (fun u : State => u.updLink fun l => { l with callOrders := l.callOrders ++ [h] }) twice

/-! ## Out of the ring (R33, R55) -/

/-- A call without the offer at a station. -/
def Call.withoutOffer (c : Call) (i : StationId) : Call := { c with offered := c.offered.filter fun y => decide (y.station ≠ i) }

/-- The state after a station has left the ring of a call, before the call proceeds. -/
def State.ringLeft (s : State) (i : StationId) (h : Handle) (st : StationState) : State :=
  (s.updCall h fun c => c.withoutOffer i).enterState i st

section
variable {s : State} {i : StationId} {h : Handle} {st : StationState} {c : Call}

theorem ringLeft_findCall (hc : s.findCall h = some c) : (s.ringLeft i h st).findCall h = some (c.withoutOffer i) := by
  unfold State.ringLeft
  rw [State.findCall, State.enterState_calls]
  change (s.updCall h _).findCall h = _
  rw [State.findCall_updCall_self s h _ (by exact fun _ => rfl), hc]
  rfl

theorem leaveRing_eq (hst : st ≠ .idle) : s.leaveRing i h st =
    if (s.ringLeft i h st).ringingFor h = [] then
      ((s.ringLeft i h st).updCall h fun c => { c with ringDeadline := none }).ringEnded h [i]
    else s.ringLeft i h st := by
  have same : (fun c : Call => { c with offered := c.offered.filter fun x => !(x.station == i) }) = fun c => c.withoutOffer i :=
    funext fun c => by simp [Call.withoutOffer, beq_eq_decide]
  unfold State.leaveRing
  rw [same]
  exact if_neg hst

/-- The call rings on at its other stations. -/
theorem leaveRing_ringsOn (hst : st ≠ .idle) (hc : s.findCall h = some c) (ho : ∃ x ∈ c.offered, x.station ≠ i) :
    s.leaveRing i h st = s.ringLeft i h st := by
  obtain ⟨x, hx, hne⟩ := ho
  rw [leaveRing_eq hst, if_neg]
  rw [State.ringingFor, ringLeft_findCall hc]
  intro hnil
  have : x ∈ (c.withoutOffer i).offered := List.mem_filter.2 ⟨hx, by simpa using hne⟩
  simp_all

/-- A call as it stands when its last ring has ended. -/
def Call.unrung (c : Call) : Call := { c with offered := [], ringDeadline := none }

/-- With no station left the call proceeds as on no-answer. -/
theorem leaveRing_last (hst : st ≠ .idle) (hc : s.findCall h = some c) (ho : ∀ x ∈ c.offered, x.station = i) :
    s.leaveRing i h st = ((s.ringLeft i h st).updCall h fun c => { c with ringDeadline := none }).ringEnded h [i] ∧
      ((s.ringLeft i h st).updCall h fun c => { c with ringDeadline := none }).findCall h = some c.unrung := by
  have none : (c.withoutOffer i).offered = [] := List.filter_eq_nil_iff.2 fun x hx => by simpa using ho x hx
  refine ⟨?_, ?_⟩
  · rw [leaveRing_eq hst, if_pos]
    rw [State.ringingFor, ringLeft_findCall hc]
    simpa using none
  · rw [State.findCall_updCall_self _ h _ (by exact fun _ => rfl), ringLeft_findCall hc]
    change some { c with offered := (c.withoutOffer i).offered, ringDeadline := Option.none } = _
    rw [none]
    rfl

end

/-! ## As on no-answer (R54, R77, R78, R105) -/

section
variable {s : State} {h : Handle} {c : Call} {left : List StationId}

theorem ringEnded_group {g : GroupId} (hc : s.findCall h = some c) (hk : c.offerKind = some .group) (hg : c.currentGroup = some g) :
    s.ringEnded h left =
      if (s.groupCfg g).algorithm = .simultaneous ∨ s.select g c = [] then s.returnToQueue h g left
      else s.offerGroup h g (s.select g c) := by
  unfold State.ringEnded
  rw [hc]
  dsimp only
  rw [hk]
  dsimp only
  unfold State.lookAgain
  rw [hc]
  dsimp only
  rw [hg]
  dsimp only
  by_cases ha : (s.groupCfg g).algorithm = .simultaneous
  · simp [ha]
  · simp [ha]

theorem toAttendant_goes {t : State} (hc : s.findCall h = some c) (hq : c.state ≠ .queued) (ho : c.offered = [])
    (ht : GoesToAttendant s h t) : s.toAttendant h = t := by
  unfold State.toAttendant
  split
  · rw [ht.1 _ ‹_›]
    rfl
  · rw [ht.2 ‹_›, endCall_ringless hc hq ho]

theorem ringEnded_target {t : State} (hc : s.findCall h = some c) (hk : c.offerKind = some .target) (hq : c.state ≠ .queued)
    (ho : c.offered = []) (ht : GoesToAttendant (s.advise (.routed h none .targetNoAnswer .attendant c.hops)) h t) :
    s.ringEnded h left = t := by
  unfold State.ringEnded
  rw [hc]
  dsimp only
  rw [hk]
  dsimp only
  unfold State.fallToAttendant
  rw [hc]
  exact toAttendant_goes (by exact hc) hq ho ht

theorem ringEnded_attendant (hc : s.findCall h = some c) (hk : c.offerKind = some .attendant) (hq : c.state ≠ .queued)
    (ho : c.offered = []) : s.ringEnded h left =
      (s.updCall h fun x => x.ended .noRoute none).updLink fun l => { l with callOrders := l.callOrders ++ [h] } := by
  rw [← endCall_ringless hc hq ho, State.ringEnded, hc]
  dsimp only
  rw [hk]

theorem ringEnded_recall (hc : s.findCall h = some c) (hk : c.offerKind = some .recalling) :
    s.ringEnded h left = s.recallToAttendant h := by
  rw [State.ringEnded, hc]
  dsimp only
  rw [hk]

theorem recallToAttendant_ends (hc : s.findCall h = some c) (hq : c.state ≠ .queued) (ho : c.offered = [])
    (ha : s.idleAttendant = none ∨ s.idleAttendant = c.parker) : s.recallToAttendant h =
      (s.updCall h fun x => x.ended .noRoute none).updLink fun l => { l with callOrders := l.callOrders ++ [h] } := by
  rw [← endCall_ringless hc hq ho, State.recallToAttendant, hc]
  dsimp only
  split
  · rename_i a e
    rw [e] at ha
    rw [if_pos (ha.resolve_left (by simp)).symm]
  · rfl

theorem recallToAttendant_rings {a : StationId} (hc : s.findCall h = some c) (ha : s.idleAttendant = some a) (hp : c.parker ≠ some a) :
    s.recallToAttendant h = (s.updCall h fun x => x.atAttendant a s.now).enterState a (.ringing h) := by
  rw [State.recallToAttendant, hc]
  dsimp only
  rw [ha]
  dsimp only
  rw [if_neg hp]
  rfl

end

/-! ## The requests that take a station out of a ring (R3, R7, R9) -/

/-- The octets of a SET_STATION that takes one station out of use. -/
def outOfUseRequest (i : StationId) : RawStation :=
  { first := i.val, last := i.val, mask := 1, inUse := some 0, pickupGroup := none, searchList := none, override := none,
    directAny := none, classLimit := none, mapSet := none }

theorem outOfUseRequest_spells (i : StationId) :
    (outOfUseRequest i).Spells (put2 i.val ++ put2 i.val ++ put1 1 ++ put1 0) := by
  refine ⟨?_, ?_, show 1 < 256 by decide, (marks_iff _ _).2 ?_, ?_, rfl⟩
  · exact lt_trans i.isLt (by decide)
  · exact lt_trans i.isLt (by decide)
  · simp [marksFrom, outOfUseRequest, Nat.testBit]
  · simp [outOfUseRequest]

/-- The fields of a SET_STATION that takes stations out of use. -/
def outOfUseFields : StationFields :=
  { inUse := some false, pickupGroup := none, searchList := none, override := none, directAny := none, classLimit := none,
    mapSet := none }

theorem outOfUseRequest_fields (i : StationId) : (outOfUseRequest i).fields = some outOfUseFields := rfl

theorem stationsIn_one (i : StationId) : stationsIn i.val i.val = [i] := by
  refine List.perm_singleton.1 ((List.perm_ext_iff_of_nodup (stationsIn_nodup _ _) (List.nodup_singleton i)).2 fun j => ?_)
  rw [mem_stationsIn, List.mem_singleton, Fin.ext_iff]
  omega

theorem writeStations_one (s : State) (i : StationId) : s.writeStations i.val i.val outOfUseFields.write =
    s.updCfg fun k => { k with stations := k.stations.set i.val { s.stationCfg i with inUse := false } i.isLt } := by
  have written : s.cfg.stations.mapFinIdx (fun j x _ => if i.val ≤ j ∧ j ≤ i.val then outOfUseFields.write x else x) =
      s.cfg.stations.set i.val { s.stationCfg i with inUse := false } i.isLt := by
    refine Vector.ext fun j hj => ?_
    rw [Vector.getElem_mapFinIdx, Vector.getElem_set]
    by_cases h : i.val = j
    · subst h
      rw [if_pos ⟨le_refl _, le_refl _⟩, if_pos rfl]
      rfl
    · rw [if_neg (by omega), if_neg h]
  exact congrArg (fun v => { s with cfg := { s.cfg with stations := v } }) written

/-- A station leaves its ring by one of the three causes: the state `b` in which it leaves, and the request's answer. -/
theorem leavesRing_exec {s b : State} {i : StationId} {st : StationState} {h : Handle} {rest : List Frame} {cmd : Instr} {f : Frame}
    (hr : (s.station i).state = .ringing h) (ready : Ready s f rest)
    (cause : cmd = .stationOffhook f.tag f.body ∧ f.kind = 0x04 ∧ f.body = put2 i.val ++ put1 0 ∧ b = s.takeHead rest ∧
        st = .busy ∨
      cmd = .stationOutOfService f.tag f.body ∧ f.kind = 0x04 ∧ f.body = put2 i.val ++ put1 2 ∧ b = s.takeHead rest ∧
        st = .outOfService ∨
      cmd = .setStation f.tag f.body ∧ f.kind = 0x32 ∧ f.body = put2 i.val ++ put2 i.val ++ put1 1 ++ put1 0 ∧
        s.save = none ∧ st = .unused ∧ b = ((s.takeHead rest).updCfg fun k =>
          { k with stations := k.stations.set i.val { s.stationCfg i with inUse := false } i.isLt })) :
    exec cmd s = .next ((b.leaveRing i h st).flush.answer f .ok []) := by
  have used : (s.station i).state ≠ .unused := by simp [hr]
  obtain ⟨kind, tag, body⟩ := f
  obtain ⟨rfl, rfl, rfl, rfl, rfl⟩ | ⟨rfl, rfl, rfl, rfl, rfl⟩ | ⟨rfl, rfl, rfl, hs, rfl, rfl⟩ := cause
  · refine (report_ok (r := 0) (by omega) used ready).trans ?_
    have effect : reportOffhook (s.takeHead rest) i = (s.takeHead rest).leaveRing i h .busy := by
      rw [reportOffhook, show ((s.takeHead rest).station i).state = _ from hr]
    rw [← effect]
    rfl
  · refine (report_ok (r := 2) (by omega) used ready).trans ?_
    have effect : reportOutOfService (s.takeHead rest) i = (s.takeHead rest).leaveRing i h .outOfService := by
      rw [reportOutOfService, show ((s.takeHead rest).station i).state = _ from hr]
    rw [← effect]
    rfl
  · refine (setStation_accepted (outOfUseRequest_spells i) hs le_rfl (Nat.le_of_lt_succ i.isLt) (outOfUseRequest_fields i) ready).trans ?_
    have effect : acceptSetStation (s.takeHead rest) i.val i.val outOfUseFields =
        ((s.takeHead rest).writeStations i.val i.val outOfUseFields.write).leaveRing i h .unused := by
      rw [acceptSetStation_inUse (b := false) rfl, stationsIn_one, List.foldl_cons, List.foldl_nil, State.applyInUse,
        if_neg (by decide), State.takeOutOfUse,
        show (((s.takeHead rest).writeStations i.val i.val outOfUseFields.write).station i).state = _ from hr]
    rw [show (outOfUseRequest i).first = i.val from rfl, show (outOfUseRequest i).last = i.val from rfl, effect, writeStations_one]
    rfl

/-- What the cause of leaving a ring leaves as it was. -/
theorem cause_keeps {s b : State} {rest : List Frame} {i : StationId} {x : StationCfg}
    (h : b = s.takeHead rest ∨ b = (s.takeHead rest).updCfg fun k => { k with stations := k.stations.set i.val x i.isLt }) :
    b.calls = s.calls ∧ b.now = s.now ∧ b.heldAvail = s.heldAvail ∧ ∀ g, b.groupCfg g = s.groupCfg g := by
  obtain rfl | rfl := h <;> exact ⟨rfl, rfl, rfl, fun _ => rfl⟩

/-- Settles O22, by the request's answer, and then by the call's kind of ring. -/
theorem callProceedsWhenAStationLeavesItsRing : Obligations.CallProceedsWhenAStationLeavesItsRing := by
  intro s b s1 s2 i st h c rest cmd f goesOn hr hc ready cause hs1 hs2 goes
  have hst : st ≠ .idle := by
    obtain ⟨-, -, -, -, rfl⟩ | ⟨-, -, -, -, rfl⟩ | ⟨-, -, -, -, rfl, -⟩ := cause <;> simp
  obtain ⟨calls, now, held, groupCfg⟩ : b.calls = s.calls ∧ b.now = s.now ∧ b.heldAvail = s.heldAvail ∧
      ∀ g, b.groupCfg g = s.groupCfg g := by
    refine cause_keeps (rest := rest) (i := i) (x := { s.stationCfg i with inUse := false }) ?_
    obtain ⟨-, -, -, hb, -⟩ | ⟨-, -, -, hb, -⟩ | ⟨-, -, -, -, -, hb⟩ := cause
    · exact .inl hb
    · exact .inl hb
    · exact .inr hb
  have hcb : b.findCall h = some c := by rw [State.findCall, calls]; exact hc
  have answer := leavesRing_exec hr ready cause
  have goesBy : ∀ t, (b.leaveRing i h st).flush = t → goesOn t := fun t e => (goes t).2 (e ▸ answer)
  change s1 = b.ringLeft i h st at hs1
  have held1 : s1.heldAvail = [] := by
    rw [hs1, State.ringLeft, State.enterState_heldAvail]
    exact held.trans ready.2.2
  refine ⟨fun ho => goesBy _ ?_, fun ho hq => ?_⟩
  · rw [leaveRing_ringsOn hst hcb ho, ← hs1, flush_none _ held1]
  obtain ⟨last, found⟩ := leaveRing_last hst hcb ho
  rw [← hs1, ← hs2] at last found
  have held2 : s2.heldAvail = [] := by rw [hs2]; exact held1
  have goesSettled : ∀ t, s2.ringEnded h [i] = t → t.heldAvail = [] → goesOn t := fun t e ht =>
    goesBy t (by rw [last, e, flush_none _ ht])
  have group : ∀ g, s2.groupCfg g = s.groupCfg g := fun g => by
    rw [hs2, hs1, State.ringLeft]
    exact (congrArg (fun k : WorkingConfig => k.groups[g]) (State.enterState_cfg _ i st)).trans (groupCfg g)
  have selection : ∀ g, s1.select g c = s2.select g c.unrung := fun g => by rw [hs2]; rfl
  have now2 : s2.now = s.now := by
    rw [hs2, hs1, State.ringLeft, State.updCall, (State.enterState_stays _ i st).1]
    exact now
  refine ⟨fun g sts hk hg hsts => ⟨fun ha hne => ?_, fun h => ?_⟩, fun t hk ht => ?_, fun t ht => ⟨fun hk => ?_, fun hk ha => ?_⟩,
    fun a hk ha hp => ?_⟩
  · refine goesBy _ ?_
    rw [last, ringEnded_group found hk hg, group, ← selection, ← hsts, if_neg (by simp [ha, hne])]
  · refine goesBy _ ?_
    rw [last, ringEnded_group found hk hg, group, ← selection, ← hsts, if_pos h]
  · refine goesSettled t (ringEnded_target found hk hq rfl ht) ?_
    by_cases hn : (s2.advise (.routed h none .targetNoAnswer .attendant c.hops)).idleAttendant = none
    · rw [ht.2 hn]
      exact held2
    · obtain ⟨a, ha⟩ := Option.ne_none_iff_exists'.1 hn
      rw [ht.1 a ha, State.enterState_heldAvail]
      exact held2
  · exact goesSettled t ((ringEnded_attendant found hk hq rfl).trans ht.symm) (ht ▸ held2)
  · exact goesSettled t (((ringEnded_recall found hk).trans (recallToAttendant_ends found hq rfl ha)).trans ht.symm) (ht ▸ held2)
  · refine goesSettled _ (((ringEnded_recall found hk).trans (recallToAttendant_rings found ha hp)).trans (by rw [now2])) ?_
    rw [State.enterState_heldAvail]
    exact held2

end Sys2Proof.Machine
end

