-- ==== Sys2Proof/Proofs/StillCalls.lean ====
section
/-! SUPPORT. What the Page Arbiter leaves of the calls: one lemma for each of its operations, whatever state it works on. -/

namespace Sys2Proof.Machine

/-- From `s` to `t` calls, queues, rings, the configuration of the groups, the call orders, the frame on the line, the stored copy
and the save stand. -/
structure Still (s t : State) : Prop where
  calls : t.calls = s.calls
  queue : ∀ g, (t.group g).queue = (s.group g).queue
  rings : ∀ i h, (t.station i).state = .ringing h ↔ (s.station i).state = .ringing h
  groups : t.cfg.groups = s.cfg.groups
  orders : t.link.callOrders = s.link.callOrders
  line : t.link.tx = s.link.tx
  stored : t.stored = s.stored
  save : t.save = s.save

namespace Still

variable {s0 s t : State}

theorem refl (s : State) : Still s s := ⟨rfl, fun _ => rfl, fun _ _ => Iff.rfl, rfl, rfl, rfl, rfl, rfl⟩

theorem trans (q : Still s0 s) (r : Still s t) : Still s0 t :=
  ⟨r.calls.trans q.calls, fun g => (r.queue g).trans (q.queue g), fun i h => (r.rings i h).trans (q.rings i h),
    r.groups.trans q.groups, r.orders.trans q.orders, r.line.trans q.line, r.stored.trans q.stored, r.save.trans q.save⟩

theorem findCall (q : Still s t) (h : Handle) : t.findCall h = s.findCall h := by simp [State.findCall, q.calls]

theorem groupCfg (q : Still s t) (g : GroupId) : t.groupCfg g = s.groupCfg g := by simp [State.groupCfg, q.groups]

/-- An update that writes no station, group or call, and of the configuration no group. -/
theorem of_eq (q : Still s0 s) (h1 : t.calls = s.calls) (h2 : t.cfg.groups = s.cfg.groups) (h3 : t.groups = s.groups)
    (h4 : t.stations = s.stations) (h5 : t.link.callOrders = s.link.callOrders) (h6 : t.link.tx = s.link.tx)
    (h7 : t.stored = s.stored) (h8 : t.save = s.save) : Still s0 t :=
  q.trans ⟨h1, fun g => by simp [State.group, h3], fun i h => by simp [State.station, h4], h2, h5, h6, h7, h8⟩

/-- What every fold of a step that leaves the calls leaves. -/
theorem foldl {α : Type} {f : State → α → State} (hf : ∀ {s : State} (x : α), Still s0 s → Still s0 (f s x)) (l : List α)
    (q : Still s0 s) : Still s0 (l.foldl f s) := by
  induction l generalizing s with
  | nil => exact q
  | cons x xs ih => exact ih (hf x q)

/-! ## The plain updates -/

/-- A group changes, but for its queue. -/
theorem updGroup (q : Still s0 s) (g : GroupId) {f : Group → Group} (hf : ∀ x, (f x).queue = x.queue) :
    Still s0 (s.updGroup g f) := by
  refine q.trans ⟨rfl, fun k => ?_, fun _ _ => Iff.rfl, rfl, rfl, rfl, rfl, rfl⟩
  by_cases e : k = g
  · rw [e, State.group_updGroup_self, hf]
  · rw [State.group_updGroup_ne s e]

theorem updPageRec (q : Still s0 s) (p : PageId) (f : PageRec → PageRec) : Still s0 (s.updPageRec p f) :=
  q.of_eq rfl rfl rfl rfl rfl rfl rfl rfl

theorem updPage (q : Still s0 s) (p : PageId) (f : Page → Page) : Still s0 (s.updPage p f) := q.updPageRec p _

theorem updOutput (q : Still s0 s) (o : OutputId) (f : Output → Output) : Still s0 (s.updOutput o f) :=
  q.of_eq rfl rfl rfl rfl rfl rfl rfl rfl

theorem setHeld (q : Still s0 s) (l : List StationId) : Still s0 { s with heldAvail := l } := q.of_eq rfl rfl rfl rfl rfl rfl rfl rfl

theorem advise (q : Still s0 s) (a : Advisory) : Still s0 (s.advise a) := by
  refine q.of_eq rfl rfl rfl rfl ?_ ?_ rfl rfl <;> simp only [State.advise, State.updLink_link] <;> split <;> rfl

/-- A station that does not ring enters a state in which it does not ring. -/
theorem enterState (q : Still s0 s) {i : StationId} {st : StationState} (h1 : ∀ h, (s.station i).state ≠ .ringing h)
    (h2 : ∀ h, st ≠ .ringing h) : Still s0 (s.enterState i st) := by
  obtain ⟨stays, link⟩ := s.enterState_stays i st
  refine q.trans ⟨by rw [stays], fun g => by rw [stays]; rfl, fun j h => ?_, by rw [stays], by rw [link], by rw [link], by rw [stays],
    by rw [stays]⟩
  rw [State.enterState_station]
  split
  · rename_i e
    exact iff_of_false (h2 h) (e ▸ h1 h)
  · exact Iff.rfl

/-- Stations that do not ring enter states in which they do not ring. -/
theorem enterAll (q : Still s0 s) (st : StationState) (h2 : ∀ h, st ≠ .ringing h) (l : List StationId)
    (h1 : ∀ i ∈ l, ∀ h, (s.station i).state ≠ .ringing h) : Still s0 (l.foldl (fun s i => s.enterState i st) s) := by
  induction l generalizing s with
  | nil => exact q
  | cons i l ih =>
    have k := (refl s).enterState (h1 i (by simp)) h2
    exact ih (q.trans k) fun j hj h e => h1 j (by simp [hj]) h ((k.rings j h).1 e)

/-! ## Desk speakers (R122, R124) -/

theorem advisePage (q : Still s0 s) (p : PageId) (e : PageEvent) : Still s0 (s.advisePage p e) := by
  unfold State.advisePage
  split
  · exact q
  · exact q.advise _

theorem joinDesk (q : Still s0 s) (p : PageId) (c : PageClass) (i : StationId) : Still s0 (State.joinDesk p c s i) := by
  unfold State.joinDesk
  split
  · rename_i h
    exact q.enterState (fun k => by simp [((s.isIdle_iff i).1 h).2]) (by simp)
  · split
    · rename_i r hr
      split
      · split
        · exact q.enterState (fun k => by simp [hr]) (by simp)
        · exact q
      · exact q
    · exact q

theorem joinDesks (q : Still s0 s) (p : PageId) : Still s0 (s.joinDesks p) := by
  unfold State.joinDesks
  split
  · exact q
  · exact foldl (fun i q => q.joinDesk _ _ i) _ q

theorem releaseJoined (q : Still s0 s) (p : PageId) : Still s0 (s.releaseJoined p) := by
  refine setHeld (q.enterAll .idle (by simp) _ fun i hi h => ?_) _
  obtain ⟨pg, -, -, listens⟩ := (s.mem_joined p i).1 hi
  simp [listens]

/-! ## Takes and losses (R132 to R137) -/

theorem enterStarting (q : Still s0 s) (p : PageId) : Still s0 (s.enterStarting p) :=
  ((q.updPage p _).advisePage p _).joinDesks p

theorem endPageRecord (q : Still s0 s) (p : PageId) (r : EndReason) : Still s0 (s.endPageRecord p r) := by
  unfold State.endPageRecord
  split
  · exact q
  · exact (((foldl (fun o q => q.updOutput o _) _ q).releaseJoined p).updPageRec p _).advise _

theorem forgetEscPage (q : Still s0 s) (r : PageRef) (g : Option GroupId) : Still s0 (s.forgetEscPage r g) := by
  unfold State.forgetEscPage
  split
  · exact q
  · split
    · exact q.updGroup _ (by exact fun _ => rfl)
    · exact q

theorem strip (q : Still s0 s) (p : PageId) (pg : Page) : Still s0 (s.strip p pg) := by
  unfold State.strip
  split
  · exact (q.endPageRecord p _).forgetEscPage _ _
  · exact (Still.releaseJoined (q.updPage p _) p).advisePage p _

theorem settleLoss (q : Still s0 s) (r : PageRef) : Still s0 (s.settleLoss r) := by
  unfold State.settleLoss
  split
  · exact q
  · split
    · exact q.strip _ _
    · exact q

theorem takeSteps (q : Still s0 s) (p : PageId) (outs : List OutputId) : Still s0 (s.takeSteps p outs) := by
  have granted : Still s0 (outs.foldl (State.grant (s.refOf p)) s) := foldl (fun o q => q.updOutput o _) outs q
  refine foldl (fun r q => q.settleLoss r) _ ?_
  split
  · exact granted.enterStarting p
  · exact granted

theorem reviewWalks (n : Nat) (q : Still s0 s) : Still s0 (State.reviewWalks n s) := by
  induction n generalizing s with
  | zero => exact q
  | succ n ih =>
    unfold State.reviewWalks
    split
    · exact q
    · exact ih (q.takeSteps _ _)

theorem reviewPages (q : Still s0 s) : Still s0 s.reviewPages := q.reviewWalks _

theorem acceptPage (q : Still s0 s) (p : PageId) (pg : Page) : Still s0 (s.acceptPage p pg) := by
  unfold State.acceptPage
  dsimp only
  split
  · exact Still.advisePage ((q.updPageRec p _).updPage p _) p _
  · exact ((q.updPageRec p _).takeSteps p _).reviewPages

/-! ## Escalation pages and the ends of pages (R81 to R84, R126) -/

theorem pageAttempt (q : Still s0 s) (g : GroupId) : Still s0 (s.pageAttempt g) := by
  unfold State.pageAttempt
  dsimp only
  split
  · exact q.advise _
  · split
    · exact q.advise _
    · exact ((q.acceptPage _ _).updGroup g (by exact fun _ => rfl)).advise _

theorem escalationStart (q : Still s0 s) (g : GroupId) : Still s0 (s.escalationStart g) :=
  (q.updGroup g (by exact fun _ => rfl)).pageAttempt g

theorem escPageEnded (q : Still s0 s) (r : PageRef) (g : GroupId) : Still s0 (s.escPageEnded r g) := by
  unfold State.escPageEnded
  dsimp only
  split
  · split
    · exact (((q.updGroup g (by exact fun _ => rfl)).updGroup g (by exact fun _ => rfl)).pageAttempt g).updGroup g (by exact fun _ => rfl)
    · exact q.updGroup g (by exact fun _ => rfl)
  · exact q

theorem endPage (q : Still s0 s) (p : PageId) (r : EndReason) : Still s0 (s.endPage p r) := by
  unfold State.endPage
  split
  · exact q
  · rename_i pg _
    have ended : Still s0
        (match pg.escGroup with
          | none => s.endPageRecord p r
          | some g =>
            if r = .escalationCleared then s.endPageRecord p r else (s.endPageRecord p r).escPageEnded (s.refOf p) g) := by
      split
      · exact q.endPageRecord p r
      · split
        · exact q.endPageRecord p r
        · exact (q.endPageRecord p r).escPageEnded _ _
    dsimp only
    split
    · exact ended
    · exact ended.reviewPages

theorem escalationClear (q : Still s0 s) (g : GroupId) : Still s0 (s.escalationClear g) := by
  unfold State.escalationClear
  refine Still.advise (Still.updGroup ?_ g (by exact fun _ => rfl)) _
  split
  · split
    · exact q.endPage _ _
    · exact q
  · exact q

/-! ## Opening steps, chimes and guards (R134, R142 to R145) -/

theorem openingStep (q : Still s0 s) (p : PageId) : Still s0 (s.openingStep p) := by
  unfold State.openingStep
  split
  · exact q
  · split
    · split
      · exact q.updPage _ _
      · exact (q.updPage _ _).advisePage _ _
      · exact (q.updPage _ _).advisePage _ _
    · exact q

theorem chimeComplete (q : Still s0 s) (p : PageId) (pg : Page) : Still s0 (s.chimeComplete p pg) := by
  unfold State.chimeComplete
  dsimp only
  split
  · exact ((q.updPage p _).updPage p _).advisePage p _
  · exact (q.updPage p _).endPage p _

theorem guardEnds (q : Still s0 s) (o : OutputId) : Still s0 (s.guardEnds o) := by
  unfold State.guardEnds
  split
  · dsimp only
    split
    · exact (q.updOutput o _).openingStep _
    · exact q.updOutput o _
  · exact q

theorem periodEnds (q : Still s0 s) (p : PageId) : Still s0 (s.periodEnds p) := by
  unfold State.periodEnds
  split
  · exact q
  · split
    · exact q
    · split
      · exact q.chimeComplete p _
      · exact q.updPage p _

theorem repeatExpired (q : Still s0 s) (g : GroupId) : Still s0 (s.repeatExpired g) := by
  unfold State.repeatExpired
  split
  · exact ((q.updGroup g (by exact fun _ => rfl)).pageAttempt g).updGroup g (by exact fun _ => rfl)
  · exact q.updGroup g (by exact fun _ => rfl)

theorem endWindow (q : Still s0 s) (o : OutputId) : Still s0 (s.endWindow o) := by
  unfold State.endWindow
  dsimp only
  split
  · exact (q.updOutput o _).advise _
  · exact q.updOutput o _

theorem buildBlocks (q : Still s0 s) (inputs : Vector (Vector Sample 8) 4) (noise : Vector Envelope 16) :
    Still s0 (s.buildBlocks inputs noise).tick := by
  have stays : (s.buildBlocks inputs noise).tick =
      { s with now := s.now + 1, outputs := Vector.ofFn (s.buildBlock inputs noise), pins := { inputs := inputs, noise := noise } } := rfl
  rw [stays]
  exact q.of_eq rfl rfl rfl rfl rfl rfl rfl rfl

end Still
end Sys2Proof.Machine
end

