-- ==== Sys2Proof/Proofs/StillRequests.lean ====
section
/-! SUPPORT. The shapes of a handling for any property of states; and the requests and line events that leave the calls. -/

namespace Sys2Proof.Machine

/-! ## The shapes of a handling (R169 to R171) -/

section
variable {α : Type} {P : State → Prop} {s : State}

theorem withBody_ind (h0 : P s) (r : Reader α) (body : List Octet) {k : α → Handled}
    (h : ∀ v, StateT.run r body = some (v, []) → P (k v).st) : P (withBody r body s k).st := by
  unfold withBody
  split
  · exact h _ ‹_›
  · exact h0

theorem orBadValue_ind (h0 : P s) (o : Option α) {k : α → Handled} (h : ∀ v, o = some v → P (k v).st) :
    P (orBadValue s o k).st := by
  unfold orBadValue
  split
  · exact h0
  · exact h _ rfl

theorem unlessSaving_ind (h0 : P s) {k : Handled} (h : P k.st) : P (unlessSaving s k).st := by
  unfold unlessSaving
  split
  · exact h0
  · exact h

theorem orBadUnless_ind (h0 : P s) (b : Bool) {k : Handled} (h : b = true → P k.st) : P (orBadUnless s b k).st := by
  unfold orBadUnless
  split
  · exact h ‹_›
  · exact h0

theorem withRequester_ind (h0 : P s) (i : Nat) {k : StationId → Handled} (h : ∀ r, P (k r).st) : P (withRequester s i k).st := by
  refine orBadValue_ind h0 _ fun r _ => ?_
  split
  · exact h r
  · exact h0

/-- What the checks of a SET_STATION lead to. -/
theorem handleSetStation_ind (h0 : P s) (body : List Octet) (h : ∀ first last f, P (acceptSetStation s first last f)) :
    P (handleSetStation body s).st :=
  withBody_ind h0 _ body fun _ _ => unlessSaving_ind h0 (orBadUnless_ind h0 _ fun _ => orBadValue_ind h0 _ fun f _ => h _ _ f)

/-- What the checks of a SET_GROUP lead to. -/
theorem handleSetGroup_ind (h0 : P s) (body : List Octet) (h : ∀ mask f, P (acceptSetGroup s mask f)) : P (handleSetGroup body s).st :=
  withBody_ind h0 _ body fun _ _ => unlessSaving_ind h0 (orBadUnless_ind h0 _ fun _ => orBadValue_ind h0 _ fun f _ => h _ f)

/-- What the checks of a REMOVE, LOGIN or LOGOUT lead to. -/
theorem handleMember_ind (h0 : P s) {effect : State → GroupId → StationId → State} (he : ∀ g i, P (effect s g i)) (body : List Octet) :
    P (handleMember effect body s).st := by
  refine withBody_ind h0 _ body fun ⟨g, _, i, _, _⟩ _ => unlessSaving_ind h0 (orBadValue_ind h0 _ fun g _ => orBadValue_ind h0 _ fun i _ => ?_)
  split
  · exact he g i
  · exact h0

/-- What the checks of an ADD lead to (R45). -/
theorem handleSetMembersAdd_ind (h0 : P s) (body : List Octet)
    (h : ∀ g i pos flag, s.isMember g i = false → s.membersFull g i = false → P (acceptAdd s g i pos flag)) :
    P (handleSetMembersAdd body s).st := by
  refine withBody_ind h0 _ body fun ⟨g, op, i, pos, flag⟩ _ => unlessSaving_ind h0 (orBadValue_ind h0 _ fun g _ =>
    orBadValue_ind h0 _ fun i _ => orBadValue_ind h0 _ fun flag _ => orBadUnless_ind h0 _ fun _ => ?_)
  split
  · exact h0
  · split
    · exact h0
    · exact h g i pos flag (by simpa using ‹¬ s.isMember g i = true›) (by simpa using ‹¬ s.membersFull g i = true›)

/-- What the checks of a PICKUP lead to: a call that an entry of a search list yields ends PICKED (R92, R95). -/
theorem handlePickup_ind (h0 : P s) (body : List Octet)
    (h : ∀ r l k, s.walkList r l = some k → P (s.endCall k .picked (some r))) : P (handlePickup body s).st := by
  refine withBody_ind h0 _ body fun i _ => withRequester_ind h0 i fun r => ?_
  split
  · exact h0
  · split
    · exact h0
    · exact h r _ _ ‹_›

/-- What the checks of a DPICKUP lead to: the call of a ringing station, of a queue or of an orbit ends (R97 to R99). -/
theorem handleDpickup_ind (h0 : P s) (body : List Octet)
    (hring : ∀ r i k, (s.station i).state = .ringing k → P (s.endCall k .picked (some r)))
    (hqueue : ∀ r g k, s.hqCall r g = some k → P (s.endCall k .picked (some r)))
    (horbit : ∀ r o c, s.orbitHolder o = some c → P (s.endCall c.handle .retrieved (some r))) : P (handleDpickup body s).st := by
  refine withBody_ind h0 _ body fun ⟨i, d⟩ _ => withRequester_ind h0 i fun r => ?_
  split
  · exact h0
  · split
    · exact h0
    · unfold dpickupStation
      split
      · exact h0
      · split
        · split
          · exact h0
          · split
            · exact hring r _ _ ‹_›
            · exact h0
        · exact h0
    · unfold dpickupPilot
      split
      · exact h0
      · exact hqueue r _ _ ‹_›
    · unfold dpickupOrbit
      split
      · exact h0
      · split
        · exact horbit r _ _ ‹_›
        · exact h0

/-- What the checks of a PARK lead to: a new record under a new handle, at an orbit that no call holds (R101, R102). -/
theorem handlePark_ind (h0 : P s) (body : List Octet)
    (h : ∀ k caller flag r o, 1 ≤ k → k ≤ 65535 → s.findCall k = none → s.calls.length < Config.callRecords → s.orbitHolder o = none →
      P (s.addCall (parkedCall s k caller flag r o))) : P (handlePark body s).st := by
  refine withBody_ind h0 _ body fun ⟨i, k, o, f, d⟩ hread => withRequester_ind h0 i fun r => orBadValue_ind h0 _ fun asked _ =>
    orBadValue_ind h0 _ fun flag _ => ?_
  obtain ⟨⟨-, hk, -⟩, -⟩ := (readPark_takes _ _ _).1 hread
  dsimp only at hk ⊢
  split
  · exact h0
  · split
    · exact h0
    · rename_i hgood hnew
      split
      · exact h0
      · split
        · rename_i hroom _ o' _ ho
          have free : s.orbitHolder o' = none := by
            unfold chooseOrbit at ho
            split at ho
            · split at ho <;> simp_all
            · simpa using List.find?_some (Prod.mk.inj ho).1
          exact h k d flag r o' (Nat.pos_of_ne_zero fun e => hgood (.inl e)) (Nat.le_of_lt_succ hk) (by simpa using hnew) (Nat.lt_of_not_le hroom) free
        · exact h0

/-- What the checks of a CALL_IN lead to: a new record under a new handle, which arrives at a group (R31, R32). -/
theorem handleCallIn_ind (h0 : P s) (body : List Octet)
    (h : ∀ k caller flag g, 1 ≤ k → k ≤ 65535 → s.findCall k = none → s.calls.length < Config.callRecords →
      P (State.arrive State.arriveBound (s.addCall (arrivedCall k caller flag g (s.groupCfg g).maxWait s.now)) k g).flush) :
    P (handleCallIn body s).st := by
  refine withBody_ind h0 _ body fun ⟨k, pilot, caller, flag⟩ hread => orBadValue_ind h0 _ fun flag _ => ?_
  obtain ⟨⟨hk, -⟩, -⟩ := (readCallIn_takes _ _ _).1 hread
  dsimp only at hk ⊢
  split
  · exact h0
  · split
    · exact h0
    · rename_i hgood hnew
      split
      · exact h0
      · split
        · exact h0
        · rename_i hroom
          exact h k caller flag _ (Nat.pos_of_ne_zero fun e => hgood (.inl e)) (Nat.le_of_lt_succ hk) (by simpa using hnew) (Nat.lt_of_not_le hroom)
      · exact h0

/-- What the checks of an ANSWER lead to (R56). -/
theorem handleAnswer_ind (h0 : P s) (body : List Octet)
    (h : ∀ i k c, s.findCall k = some c → (c.state = .offering ∨ c.state = .recalling) → P (s.endCall k .answered (some i))) :
    P (handleAnswer body s).st := by
  refine withBody_ind h0 _ body fun ⟨i, k⟩ _ => orBadValue_ind h0 _ fun i _ => ?_
  split
  · exact h0
  · split
    · exact h i _ _ ‹_› (by tauto)
    · exact h0

/-- What the checks of a HANGUP lead to (R39). -/
theorem handleHangup_ind (h0 : P s) (body : List Octet)
    (h : ∀ k c, s.findCall k = some c → c.state ≠ .ending → P (s.endCall k .abandoned none)) : P (handleHangup body s).st := by
  refine withBody_ind h0 _ body fun k _ => ?_
  split
  · exact h0
  · split
    · exact h0
    · split
      · exact h0
      · exact h _ _ ‹_› ‹_›

/-- What the checks of a STATION report lead to (R6). -/
theorem handleReport_ind (h0 : P s) {effect : State → StationId → State} (he : ∀ i, P (effect s i)) (body : List Octet) :
    P (handleReport effect body s).st := by
  refine withBody_ind h0 _ body fun ⟨i, _⟩ _ => orBadValue_ind h0 _ fun i _ => ?_
  split
  · exact h0
  · exact he i

/-- What the checks of a SAVE lead to (R183). -/
theorem handleSave_ind (h0 : P s) (body : List Octet) (h : P (beginSave s)) : P (handleSave body s).st := by
  refine withBody_ind h0 _ body fun _ _ => ?_
  split
  · exact h0
  · exact h

end

namespace Still

variable {s0 s t : State}

/-! ## The link (R167, R168) -/

/-- A change of the link that leaves the call orders and the frame on the line. -/
theorem updLink (q : Still s0 s) {f : Link → Link} (h1 : (f s.link).callOrders = s.link.callOrders) (h2 : (f s.link).tx = s.link.tx) :
    Still s0 (s.updLink f) := q.of_eq rfl rfl rfl rfl h1 h2 rfl rfl

theorem abandonFrame (q : Still s0 s) : Still s0 s.abandonFrame := q.updLink rfl rfl

theorem huntOctet (q : Still s0 s) (o : Octet) (b : Bool) : Still s0 (s.huntOctet o b) := by
  unfold State.huntOctet
  split
  · exact q.updLink rfl rfl
  · exact q

theorem completeFrame (q : Still s0 s) (f : Frame) : Still s0 (s.completeFrame f) := by
  refine q.updLink ?_ ?_ <;> split
  · split <;> rfl
  · rfl
  · split <;> rfl
  · rfl

theorem closeFrame (q : Still s0 s) (os : List Octet) : Still s0 (s.closeFrame os) := by
  unfold State.closeFrame
  split
  · dsimp only
    split
    · exact completeFrame (q.updLink rfl rfl) _
    · exact q.abandonFrame
  · exact q.abandonFrame

theorem frameOctet (q : Still s0 s) (os : List Octet) (o : Octet) : Still s0 (s.frameOctet os o) := by
  unfold State.frameOctet
  split
  · exact q
  · split
    · exact q.abandonFrame
    · split
      · exact q.closeFrame _
      · exact q.updLink rfl rfl

theorem receiveOctet (q : Still s0 s) (o : Octet) (b : Bool) : Still s0 (s.receiveOctet o b) := by
  unfold State.receiveOctet
  split
  · exact q.huntOctet o b
  · split
    · exact q.abandonFrame.huntOctet o b
    · split
      · exact q.abandonFrame
      · exact q.frameOctet _ o

theorem receiveAll (q : Still s0 s) (os : List Octet) : Still s0 (s.receiveAll os) := foldl (fun o q => q.receiveOctet o true) os q

/-! ## Pages and edits that leave the groups (chapters 6 and 10) -/

theorem handlePage (s : State) (body : List Octet) : Still s (handlePage body s).st := by
  refine withBody_ind (refl s) _ body fun q _ => orBadValue_ind (refl s) _ fun f _ => ?_
  dsimp only
  split
  · exact refl s
  · unfold startPage
    dsimp only
    split
    · exact refl s
    · split
      · exact refl s
      · exact (refl s).acceptPage _ _

theorem handlePageEnd (s : State) (body : List Octet) : Still s (handlePageEnd body s).st := by
  refine withBody_ind (refl s) _ body fun ⟨p, g⟩ _ => orBadValue_ind (refl s) _ fun p _ => ?_
  split
  · exact (refl s).endPage p _
  · exact refl s

/-- An edit of the configuration that writes no group. -/
theorem updCfg (q : Still s0 s) {f : WorkingConfig → WorkingConfig} (h : (f s.cfg).groups = s.cfg.groups) : Still s0 (s.updCfg f) :=
  q.of_eq rfl h rfl rfl rfl rfl rfl rfl

theorem acceptCfg (s : State) {f : WorkingConfig → WorkingConfig} (l : List Octet) (h : ∀ c, (f c).groups = c.groups) :
    Still s (accept (s.updCfg f) l).st := (refl s).updCfg (h s.cfg)

theorem handleSetSystem (s : State) (body : List Octet) : Still s (handleSetSystem body s).st := by
  refine withBody_ind (refl s) _ body fun q _ => unlessSaving_ind (refl s) (orBadValue_ind (refl s) _ fun f _ => ?_)
  split
  · exact refl s
  · exact acceptCfg s _ fun _ => rfl

theorem handleSetDirAdd (s : State) (body : List Octet) : Still s (handleSetDirAdd body s).st := by
  refine withBody_ind (refl s) _ body fun ⟨_, _, _, _⟩ _ => unlessSaving_ind (refl s) (orBadUnless_ind (refl s) _ fun _ =>
    orBadValue_ind (refl s) _ fun t _ => ?_)
  split
  · exact refl s
  · split
    · exact refl s
    · exact acceptCfg s _ fun _ => rfl

theorem handleSetDirRemove (s : State) (body : List Octet) : Still s (handleSetDirRemove body s).st := by
  refine withBody_ind (refl s) _ body fun ⟨_, _, _, _⟩ _ => unlessSaving_ind (refl s) (orBadUnless_ind (refl s) _ fun _ => ?_)
  split
  · exact acceptCfg s _ fun _ => rfl
  · exact refl s

theorem handleSetPickup (s : State) (body : List Octet) : Still s (handleSetPickup body s).st :=
  withBody_ind (refl s) _ body fun ⟨_, _, _⟩ _ => unlessSaving_ind (refl s) (orBadUnless_ind (refl s) _ fun _ =>
    orBadValue_ind (refl s) _ fun _ _ => acceptCfg s _ fun _ => rfl)

theorem handleSetList (s : State) (body : List Octet) : Still s (handleSetList body s).st := by
  refine withBody_ind (refl s) _ body fun ⟨_, _⟩ _ => unlessSaving_ind (refl s) (orBadValue_ind (refl s) _ fun _ _ =>
    orBadUnless_ind (refl s) _ fun _ => orBadValue_ind (refl s) _ fun _ _ => ?_)
  split
  · exact acceptCfg s _ fun _ => rfl
  · exact refl s

theorem handleSetMap (s : State) (body : List Octet) : Still s (handleSetMap body s).st := by
  refine withBody_ind (refl s) _ body fun q _ => unlessSaving_ind (refl s) (orBadValue_ind (refl s) _ fun ⟨_, _, _⟩ _ => ?_)
  dsimp only
  split
  · exact refl s
  · split
    · exact refl s
    · exact acceptCfg s _ fun _ => rfl

theorem handleSetOutput (s : State) (body : List Octet) : Still s (handleSetOutput body s).st :=
  withBody_ind (refl s) _ body fun _ _ => unlessSaving_ind (refl s) (orBadUnless_ind (refl s) _ fun _ =>
    orBadValue_ind (refl s) _ fun _ _ => orBadUnless_ind (refl s) _ fun _ =>
      foldl (fun o q => q.updOutput o _) _ ((refl s).updCfg (by exact rfl)))

theorem handleSetChime (s : State) (body : List Octet) : Still s (handleSetChime body s).st :=
  withBody_ind (refl s) _ body fun ⟨_, _, _⟩ _ => unlessSaving_ind (refl s) (orBadValue_ind (refl s) _ fun _ _ =>
    orBadValue_ind (refl s) _ fun _ _ => orBadValue_ind (refl s) _ fun _ _ => acceptCfg s _ fun _ => rfl)

theorem handleReset (s : State) (body : List Octet) : Still s (handleReset body s).st :=
  withBody_ind (refl s) _ body fun _ _ =>
    show Still s (s.updLink fun l => { l with resetAwaited := true }) from (refl s).updLink rfl rfl

/-! ## The queries (9.6) -/

theorem queryBy (s : State) (n k : Nat) (content : State → Fin k → List Octet) (body : List Octet) :
    Still s (queryBy n k content body s).st :=
  withBody_ind (refl s) _ body fun _ _ => orBadValue_ind (refl s) _ fun _ _ => refl s

theorem handleStatus (s : State) (body : List Octet) : Still s (handleStatus body s).st :=
  withBody_ind (refl s) _ body fun _ _ => refl s

theorem handleGetOrbits (s : State) (body : List Octet) : Still s (handleGetOrbits body s).st :=
  withBody_ind (refl s) _ body fun _ _ => refl s

theorem handleGetCall (s : State) (body : List Octet) : Still s (handleGetCall body s).st := by
  refine withBody_ind (refl s) _ body fun h _ => ?_
  split
  · exact refl s
  · split <;> exact refl s

theorem handleGetDir (s : State) (body : List Octet) : Still s (handleGetDir body s).st := by
  refine withBody_ind (refl s) _ body fun d _ => ?_
  split <;> exact refl s

end Still
end Sys2Proof.Machine
end

