-- ==== Sys2Proof/Proofs/CallTable.lean ====
section
/-! SUPPORT. The records of the call table through every operation and every command: the same handles, and no hop count above the limit. -/

namespace Sys2Proof.Machine

/-- From `s` to `t` the same records are in use in the same order, and hop counts within the limit have stayed within it (R28,
R75). -/
structure SameTable (s t : State) : Prop where
  handles : t.calls.map Call.handle = s.calls.map Call.handle
  hops : (∀ c ∈ s.calls, c.hops ≤ Config.hopLimit) → ∀ c ∈ t.calls, c.hops ≤ Config.hopLimit

namespace SameTable

variable {s0 s t : State}

theorem refl (s : State) : SameTable s s := ⟨rfl, id⟩

theorem trans (q : SameTable s0 s) (r : SameTable s t) : SameTable s0 t := ⟨r.handles.trans q.handles, fun h => r.hops (q.hops h)⟩

/-- An update that writes no call. -/
theorem of_calls (q : SameTable s0 s) (h : t.calls = s.calls) : SameTable s0 t := q.trans ⟨by rw [h], by rw [h]; exact id⟩

theorem of_still (q : SameTable s0 s) (k : Still s t) : SameTable s0 t := q.of_calls k.calls

theorem foldl {α : Type} {f : State → α → State} (hf : ∀ {s : State} (x : α), SameTable s0 s → SameTable s0 (f s x)) (l : List α)
    (q : SameTable s0 s) : SameTable s0 (l.foldl f s) := by
  induction l generalizing s with
  | nil => exact q
  | cons x xs ih => exact ih (hf x q)

/-- The calls are rewritten, each keeping its handle and its hop count. -/
theorem mapCalls (q : SameTable s0 s) {f : Call → Call} (hf : ∀ c, (f c).handle = c.handle ∧ (f c).hops = c.hops) :
    SameTable s0 { s with calls := s.calls.map f } := by
  refine q.trans ⟨by simp [Function.comp_def, hf], fun h c hc => ?_⟩
  obtain ⟨d, hd, rfl⟩ := List.mem_map.1 hc
  rw [(hf d).2]
  exact h d hd

/-- The call `h` changes, keeping its handle; its hop count stays within the limit. -/
theorem updCall' (q : SameTable s0 s) (h : Handle) {f : Call → Call} (hf : ∀ c, (f c).handle = c.handle)
    (hh : (∀ c ∈ s.calls, c.hops ≤ Config.hopLimit) → ∀ c ∈ s.calls, (f c).hops ≤ Config.hopLimit) : SameTable s0 (s.updCall h f) := by
  refine q.trans ⟨s.updCall_handles h hf, fun k c hc => ?_⟩
  obtain ⟨d, hd, rfl⟩ := List.mem_map.1 hc
  split
  · exact hh k d hd
  · exact k d hd

/-- The call `h` changes, keeping its handle and its hop count. -/
theorem updCall (q : SameTable s0 s) (h : Handle) {f : Call → Call} (hf : ∀ c, (f c).handle = c.handle ∧ (f c).hops = c.hops) :
    SameTable s0 (s.updCall h f) :=
  q.updCall' h (fun c => (hf c).1) fun k c hc => (hf c).2 ▸ k c hc

theorem enterState (q : SameTable s0 s) (i : StationId) (st : StationState) : SameTable s0 (s.enterState i st) := q.of_calls (by simp)

theorem updGroup (q : SameTable s0 s) (g : GroupId) (f : Group → Group) : SameTable s0 (s.updGroup g f) := q.of_calls rfl

theorem updLink (q : SameTable s0 s) (f : Link → Link) : SameTable s0 (s.updLink f) := q.of_calls rfl

theorem advise (q : SameTable s0 s) (a : Advisory) : SameTable s0 (s.advise a) := q.of_calls rfl

theorem escalationStart (q : SameTable s0 s) (g : GroupId) : SameTable s0 (s.escalationStart g) :=
  q.of_still ((Still.refl s).escalationStart g)

theorem escalationClear (q : SameTable s0 s) (g : GroupId) : SameTable s0 (s.escalationClear g) :=
  q.of_still ((Still.refl s).escalationClear g)

/-! ## Offers, reviews and availability events (R53, R58 to R60) -/

theorem leaveQueue (q : SameTable s0 s) (h : Handle) (g : GroupId) : SameTable s0 (s.leaveQueue h g) := by
  unfold State.leaveQueue
  dsimp only
  split
  · exact (q.updGroup g _).escalationClear g
  · exact q.updGroup g _

theorem offerGroup (q : SameTable s0 s) (h : Handle) (g : GroupId) (sts : List StationId) : SameTable s0 (s.offerGroup h g sts) := by
  unfold State.offerGroup
  split
  · exact q
  · rename_i c _
    have offered : SameTable s0 ((s.updCall h fun x =>
        { x with
          offered := x.offered ++ sts.map fun i => { station := i, start := s.now }
          tried := if decide (c.state = .queued) = true then sts else x.tried ++ sts
          state := .offering
          currentGroup := some g
          offerKind := some .group
          ringDeadline := some (later s.now (seconds (s.groupCfg g).noAnswer))
          escDeadline := none }).ringAll h sts) :=
      foldl (fun i q => q.enterState i _) sts (q.updCall h (by exact fun _ => ⟨rfl, rfl⟩))
    have left : ∀ {u : State}, SameTable s0 u → SameTable s0 (if decide (c.state = .queued) = true then u.leaveQueue h g else u) :=
      fun q => by
        split
        · exact q.leaveQueue h g
        · exact q
    dsimp only
    split
    · exact (left offered).updGroup g _
    · exact left offered

theorem reviewHeads (n : Nat) (g : GroupId) (q : SameTable s0 s) : SameTable s0 (State.reviewHeads n g s) := by
  induction n generalizing s with
  | zero => exact q
  | succ n ih =>
    unfold State.reviewHeads
    split
    · split
      · exact q
      · split
        · exact q
        · split
          · exact q
          · exact ih (q.offerGroup _ g _)
    · exact q

theorem reviewIf (q : SameTable s0 s) (b : Bool) (g : GroupId) : SameTable s0 (s.reviewIf b g) := by
  unfold State.reviewIf
  split
  · exact q.reviewHeads _ g
  · exact q

theorem availability (q : SameTable s0 s) (i : StationId) : SameTable s0 (s.availability i) := by
  unfold State.availability
  split
  · split
    · exact q
    · exact (q.offerGroup _ _ _).reviewHeads _ _
  · exact q

theorem availAll (q : SameTable s0 s) (l : List StationId) : SameTable s0 (s.availAll l) := foldl (fun i q => q.availability i) l q

theorem flushRounds (n : Nat) (q : SameTable s0 s) : SameTable s0 (State.flushRounds n s) := by
  induction n generalizing s with
  | zero => exact q.of_calls rfl
  | succ n ih =>
    unfold State.flushRounds
    split
    · exact q
    · exact ih ((q.of_calls (t := { s with heldAvail := [] }) rfl).availAll _)

theorem flush (q : SameTable s0 s) : SameTable s0 s.flush := flushRounds _ q

/-! ## Ends of calls and rings outside the groups (R35, R77, R78, R105) -/

theorem endCall (q : SameTable s0 s) (h : Handle) (o : CallOutcome) (st : Option StationId) : SameTable s0 (s.endCall h o st) := by
  unfold State.endCall
  split
  · exact q
  · rename_i c _
    dsimp only
    refine availAll ?_ _
    have ended := (q.updCall h (f := fun c => { c with state := .ending, outcome := some o, outcomeStation := st })
      (by exact fun _ => ⟨rfl, rfl⟩)).updLink fun l => { l with callOrders := l.callOrders ++ [h] }
    generalize (if c.state = CallState.queued then c.currentGroup else none) = place
    cases place with
    | none => exact (foldl (fun _ q => q.enterState _ _) _ ended).updCall h (by exact fun _ => ⟨rfl, rfl⟩)
    | some g => exact ((foldl (fun _ q => q.enterState _ _) _ (ended.leaveQueue h g)).updCall h (by exact fun _ => ⟨rfl, rfl⟩)).reviewIf _ g

theorem ringOne (q : SameTable s0 s) (h : Handle) (i : StationId) (k : OfferKind) (ms : Nat) : SameTable s0 (s.ringOne h i k ms) :=
  (q.updCall h (by exact fun _ => ⟨rfl, rfl⟩)).enterState i _

theorem toAttendant (q : SameTable s0 s) (h : Handle) : SameTable s0 (s.toAttendant h) := by
  unfold State.toAttendant
  split
  · exact q.ringOne _ _ _ _
  · exact q.endCall _ _ _

theorem fallToAttendant (q : SameTable s0 s) (h : Handle) (r : RouteReason) : SameTable s0 (s.fallToAttendant h r) := by
  unfold State.fallToAttendant
  split
  · exact q
  · exact (q.advise _).toAttendant h

theorem recallToAttendant (q : SameTable s0 s) (h : Handle) : SameTable s0 (s.recallToAttendant h) := by
  unfold State.recallToAttendant
  split
  · exact q
  · split
    · split
      · exact q.endCall _ _ _
      · exact q.ringOne _ _ _ _
    · exact q.endCall _ _ _

/-! ## Overflow, queues and no-answer (R54, R67 to R69, R75) -/

/-- A hop raises the hop count of a call that has made fewer than six (R75). -/
theorem hop (q : SameTable s0 s) (h : Handle) (g : GroupId) (r : RouteReason) : SameTable s0 (s.hop h g r).1 := by
  unfold State.hop
  split
  · exact q
  · rename_i c hc
    dsimp only
    generalize hs1 : ((s.updCall h _).advise _ : State) = s1
    have hopped : SameTable s0 s1 := by
      rw [← hs1]
      refine advise (q.updCall' h (by exact fun _ => rfl) fun k _ _ => ?_) _
      have := k c (List.mem_of_find?_eq_some hc)
      change (if _ then _ else _) ≤ _
      split
      · exact this
      · simp_all
    split
    · exact hopped.endCall _ _ _
    · exact hopped.toAttendant _
    · split
      · exact hopped.ringOne _ _ _ _
      · exact hopped.fallToAttendant _ _
    · exact hopped.updCall _ (by exact fun _ => ⟨rfl, rfl⟩)

theorem enterQueue (q : SameTable s0 s) (h : Handle) (g : GroupId) (b : Bool) (l : List StationId) : SameTable s0 (s.enterQueue h g b l) := by
  unfold State.enterQueue
  split
  · exact q
  · have placed := fun f hf k => (q.updCall h (f := f) hf).updGroup g k
    dsimp only
    split
    · exact (placed _ (by exact fun _ => ⟨rfl, rfl⟩) _).escalationStart g
    · exact placed _ (by exact fun _ => ⟨rfl, rfl⟩) _

theorem arrive (n : Nat) (h : Handle) (g : GroupId) (q : SameTable s0 s) : SameTable s0 (State.arrive n s h g) := by
  induction n generalizing s g with
  | zero => exact q
  | succ n ih =>
    unfold State.arrive
    split
    · exact q
    · split
      · exact q.offerGroup _ _ _
      · exact q.enterQueue _ _ _ _
      · rename_i r _
        have hopped := q.hop h g r
        split <;> rename_i e <;> rw [e] at hopped
        · exact hopped
        · exact ih _ hopped

theorem route (q : SameTable s0 s) (h : Handle) (g : GroupId) (r : RouteReason) : SameTable s0 (s.route h g r) := by
  have hopped := q.hop h g r
  unfold State.route
  split <;> rename_i e <;> rw [e] at hopped
  · exact hopped
  · exact hopped.arrive _ h _

theorem stopRings (q : SameTable s0 s) (h : Handle) : SameTable s0 (s.stopRings h) :=
  (foldl (fun _ q => q.enterState _ _) _ q).updCall h (by exact fun _ => ⟨rfl, rfl⟩)

theorem overflowMove (q : SameTable s0 s) (h : Handle) (g : GroupId) (r : RouteReason) : SameTable s0 (s.overflowMove h g r) := by
  unfold State.overflowMove
  split
  · exact q
  · split
    · exact ((q.leaveQueue h g).route h g r).reviewIf _ g
    · exact (q.stopRings h).route h g r

theorem overflow (q : SameTable s0 s) (h : Handle) (g : GroupId) (r : RouteReason) : SameTable s0 (s.overflow h g r) :=
  (q.overflowMove h g r).availAll _

theorem returnToQueue (q : SameTable s0 s) (h : Handle) (g : GroupId) (l : List StationId) : SameTable s0 (s.returnToQueue h g l) := by
  unfold State.returnToQueue
  split
  · exact q
  · dsimp only
    split
    · exact q.route _ _ _
    · split
      · exact q.route _ _ _
      · split
        · split
          · exact (q.enterQueue _ _ _ _).overflow _ _ _
          · exact q.enterQueue _ _ _ _
        · exact q.enterQueue _ _ _ _

theorem lookAgain (q : SameTable s0 s) (h : Handle) (l : List StationId) : SameTable s0 (s.lookAgain h l) := by
  unfold State.lookAgain
  split
  · exact q
  · rename_i c _
    split
    · exact q
    · rename_i g _
      dsimp only
      generalize (if (s.groupCfg g).algorithm = .simultaneous then [] else s.select g c) = sts
      split
      · exact q.returnToQueue _ _ _
      · exact q.offerGroup _ _ _

theorem ringEnded (q : SameTable s0 s) (h : Handle) (l : List StationId) : SameTable s0 (s.ringEnded h l) := by
  unfold State.ringEnded
  split
  · exact q
  · split
    · exact q.lookAgain _ _
    · exact q.fallToAttendant _ _
    · exact q.endCall _ _ _
    · exact q.recallToAttendant _
    · exact q

theorem ringExpired (q : SameTable s0 s) (h : Handle) : SameTable s0 (s.ringExpired h) :=
  ((q.stopRings h).ringEnded h _).availAll _

theorem leaveRing (q : SameTable s0 s) (i : StationId) (h : Handle) (st : StationState) : SameTable s0 (s.leaveRing i h st) := by
  unfold State.leaveRing
  dsimp only
  have left := (q.updCall h (f := fun c => { c with offered := c.offered.filter fun x => !(x.station == i) })
    (by exact fun _ => ⟨rfl, rfl⟩)).enterState i st
  generalize (s.updCall h _).enterState i st = t at left ⊢
  have proceeds : SameTable s0
      (if t.ringingFor h = [] then (t.updCall h fun c => { c with ringDeadline := none }).ringEnded h [i] else t) := by
    split
    · exact (left.updCall h (by exact fun _ => ⟨rfl, rfl⟩)).ringEnded h _
    · exact left
  split
  · exact proceeds.availability i
  · exact proceeds

/-! ## Deadlines of calls (R71, R80, R103) -/

theorem waitExpired (q : SameTable s0 s) (h : Handle) : SameTable s0 (s.waitExpired h) := by
  unfold State.waitExpired
  split
  · exact q
  · split
    · exact q.overflow h _ _
    · exact q.updCall h (by exact fun _ => ⟨rfl, rfl⟩)

theorem escExpired (q : SameTable s0 s) (h : Handle) : SameTable s0 (s.escExpired h) := by
  unfold State.escExpired
  split
  · exact q
  · have flagged := q.updCall h (f := fun c => { c with escDeadline := none, escalated := true }) (by exact fun _ => ⟨rfl, rfl⟩)
    dsimp only
    split
    · split
      · exact flagged
      · exact flagged.escalationStart _
    · exact flagged

theorem parkExpired (q : SameTable s0 s) (h : Handle) : SameTable s0 (s.parkExpired h) := by
  unfold State.parkExpired
  split
  · exact q
  · split
    · exact (q.updCall h (by exact fun _ => ⟨rfl, rfl⟩)).enterState _ _
    · exact (q.updCall h (by exact fun _ => ⟨rfl, rfl⟩)).recallToAttendant h

/-! ## Edits of groups, members and stations (R3, R61, R62, R72, R74, R86) -/

theorem disableGroup (q : SameTable s0 s) (g : GroupId) : SameTable s0 (s.disableGroup g) :=
  availAll (foldl (fun h q => q.overflowMove h g _) _ (foldl (fun h q => q.overflowMove h g _) _ q)) _

theorem lowerLimit (n : Nat) (g : GroupId) (q : SameTable s0 s) : SameTable s0 (State.lowerLimit n g s) := by
  induction n generalizing s with
  | zero => exact q
  | succ n ih =>
    unfold State.lowerLimit
    split
    · split
      · exact ih (q.overflow _ g _)
      · exact q
    · exact q

theorem redelayed_handle_hops (s : State) (delay : Nat) (c : Call) :
    (s.redelayed delay c).handle = c.handle ∧ (s.redelayed delay c).hops = c.hops := by
  unfold State.redelayed
  split
  · exact ⟨rfl, rfl⟩
  · split <;> exact ⟨rfl, rfl⟩

theorem delaySet (q : SameTable s0 s) (g : GroupId) (delay : Nat) : SameTable s0 (s.delaySet g delay) := by
  have redelayed : SameTable s0 ((s.group g).queue.foldl (fun s h => s.updCall h (s.redelayed delay)) s) :=
    foldl (fun {s} h q => q.updCall h (redelayed_handle_hops s delay)) _ q
  unfold State.delaySet
  dsimp only
  split
  · exact redelayed.escalationStart g
  · exact redelayed

theorem delayCleared (q : SameTable s0 s) (g : GroupId) : SameTable s0 (s.delayCleared g) := by
  have cleared : SameTable s0 { s with
      calls := s.calls.map fun c =>
        if c.currentGroup = some g ∧ (c.state = .queued ∨ c.state = .offering) then
          { c with escalated := false, escDeadline := none }
        else c } := q.mapCalls fun c => by split <;> exact ⟨rfl, rfl⟩
  unfold State.delayCleared
  dsimp only
  split
  · exact cleared.escalationClear g
  · exact cleared

theorem live (q : SameTable s0 s) (f : GroupFields) (b : Bool) (g : GroupId) : SameTable s0 (f.live b s g) := by
  unfold GroupFields.live
  have disabled : SameTable s0 (if b = true ∧ f.enabled = some false then s.disableGroup g else s) := by
    split
    · exact q.disableGroup g
    · exact q
  dsimp only
  generalize (if b = true ∧ f.enabled = some false then s.disableGroup g else s) = s1 at disabled ⊢
  have lowered : SameTable s0 (if f.queueLimit.isSome = true then State.lowerLimit (s1.group g).queue.length g s1 else s1) := by
    split
    · exact disabled.lowerLimit _ g
    · exact disabled
  split
  · exact lowered
  · exact lowered.delayCleared g
  · exact lowered.delaySet g _

theorem acceptSetGroup (s : State) (mask : Nat) (f : GroupFields) : SameTable s (acceptSetGroup s mask f) :=
  foldl (fun g q => q.live f _ g) _ ((refl s).of_calls rfl)

theorem cancelGroupRing (q : SameTable s0 s) (g : GroupId) (i : StationId) : SameTable s0 (s.cancelGroupRing g i) := by
  unfold State.cancelGroupRing
  split
  · split
    · exact q.leaveRing i _ _
    · exact q
  · exact q

theorem untry (q : SameTable s0 s) (g : GroupId) (i : StationId) : SameTable s0 (s.untry g i) :=
  q.mapCalls fun c => by split <;> exact ⟨rfl, rfl⟩

theorem acceptAdd (s : State) (g : GroupId) (i : StationId) (pos : Nat) (flag : Bool) : SameTable s (acceptAdd s g i pos flag) := by
  have added : SameTable s (s.updMembers g fun ms => ms.take pos ++ { station := i, loggedIn := flag } :: ms.drop pos) :=
    (refl s).of_calls rfl
  unfold Machine.acceptAdd
  dsimp only
  split
  · exact added.availability i
  · exact added

theorem acceptRemove (s : State) (g : GroupId) (i : StationId) : SameTable s (acceptRemove s g i) := by
  have removed : SameTable s ((s.updGroup g fun x => { x with cursor := cursorAfter (s.groupCfg g).members i x.cursor }).updMembers g
      fun ms => ms.filter fun m => !(m.station == i)) := (refl s).of_calls rfl
  exact (removed.untry g i).cancelGroupRing g i

theorem acceptLogin (s : State) (g : GroupId) (i : StationId) : SameTable s (acceptLogin s g i) := by
  unfold Machine.acceptLogin
  split
  · exact refl s
  · exact ((refl s).of_calls (t := s.updMembers g (setLoggedIn i true)) rfl).availability i

theorem acceptLogout (s : State) (g : GroupId) (i : StationId) : SameTable s (acceptLogout s g i) := by
  unfold Machine.acceptLogout
  split
  · exact ((refl s).of_calls (t := s.updMembers g (setLoggedIn i false)) rfl).cancelGroupRing g i
  · exact refl s

theorem enterFreshIdle (q : SameTable s0 s) (i : StationId) : SameTable s0 (s.enterFreshIdle i) :=
  enterState (s := s.updStation i fun r => { r with idleSince := s.now, saturated := false }) (q.of_calls rfl) i .idle

theorem applyInUse (q : SameTable s0 s) (b : Bool) (i : StationId) : SameTable s0 (s.applyInUse b i) := by
  unfold State.applyInUse
  split
  · unfold State.bringIntoUse
    split
    · exact (q.enterFreshIdle i).availability i
    · exact q
  · unfold State.takeOutOfUse
    split
    · exact q
    · exact q.leaveRing i _ _
    · exact q.enterState i _
    · exact q.enterState i _
    · exact q.enterState i _
    · exact q.enterState i _

theorem acceptSetStation (s : State) (first last : Nat) (f : StationFields) : SameTable s (acceptSetStation s first last f) := by
  have written : SameTable s (s.writeStations first last f.write) := (refl s).of_calls rfl
  unfold Machine.acceptSetStation
  dsimp only
  split
  · exact written
  · exact foldl (fun i q => q.applyInUse _ i) _ written

/-! ## STATION reports (R7 to R10) -/

theorem reportOffhook (s : State) (i : StationId) : SameTable s (reportOffhook s i) := by
  unfold Machine.reportOffhook
  split
  · exact (refl s).enterState i _
  · exact (refl s).leaveRing i _ _
  · exact (refl s).enterState i _
  · exact refl s
  · exact refl s
  · exact refl s

theorem reportOutOfService (s : State) (i : StationId) : SameTable s (reportOutOfService s i) := by
  unfold Machine.reportOutOfService
  split
  · exact (refl s).enterState i _
  · exact (refl s).enterState i _
  · exact (refl s).leaveRing i _ _
  · exact (refl s).enterState i _
  · exact refl s
  · exact refl s

theorem reportOnhook (s : State) (i : StationId) : SameTable s (reportOnhook s i) := by
  unfold Machine.reportOnhook
  split
  · exact ((refl s).enterFreshIdle i).availability i
  · exact refl s
  · exact refl s
  · exact refl s
  · exact refl s
  · exact refl s

theorem reportInService (s : State) (i : StationId) : SameTable s (reportInService s i) := by
  unfold Machine.reportInService
  split
  · exact ((refl s).enterFreshIdle i).availability i
  · exact refl s
  · exact refl s
  · exact refl s
  · exact refl s
  · exact refl s

/-! ## The link -/

theorem transmitTake (q : SameTable s0 s) : SameTable s0 s.transmitTake := q.of_calls (by rw [transmitTake_stays])

theorem finish (q : SameTable s0 s) : SameTable s0 s.finish := q.flush.transmitTake

end SameTable

/-! ## The call table (R25, R28, R75) -/

namespace CallTableFits

variable {s t : State}

theorem same (w : CallTableFits s) (q : SameTable s t) : CallTableFits t := by
  obtain ⟨room, once, each⟩ := w
  have length : t.calls.length = s.calls.length := by simpa using congrArg List.length q.handles
  refine ⟨length ▸ room, q.handles ▸ once, fun c hc => ?_⟩
  have old : c.handle ∈ s.calls.map Call.handle := q.handles ▸ List.mem_map_of_mem hc
  obtain ⟨d, hd, e⟩ := List.mem_map.1 old
  obtain ⟨h1, h2, -⟩ := each d hd
  exact ⟨e ▸ h1, e ▸ h2, q.hops (fun x hx => (each x hx).2.2) c hc⟩

theorem calls_eq (w : CallTableFits s) (h : t.calls = s.calls) : CallTableFits t := w.same ((SameTable.refl s).of_calls h)

theorem still (w : CallTableFits s) (k : Still s t) : CallTableFits t := w.calls_eq k.calls

theorem no_calls (h : s.calls = []) : CallTableFits s := by simp [CallTableFits, h]

/-- A new record under a new handle takes a FREE place (R25, R32, R102). -/
theorem addCall (w : CallTableFits s) {c : Call} (h1 : 1 ≤ c.handle) (h2 : c.handle ≤ 65535) (hnew : s.findCall c.handle = none)
    (hroom : s.calls.length < Config.callRecords) (hhops : c.hops = 0) : CallTableFits (s.addCall c) := by
  obtain ⟨-, once, each⟩ := w
  have new : c.handle ∉ s.calls.map Call.handle := by
    unfold State.findCall at hnew
    simpa using hnew
  refine ⟨by simpa using hroom, ?_, fun d hd => ?_⟩
  · rw [State.addCall_calls, List.map_append]
    exact List.nodup_append.2 ⟨once, List.nodup_singleton _, fun x hx y hy e => new (by simp_all)⟩
  · rcases List.mem_append.1 hd with hd | hd
    · exact each d hd
    · obtain rfl := List.mem_singleton.1 hd
      exact ⟨h1, h2, hhops ▸ Nat.zero_le _⟩

/-- A record becomes FREE (R38). -/
theorem dropCall (w : CallTableFits s) (h : Handle) : CallTableFits (s.dropCall h) := by
  obtain ⟨room, once, each⟩ := w
  exact ⟨(List.length_filter_le _ _).trans room, once.sublist (List.filter_sublist.map _), fun c hc => each c (List.mem_filter.1 hc).1⟩

theorem of_dispatch {row : Row} {f : Frame} {handle : State → Handled} (e : dispatch row f handle s = .next t) (w : CallTableFits s)
    (h : ∀ u, CallTableFits u → CallTableFits (handle u).st) : CallTableFits t := by
  obtain ⟨rest, -, -, -, e'⟩ | e' := dispatch_answers row f handle s <;> rw [e'] at e <;> cases e
  · exact ((h (s.takeHead rest) w).same (SameTable.refl _).flush).calls_eq (answer_calls _ _ _ _)
  · exact w

theorem of_event {b : Bool} {effect : State → State} (e : event s b effect = .next t) (w : CallTableFits s)
    (h : SameTable s (effect s)) : CallTableFits t := by
  obtain ⟨-, -, e'⟩ | e' := event_answers s b effect <;> rw [e'] at e <;> cases e
  · exact w.same h.finish
  · exact w

theorem transmissionEnds (w : CallTableFits s) (f : TxFrame) : CallTableFits (s.transmissionEnds f) := by
  unfold State.transmissionEnds
  split
  · exact no_calls rfl
  · exact (w.dropCall _).same (SameTable.updLink (.refl _) _).finish
  · exact w.same (SameTable.updLink (.refl _) _).finish
  · exact w.same (SameTable.updLink (.refl _) _).finish
  · exact w.same (SameTable.updLink (.refl _) _).finish

theorem endSave (s : State) (o : SaveOutcome) : SameTable s (endSave s o) := by
  unfold Machine.endSave
  split
  · exact .refl s
  · exact (SameTable.refl s).of_calls rfl

theorem handleCallIn (w : CallTableFits s) (body : List Octet) : CallTableFits (handleCallIn body s).st :=
  handleCallIn_ind w body fun k caller flag g h1 h2 hnew hroom =>
    (w.addCall (c := arrivedCall k caller flag g (s.groupCfg g).maxWait s.now) h1 h2 hnew hroom rfl).same
      ((SameTable.refl _).arrive _ k g).flush

theorem exec (w : CallTableFits s) (i : Instr) (e : exec i s = .next t) : CallTableFits t := by
  unfold Machine.exec at e
  cases i with
  | powerOnReset b => cases e; exact no_calls rfl
  | pinReset =>
    dsimp only at e
    unfold execPinReset at e
    split at e <;> cases e
    · exact no_calls rfl
    · exact w
  | linkReset =>
    dsimp only at e
    unfold execLinkReset at e
    split at e
    · split at e <;> cases e
      · exact w.transmissionEnds _
      · exact w
    · cases e
      exact w
  | frameTransmitted =>
    dsimp only at e
    unfold execFrameTransmitted at e
    split at e <;> cases e
    · exact w.transmissionEnds _
    · exact w
  | leavesReset =>
    dsimp only at e
    unfold execLeavesReset at e
    split at e <;> cases e <;> exact w
  | lossOfPower => cases e; exact w
  | frameReceived k tag body check => exact of_event e w (.of_still (.refl s) ((Still.refl s).receiveAll _))
  | octetReceived o b => exact of_event e w (.of_still (.refl s) ((Still.refl s).receiveOctet o b))
  | rxOctetTimeout => exact of_event e w (.of_still (.refl s) (Still.refl s).abandonFrame)
  | unknownKind k tag body => exact of_dispatch e w fun _ w => w
  | callIn tag body => exact of_dispatch e w fun _ w => w.handleCallIn body
  | answer tag body =>
    exact of_dispatch e w fun u w => handleAnswer_ind w body fun _ k _ _ _ => w.same ((SameTable.refl u).endCall k _ _)
  | hangup tag body => exact of_dispatch e w fun u w => handleHangup_ind w body fun k _ _ _ => w.same ((SameTable.refl u).endCall k _ _)
  | stationOffhook tag body => exact of_dispatch e w fun u w => handleReport_ind w (fun i => w.same (.reportOffhook u i)) body
  | stationOnhook tag body => exact of_dispatch e w fun u w => handleReport_ind w (fun i => w.same (.reportOnhook u i)) body
  | stationOutOfService tag body => exact of_dispatch e w fun u w => handleReport_ind w (fun i => w.same (.reportOutOfService u i)) body
  | stationInService tag body => exact of_dispatch e w fun u w => handleReport_ind w (fun i => w.same (.reportInService u i)) body
  | pickup tag body => exact of_dispatch e w fun u w => handlePickup_ind w body fun _ _ k _ => w.same ((SameTable.refl u).endCall k _ _)
  | dpickup tag body =>
    exact of_dispatch e w fun u w => handleDpickup_ind w body (fun _ _ k _ => w.same ((SameTable.refl u).endCall k _ _))
      (fun _ _ k _ => w.same ((SameTable.refl u).endCall k _ _)) fun _ _ c _ => w.same ((SameTable.refl u).endCall c.handle _ _)
  | park tag body =>
    exact of_dispatch e w fun u w => handlePark_ind w body fun k caller flag r o h1 h2 hnew hroom _ =>
      w.addCall (c := parkedCall u k caller flag r o) h1 h2 hnew hroom rfl
  | page tag body => exact of_dispatch e w fun u w => w.still (.handlePage u body)
  | pageEnd tag body => exact of_dispatch e w fun u w => w.still (.handlePageEnd u body)
  | status tag body => exact of_dispatch e w fun u w => w.still (.handleStatus u body)
  | getStation tag body => exact of_dispatch e w fun u w => w.still (.queryBy u _ _ _ body)
  | getCall tag body => exact of_dispatch e w fun u w => w.still (.handleGetCall u body)
  | listQueue tag body => exact of_dispatch e w fun u w => w.still (.queryBy u _ _ _ body)
  | getOrbits tag body => exact of_dispatch e w fun u w => w.still (.handleGetOrbits u body)
  | getPage tag body => exact of_dispatch e w fun u w => w.still (.queryBy u _ _ _ body)
  | getOutput tag body => exact of_dispatch e w fun u w => w.still (.queryBy u _ _ _ body)
  | getGroup tag body => exact of_dispatch e w fun u w => w.still (.queryBy u _ _ _ body)
  | getDir tag body => exact of_dispatch e w fun u w => w.still (.handleGetDir u body)
  | setSystem tag body => exact of_dispatch e w fun u w => w.still (.handleSetSystem u body)
  | setDirAdd tag body => exact of_dispatch e w fun u w => w.still (.handleSetDirAdd u body)
  | setDirRemove tag body => exact of_dispatch e w fun u w => w.still (.handleSetDirRemove u body)
  | setStation tag body => exact of_dispatch e w fun u w => handleSetStation_ind w body fun a b f => w.same (.acceptSetStation u a b f)
  | setGroup tag body => exact of_dispatch e w fun u w => handleSetGroup_ind w body fun m f => w.same (.acceptSetGroup u m f)
  | setMembersAdd tag body =>
    exact of_dispatch e w fun u w => handleSetMembersAdd_ind w body fun g i pos flag _ _ => w.same (.acceptAdd u g i pos flag)
  | setMembersRemove tag body => exact of_dispatch e w fun u w => handleMember_ind w (fun g i => w.same (.acceptRemove u g i)) body
  | setMembersLogin tag body => exact of_dispatch e w fun u w => handleMember_ind w (fun g i => w.same (.acceptLogin u g i)) body
  | setMembersLogout tag body => exact of_dispatch e w fun u w => handleMember_ind w (fun g i => w.same (.acceptLogout u g i)) body
  | setPickup tag body => exact of_dispatch e w fun u w => w.still (.handleSetPickup u body)
  | setList tag body => exact of_dispatch e w fun u w => w.still (.handleSetList u body)
  | setMap tag body => exact of_dispatch e w fun u w => w.still (.handleSetMap u body)
  | setOutput tag body => exact of_dispatch e w fun u w => w.still (.handleSetOutput u body)
  | setChime tag body => exact of_dispatch e w fun u w => w.still (.handleSetChime u body)
  | save tag body => exact of_dispatch e w fun u w => handleSave_ind w body (w.calls_eq rfl)
  | reset tag body => exact of_dispatch e w fun u w => w.still (.handleReset u body)
  | noAnswerExpiry h => exact of_event e w ((SameTable.refl s).ringExpired h)
  | targetRingExpiry h => exact of_event e w ((SameTable.refl s).ringExpired h)
  | attendantRingExpiry h => exact of_event e w ((SameTable.refl s).endCall h _ _)
  | recallRingExpiry h => exact of_event e w ((SameTable.refl s).ringExpired h)
  | waitDeadlineExpiry h => exact of_event e w ((SameTable.refl s).waitExpired h)
  | escalationDeadlineExpiry h => exact of_event e w ((SameTable.refl s).escExpired h)
  | parkDeadlineExpiry h => exact of_event e w ((SameTable.refl s).parkExpired h)
  | repeatDeadlineExpiry g => exact of_event e w (.of_still (.refl s) ((Still.refl s).repeatExpired g))
  | pageWaitExpiry p => exact of_event e w (.of_still (.refl s) ((Still.refl s).endPage p _))
  | guardExpiry o => exact of_event e w (.of_still (.refl s) ((Still.refl s).guardEnds o))
  | chimePeriodEnd p => exact of_event e w (.of_still (.refl s) ((Still.refl s).periodEnds p))
  | windowEnd o => exact of_event e w (.of_still (.refl s) ((Still.refl s).endWindow o))
  | outputBlock inputs noise => exact of_event e w (.of_still (.refl s) ((Still.refl s).buildBlocks inputs noise))
  | saveWriteComplete b => exact of_event e w (endSave s _)
  | saveDeadlineExpiry => exact of_event e w (endSave s _)
  | idleAgeSaturated i => exact of_event e w ((SameTable.refl s).of_calls rfl)
  | queueAgeSaturated h => exact of_event e w ((SameTable.refl s).updCall h (by exact fun _ => ⟨rfl, rfl⟩))
  | arrivalAgeSaturated h => exact of_event e w ((SameTable.refl s).updCall h (by exact fun _ => ⟨rfl, rfl⟩))
  | requestAgeSaturated p => exact of_event e w ((SameTable.refl s).of_calls rfl)

theorem step (w : CallTableFits s) (e : step s = .next t) : CallTableFits t := by
  unfold Machine.step at e
  split at e
  · rename_i i rest _
    exact exec (s := { s with pending := rest }) w i e
  · cases e
    unfold State.idle
    split
    · exact w
    · split
      · exact w.same (SameTable.refl s).transmitTake
      · exact w

end CallTableFits

/-- Settles O6, by the records and the hop counts that every operation keeps. -/
theorem callTableStaysWhole : Obligations.CallTableStaysWhole :=
  fun _ _ w e => w.step e

end Sys2Proof.Machine
end

