-- ==== Sys2Proof/Proofs/Orderly.lean ====
section
/-! SUPPORT. The agreement of the call records with queues, rings, orbits and call orders, but for one call in hand; and the elementary updates that keep it. -/

namespace Sys2Proof.Machine

/-! ## A record by itself (R27, R33) -/

/-- The fields of a record fit its state by the table of R27, whatever the rest of the machine holds. -/
def Call.Shape (c : Call) : Prop :=
  match c.state with
  | .queued =>
    c.currentGroup.isSome = true ∧ c.offered = [] ∧ c.queueEntry.isSome = true ∧ c.ringDeadline = none ∧ c.parkDeadline = none ∧
      c.orbit = none ∧ c.parker = none ∧ c.outcome = none ∧ c.offerKind = none
  | .offering =>
    c.offered ≠ [] ∧ (c.offered.map Offer.station).Nodup ∧ c.offered.length ≤ 32 ∧ c.ringDeadline.isSome = true ∧
      c.escDeadline = none ∧ c.parkDeadline = none ∧ c.orbit = none ∧ c.parker = none ∧ c.outcome = none ∧
      (c.offerKind = some .group ∧ c.currentGroup.isSome = true ∨
        (c.offerKind = some .target ∨ c.offerKind = some .attendant) ∧ c.currentGroup = none ∧ c.waitDeadline = none)
  | .parked =>
    c.currentGroup = none ∧ c.offered = [] ∧ c.ringDeadline = none ∧ c.waitDeadline = none ∧ c.escDeadline = none ∧
      c.parkDeadline.isSome = true ∧ c.orbit.isSome = true ∧ c.parker.isSome = true ∧ c.outcome = none ∧ c.offerKind = none
  | .recalling =>
    c.currentGroup = none ∧ (∃ x, c.offered = [x] ∧ c.parker = some x.station) ∧ c.ringDeadline.isSome = true ∧
      c.waitDeadline = none ∧ c.escDeadline = none ∧ c.parkDeadline = none ∧ c.orbit.isSome = true ∧ c.outcome = none ∧
      c.offerKind = some .recalling
  | .ending =>
    c.currentGroup = none ∧ c.offered = [] ∧ c.ringDeadline = none ∧ c.waitDeadline = none ∧ c.escDeadline = none ∧
      c.parkDeadline = none ∧ c.orbit = none ∧ c.parker = none ∧ c.outcome.isSome = true ∧ c.offerKind = none

/-- The escalation deadline of a QUEUED call at a group with delay `n`: present exactly while the group has a delay and the call is
not escalated (R27, R80, R86). -/
def Call.DelayFits (c : Call) (n : Nat) : Prop := c.escDeadline.isSome = true ↔ n ≠ 0 ∧ c.escalated = false

/-- A record fits its state when its fields do, and a QUEUED one its queue and its group's delay. -/
theorem callFits_iff (s : State) (c : Call) :
    CallFits s c ↔ c.Shape ∧ (c.state = .queued →
      ∃ g, c.currentGroup = some g ∧ c.handle ∈ (s.group g).queue ∧ c.DelayFits (s.groupCfg g).escDelay) := by
  unfold CallFits Call.Shape Call.DelayFits
  cases hst : c.state
  case queued =>
    constructor
    · rintro ⟨⟨g, h1, h2, h3⟩, rest⟩
      exact ⟨⟨by simp [h1], rest⟩, fun _ => ⟨g, h1, h2, h3⟩⟩
    · rintro ⟨⟨-, rest⟩, place⟩
      exact ⟨place rfl, rest⟩
  all_goals simp

/-- The record stays in its place: its state, its group, its offered stations and its orbit are as before, and its fields still fit. -/
structure Call.Keeps (c d : Call) : Prop where
  state : d.state = c.state
  group : d.currentGroup = c.currentGroup
  offered : d.offered = c.offered
  orbit : d.orbit = c.orbit
  shape : c.Shape → d.Shape

theorem Call.Keeps.refl (c : Call) : c.Keeps c := ⟨rfl, rfl, rfl, rfl, id⟩

/-! ## The agreement but for the calls in hand -/

/-- The agreement of `CallsAgree` for every call but those of `X`, which the engine has in hand. The escalation deadlines of the calls
queued at groups of `G` await a new delay, and a queue may hold up to `cap` calls where that is above its limit. -/
structure Orderly (X : Handle → Prop) (G : GroupId → Prop) (cap : GroupId → Nat) (s : State) : Prop where
  handles : (s.calls.map Call.handle).Nodup
  rings : ∀ i h, ¬ X h → ((s.station i).state = .ringing h ↔ ∃ c, s.findCall h = some c ∧ i ∈ c.offered.map Offer.station)
  queue : ∀ g h, ¬ X h → (h ∈ (s.group g).queue ↔ ∃ c, s.findCall h = some c ∧ c.state = .queued ∧ c.currentGroup = some g)
  once : ∀ g, (s.group g).queue.Nodup
  room : ∀ g, (s.group g).queue.length ≤ max (cap g) (s.groupCfg g).queueLimit
  shape : ∀ h c, ¬ X h → s.findCall h = some c → c.Shape
  delay : ∀ h c g, ¬ X h → s.findCall h = some c → c.state = .queued → c.currentGroup = some g →
    (c.escalated = true → c.escDeadline = none) ∧ (¬ G g → c.DelayFits (s.groupCfg g).escDelay)
  orbits : ∀ h k c d, ¬ X h → ¬ X k → s.findCall h = some c → s.findCall k = some d → c.orbit.isSome = true → c.orbit = d.orbit → h = k
  ordersOnce : s.link.callOrders.Nodup
  ending : ∀ h, ¬ X h → (h ∈ s.link.callOrders ↔ ∃ c, s.findCall h = some c ∧ c.state = .ending)
  line : ∀ x h, s.link.tx = some x → x.item = .callEnd h → h ∈ s.link.callOrders
  members : s.cfg.MembersFit
  stored : ∀ c, s.stored = some c → c.MembersFit
  save : ∀ r, s.save = some r → r.config.MembersFit

/-- No call is in hand, no delay is awaited and no queue is above its limit. -/
abbrev Tidy (s : State) : Prop := Orderly (fun _ => False) (fun _ => False) (fun _ => 0) s

theorem State.findCall_iff {s : State} (hn : (s.calls.map Call.handle).Nodup) (h : Handle) (c : Call) :
    s.findCall h = some c ↔ c ∈ s.calls ∧ c.handle = h := by
  refine ⟨fun hc => ⟨List.mem_of_find?_eq_some hc, findCall_handle hc⟩, fun ⟨hm, e⟩ => ?_⟩
  unfold findCall
  subst e
  cases hf : s.calls.find? fun d => d.handle == c.handle with
  | none => exact absurd (List.find?_eq_none.1 hf c hm) (by simp)
  | some d =>
    have e : d.handle = c.handle := by simpa using List.find?_some hf
    rw [List.inj_on_of_nodup_map hn (List.mem_of_find?_eq_some hf) hm e]

theorem callsAgree_iff (s : State) : CallsAgree s ↔ Tidy s := by
  constructor
  · rintro ⟨handles, fits, queues, orbits, rings, ordersOnce, ending, line, members, stored, save⟩
    have fit : ∀ {h c}, s.findCall h = some c → c.Shape ∧ (c.state = .queued →
        ∃ g, c.currentGroup = some g ∧ h ∈ (s.group g).queue ∧ c.DelayFits (s.groupCfg g).escDelay) := fun {h c} hc =>
      State.findCall_handle hc ▸ (callFits_iff s c).1 (fits c (List.mem_of_find?_eq_some hc))
    refine ⟨handles, fun i h _ => rings i h, fun g h _ => ⟨(queues g).2.2 h, ?_⟩, fun g => (queues g).1,
      fun g => (queues g).2.1.trans (Nat.le_max_right _ _), fun h c _ hc => (fit hc).1, fun h c g _ hc hq hg => ?_,
      fun h k c d _ _ hc hd ho e => ?_, ordersOnce, fun h _ => ending h, line, members, stored, save⟩
    · rintro ⟨c, hc, hq, hg⟩
      obtain ⟨g', h1, h2, -⟩ := (fit hc).2 hq
      exact Option.some.inj (h1.symm.trans hg) ▸ h2
    · obtain ⟨g', h1, -, h3⟩ := (fit hc).2 hq
      obtain rfl := Option.some.inj (h1.symm.trans hg)
      refine ⟨fun he => ?_, fun _ => h3⟩
      unfold Call.DelayFits at h3
      cases hd : c.escDeadline with
      | none => rfl
      | some t => simp [hd, he] at h3
    · rw [← State.findCall_handle hc, ← State.findCall_handle hd,
        orbits c (List.mem_of_find?_eq_some hc) d (List.mem_of_find?_eq_some hd) ho e]
  · intro q
    have find : ∀ {c}, c ∈ s.calls → s.findCall c.handle = some c := fun hc => (State.findCall_iff q.handles _ _).2 ⟨hc, rfl⟩
    refine ⟨q.handles, fun c hc => (callFits_iff s c).2 ⟨q.shape _ c id (find hc), fun hq => ?_⟩,
      fun g => ⟨q.once g, by simpa using q.room g, fun h => (q.queue g h id).1⟩,
      fun c hc d hd ho e => ?_, fun i h => q.rings i h id, q.ordersOnce, fun h => q.ending h id, q.line, q.members, q.stored, q.save⟩
    · have sh := q.shape _ c id (find hc)
      unfold Call.Shape at sh
      rw [hq] at sh
      obtain ⟨g, hg⟩ := Option.isSome_iff_exists.1 sh.1
      exact ⟨g, hg, (q.queue g _ id).2 ⟨c, find hc, hq, hg⟩, (q.delay _ c g id (find hc) hq hg).2 id⟩
    · have := q.orbits _ _ c d id id (find hc) (find hd) ho e
      exact List.inj_on_of_nodup_map q.handles hc hd this

namespace Orderly

variable {X X' : Handle → Prop} {G G' : GroupId → Prop} {cap cap' : GroupId → Nat} {s t : State} {h : Handle} {c : Call}

/-! ## Updates that leave the calls -/

/-- More calls are in hand, and more groups await a delay. -/
theorem weaken (q : Orderly X G cap s) (hX : ∀ h, X h → X' h) (hG : ∀ g, G g → G' g) : Orderly X' G' cap s :=
  ⟨q.handles, fun i h n => q.rings i h fun e => n (hX h e), fun g h n => q.queue g h fun e => n (hX h e), q.once, q.room,
    fun h c n => q.shape h c fun e => n (hX h e),
    fun h c g n hc hq hg => (q.delay h c g (fun e => n (hX h e)) hc hq hg).imp id fun k ng => k fun e => ng (hG g e),
    fun h k c d n m => q.orbits h k c d (fun e => n (hX h e)) fun e => m (hX k e), q.ordersOnce,
    fun h n => q.ending h fun e => n (hX h e), q.line, q.members, q.stored, q.save⟩

/-- A call is taken in hand. -/
theorem inHand (q : Orderly (fun _ => False) G cap s) (h : Handle) : Orderly (· = h) G cap s := q.weaken (fun _ => False.elim) fun _ => id

theorem recap (q : Orderly X G cap s) (hr : ∀ g, (s.group g).queue.length ≤ max (cap' g) (s.groupCfg g).queueLimit) : Orderly X G cap' s :=
  { q with room := hr }

theorem of_still (q : Orderly X G cap s) (k : Still s t) : Orderly X G cap t := by
  refine ⟨k.calls ▸ q.handles, fun i h n => ?_, fun g h n => ?_, fun g => k.queue g ▸ q.once g, fun g => ?_, fun h c n hc => ?_,
    fun h c g n hc => ?_, fun h j c d n m hc hd => ?_, k.orders ▸ q.ordersOnce, fun h n => ?_, fun x h hx hi => ?_, ?_, ?_, ?_⟩
  · rw [k.rings, k.findCall]
    exact q.rings i h n
  · rw [k.queue, k.findCall]
    exact q.queue g h n
  · rw [k.queue, k.groupCfg]
    exact q.room g
  · exact q.shape h c n (k.findCall h ▸ hc)
  · rw [k.groupCfg]
    exact q.delay h c g n (k.findCall h ▸ hc)
  · exact q.orbits h j c d n m (k.findCall h ▸ hc) (k.findCall j ▸ hd)
  · rw [k.orders, k.findCall]
    exact q.ending h n
  · rw [k.orders]
    exact q.line x h (k.line ▸ hx) hi
  · have := q.members
    unfold WorkingConfig.MembersFit at this ⊢
    rw [k.groups]
    exact this
  · rw [k.stored]
    exact q.stored
  · rw [k.save]
    exact q.save

/-- Only the configuration has changed, and of it neither limits nor, but at groups of `G'`, delays. -/
theorem recfg (q : Orderly X G cap s) {f : WorkingConfig → WorkingConfig} (hm : (f s.cfg).MembersFit)
    (hr : ∀ g, (s.group g).queue.length ≤ max (cap' g) ((s.updCfg f).groupCfg g).queueLimit)
    (hd : ∀ g, ¬ G' g → ¬ G g ∧ ((s.updCfg f).groupCfg g).escDelay = (s.groupCfg g).escDelay) : Orderly X G' cap' (s.updCfg f) :=
  { q with
    members := hm
    room := hr
    delay := fun h c g n hc hq hg => (q.delay h c g n hc hq hg).imp id fun k ng => by
      rw [(hd g ng).2]
      exact k (hd g ng).1 }

/-! ## Updates of records -/

/-- The records are rewritten: calls in hand at will, the others staying in their places. -/
theorem rewrite (q : Orderly X G cap s) {F : Handle → Call → Call} (ht : t = { s with calls := t.calls })
    (hh : t.calls.map Call.handle = s.calls.map Call.handle) (hfind : ∀ k, t.findCall k = (s.findCall k).map (F k))
    (hF : ∀ k c, ¬ X k → s.findCall k = some c → c.Keeps (F k c))
    (hdelay : ∀ k c g, ¬ X k → s.findCall k = some c → c.state = .queued → c.currentGroup = some g →
      ((F k c).escalated = true → (F k c).escDeadline = none) ∧ (¬ G' g → (F k c).DelayFits (s.groupCfg g).escDelay)) :
    Orderly X G' cap t := by
  have station : ∀ i, t.station i = s.station i := fun i => by rw [ht]; rfl
  have group : ∀ g, t.group g = s.group g := fun g => by rw [ht]; rfl
  have groupCfg : ∀ g, t.groupCfg g = s.groupCfg g := fun g => by rw [ht]; rfl
  have link : t.link = s.link := by rw [ht]
  have found : ∀ {k d}, ¬ X k → t.findCall k = some d → ∃ c, s.findCall k = some c ∧ c.Keeps d ∧ d = F k c := fun {k d} n hd => by
    rw [hfind, Option.map_eq_some_iff] at hd
    obtain ⟨c, hc, rfl⟩ := hd
    exact ⟨c, hc, hF k c n hc, rfl⟩
  have some_iff : ∀ {k} {P Q : Call → Prop}, ¬ X k → (∀ c d, c.Keeps d → (P d ↔ Q c)) →
      ((∃ d, t.findCall k = some d ∧ P d) ↔ ∃ c, s.findCall k = some c ∧ Q c) := fun {k P Q} n hPQ => by
    constructor
    · rintro ⟨d, hd, hp⟩
      obtain ⟨c, hc, keeps, -⟩ := found n hd
      exact ⟨c, hc, (hPQ c d keeps).1 hp⟩
    · rintro ⟨c, hc, hq⟩
      exact ⟨F k c, by rw [hfind, hc]; rfl, (hPQ c _ (hF k c n hc)).2 hq⟩
  refine ⟨hh ▸ q.handles, fun i k n => ?_, fun g k n => ?_, fun g => group g ▸ q.once g, fun g => ?_, fun k d n hd => ?_,
    fun k d g n hd hq hg => ?_, fun k j d e n m hd he ho eq => ?_, link ▸ q.ordersOnce, fun k n => ?_, fun x k hx hi => ?_,
    by rw [ht]; exact q.members, by rw [ht]; exact q.stored, by rw [ht]; exact q.save⟩
  · rw [station, q.rings i k n, some_iff n fun c d keeps => by rw [keeps.offered]]
  · rw [group, q.queue g k n, some_iff n fun c d keeps => by rw [keeps.state, keeps.group]]
  · rw [group, groupCfg]
    exact q.room g
  · obtain ⟨c, hc, keeps, -⟩ := found n hd
    exact keeps.shape (q.shape k c n hc)
  · obtain ⟨c, hc, keeps, rfl⟩ := found n hd
    rw [groupCfg]
    exact hdelay k c g n hc (keeps.state ▸ hq) (keeps.group ▸ hg)
  · obtain ⟨c, hc, keeps, -⟩ := found n hd
    obtain ⟨c', hc', keeps', -⟩ := found m he
    exact q.orbits k j c c' n m hc hc' (keeps.orbit ▸ ho) (by rw [← keeps.orbit, ← keeps'.orbit, eq])
  · rw [link, q.ending k n, some_iff n fun c d keeps => by rw [keeps.state]]
  · rw [link] at hx ⊢
    exact q.line x k hx hi

theorem findCall_updCall (s : State) (h : Handle) {f : Call → Call} (hf : ∀ c, (f c).handle = c.handle) (k : Handle) :
    (s.updCall h f).findCall k = (s.findCall k).map (if k = h then f else id) := by
  split
  · rename_i e
    rw [e, State.findCall_updCall_self s h f hf]
  · rename_i e
    rw [State.findCall_updCall_ne s e f hf, Option.map_id_fun, id]

/-- A call in hand changes at will. -/
theorem updHeld (q : Orderly X G cap s) (hx : X h) {f : Call → Call} (hf : ∀ c, (f c).handle = c.handle) : Orderly X G cap (s.updCall h f) := by
  refine q.rewrite (F := fun k => if k = h then f else id) rfl (s.updCall_handles h hf) (findCall_updCall s h hf) (fun k c n _ => ?_)
    fun k c g n hc hq hg => ?_ <;> rw [if_neg fun e => n (by rwa [e])]
  · exact .refl c
  · exact q.delay k c g n hc hq hg

/-- Every call is rewritten and stays in its place. -/
theorem mapCalls (q : Orderly X G cap s) {f : Call → Call} (hf : ∀ c, (f c).handle = c.handle) (hk : ∀ c : Call, c.Keeps (f c))
    (hdelay : ∀ k c g, ¬ X k → s.findCall k = some c → c.state = .queued → c.currentGroup = some g →
      ((f c).escalated = true → (f c).escDeadline = none) ∧ (¬ G' g → (f c).DelayFits (s.groupCfg g).escDelay)) :
    Orderly X G' cap { s with calls := s.calls.map f } :=
  q.rewrite (F := fun _ => f) rfl (by simp [Function.comp_def, hf]) (s.findCall_map hf) (fun _ c _ _ => hk c) hdelay

/-- A call is rewritten and stays in its place, with the escalation fields it had. -/
theorem updKept (q : Orderly X G cap s) (h : Handle) {f : Call → Call} (hf : ∀ c, (f c).handle = c.handle) (hk : ∀ c : Call, c.Keeps (f c))
    (he : ∀ c, (f c).escalated = c.escalated ∧ (f c).escDeadline = c.escDeadline) : Orderly X G cap (s.updCall h f) := by
  refine q.rewrite (F := fun k => if k = h then f else id) rfl (s.updCall_handles h hf) (findCall_updCall s h hf) (fun k c _ _ => ?_)
    fun k c g n hc hq hg => ?_ <;> split
  · exact hk c
  · exact .refl c
  · unfold Call.DelayFits
    rw [(he c).1, (he c).2]
    exact q.delay k c g n hc hq hg
  · exact q.delay k c g n hc hq hg

/-! ## Rings, queues and call orders -/

/-- A station enters a state; before and after it rings for no call but one in hand. -/
theorem enterState (q : Orderly X G cap s) {i : StationId} {st : StationState} (h1 : ∀ k, ¬ X k → (s.station i).state ≠ .ringing k)
    (h2 : ∀ k, ¬ X k → st ≠ .ringing k) : Orderly X G cap (s.enterState i st) := by
  obtain ⟨stays, link⟩ := s.enterState_stays i st
  have group : ∀ g, (s.enterState i st).group g = s.group g := fun g => by rw [stays]; rfl
  have find : ∀ k, (s.enterState i st).findCall k = s.findCall k := fun k => by rw [stays]; rfl
  have groupCfg : ∀ g, (s.enterState i st).groupCfg g = s.groupCfg g := fun g => by rw [stays]; rfl
  refine ⟨by simpa using q.handles, fun j k n => ?_, fun g k n => by rw [group, find]; exact q.queue g k n, fun g => group g ▸ q.once g,
    fun g => by rw [group, groupCfg]; exact q.room g, fun k c n hc => q.shape k c n (find k ▸ hc), fun k c g n hc => ?_,
    fun k j c d n m hc hd => q.orbits k j c d n m (find k ▸ hc) (find j ▸ hd), by rw [link]; exact q.ordersOnce,
    fun k n => by rw [link, find]; exact q.ending k n, fun x k hx => by rw [link] at hx ⊢; exact q.line x k hx,
    by simpa using q.members, by rw [stays]; exact q.stored, by rw [stays]; exact q.save⟩
  · rw [State.enterState_station, find, ← q.rings j k n]
    by_cases e : j = i
    · subst e
      rw [if_pos rfl]
      exact iff_of_false (h2 k n) (h1 k n)
    · rw [if_neg e]
  · rw [groupCfg]
    exact q.delay k c g n (find k ▸ hc)

/-- Stations of a list enter states one after another; before and after they ring for no call but one in hand. -/
theorem enterStates {α : Type} (q : Orderly X G cap s) (at' : α → StationId) (st : StationId → StationState) (l : List α)
    (h1 : ∀ x ∈ l, ∀ k, ¬ X k → (s.station (at' x)).state ≠ .ringing k) (h2 : ∀ i k, ¬ X k → st i ≠ .ringing k) :
    Orderly X G cap (l.foldl (fun s x => s.enterState (at' x) (st (at' x))) s) := by
  induction l generalizing s with
  | nil => exact q
  | cons x l ih =>
    refine ih (q.enterState (h1 x (by simp)) (h2 _)) fun y hy k n => ?_
    rw [State.enterState_station]
    split
    · exact h2 _ k n
    · exact h1 y (by simp [hy]) k n

theorem updGroup (q : Orderly X G cap s) {g : GroupId} {f : Group → Group} (hf : ∀ x, (f x).queue = x.queue) : Orderly X G cap (s.updGroup g f) :=
  q.of_still ((Still.refl s).updGroup g hf)

theorem advise (q : Orderly X G cap s) (a : Advisory) : Orderly X G cap (s.advise a) := q.of_still ((Still.refl s).advise a)

theorem group_updQueue (s : State) (g k : GroupId) (f : List Handle → List Handle) :
    ((s.updGroup g fun x => { x with queue := f x.queue }).group k).queue = if k = g then f (s.group k).queue else (s.group k).queue := by
  split
  · rename_i e
    rw [e, State.group_updGroup_self]
  · rename_i e
    rw [State.group_updGroup_ne s e]

/-- A queue changes by a call in hand alone. -/
theorem updQueue (q : Orderly X G cap s) {g : GroupId} {f : List Handle → List Handle} (hm : ∀ k l, ¬ X k → (k ∈ f l ↔ k ∈ l))
    (hn : (f (s.group g).queue).Nodup) (hr : (f (s.group g).queue).length ≤ max (cap g) (s.groupCfg g).queueLimit) :
    Orderly X G cap (s.updGroup g fun x => { x with queue := f x.queue }) := by
  refine { q with
    queue := fun k j n => ?_
    once := fun k => ?_
    room := fun k => ?_ }
  · rw [group_updQueue]
    split
    · rw [hm j _ n]
      exact q.queue k j n
    · exact q.queue k j n
  · rw [group_updQueue]
    split
    · rename_i e
      exact e ▸ hn
    · exact q.once k
  · rw [group_updQueue]
    split
    · rename_i e
      exact e ▸ hr
    · exact q.room k

/-- A call in hand leaves a queue, and escalation is cleared with the last escalated call there (R70). -/
theorem leaveQueue (q : Orderly X G cap s) (hx : X h) (g : GroupId) : Orderly X G cap (s.leaveQueue h g) := by
  have left : Orderly X G cap (s.updGroup g fun x => { x with queue := x.queue.filter fun k => !(k == h) }) := by
    refine q.updQueue (f := fun l => l.filter fun k => !(k == h)) (fun k l n => ?_) ((q.once g).filter _) ?_
    · have : k ≠ h := fun e => n (e ▸ hx)
      simp [this]
    · exact (List.length_filter_le _ _).trans (q.room g)
  unfold State.leaveQueue
  dsimp only
  split
  · exact left.of_still ((Still.refl _).escalationClear g)
  · exact left

/-- A call in hand joins the call order set. -/
theorem orderEnd (q : Orderly X G cap s) (hx : X h) (hn : h ∉ s.link.callOrders) :
    Orderly X G cap (s.updLink fun l => { l with callOrders := l.callOrders ++ [h] }) := by
  refine { q with
    ordersOnce := ?_
    ending := fun k n => ?_
    line := fun x k hx' hi => List.mem_append_left _ (q.line x k hx' hi) }
  · exact List.nodup_append.2 ⟨q.ordersOnce, List.nodup_singleton h, fun a ha b hb e => hn (by simp_all)⟩
  · have : k ≠ h := fun e => n (e ▸ hx)
    change k ∈ s.link.callOrders ++ [h] ↔ _
    rw [List.mem_append, List.mem_singleton, or_iff_left this]
    exact q.ending k n

/-! ## A call out of hand -/

/-- The call in hand has come to rest: it agrees with rings, queues, orbits and call orders. -/
theorem settle (q : Orderly (· = h) G cap s) (hc : s.findCall h = some c)
    (hr : ∀ i, (s.station i).state = .ringing h ↔ i ∈ c.offered.map Offer.station)
    (hq : ∀ g, h ∈ (s.group g).queue ↔ c.state = .queued ∧ c.currentGroup = some g)
    (he : h ∈ s.link.callOrders ↔ c.state = .ending) (hs : c.Shape)
    (hd : ∀ g, c.state = .queued → c.currentGroup = some g →
      (c.escalated = true → c.escDeadline = none) ∧ (¬ G g → c.DelayFits (s.groupCfg g).escDelay))
    (ho : c.orbit.isSome = true → ∀ k d, k ≠ h → s.findCall k = some d → c.orbit ≠ d.orbit) : Orderly (fun _ => False) G cap s := by
  have mine : ∀ {P : Call → Prop}, (∃ d, s.findCall h = some d ∧ P d) ↔ P c := by simp [hc]
  refine { q with
    rings := fun i k _ => ?_
    queue := fun g k _ => ?_
    shape := fun k d _ hk => ?_
    delay := fun k d g _ hk => ?_
    orbits := fun k j d e _ _ hk hj hsome eq => ?_
    ending := fun k _ => ?_ }
  · by_cases e : k = h
    · rw [e, hr, mine]
    · exact q.rings i k e
  · by_cases e : k = h
    · rw [e, hq, mine]
    · exact q.queue g k e
  · by_cases e : k = h
    · rw [e, hc] at hk
      exact Option.some.inj hk ▸ hs
    · exact q.shape k d e hk
  · by_cases e : k = h
    · rw [e, hc] at hk
      exact Option.some.inj hk ▸ hd g
    · exact q.delay k d g e hk
  · by_contra ne
    by_cases ek : k = h
    · rw [ek, hc] at hk
      obtain rfl := Option.some.inj hk
      exact ho hsome j e (fun x => ne (ek.trans x.symm)) hj eq
    · by_cases ej : j = h
      · rw [ej, hc] at hj
        obtain rfl := Option.some.inj hj
        exact ho (eq ▸ hsome) k d ek hk eq.symm
      · exact ne (q.orbits k j d e ek ej hk hj hsome eq)
  · by_cases e : k = h
    · rw [e, he, mine]
    · exact q.ending k e

end Orderly
end Sys2Proof.Machine
end

