-- ==== Sys2Proof/Proofs/OrderlyOffers.lean ====
section
/-! SUPPORT. Offers, reviews, availability events, the ends of calls and the rings outside the groups, each with what it keeps of the agreement of the calls. -/

namespace Sys2Proof.Machine

/-! ## The call in hand -/

/-- What is known of a call in hand that has not ended: its record, that the stations ringing for it are those it lists, and that it
waits, if at all, at its group. -/
structure Held (s : State) (h : Handle) (c : Call) : Prop where
  found : s.findCall h = some c
  rings : ∀ i, (s.station i).state = .ringing h ↔ i ∈ c.offered.map Offer.station
  queue : ∀ g, h ∈ (s.group g).queue → c.state = .queued ∧ c.currentGroup = some g
  going : h ∉ s.link.callOrders

/-- The call in hand rings nowhere, waits in no queue and has no outcome. -/
structure Adrift (s : State) (h : Handle) (c : Call) : Prop where
  held : Held s h c
  offered : c.offered = []
  away : ∀ g, h ∉ (s.group g).queue
  outcome : c.outcome = none

/-- A record with no park deadline, no orbit and no parker. -/
def Call.Bare (c : Call) : Prop := c.parkDeadline = none ∧ c.orbit = none ∧ c.parker = none

/-- The record of a call that ends is cleared (R35 step 5). -/
def Call.cleared (o : CallOutcome) (c : Call) : Call :=
  { c with
    offered := [], currentGroup := none, tried := [], ringDeadline := none, waitDeadline := none, escDeadline := none,
    parkDeadline := none, escalated := false, waitPassed := c.waitPassed && o.takesRing, offerKind := none, orbit := none,
    parker := none }

/-- From `s` to `t` no record but that of `h` has changed. -/
def Only (h : Handle) (s t : State) : Prop := ∀ k, k ≠ h → t.findCall k = s.findCall k

namespace Only

variable {s t u : State} {h : Handle}

theorem refl (h : Handle) (s : State) : Only h s s := fun _ _ => rfl

theorem trans (a : Only h s t) (b : Only h t u) : Only h s u := fun k e => (b k e).trans (a k e)

theorem of_still (k : Still s t) : Only h s t := fun x _ => k.findCall x

theorem of_calls (e : t.calls = s.calls) : Only h s t := fun k _ => by simp [State.findCall, e]

theorem updCall (s : State) (h : Handle) {f : Call → Call} (hf : ∀ c, (f c).handle = c.handle) : Only h s (s.updCall h f) :=
  fun _ e => State.findCall_updCall_ne s e f hf

end Only

namespace Held

variable {G : GroupId → Prop} {cap : GroupId → Nat} {s t : State} {h : Handle} {c : Call}

/-- A call of an orderly machine that has not ended. -/
theorem of_orderly (q : Orderly (fun _ => False) G cap s) (hc : s.findCall h = some c) (he : c.state ≠ .ending) : Held s h c := by
  refine ⟨hc, fun i => ?_, fun g hg => ?_, fun ho => ?_⟩
  · rw [q.rings i h id, hc]
    simp
  · obtain ⟨d, hd, h1, h2⟩ := (q.queue g h id).1 hg
    obtain rfl := Option.some.inj (hc.symm.trans hd)
    exact ⟨h1, h2⟩
  · obtain ⟨d, hd, h1⟩ := (q.ending h id).1 ho
    obtain rfl := Option.some.inj (hc.symm.trans hd)
    exact he h1

theorem quiet (a : Held s h c) (ho : c.offered = []) (i : StationId) : (s.station i).state ≠ .ringing h := by
  rw [ne_eq, a.rings, ho]
  simp

theorem away (a : Held s h c) (hq : c.state ≠ .queued) (g : GroupId) : h ∉ (s.group g).queue := fun hg => hq (a.queue g hg).1

/-- A call in hand that is neither ringing nor queued. -/
theorem adrift (a : Held s h c) (ho : c.offered = []) (hq : c.state ≠ .queued) (hn : c.outcome = none) : Adrift s h c :=
  ⟨a, ho, a.away hq, hn⟩

end Held

namespace Adrift

variable {s t : State} {h : Handle} {c : Call}

theorem found (a : Adrift s h c) : s.findCall h = some c := a.held.found

theorem quiet (a : Adrift s h c) (i : StationId) : (s.station i).state ≠ .ringing h := a.held.quiet a.offered i

theorem of_facts (h1 : s.findCall h = some c) (h2 : ∀ i, (s.station i).state ≠ .ringing h) (h3 : ∀ g, h ∉ (s.group g).queue)
    (h4 : h ∉ s.link.callOrders) (h5 : c.offered = []) (h6 : c.outcome = none) : Adrift s h c :=
  ⟨⟨h1, fun i => iff_of_false (h2 i) (by simp [h5]), fun g hg => absurd hg (h3 g), h4⟩, h5, h3, h6⟩

/-- The call in hand changes, and still rings nowhere. -/
theorem updCall (a : Adrift s h c) {f : Call → Call} (hf : ∀ c, (f c).handle = c.handle) (ho : (f c).offered = [])
    (hn : (f c).outcome = none) : Adrift (s.updCall h f) h (f c) :=
  of_facts (by rw [State.findCall_updCall_self s h f hf, a.found]; rfl) a.quiet a.away a.held.going ho hn

theorem of_still (a : Adrift s h c) (k : Still s t) : Adrift t h c :=
  of_facts ((k.findCall h).trans a.found) (fun i => (k.rings i h).not.2 (a.quiet i)) (fun g => k.queue g ▸ a.away g)
    (k.orders ▸ a.held.going) a.offered a.outcome

end Adrift

namespace State

/-! ## Selections (R46 to R52) -/

/-- The stations of a selection are distinct members of the group's list. -/
theorem candidates_sublist (s : State) (c : Call) (ms : List Member) : (s.candidates c ms).Sublist (ms.map Member.station) :=
  List.filter_sublist.map _

theorem circularWalk_perm (ms : List Member) (k : Option StationId) : (circularWalk ms k).Perm ms := by
  unfold circularWalk
  split
  · exact .refl _
  · exact List.perm_append_comm.trans (by rw [List.take_append_drop])

/-- A selection yields each station once, and at most 32 (R44, R47). -/
theorem select_fits {s : State} (hm : s.cfg.MembersFit) (g : GroupId) (c : Call) :
    (s.select g c).Nodup ∧ (s.select g c).length ≤ 32 := by
  obtain ⟨members, -⟩ := hm
  have fits : ∀ ms : List Member, ms.Perm (s.groupCfg g).members → (s.candidates c ms).Nodup ∧ (s.candidates c ms).length ≤ 32 := fun ms p => by
    refine ⟨((p.map _).nodup_iff.2 (members g).1).sublist (s.candidates_sublist c ms), ?_⟩
    have := (s.candidates_sublist c ms).length_le
    rw [List.length_map, p.length_eq] at this
    exact this.trans (members g).2
  unfold select
  dsimp only
  split
  · obtain ⟨h1, h2⟩ := fits _ (.refl _)
    exact ⟨h1.sublist (List.take_sublist _ _), by simp⟩
  · obtain ⟨h1, h2⟩ := fits _ (circularWalk_perm _ _)
    exact ⟨h1.sublist (List.take_sublist _ _), by simp⟩
  · generalize firstGreatest s.idleAge _ = x
    cases x <;> simp
  · exact fits _ (.refl _)

/-! ## Leaving a queue (R70) -/

/-- Beyond the queue itself, leaving a queue is the Page Arbiter's doing. -/
theorem leaveQueue_still (s : State) (h : Handle) (g : GroupId) :
    Still (s.updGroup g fun x => { x with queue := x.queue.filter fun k => !(k == h) }) (s.leaveQueue h g) := by
  unfold leaveQueue
  dsimp only
  split
  · exact (Still.refl _).escalationClear g
  · exact .refl _

theorem leaveQueue_queue (s : State) (h : Handle) (g k : GroupId) :
    ((s.leaveQueue h g).group k).queue = if k = g then (s.group k).queue.filter (fun x => !(x == h)) else (s.group k).queue := by
  rw [(s.leaveQueue_still h g).queue]
  exact Orderly.group_updQueue s g k fun l => l.filter fun x => !(x == h)

theorem leaveQueue_findCall (s : State) (h k : Handle) (g : GroupId) : (s.leaveQueue h g).findCall k = s.findCall k :=
  (s.leaveQueue_still h g).findCall k

theorem leaveQueue_rings (s : State) (h k : Handle) (g : GroupId) (i : StationId) :
    ((s.leaveQueue h g).station i).state = .ringing k ↔ (s.station i).state = .ringing k := (s.leaveQueue_still h g).rings i k

theorem leaveQueue_callOrders (s : State) (h : Handle) (g : GroupId) : (s.leaveQueue h g).link.callOrders = s.link.callOrders :=
  (s.leaveQueue_still h g).orders

/-- A call that waits nowhere else is in no queue after it has left its own. -/
theorem leaveQueue_away {s : State} {h : Handle} {g : GroupId} (hq : ∀ k, h ∈ (s.group k).queue → k = g) (k : GroupId) :
    h ∉ ((s.leaveQueue h g).group k).queue := by
  rw [leaveQueue_queue]
  split
  · simp
  · exact fun hk => ‹¬ k = g› (hq k hk)

end State

namespace Orderly

variable {G : GroupId → Prop} {cap : GroupId → Nat} {s t : State} {h : Handle} {c : Call}

/-! ## Offers (R33, R53) -/

/-- A call in hand that rings nowhere is offered to stations that are free for an offer, and leaves the queue it stands in. -/
theorem offerGroup (q : Orderly (· = h) G cap s) (a : Held s h c) (ho : c.offered = []) (hn : c.outcome = none) (hb : c.Bare) {g : GroupId}
    {sts : List StationId} (hg : ∀ k, h ∈ (s.group k).queue → k = g) (hfree : ∀ i ∈ sts, s.freeForOffer i = true) (hne : sts ≠ [])
    (honce : sts.Nodup) (hlen : sts.length ≤ 32) :
    Orderly (fun _ => False) G cap (s.offerGroup h g sts) ∧ Only h s (s.offerGroup h g sts) := by
  obtain ⟨park, orbit, parker⟩ := hb
  unfold State.offerGroup
  rw [a.found]
  dsimp only
  generalize hf : (fun x : Call =>
    ({ x with
      offered := x.offered ++ sts.map fun i => ({ station := i, start := s.now } : Offer)
      tried := if decide (c.state = CallState.queued) = true then sts else x.tried ++ sts
      state := .offering
      currentGroup := some g
      offerKind := some .group
      ringDeadline := some (later s.now (seconds (s.groupCfg g).noAnswer))
      escDeadline := none } : Call)) = f
  have keeps : ∀ x, (f x).handle = x.handle := fun x => by rw [← hf]
  have stations : (f c).offered.map Offer.station = sts := by
    rw [← hf]
    simp [ho, Function.comp_def]
  have state : (f c).state = .offering := by rw [← hf]
  have shape : (f c).Shape := by
    have nonempty : (f c).offered ≠ [] := fun e => hne (by rw [← stations, e]; rfl)
    have length : (f c).offered.length ≤ 32 := by rw [← List.length_map (f := Offer.station), stations]; exact hlen
    unfold Call.Shape
    rw [state]
    refine ⟨nonempty, stations ▸ honce, length, ?_⟩
    rw [← hf]
    exact ⟨rfl, rfl, park, orbit, parker, hn, .inl ⟨rfl, rfl⟩⟩
  have noOrbit : (f c).orbit = none := by rw [← hf]; exact orbit
  obtain ⟨⟨stays, link⟩, rung, others, -⟩ := State.enterAll (fun _ => .ringing h) sts (s.updCall h f)
  have q2 : Orderly (· = h) G cap ((s.updCall h f).ringAll h sts) :=
    (q.updHeld rfl keeps).enterStates id (fun _ => .ringing h) sts (fun i hi k _ => State.free_quiet (hfree i hi) k)
      fun _ k n e => n (StationState.ringing.inj e).symm
  change State.ringAll (s.updCall h f) h sts = _ at stays
  change (State.ringAll (s.updCall h f) h sts).link = _ at link
  change ∀ i ∈ sts, (State.station ((s.updCall h f).ringAll h sts) i).state = _ at rung
  change ∀ i, i ∉ sts → State.station ((s.updCall h f).ringAll h sts) i = s.station i at others
  generalize (s.updCall h f).ringAll h sts = s2 at q2 stays link rung others ⊢
  have find2 : ∀ k, s2.findCall k = (s.updCall h f).findCall k := fun k => by rw [stays]; rfl
  have found : s2.findCall h = some (f c) := by
    rw [find2, State.findCall_updCall_self s h f keeps, a.found]
    rfl
  have only2 : Only h s s2 := (Only.updCall s h keeps).trans (fun k _ => find2 k)
  have group : ∀ k, s2.group k = s.group k := fun k => by rw [stays]; rfl
  have rings : ∀ i, (s2.station i).state = .ringing h ↔ i ∈ (f c).offered.map Offer.station := fun i => by
    rw [stations]
    by_cases hi : i ∈ sts
    · exact iff_of_true (rung i hi) hi
    · rw [others i hi]
      exact iff_of_false (a.quiet ho i) hi
  have rest : ∀ {u : State}, Orderly (· = h) G cap u → u.findCall h = some (f c) →
      (∀ i, (u.station i).state = .ringing h ↔ (s2.station i).state = .ringing h) → (∀ k, h ∉ (u.group k).queue) →
      u.link.callOrders = s2.link.callOrders → Orderly (fun _ => False) G cap u := fun {u} qu hu hr hq he => by
    refine qu.settle hu (fun i => (hr i).trans (rings i)) (fun k => iff_of_false (hq k) (by simp [state])) ?_ shape
      (by simp [state]) (by simp [noOrbit])
    rw [he, link]
    exact iff_of_false a.going (by simp [state])
  have done : Orderly (fun _ => False) G cap (if decide (c.state = .queued) = true then s2.leaveQueue h g else s2) ∧
      Only h s (if decide (c.state = .queued) = true then s2.leaveQueue h g else s2) := by
    split
    · exact ⟨rest (q2.leaveQueue rfl g) ((s2.leaveQueue_findCall h h g).trans found) (fun i => s2.leaveQueue_rings h h g i)
        (State.leaveQueue_away fun k hk => hg k (group k ▸ hk)) (s2.leaveQueue_callOrders h g),
        only2.trans fun k _ => s2.leaveQueue_findCall h k g⟩
    · rename_i hst
      exact ⟨rest q2 found (fun _ => Iff.rfl) (fun k => group k ▸ a.away (by simpa using hst) k) rfl, only2⟩
  revert done
  generalize (if decide (c.state = .queued) = true then s2.leaveQueue h g else s2) = s3
  intro done
  split
  · exact ⟨done.1.updGroup (by exact fun _ => rfl), done.2.trans (.of_still ((Still.refl _).updGroup g (by exact fun _ => rfl)))⟩
  · exact done

/-! ## Reviews and availability events (R58 to R60) -/

theorem queued_bare {c : Call} (hs : c.Shape) (hq : c.state = .queued) : c.offered = [] ∧ c.outcome = none ∧ c.Bare := by
  unfold Call.Shape at hs
  rw [hq] at hs
  obtain ⟨-, h1, -, -, h2, h3, h4, h5, -⟩ := hs
  exact ⟨h1, h5, h2, h3, h4⟩

/-- A queued call of a group is offered to stations that are free. -/
theorem offerQueued (q : Orderly (fun _ => False) G cap s) {g : GroupId} (hh : h ∈ (s.group g).queue) {sts : List StationId}
    (hfree : ∀ i ∈ sts, s.freeForOffer i = true) (hne : sts ≠ []) (honce : sts.Nodup) (hlen : sts.length ≤ 32) :
    Orderly (fun _ => False) G cap (s.offerGroup h g sts) := by
  obtain ⟨c, hc, hq, hg⟩ := (q.queue g h id).1 hh
  obtain ⟨h1, h2, h3⟩ := queued_bare (q.shape h c id hc) hq
  have held : Held s h c := .of_orderly q hc (by simp [hq])
  exact ((q.inHand h).offerGroup held h1 h2 h3 (fun k hk => Option.some.inj ((held.queue k hk).2.symm.trans hg)) hfree hne honce hlen).1

theorem reviewHeads (n : Nat) (g : GroupId) (q : Orderly (fun _ => False) G cap s) : Orderly (fun _ => False) G cap (State.reviewHeads n g s) := by
  induction n generalizing s with
  | zero => exact q
  | succ n ih =>
    unfold State.reviewHeads
    split
    · split
      · exact q
      · rename_i h hh
        split
        · exact q
        · rename_i c hc
          split
          · exact q
          · rename_i hne
            obtain ⟨h1, h2⟩ := State.select_fits q.members g c
            exact ih (q.offerQueued (List.mem_of_head? hh) (fun i hi => State.select_free i hi) hne h1 h2)
    · exact q

theorem reviewIf (q : Orderly (fun _ => False) G cap s) (b : Bool) (g : GroupId) : Orderly (fun _ => False) G cap (s.reviewIf b g) := by
  unfold State.reviewIf
  split
  · exact q.reviewHeads _ g
  · exact q

theorem availability (q : Orderly (fun _ => False) G cap s) (i : StationId) : Orderly (fun _ => False) G cap (s.availability i) := by
  unfold State.availability
  split
  · rename_i hfree
    split
    · exact q
    · rename_i g c hbest
      obtain ⟨hh, -⟩ := State.competitors_mem (State.firstGreatest_mem hbest)
      exact (q.offerQueued (List.mem_of_head? hh) (by simpa using hfree) (by simp) (List.nodup_singleton i) (by simp)).reviewHeads _ g
  · exact q

theorem availAll (q : Orderly (fun _ => False) G cap s) (l : List StationId) : Orderly (fun _ => False) G cap (s.availAll l) :=
  List.foldlRecOn (motive := fun t : State => Orderly (fun _ => False) G cap t) l _ q fun _ q i _ => q.availability i

theorem flushRounds (n : Nat) (q : Orderly (fun _ => False) G cap s) : Orderly (fun _ => False) G cap (State.flushRounds n s) := by
  have cleared : ∀ {s : State}, Orderly (fun _ => False) G cap s → Orderly (fun _ => False) G cap { s with heldAvail := [] } := fun {s} q =>
    q.of_still ((Still.refl s).setHeld [])
  induction n generalizing s with
  | zero => exact cleared q
  | succ n ih =>
    unfold State.flushRounds
    split
    · exact q
    · exact ih ((cleared q).availAll _)

theorem flush (q : Orderly (fun _ => False) G cap s) : Orderly (fun _ => False) G cap s.flush := q.flushRounds _

/-! ## The end of a call (R35) -/

/-- The stations that ring for the call in hand leave their rings. -/
theorem stopOffers (q : Orderly (· = h) G cap s) (hr : ∀ i, (s.station i).state = .ringing h ↔ i ∈ c.offered.map Offer.station)
    {st : StationId → StationState} (hst : ∀ i k, st i ≠ .ringing k) :
    Orderly (· = h) G cap (c.offered.foldl (fun s x => s.enterState x.station (st x.station)) s) ∧
      OnlyStations s (c.offered.foldl (fun s x => s.enterState x.station (st x.station)) s) ∧
      ∀ i, ((c.offered.foldl (fun s x => s.enterState x.station (st x.station)) s).station i).state ≠ .ringing h := by
  obtain ⟨stays, inSt, others, -⟩ := Machine.enterStates Offer.station st c.offered s
  refine ⟨q.enterStates Offer.station st c.offered (fun x hx k n e => n ?_) fun i k _ => hst i k, stays, fun i => ?_⟩
  · have ring := (hr x.station).2 (List.mem_map_of_mem hx)
    rw [ring] at e
    exact (StationState.ringing.inj e).symm
  · by_cases hi : i ∈ c.offered.map Offer.station
    · rw [inSt i hi]
      exact hst i h
    · rw [others i hi, ne_eq, hr]
      exact hi

/-- The fields of an ENDING record in hand are cleared, and it rings and waits nowhere (R35 steps 3 to 5). -/
theorem tearDown {d : Call} {o : CallOutcome} (q : Orderly (· = h) G cap s) (hd : s.findCall h = some d) (hst : d.state = .ending)
    (ho : d.outcome.isSome = true) (hr : ∀ i, (s.station i).state = .ringing h ↔ i ∈ c.offered.map Offer.station)
    (hq : ∀ g, h ∉ (s.group g).queue) (he : h ∈ s.link.callOrders) {st : StationId → StationState} (hs : ∀ i k, st i ≠ .ringing k) :
    Orderly (fun _ => False) G cap ((c.offered.foldl (fun s x => s.enterState x.station (st x.station)) s).updCall h (Call.cleared o)) ∧
      Only h s ((c.offered.foldl (fun s x => s.enterState x.station (st x.station)) s).updCall h (Call.cleared o)) := by
  obtain ⟨q1, ⟨stays, link⟩, quiet⟩ := q.stopOffers hr hs
  generalize c.offered.foldl (fun s x => s.enterState x.station (st x.station)) s = s1 at q1 stays link quiet
  have find1 : ∀ k, s1.findCall k = s.findCall k := fun k => by rw [stays]; rfl
  have found : (s1.updCall h (Call.cleared o)).findCall h = some (d.cleared o) := by
    rw [State.findCall_updCall_self s1 h _ (by exact fun _ => rfl), find1, hd]
    rfl
  have q2 : Orderly (· = h) G cap (s1.updCall h (Call.cleared o)) := q1.updHeld rfl (by exact fun _ => rfl)
  have state : (d.cleared o).state = .ending := hst
  refine ⟨q2.settle found (fun i => iff_of_false (quiet i) (by simp [Call.cleared]))
      (fun g => iff_of_false (fun hg => hq g ?_) (by simp [Call.cleared])) (iff_of_true ?_ state) ?_ (by simp [state])
      (by simp [Call.cleared]), (Only.of_calls ?_).trans (.updCall s1 h (by exact fun _ => rfl))⟩
  · rwa [State.group, State.updCall_groups, stays] at hg
  · rw [State.updCall_link, link]
    exact he
  · simp [Call.Shape, Call.cleared, hst, ho]
  · rw [stays]

/-- A call in hand that has not ended ends: the teardown of R35 with the review and the availability events after it. A call that
waits in no queue and rings nowhere ends by itself. -/
theorem endCall (q : Orderly (· = h) G cap s) (a : Held s h c) (o : CallOutcome) (st : Option StationId) :
    Orderly (fun _ => False) G cap (s.endCall h o st) ∧
      (c.state ≠ .queued → c.offered = [] → Only h s (s.endCall h o st)) := by
  unfold State.endCall
  rw [a.found]
  dsimp only
  generalize hf : (fun c : Call => { c with state := .ending, outcome := some o, outcomeStation := st }) = f
  have keeps : ∀ x, (f x).handle = x.handle := fun x => by rw [← hf]
  have ended : (f c).state = .ending ∧ (f c).outcome.isSome = true := by rw [← hf]; exact ⟨rfl, rfl⟩
  have q1 := (q.updHeld rfl keeps).orderEnd rfl a.going
  have only1 : Only h s ((s.updCall h f).updLink fun l => { l with callOrders := l.callOrders ++ [h] }) :=
    (Only.updCall s h keeps).trans (.of_calls rfl)
  have found1 : ((s.updCall h f).updLink fun l => { l with callOrders := l.callOrders ++ [h] }).findCall h = some (f c) := by
    change (s.updCall h f).findCall h = _
    rw [State.findCall_updCall_self s h f keeps, a.found]
    rfl
  have held1 : ∀ i, (((s.updCall h f).updLink fun l => { l with callOrders := l.callOrders ++ [h] }).station i).state = .ringing h ↔
      i ∈ c.offered.map Offer.station := a.rings
  have queue1 : ∀ g, h ∈ (((s.updCall h f).updLink fun l => { l with callOrders := l.callOrders ++ [h] }).group g).queue →
      (if c.state = .queued then c.currentGroup else none) = some g := fun g hg => by
    obtain ⟨h1, h2⟩ := a.queue g hg
    rw [if_pos h1, h2]
  have order1 : h ∈ ((s.updCall h f).updLink fun l => { l with callOrders := l.callOrders ++ [h] }).link.callOrders :=
    List.mem_append_right _ (List.mem_singleton_self h)
  generalize (s.updCall h f).updLink (fun l => { l with callOrders := l.callOrders ++ [h] }) = s1 at q1 only1 found1 held1 queue1 order1 ⊢
  have left : ∀ i k, (if some i = st then StationState.busy else .idle) ≠ .ringing k := fun i k => by split <;> simp
  constructor
  · refine availAll ?_ _
    generalize (if c.state = .queued then c.currentGroup else none) = place at queue1 ⊢
    cases place with
    | none => exact (q1.tearDown found1 ended.1 ended.2 held1 (fun g hg => by simpa using queue1 g hg) order1 left).1
    | some g =>
      exact reviewIf ((q1.leaveQueue rfl g).tearDown ((s1.leaveQueue_findCall h h g).trans found1) ended.1 ended.2
        (fun i => (s1.leaveQueue_rings h h g i).trans (held1 i)) (State.leaveQueue_away fun k hk => (Option.some.inj (queue1 k hk)).symm)
        (s1.leaveQueue_callOrders h g ▸ order1) left).1 _ g
  · intro hq ho
    rw [if_neg hq] at queue1 ⊢
    have := (q1.tearDown (o := o) found1 ended.1 ended.2 held1 (fun g hg => by simpa using queue1 g hg) order1 left).2
    rw [ho] at this ⊢
    exact only1.trans this

/-! ## Rings outside the groups (R77, R78, R105) -/

/-- The record of a call that rings at the attendant or at an overflow station fits. -/
theorem ringOne (q : Orderly (· = h) G cap s) (a : Adrift s h c) {i : StationId} (hi : ∀ k, (s.station i).state ≠ .ringing k) {k : OfferKind}
    (hk : k = .target ∨ k = .attendant) (ms : Nat) :
    Orderly (fun _ => False) G cap (s.ringOne h i k ms) ∧ Only h s (s.ringOne h i k ms) := by
  unfold State.ringOne
  generalize hf : (fun c : Call => ({ c with
      state := .offering, currentGroup := none, tried := [], offered := [{ station := i, start := s.now }],
      offerKind := some k, ringDeadline := some (later s.now ms), waitDeadline := none, escDeadline := none,
      parkDeadline := none, orbit := none, parker := none } : Call)) = f
  have keeps : ∀ x, (f x).handle = x.handle := fun x => by rw [← hf]
  have state : (f c).state = .offering := by rw [← hf]
  have offered : (f c).offered.map Offer.station = [i] := by rw [← hf]; rfl
  have orbit : (f c).orbit = none := by rw [← hf]
  have shape : (f c).Shape := by
    rw [← hf]
    simpa [Call.Shape, a.outcome] using hk
  obtain ⟨stays, link⟩ := (s.updCall h f).enterState_stays i (.ringing h)
  have calls : ((s.updCall h f).enterState i (.ringing h)).calls = (s.updCall h f).calls := State.enterState_calls ..
  have q1 : Orderly (· = h) G cap ((s.updCall h f).enterState i (.ringing h)) :=
    (q.updHeld rfl keeps).enterState (fun k _ => hi k) fun k n e => n (StationState.ringing.inj e).symm
  refine ⟨q1.settle (c := f c) ?_ (fun j => ?_) (fun g => ?_) ?_ shape (by simp [state]) (by simp [orbit]),
    (Only.updCall s h keeps).trans (.of_calls calls)⟩
  · rw [State.findCall, calls, ← State.findCall, State.findCall_updCall_self s h f keeps, a.found]
    rfl
  · rw [State.enterState_station, offered]
    split
    · simp [*]
    · exact iff_of_false (a.quiet j) (by simp [*])
  · rw [State.group, State.enterState_groups]
    exact iff_of_false (a.away g) (by simp [state])
  · rw [link]
    exact iff_of_false a.held.going (by simp [state])

/-- A call adrift ends. -/
theorem endAdrift (q : Orderly (· = h) G cap s) (a : Adrift s h c) (hq : c.state ≠ .queued) (o : CallOutcome) (st : Option StationId) :
    Orderly (fun _ => False) G cap (s.endCall h o st) ∧ Only h s (s.endCall h o st) :=
  (q.endCall a.held o st).imp id fun only => only hq a.offered

theorem toAttendant (q : Orderly (· = h) G cap s) (a : Adrift s h c) (hq : c.state ≠ .queued) :
    Orderly (fun _ => False) G cap (s.toAttendant h) ∧ Only h s (s.toAttendant h) := by
  unfold State.toAttendant
  split
  · rename_i i hi
    exact q.ringOne a (fun k => by simp [(State.idleAttendant_idle hi).2]) (.inr rfl) _
  · exact q.endAdrift a hq _ _

theorem fallToAttendant (q : Orderly (· = h) G cap s) (a : Adrift s h c) (hq : c.state ≠ .queued) (r : RouteReason) :
    Orderly (fun _ => False) G cap (s.fallToAttendant h r) ∧ Only h s (s.fallToAttendant h r) := by
  unfold State.fallToAttendant
  rw [a.found]
  have k := (Still.refl s).advise (.routed h none r .attendant c.hops)
  exact ((q.of_still k).toAttendant (a.of_still k) hq).imp id (Only.of_still k).trans

theorem recallToAttendant (q : Orderly (· = h) G cap s) (a : Adrift s h c) (hq : c.state ≠ .queued) :
    Orderly (fun _ => False) G cap (s.recallToAttendant h) := by
  unfold State.recallToAttendant
  rw [a.found]
  dsimp only
  split
  · rename_i i hi
    split
    · exact (q.endAdrift a hq _ _).1
    · exact (q.ringOne a (fun k => by simp [(State.idleAttendant_idle hi).2]) (.inr rfl) _).1
  · exact (q.endAdrift a hq _ _).1

end Orderly
end Sys2Proof.Machine
end

