-- ==== Sys2Proof/Proofs/OrderlyRoutes.lean ====
section
/-! SUPPORT. Entries into queues, overflow hop by hop, no-answer, and what a deadline of a call brings, each with what it keeps of the agreement of the calls. -/

namespace Sys2Proof.Machine

/-- A call that no station rings for any more can proceed by its kind of ring (R33, R54, R77, R78, R104). -/
def Call.RungOut (c : Call) : Prop :=
  c.offerKind = some .group ∧ c.currentGroup.isSome = true ∧ c.Bare ∨ c.offerKind = some .target ∨ c.offerKind = some .attendant ∨
    c.offerKind = some .recalling

namespace Call.Shape

variable {c : Call}

theorem of_offered (hs : c.Shape) (ho : c.offered ≠ []) : c.state = .offering ∨ c.state = .recalling := by
  unfold Call.Shape at hs
  split at hs <;> simp_all

theorem of_offerKind (hs : c.Shape) (ho : c.offerKind.isSome = true) : c.state = .offering ∨ c.state = .recalling := by
  unfold Call.Shape at hs
  split at hs <;> simp_all

theorem offering_bare (hs : c.Shape) (hst : c.state = .offering) : c.Bare := by
  unfold Call.Shape at hs
  rw [hst] at hs
  obtain ⟨-, -, -, -, -, h1, h2, h3, -⟩ := hs
  exact ⟨h1, h2, h3⟩

theorem outcome (hs : c.Shape) (hst : c.state ≠ .ending) : c.outcome = none := by
  unfold Call.Shape at hs
  split at hs <;> simp_all

/-- A ringing call's wait has passed (R71). -/
theorem waited (hs : c.Shape) : Call.Shape { c with waitDeadline := none, waitPassed := true } := by
  unfold Call.Shape at hs ⊢
  dsimp only
  split at hs <;> simp_all
  obtain ⟨-, -, -, -, -, -, -, -, -, kind⟩ := hs
  exact kind.imp id fun ⟨h1, h2, _⟩ => ⟨h1, h2⟩

/-- A call takes the escalation flag (R80). -/
theorem flagged (hs : c.Shape) : Call.Shape { c with escDeadline := none, escalated := true } := by
  unfold Call.Shape at hs ⊢
  dsimp only
  split at hs <;> simp_all

theorem rungOut (hs : c.Shape) (hst : c.state = .offering ∨ c.state = .recalling) : c.RungOut := by
  have bare := hs.offering_bare
  unfold Call.Shape at hs
  unfold Call.RungOut
  rcases hst with hst | hst <;> rw [hst] at hs
  · obtain ⟨-, -, -, -, -, -, -, -, -, ⟨h1, h2⟩ | ⟨h1 | h1, -⟩⟩ := hs
    · exact .inl ⟨h1, h2, bare hst⟩
    · exact .inr (.inl h1)
    · exact .inr (.inr (.inl h1))
  · obtain ⟨-, -, -, -, -, -, -, -, h1⟩ := hs
    exact .inr (.inr (.inr h1))

end Call.Shape

namespace State

variable {s : State} {g : GroupId} {c : Call}

theorem entryTest_ne_offer (s : State) (g : GroupId) (c : Call) (sts : List StationId) : s.entryTest g c ≠ .offer sts := by
  unfold entryTest
  dsimp only
  split
  · simp
  · split <;> simp

theorem arrivalAt_offer_ne {sts : List StationId} (h : s.arrivalAt g c = .offer sts) : sts ≠ [] := by
  unfold arrivalAt at h
  split at h
  · simp at h
  · split at h
    · exact absurd h (s.entryTest_ne_offer g c sts)
    · split at h
      · exact absurd h (s.entryTest_ne_offer g c sts)
      · exact Arrival.offer.inj h ▸ ‹_›

/-- A call joins a queue below its limit alone (R67). -/
theorem entryTest_join (h : s.entryTest g c = .join) : (s.group g).queue.length + 1 ≤ (s.groupCfg g).queueLimit := by
  unfold entryTest at h
  dsimp only at h
  split at h
  · simp at h
  · omega

theorem arrivalAt_join (h : s.arrivalAt g c = .join) : (s.group g).queue.length + 1 ≤ (s.groupCfg g).queueLimit := by
  unfold arrivalAt at h
  split at h
  · simp at h
  · split at h
    · exact entryTest_join h
    · split at h
      · exact entryTest_join h
      · simp at h

end State

theorem ringing_ne {c : Call} (h : c.state = .offering ∨ c.state = .recalling) : c.state ≠ .queued ∧ c.state ≠ .ending := by
  rcases h with h | h <;> simp [h]

namespace Orderly

variable {G : GroupId → Prop} {cap cap' : GroupId → Nat} {s t : State} {h : Handle} {c : Call}

/-! ## Entries into queues (R68, R69) -/

/-- A call adrift becomes QUEUED and takes a place in a queue with room for it. -/
theorem placeInQueue (q : Orderly (· = h) G cap s) (a : Adrift s h c) {g : GroupId} {f : Call → Call} {ins : List Handle → List Handle}
    (hf : ∀ c, (f c).handle = c.handle) (hq : (f c).state = .queued ∧ (f c).currentGroup = some g) (hs : (f c).Shape)
    (hd : ((f c).escalated = true → (f c).escDeadline = none) ∧ (f c).DelayFits (s.groupCfg g).escDelay)
    (hins : ∀ l, (ins l).Perm (h :: l)) (hroom : (s.group g).queue.length + 1 ≤ max (cap g) (s.groupCfg g).queueLimit) :
    Orderly (fun _ => False) G cap ((s.updCall h f).updGroup g fun x => { x with queue := ins x.queue }) ∧
      Only h s ((s.updCall h f).updGroup g fun x => { x with queue := ins x.queue }) := by
  obtain ⟨hq, hg⟩ := hq
  obtain ⟨offered, -, -, orbit, -⟩ := queued_bare hs hq
  have only := Only.updCall s h hf
  have q1 : Orderly (· = h) G cap ((s.updCall h f).updGroup g fun x => { x with queue := ins x.queue }) := by
    refine (q.updHeld rfl hf).updQueue (fun k l n => ?_) ((hins _).nodup_iff.2 (List.nodup_cons.2 ⟨a.away g, q.once g⟩)) ?_
    · rw [(hins l).mem_iff, List.mem_cons, or_iff_right n]
    · rw [(hins _).length_eq]
      exact hroom
  have found : ((s.updCall h f).updGroup g fun x => { x with queue := ins x.queue }).findCall h = some (f c) := by
    change (s.updCall h f).findCall h = _
    rw [State.findCall_updCall_self s h f hf, a.found]
    rfl
  refine ⟨q1.settle found (fun i => iff_of_false (a.quiet i) (by simp [offered])) (fun k => ?_)
    (iff_of_false a.held.going (by simp [hq])) hs (fun k _ hk => ?_) (by simp [orbit]), only.trans (.of_calls rfl)⟩
  · rw [group_updQueue (s.updCall h f) g k ins, hg, Option.some_inj]
    split
    · rename_i e
      exact iff_of_true ((hins _).mem_iff.2 (by simp)) ⟨hq, e.symm⟩
    · rename_i e
      exact iff_of_false (a.away k) fun x => e x.2.symm
  · obtain rfl := Option.some.inj (hg.symm.trans hk)
    exact hd.imp id fun fits _ => fits

/-- A call adrift enters a queue with room for it. -/
theorem enterQueue (q : Orderly (· = h) G cap s) (a : Adrift s h c) (hb : c.Bare) {g : GroupId}
    (hroom : (s.group g).queue.length + 1 ≤ max (cap g) (s.groupCfg g).queueLimit) (returning : Bool) (tried : List StationId) :
    Orderly (fun _ => False) G cap (s.enterQueue h g returning tried) ∧ Only h s (s.enterQueue h g returning tried) := by
  obtain ⟨park, orbit, parker⟩ := hb
  obtain ⟨entry, flag, -, -, t, rfl, e⟩ := enterQueue_eq a.found g returning tried
  rw [e]
  have placed := q.placeInQueue a (g := g) (ins := fun l => if returning = true then h :: l else l ++ [h])
    (f := fun x => x.queuedAt g tried entry (s.waitOnEntry c) (s.groupCfg g).escDelay flag) (by exact fun _ => rfl) ⟨rfl, rfl⟩
    (by simp [Call.Shape, Call.queuedAt, park, orbit, parker, a.outcome])
    (by cases flag <;> simp [Call.queuedAt, Call.DelayFits])
    (fun l => by
      split
      · exact .refl _
      · exact List.perm_append_singleton h l) hroom
  split
  · exact placed.imp (fun q1 => q1.of_still ((Still.refl _).escalationStart g)) fun o => o.trans (.of_still ((Still.refl _).escalationStart g))
  · exact placed

/-! ## Arrivals and routing (R47, R75, R76) -/

/-- One hop of a call adrift: the call rings or ends, or it is still adrift with its hop count one higher. -/
theorem hop (q : Orderly (· = h) G cap s) (a : Adrift s h c) (hb : c.Bare) (g : GroupId) (r : RouteReason) :
    ((s.hop h g r).2 = none → Orderly (fun _ => False) G cap (s.hop h g r).1) ∧ Only h s (s.hop h g r).1 ∧
      ((s.hop h g r).2.isSome = true → Orderly (· = h) G cap (s.hop h g r).1 ∧
        ∃ d : Call, Adrift (s.hop h g r).1 h d ∧ d.Bare ∧ c.hops < 6 ∧ d.hops = c.hops + 1) := by
  unfold State.hop
  rw [a.found]
  dsimp only
  generalize hhops : (if decide (Config.hopLimit ≤ c.hops) = true then c.hops else c.hops + 1) = hops
  generalize hf : (fun x : Call => ({ x with
        state := .offering, currentGroup := none, tried := [], waitDeadline := none, waitPassed := false,
        arrivalWait := none, escDeadline := none, escalated := false, hops := hops } : Call)) = f
  have keeps : ∀ x, (f x).handle = x.handle := fun x => by rw [← hf]
  have state : (f c).state ≠ .queued := by rw [← hf]; simp
  have a1 : ∀ v, Adrift ((s.updCall h f).advise v) h (f c) := fun v =>
    (a.updCall keeps (by rw [← hf]; exact a.offered) (by rw [← hf]; exact a.outcome)).of_still ((Still.refl _).advise v)
  have q1 : ∀ v, Orderly (· = h) G cap ((s.updCall h f).advise v) := fun v => (q.updHeld rfl keeps).advise v
  have only1 : ∀ v, Only h s ((s.updCall h f).advise v) := fun v => (Only.updCall s h keeps).trans (.of_calls rfl)
  have bare : (f c).Bare := by rw [← hf]; exact hb
  have next : ¬ Config.hopLimit ≤ c.hops → (f c).hops = c.hops + 1 := fun few => by
    rw [← hf, ← hhops]
    simp [few]
  generalize hs1 : (s.updCall h f).advise _ = s1
  replace a1 : Adrift s1 h (f c) := hs1 ▸ a1 _
  replace q1 : Orderly (· = h) G cap s1 := hs1 ▸ q1 _
  replace only1 : Only h s s1 := hs1 ▸ only1 _
  split
  · obtain ⟨q2, only2⟩ := q1.endAdrift a1 state .noRoute none
    exact ⟨fun _ => q2, only1.trans only2, by simp⟩
  · obtain ⟨q2, only2⟩ := q1.toAttendant a1 state
    exact ⟨fun _ => q2, only1.trans only2, by simp⟩
  · rename_i t _
    obtain ⟨q2, only2⟩ := q1.fallToAttendant a1 state .targetBusy
    by_cases hfree : s1.freeForOffer t = true
    · obtain ⟨q2, only2⟩ := q1.ringOne a1 (State.free_quiet hfree) (.inl rfl) (seconds (s.groupCfg g).noAnswer)
      rw [if_pos hfree]
      exact ⟨fun _ => q2, only1.trans only2, by simp⟩
    · rw [if_neg hfree]
      exact ⟨fun _ => q2, only1.trans only2, by simp⟩
  · rename_i k hdest
    have few : ¬ Config.hopLimit ≤ c.hops := fun e => by simp [e] at hdest
    have a2 := a1.updCall (f := fun c => { c with currentGroup := some k, arrivalWait := some (s.groupCfg k).maxWait })
      (by exact fun _ => rfl) a1.offered a1.outcome
    exact ⟨by simp, only1.trans (.updCall s1 h (by exact fun _ => rfl)), fun _ => ⟨q1.updHeld rfl (by exact fun _ => rfl), _, a2, bare,
      Nat.lt_of_not_le few, next few⟩⟩

/-- What a call adrift meets at a group it arrives at: it comes to rest there, or moves on with fuel to spare. -/
theorem arrive (n : Nat) (q : Orderly (· = h) G cap s) (a : Adrift s h c) (hb : c.Bare) (hn : 7 ≤ n + min c.hops 6) (g : GroupId) :
    Orderly (fun _ => False) G cap (State.arrive n s h g) ∧ Only h s (State.arrive n s h g) := by
  induction n generalizing s c g with
  | zero => omega
  | succ n ih =>
    unfold State.arrive
    rw [a.found]
    dsimp only
    split
    · rename_i sts hoffer
      have hsel := State.arrivalAt_offer hoffer
      obtain ⟨h1, h2⟩ := State.select_fits q.members g c
      refine q.offerGroup a.held a.offered a.outcome hb (fun k hk => absurd hk (a.away k)) (fun i hi => State.select_free i (hsel ▸ hi)) ?_
        (hsel ▸ h1) (hsel ▸ h2)
      exact State.arrivalAt_offer_ne hoffer
    · rename_i hjoin
      exact q.enterQueue a hb ((State.arrivalAt_join hjoin).trans (Nat.le_max_right _ _)) false []
    · rename_i r _
      obtain ⟨q1, only1, next⟩ := q.hop a hb g r
      split
      · rename_i e
        rw [e] at q1 only1
        exact ⟨q1 rfl, only1⟩
      · rename_i e
        rw [e] at only1 next
        obtain ⟨q2, d, a2, hb2, few, hops⟩ := next rfl
        exact (ih q2 a2 hb2 (by omega) _).imp id only1.trans

theorem route (q : Orderly (· = h) G cap s) (a : Adrift s h c) (hb : c.Bare) (g : GroupId) (r : RouteReason) :
    Orderly (fun _ => False) G cap (s.route h g r) ∧ Only h s (s.route h g r) := by
  unfold State.route
  obtain ⟨q1, only1, next⟩ := q.hop a hb g r
  split
  · rename_i e
    rw [e] at q1 only1
    exact ⟨q1 rfl, only1⟩
  · rename_i e
    rw [e] at only1 next
    obtain ⟨q2, d, a2, hb2, -, -⟩ := next rfl
    exact (q2.arrive _ a2 hb2 (by unfold State.arriveBound; omega) _).imp id only1.trans

/-! ## Overflow of a call from its group (R75) -/

/-- A ringing call in hand stops ringing. -/
theorem stopRings (q : Orderly (· = h) G cap s) (a : Held s h c) (hq : c.state ≠ .queued) (ho : c.outcome = none) :
    Orderly (· = h) G cap (s.stopRings h) ∧ Adrift (s.stopRings h) h { c with offered := [], ringDeadline := none } ∧
      Only h s (s.stopRings h) := by
  obtain ⟨q1, ⟨stays, link⟩, quiet⟩ := q.stopOffers a.rings (st := fun _ => .idle) (by simp)
  have e : s.stopRings h = ((c.offered.foldl (fun s x => s.enterState x.station .idle) s).updCall h fun c =>
      { c with offered := [], ringDeadline := none }) := by
    unfold State.stopRings State.ringingFor
    rw [a.found]
    simp only [List.foldl_map]
  rw [e]
  generalize c.offered.foldl (fun s x => s.enterState x.station .idle) s = s1 at q1 stays link quiet
  have find : ∀ k, s1.findCall k = s.findCall k := fun k => by rw [stays]; rfl
  refine ⟨q1.updHeld rfl (by exact fun _ => rfl), .of_facts ?_ quiet (fun g hg => a.away hq g ?_) ?_ rfl ho,
    (Only.of_calls (by rw [stays])).trans (.updCall s1 h (by exact fun _ => rfl))⟩
  · rw [State.findCall_updCall_self s1 h _ (by exact fun _ => rfl), find, a.found]
    rfl
  · rwa [State.group, State.updCall_groups, stays] at hg
  · rw [State.updCall_link, link]
    exact a.going

/-- A queued call in hand leaves its queue. -/
theorem leftQueue {g : GroupId} (a : Held s h c) (hg : c.currentGroup = some g) (hs : c.Shape) (hq : c.state = .queued) :
    Adrift (s.leaveQueue h g) h c := by
  obtain ⟨offered, outcome, -⟩ := queued_bare hs hq
  refine .of_facts ((s.leaveQueue_findCall h h g).trans a.found) (fun i => (s.leaveQueue_rings h h g i).not.2 (a.quiet offered i))
    (State.leaveQueue_away fun k hk => ?_) ?_ offered outcome
  · exact Option.some.inj ((a.queue k hk).2.symm.trans hg)
  · rw [s.leaveQueue_callOrders]
    exact a.going

theorem reviewHeads_disabled {g : GroupId} (hd : (s.groupCfg g).enabled = false) (n : Nat) : State.reviewHeads n g s = s := by
  cases n with
  | zero => rfl
  | succ n =>
    unfold State.reviewHeads
    rw [hd]
    rfl

theorem reviewIf_disabled {g : GroupId} (hd : (s.groupCfg g).enabled = false) (b : Bool) : s.reviewIf b g = s := by
  unfold State.reviewIf State.reviewQueue
  split
  · exact reviewHeads_disabled hd _
  · rfl

/-- A call queued at `g` overflows from there, and `cap'` is a bound that the queues keep without it. From a disabled group no other
call moves with it. -/
theorem overflowQueued (q : Orderly (fun _ => False) G cap s) (hc : s.findCall h = some c) (hq : c.state = .queued) {g : GroupId}
    (hg : c.currentGroup = some g) (hr : ∀ k, k ≠ g → cap k ≤ cap' k)
    (hrg : (s.group g).queue.length ≤ max (cap' g) (s.groupCfg g).queueLimit + 1) (r : RouteReason) :
    Orderly (fun _ => False) G cap' (s.overflowMove h g r) ∧
      ((s.groupCfg g).enabled = false → Only h s (s.overflowMove h g r)) := by
  have mem : h ∈ (s.group g).queue := (q.queue g h id).2 ⟨c, hc, hq, hg⟩
  have shape := q.shape h c id hc
  have cfg : ∀ k, (s.leaveQueue h g).groupCfg k = s.groupCfg k := fun k => (s.leaveQueue_still h g).groupCfg k
  have room : ∀ k, ((s.leaveQueue h g).group k).queue.length ≤ max (cap' k) ((s.leaveQueue h g).groupCfg k).queueLimit := fun k => by
    rw [s.leaveQueue_queue, cfg]
    split
    · rename_i e
      have short : ((s.group g).queue.filter fun x => !(x == h)).length < (s.group g).queue.length :=
        List.length_filter_lt_length_iff_exists.2 ⟨h, mem, by simp⟩
      rw [e]
      omega
    · rename_i e
      exact (q.room k).trans (max_le_max (hr k e) le_rfl)
  have adrift := leftQueue (.of_orderly q hc (by simp [hq])) hg shape hq
  obtain ⟨q1, only1⟩ := (((q.inHand h).leaveQueue rfl g).recap room).route adrift (queued_bare shape hq).2.2 g r
  unfold State.overflowMove
  rw [hc]
  dsimp only
  rw [if_pos hq]
  refine ⟨q1.reviewIf _ g, fun hd => ?_⟩
  rw [reviewIf_disabled]
  · exact Only.trans (fun k _ => s.leaveQueue_findCall h k g) only1
  · rw [State.groupCfg, (((Quiet.refl s).leaveQueue h g).route h g r).cfg]
    exact hd

/-- A ringing call of a group overflows from there, and no other call moves with it. -/
theorem overflowOffering (q : Orderly (fun _ => False) G cap s) (hc : s.findCall h = some c) (hst : c.state = .offering) (g : GroupId)
    (r : RouteReason) : Orderly (fun _ => False) G cap (s.overflowMove h g r) ∧ Only h s (s.overflowMove h g r) := by
  have shape := q.shape h c id hc
  obtain ⟨q1, a1, only1⟩ := (q.inHand h).stopRings (.of_orderly q hc (by simp [hst])) (by simp [hst]) (shape.outcome (by simp [hst]))
  unfold State.overflowMove
  rw [hc]
  dsimp only
  rw [if_neg (by simp [hst])]
  exact (q1.route a1 (shape.offering_bare hst) g r).imp id only1.trans

/-- A call queued at a group overflows from it, with the availability events after the move. -/
theorem overflow (q : Orderly (fun _ => False) G cap s) (hc : s.findCall h = some c) (hq : c.state = .queued) {g : GroupId}
    (hg : c.currentGroup = some g) (hr : ∀ k, k ≠ g → cap k ≤ cap' k)
    (hrg : (s.group g).queue.length ≤ max (cap' g) (s.groupCfg g).queueLimit + 1) (r : RouteReason) :
    Orderly (fun _ => False) G cap' (s.overflow h g r) :=
  (q.overflowQueued hc hq hg hr hrg r).1.availAll _

/-! ## No answer (R54, R69) -/

/-- A call adrift returns to a queue; the tail gives way where it would stand above the limit. -/
theorem returnToQueue (q : Orderly (· = h) G (fun _ => 0) s) (a : Adrift s h c) (hb : c.Bare) (g : GroupId) (left : List StationId) :
    Orderly (fun _ => False) G (fun _ => 0) (s.returnToQueue h g left) := by
  unfold State.returnToQueue
  rw [a.found]
  dsimp only
  split
  · exact (q.route a hb g _).1
  · split
    · exact (q.route a hb g _).1
    · have raised : Orderly (· = h) G (fun k => if k = g then (s.groupCfg g).queueLimit + 1 else 0) s := q.recap fun k => by
        refine (q.room k).trans ?_
        simp
      obtain ⟨q1, -⟩ := raised.enterQueue a hb (g := g) (by have := q.room g; simp at this ⊢; omega) true
        (c.tried.filter fun i => left.contains i)
      have cfg : ∀ k, (s.enterQueue h g true (c.tried.filter fun i => left.contains i)).groupCfg k = s.groupCfg k := fun k => by
        rw [State.groupCfg, ((Quiet.refl s).enterQueue h g true _).cfg]
        rfl
      generalize s.enterQueue h g true (c.tried.filter fun i => left.contains i) = s1 at q1 cfg ⊢
      have room := q1.room g
      rw [if_pos rfl, cfg] at room
      have below : ∀ k, k ≠ g → (s1.group k).queue.length ≤ max 0 (s1.groupCfg k).queueLimit := fun k e => by
        have := q1.room k
        rwa [if_neg e] at this
      split
      · split
        · rename_i t ht
          obtain ⟨d, hd, hq, hg⟩ := (q1.queue g t id).1 (List.mem_of_getLast? ht)
          exact q1.overflow hd hq hg (fun k e => by simp [e]) (by rw [cfg]; omega) _
        · rename_i e
          rw [List.getLast?_eq_none_iff] at e
          simp [e] at *
      · refine q1.recap fun k => ?_
        by_cases e : k = g
        · rw [e, cfg]
          omega
        · exact below k e

/-- A call adrift with its group looks again for members, or returns to its queue. -/
theorem lookAgain (q : Orderly (· = h) G (fun _ => 0) s) (a : Adrift s h c) (hb : c.Bare) (hg : c.currentGroup.isSome = true)
    (left : List StationId) : Orderly (fun _ => False) G (fun _ => 0) (s.lookAgain h left) := by
  obtain ⟨g, hg⟩ := Option.isSome_iff_exists.1 hg
  unfold State.lookAgain
  rw [a.found]
  dsimp only
  rw [hg]
  dsimp only
  by_cases halg : (s.groupCfg g).algorithm = .simultaneous
  · rw [if_pos halg]
    exact q.returnToQueue a hb g left
  · rw [if_neg halg]
    split
    · exact q.returnToQueue a hb g left
    · rename_i hne
      obtain ⟨h1, h2⟩ := State.select_fits q.members g c
      exact (q.offerGroup a.held a.offered a.outcome hb (fun k hk => absurd hk (a.away k)) (fun i hi => State.select_free i hi) hne h1 h2).1

/-- A call adrift proceeds as on no-answer, by its kind of ring. -/
theorem ringEnded (q : Orderly (· = h) G (fun _ => 0) s) (a : Adrift s h c) (hq : c.state ≠ .queued) (hr : c.RungOut) (left : List StationId) :
    Orderly (fun _ => False) G (fun _ => 0) (s.ringEnded h left) := by
  unfold State.ringEnded
  rw [a.found]
  dsimp only
  obtain ⟨hk, hg, hb⟩ | hk | hk | hk := hr <;> rw [hk]
  · exact q.lookAgain a hb hg left
  · exact (q.fallToAttendant a hq _).1
  · exact (q.endAdrift a hq _ _).1
  · exact q.recallToAttendant a hq

/-- The ring deadline of a call has expired (R54, R77, R104). -/
theorem ringExpired (q : Orderly (fun _ => False) G (fun _ => 0) s) (hc : s.findCall h = some c) (hk : c.offerKind.isSome = true) :
    Orderly (fun _ => False) G (fun _ => 0) (s.ringExpired h) := by
  have shape := q.shape h c id hc
  have ringing := shape.of_offerKind hk
  obtain ⟨notQueued, going⟩ := ringing_ne ringing
  obtain ⟨q1, a1, -⟩ := (q.inHand h).stopRings (.of_orderly q hc going) notQueued (shape.outcome going)
  unfold State.ringExpired
  exact (q1.ringEnded a1 notQueued (shape.rungOut ringing) _).availAll _

/-- An OFFERING record that still lists stations after one has left fits. -/
theorem unlisted_shape (hs : c.Shape) (hst : c.state = .offering ∨ c.state = .recalling) {i : StationId} (hi : i ∈ c.offered.map Offer.station)
    (hne : c.offered.filter (fun x => !(x.station == i)) ≠ []) :
    c.state = .offering ∧ Call.Shape { c with offered := c.offered.filter fun x => !(x.station == i) } := by
  unfold Call.Shape at hs ⊢
  rcases hst with hst | hst <;> rw [hst] at hs <;> dsimp only at hs ⊢
  · rw [hst]
    obtain ⟨-, once, length, rest⟩ := hs
    exact ⟨rfl, hne, once.sublist (List.filter_sublist.map _), (List.length_filter_le _ _).trans length, rest⟩
  · obtain ⟨-, ⟨x, hx, -⟩, -⟩ := hs
    rw [hx] at hi hne
    obtain rfl : i = x.station := by simpa using hi
    simp at hne

/-- One station leaves the ring of a call (R7, R9, R33, R55). -/
theorem leaveRing (q : Tidy s) {i : StationId} (hi : (s.station i).state = .ringing h) {st : StationState} (hst : ∀ k, st ≠ .ringing k) :
    Tidy (s.leaveRing i h st) := by
  obtain ⟨c, hc, listed⟩ := (q.rings i h id).1 hi
  have shape := q.shape h c id hc
  have ringing := shape.of_offered fun e => by simp [e] at listed
  obtain ⟨notQueued, going⟩ := ringing_ne ringing
  have held : Held s h c := .of_orderly q hc going
  unfold State.leaveRing
  generalize hf : (fun x : Call => ({ x with offered := x.offered.filter fun x => !(x.station == i) } : Call)) = f
  have keeps : ∀ x, (f x).handle = x.handle := fun x => by rw [← hf]
  have hfc : f c = { c with offered := c.offered.filter fun x => !(x.station == i) } := by rw [← hf]
  obtain ⟨stays, link⟩ := (s.updCall h f).enterState_stays i st
  have q1 : Orderly (· = h) (fun _ => False) (fun _ => 0) ((s.updCall h f).enterState i st) :=
    ((q.inHand h).updHeld rfl keeps).enterState (fun k n e => n (StationState.ringing.inj (hi.symm.trans e)).symm) fun k _ => hst k
  have found : ((s.updCall h f).enterState i st).findCall h = some (f c) := by
    rw [State.findCall, State.enterState_calls, ← State.findCall, State.findCall_updCall_self s h f keeps, hc]
    rfl
  have rings : ∀ j, (((s.updCall h f).enterState i st).station j).state = .ringing h ↔ j ∈ (f c).offered.map Offer.station := fun j => by
    have left : j ∈ (f c).offered.map Offer.station ↔ j ∈ c.offered.map Offer.station ∧ j ≠ i := by
      rw [hfc]
      simp only [List.mem_map, List.mem_filter]
      constructor
      · rintro ⟨x, ⟨hx, hne⟩, rfl⟩
        exact ⟨⟨x, hx, rfl⟩, by simpa using hne⟩
      · rintro ⟨⟨x, hx, rfl⟩, hne⟩
        exact ⟨x, ⟨hx, by simpa using hne⟩, rfl⟩
    rw [State.enterState_station, left]
    split
    · rename_i e
      exact iff_of_false (hst h) fun x => x.2 e
    · rename_i e
      exact (held.rings j).trans (and_iff_left e).symm
  have group : ∀ g, ((s.updCall h f).enterState i st).group g = s.group g := fun g => by rw [State.group, State.enterState_groups]; rfl
  have orders : ((s.updCall h f).enterState i st).link.callOrders = s.link.callOrders := by rw [link]; rfl
  have others : ∀ k, k ≠ h → ((s.updCall h f).enterState i st).findCall k = s.findCall k := fun k e => by
    rw [State.findCall, State.enterState_calls, ← State.findCall, State.findCall_updCall_ne s e f keeps]
  generalize (s.updCall h f).enterState i st = s1 at q1 found rings group orders others ⊢
  have listing : s1.ringingFor h = (f c).offered.map Offer.station := by
    unfold State.ringingFor
    rw [found]
  have moved : Tidy (if s1.ringingFor h = [] then (s1.updCall h fun c => { c with ringDeadline := none }).ringEnded h [i] else s1) := by
    rw [listing]
    split
    · rename_i e
      replace e := List.map_eq_nil_iff.1 e
      have a1 : Adrift s1 h (f c) := .of_facts found (fun j => (rings j).not.2 (by simp [e])) (fun g => group g ▸ held.away notQueued g)
        (orders ▸ held.going) e (by rw [hfc]; exact shape.outcome going)
      refine (q1.updHeld (f := fun c => { c with ringDeadline := none }) rfl (by exact fun _ => rfl)).ringEnded
        (a1.updCall (by exact fun _ => rfl) a1.offered a1.outcome) ?_ ?_ [i]
      · rw [hfc]
        exact notQueued
      · rw [hfc]
        exact shape.rungOut ringing
    · rename_i e
      rw [List.map_eq_nil_iff, hfc] at e
      obtain ⟨offering, fits⟩ := unlisted_shape shape ringing listed e
      rw [← hfc] at fits
      have state : (f c).state = .offering := by rw [hfc]; exact offering
      have orbit : (f c).orbit = none := by rw [hfc]; exact (shape.offering_bare offering).2.1
      exact q1.settle found rings (fun g => iff_of_false (group g ▸ held.away notQueued g) (by simp [state]))
        (iff_of_false (orders ▸ held.going) (by simp [state])) fits (by simp [state]) (by simp [orbit])
  dsimp only
  generalize (if s1.ringingFor h = [] then (s1.updCall h fun c => { c with ringDeadline := none }).ringEnded h [i] else s1) = s2 at moved ⊢
  split
  · exact moved.availability i
  · exact moved

/-! ## Deadlines (R71, R80, R103) -/

/-- A call that has not ended ends. -/
theorem ends (q : Tidy s) (h : Handle) (hne : ∀ c, s.findCall h = some c → c.state ≠ .ending) (o : CallOutcome) (st : Option StationId) :
    Tidy (s.endCall h o st) := by
  cases hc : s.findCall h with
  | none =>
    unfold State.endCall
    rw [hc]
    exact q
  | some c => exact ((q.inHand h).endCall (.of_orderly q hc (hne c hc)) o st).1

theorem waitExpired (q : Tidy s) (h : Handle) : Tidy (s.waitExpired h) := by
  unfold State.waitExpired
  split
  · exact q
  · rename_i c hc
    split
    · rename_i g hq hg
      exact q.overflow hc hq hg (fun _ _ => le_rfl) ((q.room g).trans (by simp)) _
    · refine q.updKept h (by exact fun _ => rfl) (by exact fun _ => ⟨rfl, rfl, rfl, rfl, Call.Shape.waited⟩)
        (by exact fun _ => ⟨rfl, rfl⟩)

theorem escExpired (q : Tidy s) (h : Handle) : Tidy (s.escExpired h) := by
  have flagged : Tidy (s.updCall h fun c => { c with escDeadline := none, escalated := true }) := by
    refine q.rewrite (F := fun k => if k = h then fun c => { c with escDeadline := none, escalated := true } else id) rfl
      (s.updCall_handles h (by exact fun _ => rfl)) (findCall_updCall s h (by exact fun _ => rfl)) (fun k c _ _ => ?_)
      fun k c g n hc hq hg => ?_ <;> split
    · exact ⟨rfl, rfl, rfl, rfl, Call.Shape.flagged⟩
    · exact .refl c
    · simp [Call.DelayFits]
    · exact q.delay k c g n hc hq hg
  unfold State.escExpired
  split
  · exact q
  · split
    · split
      · exact flagged
      · exact flagged.of_still ((Still.refl _).escalationStart _)
    · exact flagged

theorem parkExpired (q : Tidy s) (hc : s.findCall h = some c) (hp : c.state = .parked) : Tidy (s.parkExpired h) := by
  have shape := q.shape h c id hc
  have held : Held s h c := .of_orderly q hc (by simp [hp])
  have fits := shape
  unfold Call.Shape at fits
  rw [hp] at fits
  obtain ⟨group, offered, ring, wait, esc, park, orbit, parker, outcome, kind⟩ := fits
  have a : Adrift s h c := held.adrift offered (by simp [hp]) outcome
  unfold State.parkExpired
  rw [hc]
  dsimp only
  split
  · rename_i i hi
    obtain ⟨hparker, hidle⟩ := Option.filter_eq_some_iff.1 hi
    obtain ⟨-, idle⟩ := (s.isIdle_iff i).1 hidle
    generalize hf : (fun x : Call => ({ x with
        state := .recalling, offerKind := some .recalling, offered := [{ station := i, start := s.now }],
        ringDeadline := some (later s.now Config.attendantRing), parkDeadline := none } : Call)) = f
    have keeps : ∀ x, (f x).handle = x.handle := fun x => by rw [← hf]
    have state : (f c).state = .recalling := by rw [← hf]
    have listed : (f c).offered.map Offer.station = [i] := by rw [← hf]; rfl
    have orbit' : (f c).orbit = c.orbit := by rw [← hf]
    have shape' : (f c).Shape := by
      rw [← hf]
      simp [Call.Shape, group, wait, esc, orbit, outcome, hparker]
    obtain ⟨stays, link⟩ := (s.updCall h f).enterState_stays i (.ringing h)
    have q1 : Orderly (· = h) (fun _ => False) (fun _ => 0) ((s.updCall h f).enterState i (.ringing h)) :=
      ((q.inHand h).updHeld rfl keeps).enterState (fun k _ e => by cases idle.symm.trans e)
        fun k n e => n (StationState.ringing.inj e).symm
    have find : ∀ k, ((s.updCall h f).enterState i (.ringing h)).findCall k = (s.updCall h f).findCall k := fun k => by rw [stays]; rfl
    refine q1.settle (c := f c) ?_ (fun j => ?_) (fun g => ?_) ?_ shape' (by simp [state]) fun hsome k d e hd eq => ?_
    · rw [find, State.findCall_updCall_self s h f keeps, hc]
      rfl
    · rw [State.enterState_station, listed]
      split
      · simp [*]
      · exact iff_of_false (a.quiet j) (by simp [*])
    · rw [State.group, State.enterState_groups]
      exact iff_of_false (a.away g) (by simp [state])
    · rw [link]
      exact iff_of_false a.held.going (by simp [state])
    · rw [find, State.findCall_updCall_ne s e f keeps] at hd
      exact e (q.orbits h k c d id id hc hd (orbit' ▸ hsome) (orbit' ▸ eq)).symm
  · exact ((q.inHand h).updHeld rfl (by exact fun _ => rfl)).recallToAttendant
      (a.updCall (f := fun c => { c with parkDeadline := none }) (by exact fun _ => rfl) offered outcome) (by simp [hp])

end Orderly
end Sys2Proof.Machine
end

