-- ==== Sys2Proof/Proofs/OrderlyEdits.lean ====
section
/-! SUPPORT. The edits of stations, member lists and groups and the STATION reports, each with what it keeps of the agreement of the calls. -/

namespace Sys2Proof.Machine

/-! ## The limits of the member lists (R44) -/

theorem countP_or_le {α : Type} (p q r : α → Bool) (h : ∀ x, r x = true → p x = true ∨ q x = true) (l : List α) :
    l.countP r ≤ l.countP p + l.countP q := by
  induction l with
  | nil => simp
  | cons x l ih =>
    have := h x
    simp only [List.countP_cons]
    cases hr : r x <;> cases hp : p x <;> cases hq : q x <;> simp [hr, hp, hq] at this ⊢ <;> omega

/-- Member lists whose stations are some of those before keep the limits. -/
theorem WorkingConfig.MembersFit.sublist {c d : WorkingConfig} (h : c.MembersFit)
    (hd : ∀ g : GroupId, (d.groups[g].members.map Member.station).Sublist (c.groups[g].members.map Member.station)) : d.MembersFit := by
  have length : ∀ g : GroupId, d.groups[g].members.length ≤ c.groups[g].members.length := fun g => by simpa using (hd g).length_le
  obtain ⟨each, lists, entries⟩ := h
  refine ⟨fun g => ⟨(each g).1.sublist (hd g), (length g).trans (each g).2⟩, fun i => ?_, ?_⟩
  · refine le_trans ?_ (lists i)
    exact List.countP_mono_left fun g _ hi => decide_eq_true ((hd g).subset (of_decide_eq_true hi))
  · exact le_trans (List.sum_le_sum fun g _ => length g) entries

namespace State

/-- The configuration of a group after a change of one member list. -/
theorem groupCfg_updMembers (s : State) (g k : GroupId) (f : List Member → List Member) :
    (s.updMembers g f).groupCfg k = if k = g then { s.groupCfg g with members := f (s.groupCfg g).members } else s.groupCfg k := by
  unfold updMembers State.groupCfg State.updCfg
  split
  · rename_i e
    subst e
    simp
  · rename_i e
    have : g.val ≠ k.val := fun e' => e (Fin.ext e'.symm)
    simp [Vector.getElem_set_ne, this]

theorem isMember_iff (s : State) (g : GroupId) (i : StationId) :
    s.isMember g i = true ↔ i ∈ (s.groupCfg g).members.map Member.station := by
  simp [isMember]

/-- A station joins a list that does not hold it, where the limits leave room (R45). -/
theorem added_membersFit {s : State} (h : s.cfg.MembersFit) {g : GroupId} {i : StationId} (hnew : s.isMember g i = false)
    (hroom : s.membersFull g i = false) {f : List Member → List Member} {m : Member} (hm : m.station = i) (hf : ∀ l, (f l).Perm (m :: l)) :
    (s.updMembers g f).cfg.MembersFit := by
  have members : ∀ k : GroupId, (s.updMembers g f).cfg.groups[k].members =
      if k = g then f (s.groupCfg g).members else (s.groupCfg k).members := fun k => by
    change ((s.updMembers g f).groupCfg k).members = _
    rw [groupCfg_updMembers]
    split <;> rfl
  have stations : ((f (s.groupCfg g).members).map Member.station).Perm (i :: (s.groupCfg g).members.map Member.station) := by
    simpa [hm] using (hf (s.groupCfg g).members).map Member.station
  have grown : ∀ (j : StationId) (k : GroupId), decide (j ∈ (s.updMembers g f).cfg.groups[k].members.map Member.station) = true →
      decide (j ∈ (s.groupCfg k).members.map Member.station) = true ∨ (decide (j = i) && decide (k = g)) = true := fun j k hj => by
    rw [decide_eq_true_eq, members] at hj
    split at hj
    · rename_i e
      rw [stations.mem_iff, List.mem_cons] at hj
      simpa [e, or_comm] using hj
    · exact .inl (by simpa using hj)
  have lengths : ∀ k : GroupId, (s.updMembers g f).cfg.groups[k].members.length = (s.groupCfg k).members.length + if k = g then 1 else 0 :=
    fun k => by
      rw [members]
      split
      · rename_i e
        rw [(hf _).length_eq, e]
        rfl
      · rfl
  obtain ⟨each, lists, entries⟩ := h
  unfold membersFull at hroom
  simp only [Bool.or_eq_false_iff, decide_eq_false_iff_not, Nat.not_le] at hroom
  obtain ⟨⟨hlist, hstation⟩, htotal⟩ := hroom
  have absent : i ∉ (s.groupCfg g).members.map Member.station := fun e => by
    rw [(s.isMember_iff g i).2 e] at hnew
    cases hnew
  refine ⟨fun k => ?_, fun j => ?_, ?_⟩
  · rw [members]
    split
    · refine ⟨stations.nodup_iff.2 (List.nodup_cons.2 ⟨absent, (each g).1⟩), ?_⟩
      rw [(hf _).length_eq]
      exact hlist
    · exact each k
  · refine le_trans (countP_or_le _ _ _ (grown j) (List.finRange 32)) ?_
    by_cases e : j = i
    · have one : (List.finRange 32).countP (fun k => decide (j = i) && decide (k = g)) = 1 := by
        simp only [e, decide_true, Bool.true_and]
        exact List.count_eq_one_of_mem (List.nodup_finRange 32) (List.mem_finRange g)
      have count : (List.finRange 32).countP (fun k => decide (j ∈ (s.groupCfg k).members.map Member.station)) = s.listsWith i := by
        unfold listsWith
        refine List.countP_congr fun k _ => ?_
        rw [e, decide_eq_true_eq, isMember_iff]
      rw [one, count]
      exact hstation
    · have none : (List.finRange 32).countP (fun k => decide (j = i) && decide (k = g)) = 0 := by simp [e]
      rw [none]
      exact lists j
  · have total : s.memberCount = ∑ k : GroupId, (s.groupCfg k).members.length := (Fin.sum_univ_def _).symm
    simp only [lengths]
    rw [← Fin.sum_univ_def, Finset.sum_add_distrib, ← total]
    rw [Finset.sum_ite_eq' Finset.univ g fun _ => 1, if_pos (Finset.mem_univ g)]
    exact htotal

end State

namespace Orderly

variable {s t : State} {h : Handle} {c : Call}

/-- A member list changes, and the lists keep their limits. -/
theorem updMembers (q : Tidy s) (g : GroupId) {f : List Member → List Member} (hm : (s.updMembers g f).cfg.MembersFit) :
    Tidy (s.updMembers g f) := by
  have same : ∀ k, ((s.updMembers g f).groupCfg k).queueLimit = (s.groupCfg k).queueLimit ∧
      ((s.updMembers g f).groupCfg k).escDelay = (s.groupCfg k).escDelay := fun k => by
    rw [State.groupCfg_updMembers]
    split
    · rename_i e
      rw [e]
      exact ⟨rfl, rfl⟩
    · exact ⟨rfl, rfl⟩
  refine q.recfg hm (fun k => ?_) fun k _ => ⟨id, (same k).2⟩
  change (s.group k).queue.length ≤ max 0 ((s.updMembers g f).groupCfg k).queueLimit
  rw [(same k).1]
  exact q.room k

/-- A member list loses stations or changes flags. -/
theorem updMembers_sublist (q : Tidy s) (g : GroupId) {f : List Member → List Member}
    (hf : ∀ l, ((f l).map Member.station).Sublist (l.map Member.station)) : Tidy (s.updMembers g f) := by
  refine q.updMembers g (q.members.sublist fun k => ?_)
  change (((s.updMembers g f).groupCfg k).members.map _).Sublist ((s.groupCfg k).members.map _)
  rw [State.groupCfg_updMembers]
  split
  · rename_i e
    rw [e]
    exact hf _
  · exact .refl _

theorem cancelGroupRing (q : Tidy s) (g : GroupId) (i : StationId) : Tidy (s.cancelGroupRing g i) := by
  unfold State.cancelGroupRing
  split
  · rename_i h hr
    split
    · exact q.leaveRing hr (by simp)
    · exact q
  · exact q

theorem untry (q : Tidy s) (g : GroupId) (i : StationId) : Tidy (s.untry g i) := by
  refine q.mapCalls (fun c => by split <;> rfl) (fun c => ?_) fun k c j n hc hq hg => ?_
  · split
    · exact ⟨rfl, rfl, rfl, rfl, id⟩
    · exact .refl c
  · split
    · exact q.delay k c j n hc hq hg
    · exact q.delay k c j n hc hq hg

theorem acceptAdd (q : Tidy s) {g : GroupId} {i : StationId} (hnew : s.isMember g i = false) (hroom : s.membersFull g i = false) (pos : Nat)
    (flag : Bool) : Tidy (acceptAdd s g i pos flag) := by
  have perm : ∀ l : List Member, (l.take pos ++ { station := i, loggedIn := flag } :: l.drop pos).Perm ({ station := i, loggedIn := flag } :: l) :=
    fun l => List.perm_middle.trans (.cons _ (by rw [List.take_append_drop]))
  have added := q.updMembers g (State.added_membersFit q.members hnew hroom rfl perm)
  unfold Machine.acceptAdd
  dsimp only
  split
  · exact added.availability i
  · exact added

theorem acceptRemove (q : Tidy s) (g : GroupId) (i : StationId) : Tidy (acceptRemove s g i) := by
  have q1 : Tidy (s.updGroup g fun x => { x with cursor := cursorAfter (s.groupCfg g).members i x.cursor }) := q.updGroup (by exact fun _ => rfl)
  exact ((q1.updMembers_sublist g (by exact fun l => List.filter_sublist.map _)).untry g i).cancelGroupRing g i

theorem setLoggedIn_stations (i : StationId) (b : Bool) (l : List Member) : (setLoggedIn i b l).map Member.station = l.map Member.station := by
  unfold setLoggedIn
  rw [List.map_map]
  refine List.map_congr_left fun m _ => ?_
  dsimp only [Function.comp]
  split <;> rfl

theorem setLoggedIn (q : Tidy s) (g : GroupId) (i : StationId) (b : Bool) : Tidy (s.updMembers g (setLoggedIn i b)) :=
  q.updMembers_sublist g fun l => setLoggedIn_stations i b l ▸ .refl _

theorem acceptLogin (q : Tidy s) (g : GroupId) (i : StationId) : Tidy (acceptLogin s g i) := by
  unfold Machine.acceptLogin
  split
  · exact q
  · exact (q.setLoggedIn g i true).availability i

theorem acceptLogout (q : Tidy s) (g : GroupId) (i : StationId) : Tidy (acceptLogout s g i) := by
  unfold Machine.acceptLogout
  split
  · exact (q.setLoggedIn g i false).cancelGroupRing g i
  · exact q

/-! ## Stations (R3, R7 to R10) -/

/-- A station that rings for no call enters a state that is no ring. -/
theorem enterQuiet (q : Tidy s) {i : StationId} {st st' : StationState} (hi : (s.station i).state = st') (h1 : ∀ k, st' ≠ .ringing k)
    (h2 : ∀ k, st ≠ .ringing k) : Tidy (s.enterState i st) :=
  q.enterState (fun k _ => hi ▸ h1 k) fun k _ => h2 k

theorem station_updStation_state {i : StationId} {f : Station → Station} (hf : ∀ r, (f r).state = r.state) (j : StationId) :
    ((s.updStation i f).station j).state = (s.station j).state := by
  by_cases e : j = i
  · rw [e, State.station_updStation_self, hf]
  · rw [State.station_updStation_ne s e]

/-- A station record changes but for its state. -/
theorem updStation (q : Tidy s) (i : StationId) {f : Station → Station} (hf : ∀ r, (f r).state = r.state) : Tidy (s.updStation i f) :=
  { q with rings := fun j k n => by rw [station_updStation_state hf]; exact q.rings j k n }

theorem enterFreshIdle (q : Tidy s) {i : StationId} (hi : ∀ k, (s.station i).state ≠ .ringing k) : Tidy (s.enterFreshIdle i) := by
  refine (q.updStation i (f := fun r => { r with idleSince := s.now, saturated := false }) (by exact fun _ => rfl)).enterState
    (fun k _ => ?_) (by simp)
  rw [station_updStation_state (by exact fun _ => rfl)]
  exact hi k

theorem applyInUse (q : Tidy s) (b : Bool) (i : StationId) : Tidy (s.applyInUse b i) := by
  unfold State.applyInUse
  split
  · unfold State.bringIntoUse
    split
    · rename_i e
      exact (q.enterFreshIdle (i := i) (by simp [e])).availability i
    · exact q
  · unfold State.takeOutOfUse
    split
    · exact q
    · rename_i h e
      exact q.leaveRing e (by simp)
    all_goals
      rename_i e
      exact q.enterQuiet e (by simp) (by simp)

theorem acceptSetStation (q : Tidy s) (first last : Nat) (f : StationFields) : Tidy (acceptSetStation s first last f) := by
  have written : Tidy (s.writeStations first last f.write) := q.of_still ((Still.refl s).updCfg rfl)
  unfold Machine.acceptSetStation
  dsimp only
  split
  · exact written
  · exact List.foldlRecOn (motive := Tidy) _ _ written fun _ q i _ => q.applyInUse _ i

theorem reportOffhook (q : Tidy s) (i : StationId) : Tidy (reportOffhook s i) := by
  unfold Machine.reportOffhook
  split
  · exact q.enterQuiet ‹_› (by simp) (by simp)
  · exact q.leaveRing ‹_› (by simp)
  · exact q.enterQuiet ‹_› (by simp) (by simp)
  · exact q
  · exact q
  · exact q

theorem reportOutOfService (q : Tidy s) (i : StationId) : Tidy (reportOutOfService s i) := by
  unfold Machine.reportOutOfService
  split
  · exact q.enterQuiet ‹_› (by simp) (by simp)
  · exact q.enterQuiet ‹_› (by simp) (by simp)
  · exact q.leaveRing ‹_› (by simp)
  · exact q.enterQuiet ‹_› (by simp) (by simp)
  · exact q
  · exact q

theorem reportOnhook (q : Tidy s) (i : StationId) : Tidy (reportOnhook s i) := by
  unfold Machine.reportOnhook
  split
  · rename_i e
    exact (q.enterFreshIdle (i := i) (by simp [e])).availability i
  all_goals exact q

theorem reportInService (q : Tidy s) (i : StationId) : Tidy (reportInService s i) := by
  unfold Machine.reportInService
  split
  · rename_i e
    exact (q.enterFreshIdle (i := i) (by simp [e])).availability i
  all_goals exact q

end Orderly
end Sys2Proof.Machine
end

