-- ==== Sys2Proof/Proofs/OrderlyGroupEdits.lean ====
section
/-! SUPPORT. The live effects of SET_GROUP (R72, R74, R86) group by group, with what each keeps of the agreement of the calls. -/

namespace Sys2Proof.Machine
namespace Orderly

variable {G G' : GroupId → Prop} {cap cap' : GroupId → Nat} {s t : State} {h : Handle} {c : Call} {g : GroupId}

/-! ## Disabling (R74) -/

/-- A call that a disabling of the group moves: it is queued there, or it rings. -/
def Movable (s : State) (g : GroupId) (h : Handle) : Prop :=
  ∃ c, s.findCall h = some c ∧ (c.state = .queued ∧ c.currentGroup = some g ∨ c.state = .offering)

/-- Calls of a disabled group overflow from it one by one. -/
theorem overflowMoves (r : RouteReason) (l : List Handle) (q : Orderly (fun _ => False) G cap s) (hd : (s.groupCfg g).enabled = false)
    (hn : l.Nodup) (hl : ∀ h ∈ l, Movable s g h) :
    Orderly (fun _ => False) G cap (l.foldl (fun s h => s.overflowMove h g r) s) := by
  induction l generalizing s with
  | nil => exact q
  | cons h l ih =>
    obtain ⟨fresh, hn⟩ := List.nodup_cons.1 hn
    obtain ⟨c, hc, hst⟩ := hl h (by simp)
    have moved : Orderly (fun _ => False) G cap (s.overflowMove h g r) ∧ Only h s (s.overflowMove h g r) := by
      rcases hst with ⟨hq, hg⟩ | ho
      · exact (q.overflowQueued hc hq hg (fun _ _ => le_rfl) ((q.room g).trans (Nat.le_succ _)) r).imp id fun only => only hd
      · exact q.overflowOffering hc ho g r
    obtain ⟨q1, only⟩ := moved
    refine ih q1 ?_ hn fun k hk => ?_
    · rw [State.groupCfg, ((Quiet.refl s).overflowMove h g r).cfg]
      exact hd
    · obtain ⟨d, hd, hst⟩ := hl k (List.mem_cons_of_mem h hk)
      exact ⟨d, (only k fun e => fresh (e ▸ hk)).trans hd, hst⟩

theorem disableGroup (q : Orderly (fun _ => False) G cap s) (hd : (s.groupCfg g).enabled = false) :
    Orderly (fun _ => False) G cap (s.disableGroup g) := by
  have q1 : Orderly (fun _ => False) G cap (s.overflowQueue g) :=
    q.overflowMoves _ _ hd (q.once g) fun h hm => by
      obtain ⟨c, hc, hq, hg⟩ := (q.queue g h id).1 hm
      exact ⟨c, hc, .inl ⟨hq, hg⟩⟩
  have hd1 : ((s.overflowQueue g).groupCfg g).enabled = false := by
    unfold State.overflowQueue
    rw [State.groupCfg, (Quiet.overflowMoves (Quiet.refl s) g _ _).cfg]
    exact hd
  unfold State.disableGroup
  generalize s.overflowQueue g = s1 at q1 hd1 ⊢
  refine (q1.overflowMoves _ _ hd1 ?_ fun h hm => ?_).availAll _
  · exact (s1.offeringAt_perm g).nodup_iff.2 (q1.handles.sublist (List.filter_sublist.map _))
  · obtain ⟨c, hc, e⟩ := List.mem_map.1 ((s1.offeringAt_perm g).mem_iff.1 hm)
    obtain ⟨hmem, hcond⟩ := List.mem_filter.1 hc
    simp only [Bool.and_eq_true, decide_eq_true_eq] at hcond
    exact ⟨c, (State.findCall_iff q1.handles h c).2 ⟨hmem, e⟩, .inr hcond.1⟩

/-! ## The queue limit (R72) -/

/-- Calls overflow from the tail until the queue is within its limit. -/
theorem lowerLimit (n : Nat) (q : Orderly (fun _ => False) G cap s) (hn : (s.group g).queue.length ≤ n + (s.groupCfg g).queueLimit)
    (hcap : ∀ k, k ≠ g → cap k ≤ cap' k) : Orderly (fun _ => False) G cap' (State.lowerLimit n g s) := by
  have within : ∀ {s : State}, Orderly (fun _ => False) G cap s → (s.group g).queue.length ≤ (s.groupCfg g).queueLimit →
      Orderly (fun _ => False) G cap' s := fun {s} q hle => q.recap fun k => by
    by_cases e : k = g
    · rw [e]
      exact hle.trans (Nat.le_max_right _ _)
    · exact (q.room k).trans (max_le_max (hcap k e) le_rfl)
  induction n generalizing s cap with
  | zero => exact within (s := s) q (by omega)
  | succ n ih =>
    unfold State.lowerLimit
    split
    · split
      · rename_i h hlast
        obtain ⟨c, hc, hq, hg⟩ := (q.queue g h id).1 (List.mem_of_getLast? hlast)
        have q1 : Orderly (fun _ => False) G (fun k => if k = g then n + (s.groupCfg g).queueLimit else cap k) (s.overflow h g .limitLowered) := by
          refine q.overflow hc hq hg (fun k e => by simp [e]) ?_ _
          simp only [if_true]
          omega
        have cfg : (s.overflow h g .limitLowered).groupCfg g = s.groupCfg g := by
          rw [State.groupCfg, ((Quiet.refl s).overflow h g .limitLowered).cfg]
          rfl
        have room := q1.room g
        rw [cfg, if_pos rfl] at room
        have hcap1 : ∀ k, k ≠ g → (if k = g then n + (s.groupCfg g).queueLimit else cap k) ≤ cap' k := fun k e => by
          rw [if_neg e]
          exact hcap k e
        refine ih q1 (by rw [cfg]; omega) hcap1 fun {t} qt hle => qt.recap fun k => ?_
        by_cases e : k = g
        · rw [e]
          exact hle.trans (Nat.le_max_right _ _)
        · exact (qt.room k).trans (max_le_max (hcap1 k e) le_rfl)
      · rename_i e
        rw [List.getLast?_eq_none_iff] at e
        exact within q (by simp [e])
    · exact within q (by omega)

/-! ## The escalation delay (R86) -/

/-- The calls of a list take the new delay, and nothing else changes. -/
theorem redelayed_all (delay : Nat) (l : List Handle) (s : State) (hn : l.Nodup) :
    l.foldl (fun s h => s.updCall h (s.redelayed delay)) s =
        { s with calls := (l.foldl (fun s h => s.updCall h (s.redelayed delay)) s).calls } ∧
      (l.foldl (fun s h => s.updCall h (s.redelayed delay)) s).calls.map Call.handle = s.calls.map Call.handle ∧
      ∀ k, (l.foldl (fun s h => s.updCall h (s.redelayed delay)) s).findCall k =
        (s.findCall k).map (if k ∈ l then s.redelayed delay else id) := by
  have keeps : ∀ (s : State) c, (s.redelayed delay c).handle = c.handle := fun s c => (SameTable.redelayed_handle_hops s delay c).1
  induction l generalizing s with
  | nil => exact ⟨rfl, rfl, by simp⟩
  | cons h l ih =>
    obtain ⟨fresh, hn⟩ := List.nodup_cons.1 hn
    obtain ⟨h1, h2, h3⟩ := ih (s.updCall h (s.redelayed delay)) hn
    refine ⟨h1, h2.trans (s.updCall_handles h (keeps s)), fun k => ?_⟩
    rw [List.foldl_cons, h3, findCall_updCall s h (keeps s), Option.map_map]
    by_cases e : k = h
    · rw [if_neg (e ▸ fresh), if_pos e, if_pos (by simp [e]), Function.id_comp]
    · simp only [e, if_false, List.mem_cons, false_or, Function.comp_id]
      rfl

/-- What a new delay gives a call queued there (R86). -/
theorem redelayed_fits {delay : Nat} (s : State) (hs : c.Shape) (hq : c.state = .queued) (he : c.escalated = true → c.escDeadline = none)
    (hd : delay ≠ 0) :
    c.Keeps (s.redelayed delay c) ∧ ((s.redelayed delay c).escalated = true → (s.redelayed delay c).escDeadline = none) ∧
      (s.redelayed delay c).DelayFits delay := by
  have shape : ∀ b d, Call.Shape { c with escalated := b, escDeadline := d } := fun b d => by
    unfold Call.Shape at hs ⊢
    rw [hq] at hs
    dsimp only
    rw [hq]
    exact hs
  obtain ⟨-, -, entry, -⟩ : c.currentGroup.isSome = true ∧ c.offered = [] ∧ c.queueEntry.isSome = true ∧ True := by
    unfold Call.Shape at hs
    rw [hq] at hs
    obtain ⟨h1, h2, h3, -⟩ := hs
    exact ⟨h1, h2, h3, trivial⟩
  unfold State.redelayed Call.DelayFits
  split
  · rename_i e
    exact ⟨.refl c, he, by simp [he e, e]⟩
  · rename_i e
    split
    · exact ⟨⟨rfl, rfl, rfl, rfl, fun _ => shape _ _⟩, by simp, by simp⟩
    · exact ⟨⟨rfl, rfl, rfl, rfl, fun _ => shape _ _⟩, fun x => absurd x e, by simpa [hd, entry] using e⟩

theorem delaySet (q : Orderly (fun _ => False) G cap s) {delay : Nat} (hd : (s.groupCfg g).escDelay = delay) (h0 : delay ≠ 0)
    (hG : ∀ k, ¬ G' k → k = g ∨ ¬ G k) : Orderly (fun _ => False) G' cap (s.delaySet g delay) := by
  obtain ⟨stays, handles, find⟩ := redelayed_all delay (s.group g).queue s (q.once g)
  have q1 : Orderly (fun _ => False) G' cap ((s.group g).queue.foldl (fun s h => s.updCall h (s.redelayed delay)) s) := by
    refine q.rewrite (F := fun k => if k ∈ (s.group g).queue then s.redelayed delay else id) stays handles find (fun k c n hc => ?_)
      fun k c j n hc hq hg => ?_
    · split
      · rename_i hm
        obtain ⟨d, hd, hq, hg⟩ := (q.queue g k id).1 hm
        obtain rfl := Option.some.inj (hc.symm.trans hd)
        exact (redelayed_fits s (q.shape k c id hc) hq (q.delay k c g id hc hq hg).1 h0).1
      · exact .refl c
    · obtain ⟨he, hfit⟩ := q.delay k c j id hc hq hg
      split
      · rename_i hm
        obtain ⟨d, hd', -, hg'⟩ := (q.queue g k id).1 hm
        obtain rfl := Option.some.inj (hc.symm.trans hd')
        obtain rfl := Option.some.inj (hg.symm.trans hg')
        obtain ⟨-, h1, h2⟩ := redelayed_fits s (q.shape k c id hc) hq he h0
        exact ⟨h1, fun _ => by rw [hd]; exact h2⟩
      · rename_i hm
        exact ⟨he, fun hj => hfit ((hG j hj).resolve_left fun e => hm ((q.queue g k id).2 ⟨c, hc, hq, e ▸ hg⟩))⟩
  unfold State.delaySet
  dsimp only
  split
  · exact q1.of_still ((Still.refl _).escalationStart g)
  · exact q1

theorem delayCleared (q : Orderly (fun _ => False) G cap s) (hd : (s.groupCfg g).escDelay = 0) (hG : ∀ k, ¬ G' k → k = g ∨ ¬ G k) :
    Orderly (fun _ => False) G' cap (s.delayCleared g) := by
  have q1 : Orderly (fun _ => False) G' cap { s with
      calls := s.calls.map fun c =>
        if c.currentGroup = some g ∧ (c.state = .queued ∨ c.state = .offering) then
          { c with escalated := false, escDeadline := none }
        else c } := by
    refine q.mapCalls (fun c => by split <;> rfl) (fun c => ?_) fun k c j n hc hq hg => ?_
    · split
      · rename_i e
        refine ⟨rfl, rfl, rfl, rfl, fun hs => ?_⟩
        unfold Call.Shape at hs ⊢
        dsimp only
        split at hs <;> simp_all
      · exact .refl c
    · obtain ⟨he, hfit⟩ := q.delay k c j id hc hq hg
      split
      · rename_i e
        obtain rfl := Option.some.inj (hg.symm.trans e.1)
        exact ⟨fun _ => rfl, fun _ => by simp [Call.DelayFits, hd]⟩
      · rename_i e
        exact ⟨he, fun hj => hfit ((hG j hj).resolve_left fun x => e ⟨x ▸ hg, .inl hq⟩)⟩
  unfold State.delayCleared
  dsimp only
  split
  · exact q1.of_still ((Still.refl _).escalationClear g)
  · exact q1

/-! ## The edit (R182) -/

/-- The live effects on one group leave it with no delay awaited and its queue within the limit. -/
theorem live (q : Orderly (fun _ => False) G cap s) {f : GroupFields} {k : GroupCfg} (hk : s.groupCfg g = f.write k) (b : Bool)
    (hG : ∀ j, ¬ G' j → j = g ∧ f.escDelay.isSome = true ∨ ¬ G j)
    (hcap : ∀ j, j ≠ g ∨ f.queueLimit.isSome = false → cap j ≤ cap' j) : Orderly (fun _ => False) G' cap' (f.live b s g) := by
  unfold GroupFields.live
  dsimp only
  have q1 : Orderly (fun _ => False) G cap (if b = true ∧ f.enabled = some false then s.disableGroup g else s) := by
    split
    · rename_i e
      exact q.disableGroup (by rw [hk]; simp [GroupFields.write, e.2])
    · exact q
  have cfg1 : (if b = true ∧ f.enabled = some false then s.disableGroup g else s).groupCfg g = f.write k := by
    split
    · rw [State.groupCfg, ((Quiet.refl s).disableGroup g).cfg]
      exact hk
    · exact hk
  generalize (if b = true ∧ f.enabled = some false then s.disableGroup g else s) = s1 at q1 cfg1 ⊢
  have q2 : Orderly (fun _ => False) G cap' (if f.queueLimit.isSome = true then State.lowerLimit (s1.group g).queue.length g s1 else s1) := by
    split
    · exact q1.lowerLimit _ (Nat.le_add_right _ _) fun j e => hcap j (.inl e)
    · rename_i e
      exact q1.recap fun j => (q1.room j).trans (max_le_max (hcap j (.inr (by simpa using e))) le_rfl)
  have cfg2 : (if f.queueLimit.isSome = true then State.lowerLimit (s1.group g).queue.length g s1 else s1).groupCfg g = f.write k := by
    split
    · rw [State.groupCfg, ((Quiet.refl s1).lowerLimit _ g).cfg]
      exact cfg1
    · exact cfg1
  generalize (if f.queueLimit.isSome = true then State.lowerLimit (s1.group g).queue.length g s1 else s1) = s2 at q2 cfg2 ⊢
  split
  · rename_i e
    exact q2.weaken (fun _ => id) fun j hj => by
      by_contra n
      rcases hG j n with ⟨-, x⟩ | x
      · simp [e] at x
      · exact x hj
  · rename_i e
    exact q2.delayCleared (by rw [cfg2]; simp [GroupFields.write, e]) fun j n => (hG j n).imp And.left id
  · rename_i d e
    exact q2.delaySet (by rw [cfg2]; simp [GroupFields.write, e]) (Nat.succ_ne_zero d) fun j n => (hG j n).imp And.left id

/-- The live effects on the groups of a list, under a configuration with every field written. -/
theorem liveAll {f : GroupFields} {old : GroupId → Bool} {cfg : GroupId → GroupCfg} {bound : GroupId → Nat} (l : List GroupId)
    (q : Orderly (fun _ => False) (fun g => g ∈ l ∧ f.escDelay.isSome = true)
      (fun g => if g ∈ l ∧ f.queueLimit.isSome = true then bound g else 0) s)
    (hcfg : ∀ g ∈ l, s.groupCfg g = f.write (cfg g)) : Tidy (l.foldl (fun t g => f.live (old g) t g) s) := by
  induction l generalizing s with
  | nil => exact (q.weaken (fun _ => id) fun g hg => by simp at hg).recap fun g => by simpa using q.room g
  | cons g l ih =>
    refine ih (q.live (hcfg g (by simp)) (old g) (fun j n => ?_) fun j e => ?_) fun j hj => ?_
    · by_cases e : f.escDelay.isSome = true <;> simp [e] at n ⊢
      tauto
    · split
      · rename_i hj
        obtain ⟨hj, hsome⟩ := hj
        rcases e with e | e
        · rw [if_pos ⟨(List.mem_cons.1 hj).resolve_left e, hsome⟩]
        · rw [hsome] at e
          cases e
      · exact Nat.zero_le _
    · rw [State.groupCfg, ((Quiet.refl s).live f (old g) g).cfg]
      exact hcfg j (List.mem_cons_of_mem g hj)

theorem acceptSetGroup (q : Tidy s) (mask : Nat) (f : GroupFields) : Tidy (acceptSetGroup s mask f) := by
  have cfg : ∀ g, (s.updCfg fun c => { c with groups := c.groups.mapFinIdx fun i x _ => if mask.testBit i then f.write x else x }).groupCfg g =
      if g ∈ groupsIn mask then f.write (s.groupCfg g) else s.groupCfg g := fun g => by
    simp [State.groupCfg, State.updCfg, groupsIn, Vector.getElem_mapFinIdx]
  refine liveAll (f := f) (old := fun g => (s.groupCfg g).enabled) (cfg := s.groupCfg) (bound := fun g => (s.group g).queue.length) (groupsIn mask)
    (q.recfg (q.members.sublist fun g => ?_) (fun g => ?_) fun g n => ?_) fun g hg => ?_
  · have same : ((s.updCfg fun c => { c with groups := c.groups.mapFinIdx fun i x _ => if mask.testBit i then f.write x else x }).groupCfg
        g).members = (s.groupCfg g).members := by
      rw [cfg]
      split <;> rfl
    exact (congrArg (List.map Member.station) same) ▸ .refl _
  · rw [cfg]
    by_cases hm : g ∈ groupsIn mask
    · cases hl : f.queueLimit with
      | none => simpa [hm, GroupFields.write, hl] using q.room g
      | some n => simp [hm]
    · simpa [hm] using q.room g
  · refine ⟨id, ?_⟩
    rw [cfg]
    split
    · rename_i hm
      have : f.escDelay = none := by simpa [hm] using n
      simp [GroupFields.write, this]
    · rfl
  · rw [cfg, if_pos hg]

end Orderly
end Sys2Proof.Machine
end

