-- ==== Sys2Proof/Proofs/OrderlySteps.lean ====
section
/-! SUPPORT. New records, records that become FREE, resets, the link and the commands, each with what it keeps of the agreement of the calls. -/

namespace Sys2Proof.Machine

namespace State

/-- A new record is found under its handle alone. -/
theorem findCall_addCall_ne (s : State) {c : Call} {k : Handle} (e : k ≠ c.handle) : (s.addCall c).findCall k = s.findCall k := by
  unfold findCall
  rw [addCall_calls, List.find?_append, List.find?_cons_of_neg (by simpa using Ne.symm e), List.find?_nil, Option.or_none]

/-- A record that becomes FREE is found no more; the others are. -/
theorem findCall_dropCall (s : State) (h k : Handle) : (s.dropCall h).findCall k = if k = h then none else s.findCall k := by
  unfold findCall dropCall
  rw [List.find?_filter]
  split
  · rename_i e
    simp [e]
  · rename_i e
    refine congrArg (fun p => s.calls.find? p) (funext fun d => ?_)
    by_cases hd : d.handle = k <;> simp [hd, e]

/-- An orbit that no call holds. -/
theorem orbitHolder_none {s : State} {o : OrbitId} (h : s.orbitHolder o = none) {k : Handle} {d : Call} (hd : s.findCall k = some d) :
    d.orbit ≠ some o := by
  unfold orbitHolder at h
  simpa using List.find?_eq_none.1 h d (List.mem_of_find?_eq_some hd)

end State

namespace Orderly

variable {X : Handle → Prop} {G : GroupId → Prop} {cap : GroupId → Nat} {s t : State} {h : Handle} {c : Call}

/-! ## Records that come and go (R32, R38, R102) -/

/-- A new record under a new handle is in hand. -/
theorem addCall (q : Tidy s) (hnew : s.findCall c.handle = none) (ho : c.offered = []) (hn : c.outcome = none) :
    Orderly (· = c.handle) (fun _ => False) (fun _ => 0) (s.addCall c) ∧ Adrift (s.addCall c) c.handle c := by
  have ne : ∀ {k}, ¬ k = c.handle → (s.addCall c).findCall k = s.findCall k := fun e => s.findCall_addCall_ne e
  have fresh : c.handle ∉ s.calls.map Call.handle := by
    unfold State.findCall at hnew
    simpa using hnew
  constructor
  · refine { q with
      handles := ?_
      rings := fun i k n => by rw [ne n]; exact q.rings i k id
      queue := fun g k n => by rw [ne n]; exact q.queue g k id
      shape := fun k d n hd => q.shape k d id (ne n ▸ hd)
      delay := fun k d g n hd => q.delay k d g id (ne n ▸ hd)
      orbits := fun k j d e n m hd he => q.orbits k j d e id id (ne n ▸ hd) (ne m ▸ he)
      ending := fun k n => by rw [ne n]; exact q.ending k id }
    rw [State.addCall_calls, List.map_append]
    exact List.nodup_append.2 ⟨q.handles, List.nodup_singleton _, fun x hx y hy e => fresh (by simp_all)⟩
  · refine .of_facts (s.findCall_addCall c hnew) (fun i hr => ?_) (fun g hg => ?_) (fun hm => ?_) ho hn
    · obtain ⟨d, hd, -⟩ := (q.rings i _ id).1 hr
      cases hnew.symm.trans hd
    · obtain ⟨d, hd, -⟩ := (q.queue g _ id).1 hg
      cases hnew.symm.trans hd
    · obtain ⟨d, hd, -⟩ := (q.ending _ id).1 hm
      cases hnew.symm.trans hd

/-- The record of an ENDING call becomes FREE and its entry leaves the call order set. -/
theorem freed (q : Tidy s) (he : h ∈ s.link.callOrders) :
    Tidy ((s.dropCall h).updLink fun l => { l with tx := none, callOrders := l.callOrders.filter fun k => !(k == h) }) := by
  obtain ⟨c, hc, hst⟩ := (q.ending h id).1 he
  have fits := q.shape h c id hc
  unfold Call.Shape at fits
  rw [hst] at fits
  obtain ⟨-, offered, -⟩ := fits
  have find : ∀ k, ((s.dropCall h).updLink fun l => { l with tx := none, callOrders := l.callOrders.filter fun k => !(k == h) }).findCall k =
      if k = h then none else s.findCall k := s.findCall_dropCall h
  have old : ∀ {k d}, (if k = h then none else s.findCall k) = some d → s.findCall k = some d := fun {k d} hd => by
    split at hd
    · cases hd
    · exact hd
  refine ⟨q.handles.sublist (List.filter_sublist.map _), fun i k _ => ?_, fun g k _ => ?_, q.once, q.room, fun k d _ hd => ?_,
    fun k d g _ hd => ?_, fun k j d e _ _ hd hj => ?_, q.ordersOnce.filter _, fun k _ => ?_, nofun, q.members, q.stored, q.save⟩
  · rw [find]
    split
    · rename_i e
      refine iff_of_false (fun hr => ?_) (by simp)
      obtain ⟨d, hd, hi⟩ := (q.rings i k id).1 hr
      rw [e, hc] at hd
      obtain rfl := Option.some.inj hd
      simp [offered] at hi
    · exact q.rings i k id
  · rw [find]
    split
    · rename_i e
      refine iff_of_false (fun hg => ?_) (by simp)
      obtain ⟨d, hd, hq, -⟩ := (q.queue g k id).1 hg
      rw [e, hc] at hd
      obtain rfl := Option.some.inj hd
      simp [hst] at hq
    · exact q.queue g k id
  · rw [find] at hd
    exact q.shape k d id (old hd)
  · rw [find] at hd
    exact q.delay k d g id (old hd)
  · rw [find] at hd hj
    exact q.orbits k j d e id id (old hd) (old hj)
  · rw [find]
    change k ∈ s.link.callOrders.filter _ ↔ _
    rw [List.mem_filter]
    split
    · rename_i e
      simp [e]
    · rename_i e
      rw [← q.ending k id]
      simp [e]

/-! ## The link (R173, R174) -/

/-- The link changes but for the call orders, and a CALL_END on the line is of the set. -/
theorem updLink (q : Orderly X G cap s) {f : Link → Link} (h1 : (f s.link).callOrders = s.link.callOrders)
    (h2 : ∀ x h, (f s.link).tx = some x → x.item = .callEnd h → h ∈ s.link.callOrders) : Orderly X G cap (s.updLink f) :=
  { q with
    ordersOnce := show (f s.link).callOrders.Nodup from h1 ▸ q.ordersOnce
    ending := fun k n => show k ∈ (f s.link).callOrders ↔ _ from h1 ▸ q.ending k n
    line := fun x k hx hi => show k ∈ (f s.link).callOrders from h1 ▸ h2 x k hx hi }

/-- A frame that is no CALL_END goes on the line. -/
theorem sendFrame (q : Orderly X G cap s) {item : TxItem} (hi : ∀ h, item ≠ .callEnd h) (f : Frame) : Orderly X G cap (s.sendFrame item f) :=
  q.updLink rfl fun x h hx hc => by
    obtain rfl := Option.some.inj hx
    exact absurd hc (hi h)

theorem takeStationOrder (q : Tidy s) (m : Mark) (rest : List Mark) : Tidy (s.takeStationOrder m rest) := by
  have sent := q.sendFrame (item := .other) (by simp) { kind := 0x63, tag := 0, body := stationOrderBody m.station (s.present (s.station m.station).state) }
  unfold State.takeStationOrder
  dsimp only
  generalize s.sendFrame .other _ = s1 at sent ⊢
  have marked : Tidy (s1.updStation m.station fun r => { r with lastSent := s.present (s.station m.station).state }) :=
    sent.updStation m.station (by exact fun _ => rfl)
  exact marked.updLink rfl marked.line

theorem transmitTake (q : Tidy s) : Tidy s.transmitTake := by
  unfold State.transmitTake
  split
  · exact q
  · unfold State.takeReply
    refine updLink (q.sendFrame (fun h => ?_) _) rfl (line (q.sendFrame (fun h => ?_) _)) <;> split <;> simp
  · split
    · exact q
    · unfold State.takeOther
      split
      · exact (q.sendFrame (by simp) _).updLink rfl (q.sendFrame (by simp) _).line
      · exact (q.sendFrame (by simp) _).updLink rfl (q.sendFrame (by simp) _).line
      · rename_i c _ _ hc
        obtain ⟨k, hk, hfind⟩ := Option.bind_eq_some_iff.1 hc
        refine q.updLink rfl fun x h hx hi => ?_
        obtain rfl := Option.some.inj hx
        obtain rfl := TxItem.callEnd.inj hi
        rw [State.findCall_handle hfind]
        exact List.mem_of_head? hk
      · exact q.takeStationOrder _ _
      · exact (q.sendFrame (by simp) _).updLink rfl (q.sendFrame (by simp) _).line
      · exact q

theorem finish (q : Tidy s) : Tidy s.finish := q.flush.transmitTake

theorem answer (q : Tidy s) (f : Frame) (r : Result) (l : List Octet) : Tidy (s.answer f r l) := (q.updLink rfl q.line).transmitTake

theorem of_dispatch {row : Row} {f : Frame} {handle : State → Handled} (e : dispatch row f handle s = .next t) (q : Tidy s)
    (h : ∀ u, Tidy u → Tidy (handle u).st) : Tidy t := by
  obtain ⟨rest, -, -, -, e'⟩ | e' := dispatch_answers row f handle s <;> rw [e'] at e <;> cases e
  · exact (h (s.takeHead rest) (q.updLink rfl q.line)).flush.answer f _ _
  · exact q

theorem of_event {b : Bool} {effect : State → State} (e : event s b effect = .next t) (q : Tidy s) (h : b = true → Tidy (effect s)) :
    Tidy t := by
  obtain ⟨-, hb, e'⟩ | e' := event_answers s b effect <;> rw [e'] at e <;> cases e
  · exact (h hb).finish
  · exact q

/-! ## Resets, the save and the end of a transmission (R38, R183, R187) -/

theorem afterReset (s : State) (power : Power) {cfg : WorkingConfig} (hm : cfg.MembersFit) (hs : ∀ c, s.stored = some c → c.MembersFit)
    (gains : Vector Nat 16) (cause : StartCause) (origin : StartOrigin) : Tidy (s.afterReset power cfg gains cause origin) := by
  have group : ∀ g, (s.afterReset power cfg gains cause origin).group g = Group.afterReset := fun g => by
    simp [State.afterReset, State.group]
  have noCall : ∀ k, (s.afterReset power cfg gains cause origin).findCall k = none := fun _ => rfl
  refine ⟨List.nodup_nil, fun i k _ => ?_, fun g k _ => ?_, fun g => ?_, fun g => ?_, fun k c _ hc => absurd (noCall k ▸ hc) (by simp),
    fun k c g _ hc => absurd (noCall k ▸ hc) (by simp), fun k j c d _ _ hc => absurd (noCall k ▸ hc) (by simp), List.nodup_nil, fun k _ => ?_,
    fun x k hx => absurd (show none = some x from hx) (by simp), hm, hs, fun r hr => absurd (show none = some r from hr) (by simp)⟩
  · have quiet : ((s.afterReset power cfg gains cause origin).station i).state ≠ .ringing k := by
      simp only [State.afterReset, State.station, Fin.getElem_fin, Vector.getElem_map, State.stationAfterReset]
      split <;> simp
    exact iff_of_false quiet (by simp [noCall])
  · rw [group]
    exact iff_of_false List.not_mem_nil (by simp [noCall])
  · rw [group]
    exact List.nodup_nil
  · rw [group]
    exact Nat.zero_le _
  · exact iff_of_false List.not_mem_nil (by simp [noCall])

/-- The stored copy changes to one within the limits, or to none. -/
theorem restore (q : Tidy s) {st : Option WorkingConfig} (hs : ∀ c, st = some c → c.MembersFit) : Tidy { s with stored := st } :=
  { q with stored := hs }

theorem powerOn (q : Tidy s) (b : Bool) : Tidy (s.powerOn b) := by
  have hs : ∀ c, (if b = true then s.stored else none) = some c → c.MembersFit := fun c hc => by
    split at hc
    · exact q.stored c hc
    · cases hc
  have hcfg : ((if b = true then s.stored else none).getD WorkingConfig.defaults).MembersFit := by
    generalize (if b = true then s.stored else none) = x at hs ⊢
    cases x with
    | none => exact reset_membersFit
    | some c => exact hs c rfl
  exact (afterReset s .running hcfg q.stored _ .power _).restore hs

theorem warmReset (q : Tidy s) (power : Power) (cause : StartCause) : Tidy (s.warmReset power cause) :=
  afterReset s power q.members q.stored _ cause .retained

theorem transmissionEnds (q : Tidy s) {f : TxFrame} (hf : s.link.tx = some f) : Tidy (s.transmissionEnds f) := by
  unfold State.transmissionEnds
  split
  · exact q.warmReset _ _
  · rename_i h hi
    exact (q.freed (q.line f h hf hi)).finish
  · exact (q.updLink rfl fun x h hx => by cases hx).finish
  · exact (q.updLink rfl fun x h hx => by cases hx).finish
  · exact (q.updLink rfl fun x h hx => by cases hx).finish

theorem beginSave (q : Tidy s) : Tidy (beginSave s) :=
  { q with
    stored := nofun
    save := fun r hr => by
      obtain rfl := Option.some.inj hr
      exact q.members }

theorem endSave (q : Tidy s) (o : SaveOutcome) : Tidy (endSave s o) := by
  unfold Machine.endSave
  split
  · exact q
  · rename_i r hr
    refine updLink (s := { s with save := none, stored := if o = .ok then some r.config else none })
      { q with stored := fun c hc => ?_, save := nofun } rfl q.line
    split at hc
    · exact Option.some.inj hc ▸ q.save r hr
    · cases hc

/-! ## Requests (R31, R39, R56, R92, R97 to R102) -/

theorem handleCallIn (q : Tidy s) (body : List Octet) : Tidy (handleCallIn body s).st :=
  handleCallIn_ind q body fun k caller flag g _ _ hnew _ => by
    obtain ⟨q1, a1⟩ := q.addCall (c := arrivedCall k caller flag g (s.groupCfg g).maxWait s.now) hnew rfl rfl
    exact (q1.arrive State.arriveBound a1 ⟨rfl, rfl, rfl⟩ (by unfold State.arriveBound; omega) g).1.flush

theorem handlePark (q : Tidy s) (body : List Octet) : Tidy (handlePark body s).st :=
  handlePark_ind q body fun k caller flag r o _ _ hnew _ hfree => by
    obtain ⟨q1, a1⟩ := q.addCall (c := parkedCall s k caller flag r o) hnew rfl rfl
    refine q1.settle a1.found (fun i => iff_of_false (a1.quiet i) List.not_mem_nil) (fun g => iff_of_false (a1.away g) (by simp [parkedCall]))
      (iff_of_false a1.held.going (by simp [parkedCall])) (by simp [Call.Shape, parkedCall]) (by simp [parkedCall]) fun _ j d e hd => ?_
    rw [s.findCall_addCall_ne (c := parkedCall s k caller flag r o) e] at hd
    exact (State.orbitHolder_none hfree hd).symm

/-- A call that has an offer or stands in an orbit has not ended. -/
theorem not_ending (q : Tidy s) (hc : s.findCall h = some c) (hx : c.offered ≠ [] ∨ c.orbit.isSome = true ∨ c.offerKind.isSome = true) :
    c.state ≠ .ending := fun e => by
  have fits := q.shape h c id hc
  unfold Call.Shape at fits
  rw [e] at fits
  obtain ⟨-, h1, -, -, -, -, h2, -, -, h3⟩ := fits
  simp [h1, h2, h3] at hx

/-- A call that a queue yields has not ended. -/
theorem hqCall_going (q : Tidy s) {r : StationId} {g : GroupId} (hq : s.hqCall r g = some h) (hc : s.findCall h = some c) :
    c.state ≠ .ending := by
  obtain ⟨d, hd, hst, -⟩ := (q.queue g h id).1 (List.mem_of_find?_eq_some hq)
  obtain rfl := Option.some.inj (hc.symm.trans hd)
  simp [hst]

/-- A call that a walk of a search list takes has not ended. -/
theorem walkList_going (q : Tidy s) {r : StationId} {l : ListId} (hw : s.walkList r l = some h) (hc : s.findCall h = some c) :
    c.state ≠ .ending := by
  obtain ⟨e, -, he⟩ := List.exists_of_findSome?_eq_some hw
  unfold State.entryCall at he
  split at he
  · split at he
    · rename_i n _
      obtain ⟨d, hd, rfl⟩ := Option.map_eq_some_iff.1 he
      have mem := List.mem_of_head? hd
      rw [(sortBy_perm _ _).mem_iff, List.mem_filter] at mem
      obtain ⟨hm, hcand⟩ := mem
      rw [(State.findCall_iff q.handles d.handle d).2 ⟨hm, rfl⟩] at hc
      obtain rfl := Option.some.inj hc
      simp only [State.pgCandidate, Bool.and_eq_true, Bool.or_eq_true, decide_eq_true_eq] at hcand
      rcases hcand.1.1 with e | e <;> simp [e]
    · exact q.hqCall_going he hc
  · cases he

theorem handleDpickup (q : Tidy s) (body : List Octet) : Tidy (handleDpickup body s).st := by
  refine handleDpickup_ind q body (fun r i k hi => q.ends k (fun c hc => ?_) _ _) (fun r g k hk => q.ends k (fun c hc => q.hqCall_going hk hc) _ _)
    fun r o c ho => q.ends c.handle (fun d hd => ?_) _ _
  · obtain ⟨d, hd, hm⟩ := (q.rings i k id).1 hi
    obtain rfl := Option.some.inj (hc.symm.trans hd)
    exact q.not_ending hc (.inl fun e => by simp [e] at hm)
  · unfold State.orbitHolder at ho
    rw [(State.findCall_iff q.handles c.handle c).2 ⟨List.mem_of_find?_eq_some ho, rfl⟩] at hd
    obtain rfl := Option.some.inj hd
    have held : c.orbit = some o := by simpa using List.find?_some ho
    exact q.not_ending ((State.findCall_iff q.handles c.handle c).2 ⟨List.mem_of_find?_eq_some ho, rfl⟩) (.inr (.inl (by simp [held])))

/-! ## Deadlines -/

/-- The call whose ring deadline expires. -/
theorem ringDue_found {k : OfferKind} (hd : s.ringDue k h = true) : ∃ c, s.findCall h = some c ∧ c.offerKind = some k := by
  unfold State.ringDue at hd
  obtain ⟨c, hc, hk⟩ := (Option.any_eq_true _ _).1 hd
  simp only [State.ringDueFor, Bool.and_eq_true, decide_eq_true_eq] at hk
  exact ⟨c, hc, hk.1⟩

theorem ringDeadline (q : Tidy s) {k : OfferKind} (hd : s.ringDue k h = true) : Tidy (s.ringExpired h) := by
  obtain ⟨c, hc, hk⟩ := ringDue_found hd
  exact q.ringExpired hc (by simp [hk])

theorem attendantDeadline (q : Tidy s) (hd : s.ringDue .attendant h = true) : Tidy (s.endCall h .noRoute none) := by
  obtain ⟨c, hc, hk⟩ := ringDue_found hd
  refine q.ends h (fun d hd => ?_) _ _
  obtain rfl := Option.some.inj (hc.symm.trans hd)
  exact q.not_ending hc (.inr (.inr (by simp [hk])))

theorem parkDeadline (q : Tidy s) (hd : (s.findCall h).any s.parkDueFor = true) : Tidy (s.parkExpired h) := by
  obtain ⟨c, hc, hp⟩ := (Option.any_eq_true _ _).1 hd
  simp only [State.parkDueFor, Bool.and_eq_true, decide_eq_true_eq] at hp
  exact q.parkExpired hc hp.1

/-- An age mark of a call is set. -/
theorem ageMarked (q : Tidy s) (h : Handle) {f : Call → Call} (hf : ∀ c, f c = { c with queueAgeMark := (f c).queueAgeMark, arrivalAgeMark := (f c).arrivalAgeMark }) :
    Tidy (s.updCall h f) := by
  refine q.updKept h (fun c => by rw [hf c]) (fun c => ?_) fun c => by rw [hf c]; exact ⟨rfl, rfl⟩
  rw [hf c]
  exact ⟨rfl, rfl, rfl, rfl, id⟩

/-! ## Steps -/

theorem exec (q : Tidy s) (i : Instr) (e : exec i s = .next t) : Tidy t := by
  unfold Machine.exec at e
  cases i with
  | powerOnReset b => cases e; exact q.powerOn b
  | pinReset =>
    dsimp only at e
    unfold execPinReset at e
    split at e <;> cases e
    · exact q.warmReset _ _
    · exact q
  | linkReset =>
    dsimp only at e
    unfold execLinkReset at e
    split at e
    · split at e <;> cases e
      · exact q.transmissionEnds ‹_›
      · exact q
    · cases e
      exact q
  | frameTransmitted =>
    dsimp only at e
    unfold execFrameTransmitted at e
    split at e <;> cases e
    · exact q.transmissionEnds ‹_›
    · exact q
  | leavesReset =>
    dsimp only at e
    unfold execLeavesReset at e
    split at e <;> cases e
    · exact { q with }
    · exact q
  | lossOfPower => cases e; exact { q with save := nofun }
  | frameReceived k tag body check => exact of_event e q fun _ => q.of_still ((Still.refl s).receiveAll _)
  | octetReceived o b => exact of_event e q fun _ => q.of_still ((Still.refl s).receiveOctet o b)
  | rxOctetTimeout => exact of_event e q fun _ => q.of_still (Still.refl s).abandonFrame
  | unknownKind k tag body => exact of_dispatch e q fun _ q => q
  | callIn tag body => exact of_dispatch e q fun _ q => q.handleCallIn body
  | answer tag body =>
    exact of_dispatch e q fun u q => handleAnswer_ind q body fun _ k c hc hst => q.ends k (fun d hd => by
      obtain rfl := Option.some.inj (hc.symm.trans hd)
      exact (ringing_ne hst).2) _ _
  | hangup tag body =>
    exact of_dispatch e q fun u q => handleHangup_ind q body fun k c hc hst => q.ends k (fun d hd => by
      obtain rfl := Option.some.inj (hc.symm.trans hd)
      exact hst) _ _
  | stationOffhook tag body => exact of_dispatch e q fun u q => handleReport_ind q (fun i => q.reportOffhook i) body
  | stationOnhook tag body => exact of_dispatch e q fun u q => handleReport_ind q (fun i => q.reportOnhook i) body
  | stationOutOfService tag body => exact of_dispatch e q fun u q => handleReport_ind q (fun i => q.reportOutOfService i) body
  | stationInService tag body => exact of_dispatch e q fun u q => handleReport_ind q (fun i => q.reportInService i) body
  | pickup tag body =>
    exact of_dispatch e q fun u q => handlePickup_ind q body fun _ _ k hk => q.ends k (fun c hc => q.walkList_going hk hc) _ _
  | dpickup tag body => exact of_dispatch e q fun u q => q.handleDpickup body
  | park tag body => exact of_dispatch e q fun u q => q.handlePark body
  | page tag body => exact of_dispatch e q fun u q => q.of_still (.handlePage u body)
  | pageEnd tag body => exact of_dispatch e q fun u q => q.of_still (.handlePageEnd u body)
  | status tag body => exact of_dispatch e q fun u q => q.of_still (.handleStatus u body)
  | getStation tag body => exact of_dispatch e q fun u q => q.of_still (.queryBy u _ _ _ body)
  | getCall tag body => exact of_dispatch e q fun u q => q.of_still (.handleGetCall u body)
  | listQueue tag body => exact of_dispatch e q fun u q => q.of_still (.queryBy u _ _ _ body)
  | getOrbits tag body => exact of_dispatch e q fun u q => q.of_still (.handleGetOrbits u body)
  | getPage tag body => exact of_dispatch e q fun u q => q.of_still (.queryBy u _ _ _ body)
  | getOutput tag body => exact of_dispatch e q fun u q => q.of_still (.queryBy u _ _ _ body)
  | getGroup tag body => exact of_dispatch e q fun u q => q.of_still (.queryBy u _ _ _ body)
  | getDir tag body => exact of_dispatch e q fun u q => q.of_still (.handleGetDir u body)
  | setSystem tag body => exact of_dispatch e q fun u q => q.of_still (.handleSetSystem u body)
  | setDirAdd tag body => exact of_dispatch e q fun u q => q.of_still (.handleSetDirAdd u body)
  | setDirRemove tag body => exact of_dispatch e q fun u q => q.of_still (.handleSetDirRemove u body)
  | setStation tag body => exact of_dispatch e q fun u q => handleSetStation_ind q body fun a b f => q.acceptSetStation a b f
  | setGroup tag body => exact of_dispatch e q fun u q => handleSetGroup_ind q body fun m f => q.acceptSetGroup m f
  | setMembersAdd tag body =>
    exact of_dispatch e q fun u q => handleSetMembersAdd_ind q body fun g i pos flag h1 h2 => q.acceptAdd h1 h2 pos flag
  | setMembersRemove tag body => exact of_dispatch e q fun u q => handleMember_ind q (fun g i => q.acceptRemove g i) body
  | setMembersLogin tag body => exact of_dispatch e q fun u q => handleMember_ind q (fun g i => q.acceptLogin g i) body
  | setMembersLogout tag body => exact of_dispatch e q fun u q => handleMember_ind q (fun g i => q.acceptLogout g i) body
  | setPickup tag body => exact of_dispatch e q fun u q => q.of_still (.handleSetPickup u body)
  | setList tag body => exact of_dispatch e q fun u q => q.of_still (.handleSetList u body)
  | setMap tag body => exact of_dispatch e q fun u q => q.of_still (.handleSetMap u body)
  | setOutput tag body => exact of_dispatch e q fun u q => q.of_still (.handleSetOutput u body)
  | setChime tag body => exact of_dispatch e q fun u q => q.of_still (.handleSetChime u body)
  | save tag body => exact of_dispatch e q fun u q => handleSave_ind q body q.beginSave
  | reset tag body => exact of_dispatch e q fun u q => q.of_still (.handleReset u body)
  | noAnswerExpiry h => exact of_event e q fun hd => q.ringDeadline hd
  | targetRingExpiry h => exact of_event e q fun hd => q.ringDeadline hd
  | attendantRingExpiry h => exact of_event e q fun hd => q.attendantDeadline hd
  | recallRingExpiry h => exact of_event e q fun hd => q.ringDeadline hd
  | waitDeadlineExpiry h => exact of_event e q fun _ => q.waitExpired h
  | escalationDeadlineExpiry h => exact of_event e q fun _ => q.escExpired h
  | parkDeadlineExpiry h => exact of_event e q fun hd => q.parkDeadline hd
  | repeatDeadlineExpiry g => exact of_event e q fun _ => q.of_still ((Still.refl s).repeatExpired g)
  | pageWaitExpiry p => exact of_event e q fun _ => q.of_still ((Still.refl s).endPage p _)
  | guardExpiry o => exact of_event e q fun _ => q.of_still ((Still.refl s).guardEnds o)
  | chimePeriodEnd p => exact of_event e q fun _ => q.of_still ((Still.refl s).periodEnds p)
  | windowEnd o => exact of_event e q fun _ => q.of_still ((Still.refl s).endWindow o)
  | outputBlock inputs noise => exact of_event e q fun _ => q.of_still ((Still.refl s).buildBlocks inputs noise)
  | saveWriteComplete b => exact of_event e q fun _ => q.endSave _
  | saveDeadlineExpiry => exact of_event e q fun _ => q.endSave _
  | idleAgeSaturated i => exact of_event e q fun _ => q.updStation i (by exact fun _ => rfl)
  | queueAgeSaturated h => exact of_event e q fun _ => q.ageMarked h (by exact fun _ => rfl)
  | arrivalAgeSaturated h => exact of_event e q fun _ => q.ageMarked h (by exact fun _ => rfl)
  | requestAgeSaturated p => exact of_event e q fun _ => q.of_still ((Still.refl s).updPage p _)

theorem step (q : Tidy s) (e : step s = .next t) : Tidy t := by
  unfold Machine.step at e
  split at e
  · rename_i i rest _
    exact exec (s := { s with pending := rest }) { q with } i e
  · cases e
    unfold State.idle
    split
    · exact q
    · split
      · exact q.transmitTake
      · exact { q with }

end Orderly

/-- Settles O7, by the agreement but for the call in hand, which every operation keeps or restores. -/
theorem callRecordsStayInAgreement : Obligations.CallRecordsStayInAgreement :=
  fun s t a e => (callsAgree_iff t).2 (((callsAgree_iff s).1 a).step e)

end Sys2Proof.Machine
end

