-- ==== Sys2Proof/Proofs/CallEnds.lean ====
section
/-! SUPPORT. The ends of transmissions, HANGUP and ANSWER: the record's release and the teardowns (R35, R38, R39, R56). -/

namespace Sys2Proof.Machine

/-! ## The end of a transmission (R38, R173, R187, R188) -/

section
variable {s : State} {x : TxFrame}

theorem frameTransmitted_of (run : s.power = .running) (ht : s.link.tx = some x) :
    exec .frameTransmitted s = .next (s.transmissionEnds x) := by
  change execFrameTransmitted s = _
  unfold execFrameTransmitted
  rw [run, ht]

/-- The link reset happens with the end of a RESET reply alone (R187). -/
theorem linkReset_of (run : s.power = .running) (ht : s.link.tx = some x) (hi : x.item = .resetReply) :
    exec .linkReset s = .next (s.transmissionEnds x) := by
  change execLinkReset s = _
  unfold execLinkReset
  rw [run, ht]
  exact if_pos hi

theorem transmissionEnds_plain (hh : s.heldAvail = []) (hi : x.item = .reply ∨ x.item = .other) :
    s.transmissionEnds x = (s.updLink fun l => { l with tx := none }).transmitTake := by
  unfold State.transmissionEnds
  rcases hi with hi | hi <;> rw [hi] <;> exact finish_none _ hh

theorem transmissionEnds_start (hh : s.heldAvail = []) (hi : x.item = .start) :
    s.transmissionEnds x = (s.updLink fun l => { l with tx := none, startSent := true }).transmitTake := by
  unfold State.transmissionEnds
  rw [hi]
  exact finish_none _ hh

theorem transmissionEnds_callEnd {h : Handle} (hh : s.heldAvail = []) (hi : x.item = .callEnd h) :
    s.transmissionEnds x =
      ((s.dropCall h).updLink fun l => { l with tx := none, callOrders := l.callOrders.filter fun k => !(k == h) }).transmitTake := by
  unfold State.transmissionEnds
  rw [hi]
  exact finish_none _ hh

theorem transmissionEnds_reset (hi : x.item = .resetReply) : s.transmissionEnds x = s.warmReset .running .link := by
  unfold State.transmissionEnds
  rw [hi]

end

/-- Settles O18, by the item of the frame whose transmission ends. -/
theorem endOfTransmissionFreesTheRecord : Obligations.EndOfTransmissionFreesTheRecord := by
  intro s x ⟨run, held⟩ ht
  have ends := frameTransmitted_of run ht
  refine ⟨fun hi => ?_, fun hi => ?_, fun h hi => ⟨_, by rw [ends, transmissionEnds_callEnd held hi], ?_, ?_, fun k e => ?_⟩,
    fun hi => ⟨_, ends, linkReset_of run ht hi, ?_⟩⟩
  · rw [ends, transmissionEnds_plain held hi]
  · rw [ends, transmissionEnds_start held hi]
  · have same : (fun k => !(k == h)) = fun k => decide (k ≠ h) := funext fun k => by simp [beq_eq_decide]
    rw [same]
    rfl
  · exact (s.findCall_dropCall h h).trans (if_pos rfl)
  · exact (s.findCall_dropCall h k).trans (if_neg e)
  · rw [transmissionEnds_reset hi]
    exact ⟨rfl, rfl, rfl, rfl, fun p => by simp [State.warmReset, State.afterReset, State.page], rfl, rfl⟩

/-! ## Teardowns (R35) -/

/-- What the two steps of a teardown make of a record. -/
theorem ended_eq (c : Call) (o : CallOutcome) (st : Option StationId) :
    ({ c with state := .ending, outcome := some o, outcomeStation := st } : Call).cleared o = c.ended o st := by
  cases o <;> rfl

/-- A call that stands within a queue, not at its head, and is not escalated leaves the queue and ends; nothing else changes. -/
theorem endCall_within {s : State} {h : Handle} {c : Call} {g : GroupId} (hc : s.findCall h = some c) (hq : c.state = .queued)
    (hg : c.currentGroup = some g) (he : c.escalated = false) (ho : c.offered = []) (hh : (s.group g).queue.head? ≠ some h)
    (o : CallOutcome) (st : Option StationId) :
    s.endCall h o st = (((s.updGroup g fun x => { x with queue := x.queue.filter fun k => decide (k ≠ h) }).updCall h
      fun c => c.ended o st).updLink fun l => { l with callOrders := l.callOrders ++ [h] }) := by
  have same : (fun k => !(k == h)) = fun k => decide (k ≠ h) := funext fun k => by simp [beq_eq_decide]
  have plain : ((s.updCall h fun c => { c with state := .ending, outcome := some o, outcomeStation := st }).updLink fun l =>
      { l with callOrders := l.callOrders ++ [h] }).findCall h = some { c with state := .ending, outcome := some o, outcomeStation := st } := by
    change (s.updCall h _).findCall h = _
    rw [State.findCall_updCall_self s h _ (by exact fun _ => rfl), hc]
    rfl
  have behind : s.atHead h g = false := by
    unfold State.atHead
    exact decide_eq_false hh
  have twice := updCall_updCall s h (fun c => { c with state := .ending, outcome := some o, outcomeStation := st }) (Call.cleared o)
    (by exact fun _ => rfl)
  simp only [ended_eq] at twice
  unfold State.endCall
  rw [hc]
  dsimp only
  rw [if_pos hq, hg, ho]
  simp only [State.leaveQueue, plain, Option.any_some, he, Bool.false_and, Option.any_some, behind, State.reviewIf, same]
  exact congrArg (fun u : State => (u.updGroup g fun x => { x with queue := x.queue.filter fun k => decide (k ≠ h) }).updLink
    fun l => { l with callOrders := l.callOrders ++ [h] }) twice

section
variable {s : State} {tag : Octet} {v h : Nat} {rest : List Frame} {c : Call}

/-- The frame of a request that ends an unqueued call, while no call waits. -/
theorem ended_unqueued {i : Instr} {f : Frame} {o : CallOutcome} {st : Option StationId} {r : Result} {l : List Octet}
    (e : exec i s = .next (((s.takeHead rest).endCall h o st).flush.answer f r l)) (hh : s.heldAvail = []) (hc : s.findCall h = some c)
    (hq : c.state ≠ .queued) (hw : NoCallWaits s) :
    ∃ u, exec i s = .next (u.answer f r l) ∧ OnlyCalls (s.takeHead rest) u ∧ TornDown s u c o st := by
  have he := State.findCall_handle hc
  obtain ⟨only, torn⟩ := endCall_unqueued (s := s.takeHead rest) (by exact he ▸ hc) hq hw o st
  rw [he] at only torn
  have held : ((s.takeHead rest).endCall h o st).heldAvail = [] := by
    rw [only.1]
    exact hh
  exact ⟨_, by rw [e, flush_none _ held], only, torn⟩

/-! ## HANGUP (R39) -/

theorem handleHangup_eq (hh : h < 65536) (s : State) : handleHangup (put2 h) s =
    if h = 0 then refuse s .badValue
    else
      match s.findCall h with
      | none => refuse s .unknown
      | some c => if c.state = .ending then refuse s .unknown else accept (s.endCall h .abandoned none) [] := by
  unfold handleHangup
  exact withBody_of (readWide_put2' hh) s _

theorem hangup_accepted (hh : h < 65536) (ready : Ready s ⟨0x03, tag, put2 h⟩ rest) (h0 : h ≠ 0) (hc : s.findCall h = some c)
    (he : c.state ≠ .ending) :
    exec (.hangup tag (put2 h)) s = .next (((s.takeHead rest).endCall h .abandoned none).flush.answer ⟨0x03, tag, put2 h⟩ .ok []) := by
  refine dispatch_flushed (row := .hangup) rfl ?_ ready
  rw [handleHangup_eq hh, if_neg h0, show (s.takeHead rest).findCall h = _ from hc]
  exact if_neg he

end

/-- Settles O25, by the checks of the handle and the teardown of the call where it stands. -/
theorem hangupEndsTheCall : Obligations.HangupEndsTheCall := by
  intro s tag h rest hh ready
  refine ⟨fun h0 => ?_, fun h0 hn => ?_, fun c h0 hc he => ?_⟩
  · refine dispatch_answered (row := .hangup) rfl ?_ ready
    rw [handleHangup_eq hh, if_pos h0]
    rfl
  · refine dispatch_answered (row := .hangup) rfl ?_ ready
    rw [handleHangup_eq hh, if_neg h0]
    cases hc : s.findCall h with
    | none =>
      rw [show (s.takeHead rest).findCall h = _ from hc]
      rfl
    | some c =>
      rw [show (s.takeHead rest).findCall h = _ from hc]
      exact if_pos (hn c hc)
  · have accepted := hangup_accepted hh ready h0 hc he
    refine ⟨accepted, fun hq hw => ended_unqueued accepted ready.2.2 hc hq hw, fun g hq hg hesc ho hhead => ?_⟩
    rw [accepted, endCall_within (s := s.takeHead rest) hc hq hg hesc ho hhead]
    exact congrArg (fun u : State => Host.Outcome.next (u.answer ⟨0x03, tag, put2 h⟩ .ok [])) (flush_none _ ready.2.2)

/-! ## ANSWER (R56) -/

section
variable {s : State} {tag : Octet} {v h : Nat} {rest : List Frame} {c : Call} {i : StationId}

theorem handleAnswer_eq (hv : v < 65536) (hh : h < 65536) (s : State) : handleAnswer (put2 v ++ put2 h) s =
    orBadValue s (if h = 0 then none else finOf 512 v) fun i =>
      match s.findCall h with
      | none => refuse s .unknown
      | some c =>
        if (c.state = .offering ∨ c.state = .recalling) ∧ c.offered.any (fun x => x.station == i) then
          accept (s.endCall h .answered (some i)) []
        else refuse s .tooLate := by
  have read : StateT.run readAnswer (put2 v ++ put2 h) = some ((v, h), []) := by
    simp only [readAnswer, run_bind, readWide_put2 hv, readWide_put2' hh, Option.bind_some, run_pure]
  unfold handleAnswer
  exact withBody_of read s _

/-- An ANSWER of a station and a handle in range. -/
theorem handleAnswer_of (h0 : h ≠ 0) (hh : h < 65536) (s : State) : handleAnswer (put2 i.val ++ put2 h) s =
    match s.findCall h with
    | none => refuse s .unknown
    | some c =>
      if (c.state = .offering ∨ c.state = .recalling) ∧ c.offered.any (fun x => x.station == i) then
        accept (s.endCall h .answered (some i)) []
      else refuse s .tooLate := by
  rw [handleAnswer_eq (by omega) hh, if_neg h0, finOf_self]
  rfl

theorem listed_iff (c : Call) (i : StationId) : c.offered.any (fun x => x.station == i) = true ↔ i ∈ c.offered.map Offer.station := by
  simp

end

/-- Settles O26, by the checks of the station and the handle, and the teardown of the call that rings there. -/
theorem answerTakesTheRingingCall : Obligations.AnswerTakesTheRingingCall := by
  refine fun s tag v h i rest hv hh => ⟨fun ready bad => ?_, ?_⟩
  · refine dispatch_answered (row := .answer) rfl ?_ ready
    have none : (if h = 0 then none else finOf 512 v) = none := by
      split
      · rfl
      · exact finOf_none_iff.2 (by omega)
    rw [handleAnswer_eq hv hh, none]
    rfl
  · rintro h0 body rfl ready
    refine ⟨fun hn => ?_, fun c hc => ⟨fun hno => ?_, fun hst hi => ?_⟩⟩
    · refine dispatch_answered (row := .answer) rfl ?_ ready
      rw [handleAnswer_of h0 hh, show (s.takeHead rest).findCall h = _ from hn]
      rfl
    · refine dispatch_answered (row := .answer) rfl ?_ ready
      rw [handleAnswer_of h0 hh, show (s.takeHead rest).findCall h = _ from hc]
      refine if_neg fun ⟨ringing, listed⟩ => ?_
      rw [listed_iff] at listed
      rcases hno with e | e | e | e <;> simp_all
    · have accepted : exec (.answer tag (put2 i.val ++ put2 h)) s =
          .next (((s.takeHead rest).endCall h .answered (some i)).flush.answer ⟨0x02, tag, put2 i.val ++ put2 h⟩ .ok []) := by
        refine dispatch_flushed (row := .answer) rfl ?_ ready
        rw [handleAnswer_of h0 hh, show (s.takeHead rest).findCall h = _ from hc]
        exact if_pos ⟨hst, (listed_iff c i).2 hi⟩
      exact ⟨accepted, fun hw => ended_unqueued accepted ready.2.2 hc (ringing_ne hst).1 hw⟩

end Sys2Proof.Machine
end

