-- ==== Sys2Proof/Proofs/CallIns.lean ====
section
/-! SUPPORT. CALL_IN: its checks in their order, and what the new call meets at its group (R31, R32, R47, R53, R67, R68, R76). -/

namespace Sys2Proof.Machine

/-! ## The checks (R31) -/

section
variable {s : State} {tag : Octet} {h : Nat} {pilot caller : List Nat} {flag : Bool} {rest : List Frame} {g : GroupId}

/-- The body of a CALL_IN. -/
def callInBody (h : Nat) (pilot caller : List Nat) (flag : Bool) : List Octet := put2 h ++ putDigits pilot ++ putDigits caller ++ putFlag flag

/-- A CALL_IN whose body can be read, by its checks. -/
theorem handleCallIn_eq (hh : h < 65536) (hp : Carried pilot) (hc : Carried caller) (s : State) :
    handleCallIn (callInBody h pilot caller flag) s =
      if h = 0 ∨ goodDigits pilot = false ∨ goodDigits caller = false then refuse s .badValue
      else if (s.findCall h).isSome then refuse s .duplicate
      else
        match s.resolve pilot with
        | none => refuse s .unknown
        | some (.pilot g) =>
          if Config.callRecords ≤ s.calls.length then refuse s .full
          else acceptCallIn s (arrivedCall h caller flag g (s.groupCfg g).maxWait s.now) g
        | some _ => refuse s .notPilot := by
  have read : StateT.run readCallIn (callInBody h pilot caller flag) = some ((h, pilot, caller, flag.toNat), []) :=
    (readCallIn_takes _ _ _).2 ⟨⟨hh, hp, hc, by cases flag <;> simp⟩, (List.append_nil _).symm⟩
  unfold handleCallIn
  rw [withBody_of read]
  dsimp only
  rw [flagOf_toNat]
  rfl

theorem badDigits_iff (d : List Nat) : goodDigits d = false ↔ 8 < d.length ∨ ∃ x ∈ d, 9 < x := by
  rw [← Bool.not_eq_true, goodDigits_iff, not_and_or]
  simp

/-- The answer of a CALL_IN that a check refuses. -/
theorem callIn_refused {result : Result} (ready : Ready s ⟨0x01, tag, callInBody h pilot caller flag⟩ rest)
    (e : handleCallIn (callInBody h pilot caller flag) (s.takeHead rest) = refuse (s.takeHead rest) result) :
    exec (.callIn tag (callInBody h pilot caller flag)) s =
      .next ((s.takeHead rest).answer ⟨0x01, tag, callInBody h pilot caller flag⟩ result []) :=
  dispatch_answered (row := .callIn) rfl e ready

/-- A CALL_IN that passes every check (R31). -/
structure CallInPasses (s : State) (h : Nat) (pilot caller : List Nat) (g : GroupId) : Prop where
  nonzero : h ≠ 0
  width : h < 65536
  pilotGood : goodDigits pilot = true
  callerGood : goodDigits caller = true
  fresh : s.findCall h = none
  group : s.resolve pilot = some (.pilot g)
  room : s.calls.length < 96

/-- The record that an accepted CALL_IN sets up, taken into the table (R32). -/
def State.arrived (s : State) (h : Nat) (caller : List Nat) (flag : Bool) (g : GroupId) : State :=
  s.addCall (arrivedCall h caller flag g (s.groupCfg g).maxWait s.now)

/-- What the new call meets decides the answer. -/
theorem callIn_accepted (p : CallInPasses s h pilot caller g) (ready : Ready s ⟨0x01, tag, callInBody h pilot caller flag⟩ rest) {u : State}
    {d : Call} (hu : u = (State.arrive State.arriveBound ((s.takeHead rest).arrived h caller flag g) h g).flush) (hd : u.findCall h = some d) :
    exec (.callIn tag (callInBody h pilot caller flag)) s =
      .next (u.answer ⟨0x01, tag, callInBody h pilot caller flag⟩ .ok (put1 d.state.code)) := by
  refine dispatch_served (row := .callIn) rfl ?_ (hu ▸ flush_heldAvail _) ready
  rw [handleCallIn_eq p.width (goodDigits_lt p.pilotGood) (goodDigits_lt p.callerGood), if_neg (by simp [p.nonzero, p.pilotGood, p.callerGood]),
    if_neg (by simp [show (s.takeHead rest).findCall h = _ from p.fresh]), show (s.takeHead rest).resolve pilot = _ from p.group]
  dsimp only
  rw [if_neg (by exact not_le.2 p.room)]
  unfold acceptCallIn
  change accept ((State.arrive State.arriveBound ((s.takeHead rest).arrived h caller flag g) h g).flush)
    (putOpt1 (((State.arrive State.arriveBound ((s.takeHead rest).arrived h caller flag g) h g).flush.findCall h).map fun c => c.state.code)) = _
  rw [← hu, hd]
  rfl

theorem arrived_findCall (hn : s.findCall h = none) :
    (s.arrived h caller flag g).findCall h = some (arrivedCall h caller flag g (s.groupCfg g).maxWait s.now) := s.findCall_addCall _ hn

end

/-- A record in use stays in use where the table keeps its handles. -/
theorem SameTable.found {s t : State} (q : SameTable s t) {h : Handle} (hs : (s.findCall h).isSome = true) : (t.findCall h).isSome = true := by
  unfold State.findCall at hs ⊢
  rw [List.find?_isSome] at hs ⊢
  obtain ⟨c, hc, e⟩ := hs
  have old : c.handle ∈ t.calls.map Call.handle := q.handles ▸ List.mem_map_of_mem hc
  obtain ⟨d, hd, e'⟩ := List.mem_map.1 old
  exact ⟨d, hd, by rw [e']; exact e⟩

/-- Settles O23, by the checks in their order; the new record stays in use through whatever the call meets. -/
theorem callInCheckedInOrder : Obligations.CallInCheckedInOrder := by
  rintro s tag h pilot caller flag rest hh hpl hcl hp hc body rfl ready bad hbad
  have carriedPilot : Carried pilot := ⟨hpl, hp⟩
  have carriedCaller : Carried caller := ⟨hcl, hc⟩
  have checks : bad ↔ h = 0 ∨ goodDigits pilot = false ∨ goodDigits caller = false := by
    rw [hbad, badDigits_iff, badDigits_iff, or_assoc, or_left_comm (a := 8 < caller.length)]
  have handled := handleCallIn_eq (flag := flag) hh carriedPilot carriedCaller (s.takeHead rest)
  have passed : ¬ bad → s.findCall h = none → handleCallIn (callInBody h pilot caller flag) (s.takeHead rest) = _ := fun nb hn =>
    handled.trans ((if_neg (mt checks.2 nb)).trans (if_neg (by simp [show (s.takeHead rest).findCall h = _ from hn])))
  refine ⟨fun b => callIn_refused ready (handled.trans (if_pos (checks.1 b))), fun nb hs => callIn_refused ready ?_,
    fun nb hn hr => callIn_refused ready ?_, fun nb hn hr => callIn_refused ready ?_, fun g nb hn hr => ⟨fun full => callIn_refused ready ?_,
      fun room => ?_⟩⟩
  · exact handled.trans ((if_neg (mt checks.2 nb)).trans (if_pos hs))
  · rw [passed nb hn, show (s.takeHead rest).resolve pilot = _ from hr]
  · rw [passed nb hn]
    obtain ⟨i, hr⟩ | ⟨o, hr⟩ := hr <;> rw [show (s.takeHead rest).resolve pilot = _ from hr]
  · rw [passed nb hn, show (s.takeHead rest).resolve pilot = _ from hr]
    exact if_pos full
  · obtain ⟨nonzero, pilotGood, callerGood⟩ : h ≠ 0 ∧ goodDigits pilot = true ∧ goodDigits caller = true := by
      simpa [not_or] using mt checks.2 nb
    have kept : SameTable ((s.takeHead rest).arrived h caller flag g)
        (State.arrive State.arriveBound ((s.takeHead rest).arrived h caller flag g) h g).flush := ((SameTable.refl _).arrive _ h g).flush
    obtain ⟨d, hd⟩ := Option.isSome_iff_exists.1 (kept.found (h := h) (by rw [arrived_findCall (by exact hn)]; rfl))
    exact ⟨_, d, hd, callIn_accepted ⟨nonzero, hh, pilotGood, callerGood, hn, hr, room⟩ ready rfl hd⟩

/-! ## What the new call meets (R47, R53, R67, R68, R76) -/

/-- A hop that leads to a further group has raised the hop count below the limit (R75). -/
theorem hop_next {s t : State} {h : Handle} {g k : GroupId} {c : Call} {r : RouteReason} (hc : s.findCall h = some c)
    (e : s.hop h g r = (t, some k)) : ∃ d, t.findCall h = some d ∧ c.hops < 6 ∧ d.hops = c.hops + 1 := by
  unfold State.hop at e
  rw [hc] at e
  dsimp only at e
  split at e
  · cases e
  · cases e
  · have next := congrArg Prod.snd e
    rw [apply_ite Prod.snd, ite_self] at next
    cases next
  · rename_i hdest
    have few : ¬ Config.hopLimit ≤ c.hops := fun x => by simp [x] at hdest
    cases e
    refine ⟨_, (State.findCall_updCall_self _ h _ (by exact fun _ => rfl)).trans (congrArg (Option.map _)
      ((State.findCall_updCall_self s h _ (by exact fun _ => rfl)).trans (congrArg (Option.map _) hc))), Nat.lt_of_not_le few, ?_⟩
    simp [few]

/-- A new call has fuel to spare. -/
theorem arrive_fuel {h : Handle} (n : Nat) {s : State} {c : Call} (hc : s.findCall h = some c) (hn : 7 ≤ n + min c.hops 6) (g : GroupId) :
    State.arrive (n + 1) s h g = State.arrive n s h g := by
  induction n generalizing s c g with
  | zero => omega
  | succ n ih =>
    rw [State.arrive, State.arrive, hc]
    dsimp only
    split
    · rfl
    · rfl
    · split
      · rfl
      · rename_i e
        obtain ⟨d, hd, few, hops⟩ := hop_next hc e
        exact ih hd (by omega) _

section
variable {s : State} {h : Handle} {g : GroupId} {c : Call}

theorem arrive_succ (hc : s.findCall h = some c) (n : Nat) : State.arrive (n + 1) s h g =
    match s.arrivalAt g c with
    | .offer sts => s.offerGroup h g sts
    | .join => s.enterQueue h g false []
    | .overflow r =>
      match s.hop h g r with
      | (s1, none) => s1
      | (s1, some k) => State.arrive n s1 h k := by
  rw [State.arrive, hc] <;> rfl

/-- A new call that overflows at once is routed as from a group it leaves. -/
theorem arrive_overflow {r : RouteReason} (hc : s.findCall h = some c) (hr : s.arrivalAt g c = .overflow r) :
    State.arrive State.arriveBound s h g = s.route h g r := by
  unfold State.arriveBound State.route
  rw [arrive_succ hc, hr]
  dsimp only
  cases e : s.hop h g r with
  | mk t next =>
    cases next with
    | none => rfl
    | some k =>
      obtain ⟨d, hd, few, hops⟩ := hop_next hc e
      exact (arrive_fuel 7 hd (by omega) _).symm

/-- A new call's queue age is 0, below every maximum wait but none (R68). -/
theorem waitReached_new (hq : c.queueEntry = none) : s.waitReached c = false := by
  unfold State.waitReached State.queueAge
  rw [hq]
  cases c.arrivalWait with
  | none => rfl
  | some m => cases m <;> simp [seconds]

theorem entryTest_new (hq : c.queueEntry = none) : s.entryTest g c =
    if (s.groupCfg g).queueLimit ≤ (s.group g).queue.length then .overflow .queueFull else .join := by
  unfold State.entryTest
  rw [waitReached_new hq]
  rfl

end

section
variable {s : State} {h : Handle} {g : GroupId} {c : Call}

theorem arrivalAt_disabled (hd : (s.groupCfg g).enabled = false) : s.arrivalAt g c = .overflow .groupDisabled := if_pos hd

theorem arrivalAt_offered (he : (s.groupCfg g).enabled = true) (hq : (s.group g).queue = []) (hs : s.select g c ≠ []) :
    s.arrivalAt g c = .offer (s.select g c) := by
  unfold State.arrivalAt
  rw [if_neg (by simp [he]), if_neg (by simp [hq])]
  split
  · exact absurd ‹_› hs
  · rfl

theorem arrivalAt_tested (he : (s.groupCfg g).enabled = true) (hq : (s.group g).queue ≠ [] ∨ s.select g c = []) :
    s.arrivalAt g c = s.entryTest g c := by
  unfold State.arrivalAt
  rw [if_neg (by simp [he])]
  split
  · rfl
  · rename_i hn
    rw [hq.resolve_left hn]

end

/-- Records of the table that agree under a handle are rewritten alike. -/
theorem updCall_congr {s : State} {h : Handle} {f g : Call → Call} (e : ∀ c ∈ s.calls, c.handle = h → f c = g c) :
    s.updCall h f = s.updCall h g := by
  unfold State.updCall
  refine congrArg (fun l => { s with calls := l }) (List.map_congr_left fun c hc => ?_)
  by_cases hh : c.handle = h
  · simp [hh, e c hc hh]
  · simp [hh]

section
variable {s : State} {h : Nat} {caller : List Nat} {flag : Bool} {g : GroupId}

/-- A new call that joins its queue stands at the tail, its deadlines counted from now (R68). -/
theorem enterQueue_new (hn : s.findCall h = none) : (s.arrived h caller flag g).enterQueue h g false [] =
    (((s.arrived h caller flag g).updCall h fun x =>
      { x with
        state := .queued, queueEntry := some s.now, arrivalWait := none
        waitDeadline := if (s.groupCfg g).maxWait = 0 then none else some (later s.now (seconds (s.groupCfg g).maxWait))
        escDeadline := if (s.groupCfg g).escDelay = 0 then none else some (later s.now (seconds (s.groupCfg g).escDelay)) }).updGroup g
      fun x => { x with queue := x.queue ++ [h] }) := by
  have found := arrived_findCall (caller := caller) (flag := flag) (g := g) hn
  obtain ⟨entry, esc, hentry, hesc, t, rfl, e⟩ := enterQueue_eq found g false []
  have entry_now : entry = s.now := hentry
  have unescalated : esc = false := by
    rw [hesc]
    have aged : (s.arrived h caller flag g).queueAge (arrivedCall h caller flag g (s.groupCfg g).maxWait s.now) = 0 := rfl
    rw [aged]
    cases (s.groupCfg g).escDelay <;> simp [arrivedCall, seconds]
  have wait : (s.arrived h caller flag g).waitOnEntry (arrivedCall h caller flag g (s.groupCfg g).maxWait s.now) =
      if (s.groupCfg g).maxWait = 0 then none else some (later s.now (seconds (s.groupCfg g).maxWait)) := by
    unfold State.waitOnEntry
    rw [waitReached_new rfl]
    simp [arrivedCall]
    rfl
  rw [e, unescalated, entry_now, wait]
  have same : ∀ x ∈ (s.arrived h caller flag g).calls, x.handle = h → x = arrivedCall h caller flag g (s.groupCfg g).maxWait s.now :=
    fun x hx hh => by
      rcases List.mem_append.1 hx with hx | hx
      · unfold State.findCall at hn
        exact absurd hh (by simpa using List.find?_eq_none.1 hn x hx)
      · exact List.mem_singleton.1 hx
  refine congrArg (fun u : State => u.updGroup g fun x => { x with queue := x.queue ++ [h] }) (updCall_congr fun x hx hh => ?_)
  rw [same x hx hh]
  simp [Call.queuedAt, arrivedCall]
  rfl

end

/-- Settles O24, by what the new call meets at its group. -/
theorem callInMeetsItsGroup : Obligations.CallInMeetsItsGroup := by
  rintro s tag h pilot caller flag rest g body c sts a rfl ready h1 hh hpl hp hcl hc hn hr room hcall hsts ha
  have passes : CallInPasses s h pilot caller g :=
    ⟨Nat.ne_of_gt h1, hh, (goodDigits_iff pilot).2 ⟨hpl, hp⟩, (goodDigits_iff caller).2 ⟨hcl, hc⟩, hn, hr, room⟩
  replace ha : a = (s.takeHead rest).arrived h caller flag g := by rw [ha, hcall]; rfl
  have found : a.findCall h = some c := by rw [ha, hcall]; exact arrived_findCall (s := s.takeHead rest) hn
  have held : a.heldAvail = [] := by rw [ha]; exact ready.2.2
  have accepted := fun u d => callIn_accepted (u := u) (d := d) (flag := flag) passes ready
  rw [← ha] at accepted
  have fresh : c.queueEntry = none := by rw [hcall]
  have selection : a.select g c = sts := by rw [ha, hsts]; rfl
  have cfg : a.groupCfg g = s.groupCfg g := by rw [ha]; rfl
  have group : ∀ k, a.group k = s.group k := fun k => by rw [ha]; rfl
  refine ⟨fun he hq hs => ?_, fun he hq => ⟨fun hroom => ?_, fun hfull u d hu hd => ?_⟩, fun hd u d hu hfound => ?_⟩
  · have met : State.arrive State.arriveBound a h g = a.offerGroup h g sts := by
      unfold State.arriveBound
      rw [arrive_succ found, arrivalAt_offered (by rw [cfg]; exact he) (by rw [group]; exact hq) (by rw [selection]; exact hs), selection]
    obtain ⟨⟨only, link⟩, orders, ⟨self, others⟩, stations, groups, own⟩ := offerGroup_effect (u := a.offerGroup h g sts) found
      (by rw [hcall]) (.inl (by rw [hcall]; simp)) rfl
    have settled : (a.offerGroup h g sts).heldAvail = [] := by rw [only]; exact held
    have handle : c.handle = h := by rw [hcall]
    have now : a.now = s.now := by rw [ha]; rfl
    rw [handle] at self others
    have answered := accepted _ _ (by rw [met, flush_none _ settled]) self
    refine ⟨a.offerGroup h g sts, answered, ⟨?_, ?_⟩, ?_, ?_, fun k hk => ?_, ?_,
      fun k hk => (groups k hk).trans (group k), ?_⟩
    · rw [only, ha]
      rfl
    · rw [link, ha]
      rfl
    · rw [orders, ha]
      rfl
    · rw [self, cfg, now]
      simp [hcall, Call.offeredAt]
    · rw [others k hk, ha]
      exact s.findCall_addCall_ne (c := arrivedCall h caller flag g (s.groupCfg g).maxWait s.now) hk
    · rw [ha] at stations ⊢
      exact stations
    · have state : c.state ≠ .queued := by rw [hcall]; simp
      rw [own, group, cfg, if_neg state]
      by_cases circular : (s.groupCfg g).algorithm = .circular
      · rw [if_pos ⟨circular, hs⟩, if_pos circular]
      · rw [if_neg fun x => circular x.1, if_neg circular]
  · have met : State.arrive State.arriveBound a h g = a.enterQueue h g false [] := by
      unfold State.arriveBound
      rw [arrive_succ found, arrivalAt_tested (by rw [cfg]; exact he) (by rw [group, selection]; exact hq), entryTest_new fresh, cfg, group,
        if_neg (by omega)]
    have joined := enterQueue_new (caller := caller) (flag := flag) (g := g) (s := s.takeHead rest) hn
    rw [← ha] at joined
    have settled : (State.arrive State.arriveBound a h g).heldAvail = [] := by rw [met, joined]; exact held
    have answered := fun d => accepted _ d (flush_none _ settled).symm
    rw [met, joined] at answered
    exact answered _ ((State.findCall_updCall_self a h _ (by exact fun _ => rfl)).trans (congrArg (Option.map _) found))
  · refine accepted u d ?_ hd
    rw [arrive_overflow found, ← hu]
    rw [arrivalAt_tested (by rw [cfg]; exact he) (by rw [group, selection]; exact hq), entryTest_new fresh, cfg, group, if_pos hfull]
  · refine accepted u d ?_ hfound
    rw [arrive_overflow found (arrivalAt_disabled (by rw [cfg]; exact hd)), ← hu]

end Sys2Proof.Machine
end

