-- ==== Sys2Proof/Proofs/NoAnswers.lean ====
section
/-! SUPPORT. An unanswered call returns to its queue: the record, the head's place, and the displacement of the tail (R54, R68, R69). -/

namespace Sys2Proof.Machine

/-! ## The return to the queue (R68, R69) -/

section
variable {s : State} {h : Handle} {c : Call} {g : GroupId} {left : List StationId}

theorem returnToQueue_waitPassed (hc : s.findCall h = some c) (hw : c.waitPassed = true) :
    s.returnToQueue h g left = s.route h g .waitExpired := by
  unfold State.returnToQueue
  rw [hc]
  exact if_pos hw

theorem returnToQueue_unqueued (hc : s.findCall h = some c) (hw : c.waitPassed = false) (hl : (s.groupCfg g).queueLimit = 0) :
    s.returnToQueue h g left = s.route h g .queueFull := by
  unfold State.returnToQueue
  rw [hc]
  dsimp only
  rw [if_neg (by simp [hw]), if_pos hl]

/-- The call takes the head of its queue; the tail overflows where it stands above the limit. -/
theorem returnToQueue_head {u : State} (hc : s.findCall h = some c) (hw : c.waitPassed = false) (hl : 1 ≤ (s.groupCfg g).queueLimit)
    (hu : s.enterQueue h g true (c.tried.filter fun i => left.contains i) = u) (hq : (u.group g).queue = h :: (s.group g).queue) :
    ((s.group g).queue.length < (s.groupCfg g).queueLimit → s.returnToQueue h g left = u) ∧
      ∀ before tail, (s.groupCfg g).queueLimit ≤ (s.group g).queue.length → (s.group g).queue = before ++ [tail] →
        s.returnToQueue h g left = u.overflow tail g .displaced := by
  have returned : s.returnToQueue h g left =
      if (s.groupCfg g).queueLimit < (u.group g).queue.length then
        match (u.group g).queue.getLast? with
        | some t => u.overflow t g .displaced
        | none => u
      else u := by
    unfold State.returnToQueue
    rw [hc]
    dsimp only
    rw [if_neg (by simp [hw]), if_neg (by omega), hu] <;> rfl
  rw [returned, hq, List.length_cons]
  refine ⟨fun hlt => if_neg (by omega), fun before tail hle e => ?_⟩
  rw [if_pos (by omega), e, ← List.cons_append, List.getLast?_concat]

/-- What the entry of a returning call does: the record, the head of the list, and the start of an escalation. -/
theorem enterQueue_returning {t : State} {entry : Time} {wait : Option Time} {flag : Bool} {tried : List StationId}
    (hc : s.findCall h = some c) (hentry : entry = c.queueEntry.getD s.now) (hwait : s.waitOnEntry c = wait)
    (hflag : flag = true ↔ c.escalated = true ∨ (s.groupCfg g).escDelay ≠ 0 ∧ seconds (s.groupCfg g).escDelay ≤ s.queueAge c)
    (ht : t = ((s.updCall h fun x => x.queuedAt g tried entry wait (s.groupCfg g).escDelay flag).updGroup g
      fun x => { x with queue := h :: x.queue })) :
    s.enterQueue h g true tried = (if flag = true ∧ s.inEscalation g = false then t.escalationStart g else t) ∧
      ((if flag = true ∧ s.inEscalation g = false then t.escalationStart g else t).group g).queue = h :: (s.group g).queue := by
  obtain ⟨entry', flag', rfl, hf, t', ht', e⟩ := enterQueue_eq hc g true tried
  have same : flag' = flag := by
    rw [Bool.eq_iff_iff, hflag, hf]
    simp
  rw [hwait, ← hentry, same] at ht'
  have base : t' = t := by rw [ht', ht]; rfl
  have queue : (t.group g).queue = h :: (s.group g).queue := by
    rw [ht, State.group_updGroup_self]
    rfl
  rw [e, same, base]
  constructor
  · simp only [Bool.and_eq_true, Bool.not_eq_true']
  · split
    · rw [((Still.refl t).escalationStart g).queue]
      exact queue
    · exact queue

/-- The wait deadline of a call that returns, by the wait it arrived under (R68, R73). -/
theorem waitOnEntry_eq {wait : Option Time} {entry : Time} (hentry : entry = c.queueEntry.getD s.now)
    (h0 : c.arrivalWait = none → wait = c.waitDeadline) (h1 : c.arrivalWait = some 0 → wait = none)
    (h2 : ∀ m, c.arrivalWait = some m → m ≠ 0 → wait = if s.queueAge c < seconds m then some (later entry (seconds m)) else none) :
    s.waitOnEntry c = wait := by
  cases ha : c.arrivalWait with
  | none => rw [waitOnEntry_kept s ha, h0 ha]
  | some m =>
    by_cases hm : m = 0
    · subst hm
      rw [waitOnEntry_none s ha, h1 ha]
    · rw [h2 m ha hm]
      split
      · rw [waitOnEntry_fresh s ha hm ‹_›, hentry]
      · exact waitOnEntry_reached s ha (by omega)

end

/-! ## The ring deadline of a group offer (R54) -/

section
variable {s : State} {h : Handle} {c : Call} {g : GroupId}

theorem ringDue_of {k : OfferKind} (hc : s.findCall h = some c) (hk : c.offerKind = some k) (hd : c.ringDeadline = some s.now) :
    s.ringDue k h = true := by
  simp [State.ringDue, hc, State.ringDueFor, hk, State.due, hd]

theorem ringingFor_of (hc : s.findCall h = some c) : s.ringingFor h = c.offered.map Offer.station := by
  unfold State.ringingFor
  rw [hc]

/-- What the rings of a call leave when they stop (R54 step 1). -/
theorem stopRings_effect (hc : s.findCall h = some c) :
    OnlyCalls s (s.stopRings h) ∧ (s.stopRings h).link.callOrders = s.link.callOrders ∧
      CallBecomes s (s.stopRings h) c { c with offered := [], ringDeadline := none } ∧
      StationsIn s (s.stopRings h) (c.offered.map Offer.station) fun _ => .idle := by
  obtain rfl := State.findCall_handle hc
  obtain ⟨⟨stays, link⟩, stations⟩ := State.enterAll (fun _ => .idle) (c.offered.map Offer.station) s
  have stopped : s.stopRings c.handle = (((c.offered.map Offer.station).foldl (fun s i => s.enterState i .idle) s).updCall c.handle fun c =>
      { c with offered := [], ringDeadline := none }) := by
    unfold State.stopRings
    rw [ringingFor_of hc]
  rw [stopped]
  generalize (c.offered.map Offer.station).foldl (fun s i => s.enterState i .idle) s = s1 at stays link stations ⊢
  have find : ∀ k, s1.findCall k = s.findCall k := fun k => by rw [stays]; rfl
  refine ⟨⟨?_, link ▸ rfl⟩, by rw [State.updCall_link, link], ⟨?_, fun k hk => ?_⟩, stations⟩
  · rw [State.updCall, stays]
  · rw [State.findCall_updCall_self s1 c.handle _ (by exact fun _ => rfl), find, hc]
    rfl
  · rw [State.findCall_updCall_ne s1 hk _ (by exact fun _ => rfl), find]

/-- An unanswered call with no member to try returns to its queue (R54 step 3). -/
theorem ringExpired_returns (hc : s.findCall h = some c) (hk : c.offerKind = some .group) (hg : c.currentGroup = some g)
    (hs : (s.groupCfg g).algorithm = .simultaneous ∨ (s.stopRings h).select g c = []) :
    s.ringExpired h = ((s.stopRings h).returnToQueue h g (c.offered.map Offer.station)).availAll (c.offered.map Offer.station) := by
  obtain ⟨⟨stays, -⟩, -, ⟨found, -⟩, -⟩ := stopRings_effect hc
  rw [State.findCall_handle hc] at found
  have cfg : (s.stopRings h).groupCfg g = s.groupCfg g := by rw [stays]; rfl
  unfold State.ringExpired
  rw [ringingFor_of hc, ringEnded_group found hk hg, cfg, if_pos (by exact hs)]

/-- Availability events that each give the station to no call. -/
theorem availAll_alone {l : List StationId} (ha : ∀ i ∈ l, s.availability i = s) : s.availAll l = s := by
  unfold State.availAll
  induction l with
  | nil => rfl
  | cons i l ih => rw [List.foldl_cons, ha i (by simp), ih fun j hj => ha j (by simp [hj])]

/-- A station that the one waiting call has tried is given to no call (R58). -/
theorem availability_tried {i : StationId} (hq : ∀ k, k ≠ g → (s.group k).queue = []) (hg : (s.group g).queue = [h])
    (hc : s.findCall h = some c) (hi : i ∈ c.tried) : s.availability i = s := by
  refine availability_alone fun k => Option.eq_none_iff_forall_ne_some.2 fun d hd => ?_
  obtain ⟨-, ⟨x, hx, hfind⟩, untried⟩ := (competing_iff s i k d).1 hd
  by_cases e : k = g
  · rw [e, hg] at hx
    obtain rfl : h = x := by simpa using hx
    obtain rfl := Option.some.inj (hc.symm.trans hfind)
    exact untried hi
  · rw [hq k e] at hx
    cases hx

/-- What the return leaves while no call waits: the call stands alone in its queue. -/
theorem returned_alone (hc : s.findCall h = some c) (hw : NoCallWaits s) (hp : c.waitPassed = false) (he : c.escalated = false)
    (hn : c.queueEntry = none) (hl : 1 ≤ (s.groupCfg g).queueLimit) {left : List StationId} {wait : Option Time}
    (hwait : s.waitOnEntry c = wait) :
    s.returnToQueue h g left =
      ((s.updCall h fun x => x.queuedAt g (c.tried.filter fun i => decide (i ∈ left)) s.now wait (s.groupCfg g).escDelay false).updGroup g
        fun x => { x with queue := h :: x.queue }) := by
  have aged : s.queueAge c = 0 := by simp [State.queueAge, hn]
  obtain ⟨e, queue⟩ := enterQueue_returning (g := g) (tried := c.tried.filter fun i => decide (i ∈ left)) (entry := s.now) (flag := false) hc
    (by simp [hn]) hwait (by rw [aged, he]; cases (s.groupCfg g).escDelay <;> simp [seconds]) rfl
  have same : (fun i => left.contains i) = fun i => decide (i ∈ left) := funext fun i => by simp
  rw [← same] at e ⊢
  refine (returnToQueue_head hc hp hl e ?_).1 (by rw [hw g]; exact hl)
  rw [same]
  exact queue

/-- A call at the head of an empty queue, set down there after changes to calls and stations alone. -/
theorem headTaken_effect {s1 t : State} {c1 : Call} {rang : List StationId} {st : StationId → StationState} {f : Call → Call}
    (hw : NoCallWaits s) (only : OnlyCalls s s1) (orders : s1.link.callOrders = s.link.callOrders) (becomes : CallBecomes s s1 c c1)
    (stations : StationsIn s s1 rang st) (hf : ∀ x, (f x).handle = x.handle)
    (ht : t = ((s1.updCall c.handle f).updGroup g fun x => { x with queue := c.handle :: x.queue })) :
    OnlyHunting s t ∧ t.link.callOrders = s.link.callOrders ∧ CallBecomes s t c (f c1) ∧ StationsIn s t rang st ∧
      (∀ k, k ≠ g → t.group k = s.group k) ∧ t.group g = { s.group g with queue := [c.handle] } := by
  obtain ⟨stays, link⟩ := only
  have group : ∀ k, (s1.updCall c.handle f).group k = s.group k := fun k => by rw [State.updCall, stays]; rfl
  subst ht
  refine ⟨⟨?_, link⟩, orders, ⟨?_, fun k hk => ?_⟩, stations, fun k hk => ?_, ?_⟩
  · unfold State.updGroup State.updCall
    rw [stays]
  · change (s1.updCall c.handle f).findCall c.handle = _
    rw [State.findCall_updCall_self s1 c.handle f hf, becomes.1]
    rfl
  · change (s1.updCall c.handle f).findCall k = _
    rw [State.findCall_updCall_ne s1 hk f hf, becomes.2 k hk]
  · rw [State.group_updGroup_ne _ hk, group]
  · rw [State.group_updGroup_self, group, hw g]

end

/-- Settles O30, by the stop of the rings and the return to the queue. -/
theorem noAnswerReturnsTheCallToItsQueue : Obligations.NoAnswerReturnsTheCallToItsQueue := by
  refine ⟨?_, ?_⟩
  · rintro s s1 h c g rang ⟨run, held⟩ hc - hk hg hd rfl rfl hs
    have happens : exec (.noAnswerExpiry h) s = .next (s.ringExpired h).finish :=
      event_happens (e := fun s => s.ringExpired h) run (ringDue_of hc hk hd)
    rw [ringExpired_returns hc hk hg hs] at happens
    refine ⟨happens, fun hw htried hp he hn hl => ?_⟩
    obtain ⟨⟨stays, link⟩, orders, ⟨found, others⟩, stations⟩ := stopRings_effect hc
    obtain rfl := State.findCall_handle hc
    generalize s.stopRings c.handle = s1 at happens stays link orders found others stations
    have now : s1.now = s.now := by rw [stays]
    have cfg : s1.groupCfg g = s.groupCfg g := by rw [stays]; rfl
    have group : ∀ k, s1.group k = s.group k := fun k => by rw [stays]; rfl
    have wait : s1.waitOnEntry { c with offered := [], ringDeadline := none } =
        match c.arrivalWait with
        | none => c.waitDeadline
        | some m => if m = 0 then none else some (later s.now (seconds m)) := by
      have aged : s1.queueAge { c with offered := [], ringDeadline := none } = 0 := by simp [State.queueAge, hn]
      refine waitOnEntry_eq (entry := s.now) (by rw [← now]; simp [hn]) (fun e : c.arrivalWait = none => by rw [e])
        (fun e : c.arrivalWait = some 0 => by rw [e]; rfl) fun m (e : c.arrivalWait = some m) hm => ?_
      rw [aged, if_pos (by unfold seconds; omega), e]
      exact if_neg hm
    have returned := returned_alone (s := s1) (g := g) (left := c.offered.map Offer.station) found (fun k => by rw [group]; exact hw k) hp he hn
      (by rw [cfg]; exact hl) wait
    rw [now, cfg] at returned
    obtain ⟨only, orders', ⟨found', others'⟩, stations', elsewhere, there⟩ :=
      headTaken_effect hw ⟨stays, link⟩ orders ⟨found, others⟩ stations (g := g) (by exact fun _ => rfl) returned
    generalize s1.returnToQueue c.handle g (c.offered.map Offer.station) = t at happens only orders' found' others' stations' elsewhere there
    have alone : t.availAll (c.offered.map Offer.station) = t :=
      availAll_alone fun i hi => availability_tried (fun k hk => by rw [elsewhere k hk]; exact hw k) (by rw [there]) found'
        (List.mem_filter.2 ⟨htried i hi, decide_eq_true hi⟩)
    have flushed : t.finish = t.transmitTake := by
      have : t.heldAvail = [] := by rw [only.1]; exact held
      unfold State.finish
      rw [flush_none _ this]
    rw [alone, flushed] at happens
    exact ⟨t, happens, only, orders', ⟨found', others'⟩, stations', elsewhere, there⟩
  · rintro s t h c g left k entry wait flag hc rfl hentry h0 h1 h2 hflag ht
    obtain ⟨e, queue⟩ := enterQueue_returning hc hentry (waitOnEntry_eq hentry h0 h1 h2) hflag ht
    have same : (fun i => left.contains i) = fun i => decide (i ∈ left) := funext fun i => by simp
    refine ⟨returnToQueue_waitPassed hc, returnToQueue_unqueued hc, fun hp hl u hu => ?_⟩
    rw [← hu] at e queue
    exact returnToQueue_head hc hp hl (by rw [same]; exact e) queue

end Sys2Proof.Machine
end

