-- ==== Sys2Proof/Proofs/OwnEvents.lean ====
section
/-! SUPPORT. The events that the running time has brought: which they are, and what it means that none is left (log entries 2, 7). -/

namespace Sys2Proof.Machine

/-! ## A chain of events in order -/

theorem due_else_none {b : Bool} {i : Instr} {r : Option Instr} : (if b = true then some i else r) = none ↔ b = false ∧ r = none := by
  cases b <;> simp

theorem due_else_some {b : Bool} {i j : Instr} {r : Option Instr} (h : (if b = true then some i else r) = some j) :
    j = i ∨ r = some j := by
  cases b
  · exact .inr h
  · exact .inl (Option.some.inj h).symm

theorem due_last_some {b : Bool} {i j : Instr} (h : (if b = true then some i else none) = some j) : j = i := by
  cases b
  · cases h
  · exact (Option.some.inj h).symm

/-- A command that happens under a condition alone changes nothing where the condition does not hold. -/
theorem exec_not_due {s t : State} {i : Instr} {b : Bool}
    (he : exec i s = if s.power = .running ∧ b = true then .next t else .next s) (hb : b = false) : exec i s = .next s := by
  rw [he, if_neg (by simp [hb])]

section
variable {s : State}

/-! ## Which events the running time brings -/

theorem dueOfCall_some {c : Call} {i : Instr} (h : s.dueOfCall c = some i) :
    i = .noAnswerExpiry c.handle ∨ i = .targetRingExpiry c.handle ∨ i = .attendantRingExpiry c.handle ∨
      i = .recallRingExpiry c.handle ∨ i = .waitDeadlineExpiry c.handle ∨ i = .escalationDeadlineExpiry c.handle ∨
      i = .parkDeadlineExpiry c.handle ∨ i = .queueAgeSaturated c.handle ∨ i = .arrivalAgeSaturated c.handle := by
  refine (due_else_some h).imp_right fun h => (due_else_some h).imp_right fun h => (due_else_some h).imp_right fun h =>
    (due_else_some h).imp_right fun h => (due_else_some h).imp_right fun h => (due_else_some h).imp_right fun h =>
    (due_else_some h).imp_right fun h => (due_else_some h).imp_right fun h => ?_
  exact due_last_some h

theorem dueOfGroup_some {g : GroupId} {i : Instr} (h : s.dueOfGroup g = some i) : i = .repeatDeadlineExpiry g :=
  due_last_some h

theorem dueOfPage_some {p : PageId} {i : Instr} (h : s.dueOfPage p = some i) :
    i = .pageWaitExpiry p ∨ i = .chimePeriodEnd p ∨ i = .requestAgeSaturated p :=
  (due_else_some h).imp_right fun h => (due_else_some h).imp_right due_last_some

theorem dueOfOutput_some {o : OutputId} {i : Instr} (h : s.dueOfOutput o = some i) : i = .guardExpiry o ∨ i = .windowEnd o :=
  (due_else_some h).imp_right due_last_some

theorem dueOfStations_some {i : Instr} (h : s.dueOfStations = some i) : ∃ k, i = .idleAgeSaturated k := by
  obtain ⟨k, -, rfl⟩ := Option.map_eq_some_iff.1 h
  exact ⟨k, rfl⟩

/-- The first event that the running time has brought comes from one of the seven sources. -/
theorem timedEvent_some {i : Instr} (h : s.timedEvent = some i) :
    (∃ c, s.dueOfCall c = some i) ∨ (∃ g, s.dueOfGroup g = some i) ∨ (∃ p, s.dueOfPage p = some i) ∨
      (∃ o, s.dueOfOutput o = some i) ∨ i = .saveDeadlineExpiry ∨ s.dueOfStations = some i ∨ i = .rxOctetTimeout := by
  have found {α : Type} {l : List α} {f : α → Option Instr} (h : l.findSome? f = some i) : ∃ a, f a = some i :=
    (List.exists_of_findSome?_eq_some h).imp fun _ h => h.2
  have next {a b : Option Instr} (h : (a <|> b) = some i) : a = some i ∨ b = some i := by
    cases a
    · exact .inr (by simpa using h)
    · exact .inl (by simpa using h)
  exact (next h).imp found fun h => (next h).imp found fun h => (next h).imp found fun h => (next h).imp found fun h =>
    (next h).imp due_last_some fun h => (next h).imp_right due_last_some

/-! ## Nothing left of what it has brought -/

theorem timedEvent_none (h : s.timedEvent = none) :
    (∀ c ∈ s.calls, s.dueOfCall c = none) ∧ (∀ g, s.dueOfGroup g = none) ∧ (∀ p, s.dueOfPage p = none) ∧
      (∀ o, s.dueOfOutput o = none) ∧ saveDue s = false ∧ s.dueOfStations = none ∧ rxTimeoutDue s = false := by
  simpa [State.timedEvent, List.findSome?_eq_none_iff] using h

theorem dueOfCall_none {c : Call} (h : s.dueOfCall c = none) :
    (∀ k, s.ringDueFor k c = false) ∧ s.waitDueFor c = false ∧ s.escDueFor c = false ∧ s.parkDueFor c = false ∧
      s.queueAgeDueFor c = false ∧ s.arrivalAgeDueFor c = false := by
  obtain ⟨group, h⟩ := due_else_none.1 h
  obtain ⟨target, h⟩ := due_else_none.1 h
  obtain ⟨attendant, h⟩ := due_else_none.1 h
  obtain ⟨recalling, h⟩ := due_else_none.1 h
  obtain ⟨wait, h⟩ := due_else_none.1 h
  obtain ⟨esc, h⟩ := due_else_none.1 h
  obtain ⟨park, h⟩ := due_else_none.1 h
  obtain ⟨queueAge, h⟩ := due_else_none.1 h
  refine ⟨fun k => ?_, wait, esc, park, queueAge, (due_else_none.1 h).1⟩
  cases k <;> assumption

/-- The first aged station lies within the list of stations. -/
theorem firstAged_lt {n j : Nat} {cs : List StationCfg} {xs : List Station} (h : s.firstAged n cs xs = some j) : j < n + xs.length := by
  induction cs generalizing n xs with
  | nil => simp [State.firstAged] at h
  | cons c cs ih =>
    cases xs with
    | nil => simp [State.firstAged] at h
    | cons x xs =>
      rw [State.firstAged] at h
      split at h
      · obtain rfl := Option.some.inj h
        simp
      · have := ih h
        rw [List.length_cons]
        omega

theorem firstAged_none {n : Nat} {cs : List StationCfg} {xs : List Station} (h : s.firstAged n cs xs = none) (k : Nat)
    (hc : k < cs.length) (hx : k < xs.length) : s.idleAgeDueFor cs[k].inUse xs[k] = false := by
  induction cs generalizing n xs k with
  | nil => simp at hc
  | cons c cs ih =>
    cases xs with
    | nil => simp at hx
    | cons x xs =>
      rw [State.firstAged] at h
      split at h
      · cases h
      · cases k with
        | zero => exact Bool.eq_false_iff.2 ‹_›
        | succ k => exact ih h k (Nat.lt_of_succ_lt_succ hc) (Nat.lt_of_succ_lt_succ hx)

theorem dueOfStations_none (h : s.dueOfStations = none) (i : StationId) : s.idleAgeDueFor (s.stationCfg i).inUse (s.station i) = false := by
  have none : s.firstAged 0 s.cfg.stations.toList s.stations.toList = none := by
    cases found : s.firstAged 0 s.cfg.stations.toList s.stations.toList with
    | none => rfl
    | some j =>
      have lt : j < 512 := by simpa using firstAged_lt found
      rw [State.dueOfStations, found, Option.map_eq_none_iff, Option.bind_some] at h
      have := finOf_self (⟨j, lt⟩ : Fin 512)
      simp only [this] at h
      cases h
  exact firstAged_none none i.val (by simp) (by simp)

/-- With nothing left of what the running time has brought, no deadline of a call and no age mark of one is due. -/
theorem callEvents_none (h : s.timedEvent = none) (k : Handle) :
    (∀ o, s.ringDue o k = false) ∧ (s.findCall k).any s.waitDueFor = false ∧ (s.findCall k).any s.escDueFor = false ∧
      (s.findCall k).any s.parkDueFor = false ∧ (s.findCall k).any s.queueAgeDueFor = false ∧
      (s.findCall k).any s.arrivalAgeDueFor = false := by
  have calls := fun c hc => dueOfCall_none ((timedEvent_none h).1 c hc)
  cases found : s.findCall k with
  | none => exact ⟨fun o => by rw [State.ringDue, found]; rfl, rfl, rfl, rfl, rfl, rfl⟩
  | some c =>
    obtain ⟨ring, wait, esc, park, queueAge, arrivalAge⟩ := calls c (List.mem_of_find?_eq_some found)
    exact ⟨fun o => by rw [State.ringDue, found]; exact ring o, wait, esc, park, queueAge, arrivalAge⟩

theorem pageEvents_none (h : s.timedEvent = none) (p : PageId) :
    s.pageWaitDue p = false ∧ s.periodDue p = false ∧ s.requestAgeDue p = false := by
  obtain ⟨-, -, pages, -⟩ := timedEvent_none h
  obtain ⟨wait, h⟩ := due_else_none.1 (pages p)
  obtain ⟨period, h⟩ := due_else_none.1 h
  exact ⟨wait, period, (due_else_none.1 h).1⟩

theorem outputEvents_none (h : s.timedEvent = none) (o : OutputId) : s.guardDue o = false ∧ s.windowDue o = false := by
  obtain ⟨-, -, -, outputs, -⟩ := timedEvent_none h
  obtain ⟨guard, h⟩ := due_else_none.1 (outputs o)
  exact ⟨guard, (due_else_none.1 h).1⟩

/-! ## The step on an empty queue -/

theorem step_empty (h : s.pending = []) : step s = .next s.idle := by
  unfold step
  rw [h]

theorem idle_takes (hp : s.power = .running) (htx : s.link.tx = none) (ht : s.transmitTake.link.tx.isSome = true) :
    s.idle = s.transmitTake := by
  simp [State.idle, hp, htx, ht]

theorem idle_queues (hp : s.power = .running) (ht : s.link.tx.isSome = true ∨ s.transmitTake.link.tx = none) :
    s.idle = { s with pending := [s.nextEvent] } := by
  unfold State.idle
  rw [if_neg (by simp [hp]), if_neg]
  rcases ht with ht | ht
  · simp [Option.isSome_iff_ne_none.1 ht]
  · simp [ht]

theorem dispatchDue_open {f : Frame} {rest : List Frame} (hb : s.link.rxBuffer = f :: rest) (ho : s.dispatchOpen = true) :
    s.dispatchDue = some f.request := by
  simp [State.dispatchDue, hb, ho]

theorem dispatchDue_none (h : s.link.rxBuffer = [] ∨ s.dispatchOpen = false) : s.dispatchDue = none := by
  rcases h with h | h <;> simp [State.dispatchDue, h]

end

/-- Settles O2, by the sources of the timed events, each in its place in the order. -/
theorem emptyQueueRunsTheControllersOwnEvents : Obligations.EmptyQueueRunsTheControllersOwnEvents := by
  refine ⟨fun s timed ht => ⟨fun i hi => (ht i).2 ?_, fun hn i hi => ?_⟩, fun s hq => ⟨fun hp => ?_, fun hp => ⟨fun htx htake => ?_, fun htake => ⟨?_, fun hd => ⟨?_, ?_⟩⟩⟩⟩⟩
  · rcases timedEvent_some hi with ⟨c, h⟩ | ⟨g, h⟩ | ⟨p, h⟩ | ⟨o, h⟩ | h | h | h
    · exact .inr (.inr (.inr (.inr (.inr (.inr ⟨c.handle, dueOfCall_some h⟩)))))
    · exact .inr (.inr (.inr (.inl ⟨g, dueOfGroup_some h⟩)))
    · exact .inr (.inr (.inr (.inr (.inr (.inl ⟨p, dueOfPage_some h⟩)))))
    · exact .inr (.inr (.inr (.inr (.inl ⟨o, dueOfOutput_some h⟩))))
    · exact .inl h
    · exact .inr (.inr (.inl (dueOfStations_some h)))
    · exact .inr (.inl h)
  · obtain ⟨-, groups, -, -, save, stations, receiver⟩ := timedEvent_none hn
    rcases (ht i).1 hi with rfl | rfl | ⟨k, rfl⟩ | ⟨g, rfl⟩ | ⟨o, rfl | rfl⟩ | ⟨p, page⟩ | ⟨h, call⟩
    · exact exec_not_due rfl save
    · exact exec_not_due rfl receiver
    · exact exec_not_due rfl (dueOfStations_none stations k)
    · exact exec_not_due rfl (due_else_none.1 (groups g)).1
    · exact exec_not_due rfl (outputEvents_none hn o).1
    · exact exec_not_due rfl (outputEvents_none hn o).2
    · obtain ⟨wait, period, age⟩ := pageEvents_none hn p
      rcases page with rfl | rfl | rfl
      exacts [exec_not_due rfl wait, exec_not_due rfl period, exec_not_due rfl age]
    · obtain ⟨ring, wait, esc, park, queueAge, arrivalAge⟩ := callEvents_none hn h
      rcases call with rfl | rfl | rfl | rfl | rfl | rfl | rfl | rfl | rfl
      exacts [exec_not_due rfl (ring _), exec_not_due rfl (ring _), exec_not_due rfl (ring _), exec_not_due rfl (ring _), exec_not_due rfl wait, exec_not_due rfl esc,
        exec_not_due rfl park, exec_not_due rfl queueAge, exec_not_due rfl arrivalAge]
  · rw [step_empty hq, State.idle, if_pos hp]
  · rw [step_empty hq, idle_takes hp htx htake]
  · intro f rest hb ho
    rw [step_empty hq, idle_queues hp htake, State.nextEvent, dispatchDue_open hb ho]
    rfl
  · intro i hi
    rw [step_empty hq, idle_queues hp htake, State.nextEvent, dispatchDue_none hd, hi]
    rfl
  · intro hn
    rw [step_empty hq, idle_queues hp htake, State.nextEvent, dispatchDue_none hd, hn]
    rfl

end Sys2Proof.Machine
end

