-- ==== Sys2Proof/Proofs/Blocks.lean ====
section
/-! SUPPORT. The scaling of samples and the audio block of a millisecond (R139, R151 to R155). -/

namespace Sys2Proof.Machine

/-! ## Scaling (R151, R152) -/

/-- The scaled value is the one number of that magnitude with the sign of the sample. -/
theorem scaledValue_eq {x y : Int} {ge : Nat} (hy : y.natAbs = ((x * ge).natAbs + 32) / 64) (h0 : 0 ≤ x → 0 ≤ y) (h1 : x < 0 → y ≤ 0) :
    scaledValue x ge = y := by
  unfold scaledValue
  dsimp only
  rw [← hy]
  split
  · have : x < 0 := by
      by_contra hx
      exact absurd (Int.mul_nonneg (by omega : 0 ≤ x) (Int.natCast_nonneg ge)) (by omega)
    have := h1 this
    omega
  · by_cases hx : 0 ≤ x
    · have := h0 hx
      omega
    · have zero : x * ge = 0 := le_antisymm (Int.mul_nonpos_of_nonpos_of_nonneg (by omega) (Int.natCast_nonneg ge)) (by omega)
      rw [zero] at hy
      omega

theorem scaleSample_above {x : Sample} {ge : Nat} (h : 32767 < scaledValue x.toInt ge) : scaleSample x ge = (0x7FFF, true) :=
  if_pos h

theorem scaleSample_below {x : Sample} {ge : Nat} (h : scaledValue x.toInt ge < -32768) : scaleSample x ge = (0x8000, true) := by
  unfold scaleSample
  dsimp only
  rw [if_neg (by omega), if_pos h]
  rfl

theorem scaleSample_within {x : Sample} {ge : Nat} (h0 : -32768 ≤ scaledValue x.toInt ge) (h1 : scaledValue x.toInt ge ≤ 32767) :
    scaleSample x ge = (BitVec.ofInt 16 (scaledValue x.toInt ge), false) := by
  unfold scaleSample
  dsimp only
  rw [if_neg (by omega), if_neg (by omega)]

theorem toInt_ofInt_of_fits {y : Int} (h0 : -32768 ≤ y) (h1 : y ≤ 32767) : (BitVec.ofInt 16 y).toInt = y := by
  rw [BitVec.toInt_ofInt]
  exact Int.bmod_eq_of_le (by simpa using h0) (by simp; omega)

theorem sample_fits (x : Sample) : -32768 ≤ x.toInt ∧ x.toInt ≤ 32767 := by
  have := x.toInt_lt
  have := x.le_toInt
  omega

/-- A gain of 64 leaves every sample as it is (R152). -/
theorem scaleSample_unity (x : Sample) : scaleSample x 64 = (x, false) := by
  have same : scaledValue x.toInt 64 = x.toInt := scaledValue_eq (by omega) (fun h => h) (fun h => by omega)
  obtain ⟨h0, h1⟩ := sample_fits x
  rw [scaleSample_within (by omega) (by omega), same, BitVec.ofInt_toInt]

/-- A chime sample never clips (R142, R152). -/
theorem scaleSample_chime {x : Sample} {ge : Nat} (hg : ge ≤ 255) (hx : x.toInt = 8192 ∨ x.toInt = -8192) :
    (scaleSample x ge).2 = false := by
  rcases hx with hx | hx
  · have value : scaledValue x.toInt ge = 128 * ge := scaledValue_eq (by rw [hx]; omega) (by omega) (by omega)
    rw [scaleSample_within (by omega) (by omega)]
  · have value : scaledValue x.toInt ge = -(128 * ge) := scaledValue_eq (by rw [hx]; omega) (by omega) (by omega)
    rw [scaleSample_within (by omega) (by omega)]

/-! ## The block of one output (R139, R154) -/

section
variable {s : State} {inputs : Vector (Vector Sample 8) 4} {noise : Vector Envelope 16} {o : OutputId}

theorem buildBlock_silent (h : s.blockSource inputs o = none) :
    s.buildBlock inputs noise o = (s.output o).silentBlock s.now (s.outputCfg o).window noise[o] := by
  unfold State.buildBlock Output.silentBlock State.inSettlingHalf
  rw [h]
  simp only [Bool.and_eq_true, decide_eq_true_eq]
  rfl

theorem buildBlock_sounding {src : Vector Sample 8} {c : PageClass} (h : s.blockSource inputs o = some (src, c)) :
    s.buildBlock inputs noise o = (s.output o).soundingBlock (s.gainOf o c) src := by
  unfold State.buildBlock Output.soundingBlock
  rw [h]
  simp [Vector.toList_map, List.countP_map, Function.comp_def]

theorem blockSource_silent (h : ∀ r, (s.output o).state ≠ .audible r) : s.blockSource inputs o = none := by
  unfold State.blockSource
  split
  · exact absurd ‹_› (h _)
  · rfl

theorem blockSource_audible {r : PageRef} {pg : Page} (hs : (s.output o).state = .audible r) (hp : s.pageAt r = some pg) :
    s.blockSource inputs o = (s.audibleSource inputs pg).map fun x => (x, pg.cls) := by
  unfold State.blockSource
  rw [hs]
  dsimp only
  rw [hp]

theorem audibleSource_chime {pg : Page} {c : Chime} (hc : pg.chime = some c) :
    s.audibleSource inputs pg = if ageOf s.now c.periodStart < c.sounding then some chimeBlock else none := by
  unfold State.audibleSource Chime.soundsAt
  rw [hc]
  simp only [decide_eq_true_eq]

theorem audibleSource_input {pg : Page} {i : InputId} (hc : pg.chime = none) (hl : pg.state = .live) (hi : pg.source = .input i) :
    s.audibleSource inputs pg = some inputs[i] := by
  unfold State.audibleSource
  rw [hc]
  dsimp only
  rw [hl, hi]

/-! ## The block of a millisecond (log entry 7) -/

theorem outputBlock_early (h : s.timedEvent ≠ none) : exec (.outputBlock inputs noise) s = .next s :=
  exec_not_due rfl (Option.isNone_eq_false_iff.2 (Option.isSome_iff_ne_none.2 h))

theorem outputBlock_last (hr : Runs s) (h : s.timedEvent = none) :
    exec (.outputBlock inputs noise) s = .next (s.buildBlocks inputs noise).tick.transmitTake :=
  event_marks (e := fun s => (s.buildBlocks inputs noise).tick) hr (by rw [h]; rfl) rfl

theorem output_buildBlocks : (s.buildBlocks inputs noise).tick.output o = s.buildBlock inputs noise o :=
  Vector.getElem_ofFn _

end

/-- Settles O48: the scaling by its magnitude and sign, the blocks by the source of each output's samples. -/
theorem samplesAndBlocksFollowTheOutputState : Obligations.SamplesAndBlocksFollowTheOutputState := by
  refine ⟨fun x ge y hy h0 h1 => ?_, scaleSample_unity, fun ge x => scaleSample_chime, fun k => rfl, fun gt gceil offset => ?_,
    fun s inputs noise hr due => ?_, fun s inputs noise hr hn => ?_⟩
  · obtain rfl := scaledValue_eq hy h0 h1
    refine ⟨scaleSample_above, scaleSample_below, fun hl hu => ?_⟩
    rw [scaleSample_within hl hu]
    exact ⟨toInt_ofInt_of_fits hl hu, rfl⟩
  · unfold effectiveGain
    omega
  · refine outputBlock_early fun hn => ?_
    rcases due with ⟨o, ends⟩ | ⟨o, r, guard⟩ | ⟨p, pg, c, hp, hc, ends⟩
    · have := (outputEvents_none hn o).2
      simp [State.windowDue, ← ends] at this
    · have := (outputEvents_none hn o).1
      simp [State.guardDue, guard] at this
    · have := (pageEvents_none hn p).2.1
      simp [State.periodDue, hp, hc, ← ends] at this
  · refine ⟨(s.buildBlocks inputs noise).tick, outputBlock_last hr hn, rfl, fun o => ?_⟩
    rw [output_buildBlocks]
    refine ⟨fun quiet => buildBlock_silent (blockSource_silent fun r audible => ?_), fun r pg hs hp ge hge => ⟨fun c hc => ⟨fun past => ?_, fun during => ?_⟩, fun i hc hl hi => ?_⟩⟩
    · rcases quiet with quiet | ⟨_, _, quiet⟩ <;> simp [audible] at quiet
    · refine buildBlock_silent ?_
      rw [blockSource_audible hs hp, audibleSource_chime hc, if_neg (by omega)]
      rfl
    · rw [hge]
      refine buildBlock_sounding (src := chimeBlock) ?_
      rw [blockSource_audible hs hp, audibleSource_chime hc, if_pos during]
      rfl
    · rw [hge]
      refine buildBlock_sounding ?_
      rw [blockSource_audible hs hp, audibleSource_input hc hl hi]
      rfl

end Sys2Proof.Machine
end

