-- ==== Sys2Proof/Proofs/Contents.lean ====
section
/-! SUPPORT. The contents of the queries, spelled as numbers with their octet counts (R166, R179). -/

namespace Sys2Proof.Machine

/-! ## Numbers with their octet counts (R166) -/

/-- A list of numbers, each in its count of octets, most significant first. -/
def spelled (l : List (Nat × Nat)) : List Octet := l.flatMap fun x => putNumber x.1 x.2

/-- The octets of a number are its digits to the base 256. -/
theorem putNumber_digits (n v : Nat) : ((List.range n).reverse.map fun k => BitVec.ofNat 8 (v / 256 ^ k)) = putNumber n v := by
  induction n generalizing v with
  | zero => rfl
  | succ n ih =>
    rw [putNumber, ← ih, List.range_succ_eq_map, List.reverse_cons, List.map_append, ← List.map_reverse, List.map_map]
    simp [Function.comp_def, Nat.pow_succ', Nat.div_div_eq_div_mul]

@[simp] theorem spelled_nil : spelled [] = [] := rfl

@[simp] theorem spelled_cons (x : Nat × Nat) (l : List (Nat × Nat)) : spelled (x :: l) = putNumber x.1 x.2 ++ spelled l := rfl

@[simp] theorem spelled_append (l m : List (Nat × Nat)) : spelled (l ++ m) = spelled l ++ spelled m := List.flatMap_append

theorem spelled_flatMap {α : Type} (l : List α) (f : α → List (Nat × Nat)) :
    spelled (l.flatMap f) = l.flatMap fun a => spelled (f a) := List.flatMap_assoc

theorem spelled_map {α : Type} (l : List α) (f : α → Nat × Nat) :
    spelled (l.map f) = l.flatMap fun a => putNumber (f a).1 (f a).2 := List.flatMap_map ..

/-- A number, 255 for none. -/
def byteField (v : Option Nat) : Nat × Nat := (1, v.getD 255)

/-- A wide number, 65535 for none. -/
def wideField (v : Option Nat) : Nat × Nat := (2, v.getD 65535)

/-- A time, 4,294,967,295 for none. -/
def timeField (v : Option Nat) : Nat × Nat := (4, v.getD 4294967295)

/-- The milliseconds until a deadline, 16,777,215 for none. -/
def remainsField (now : Time) (d : Option Time) : Nat × Nat := (3, (d.map fun t => ageOf t now).getD 16777215)

/-- A flag. -/
def flagField (b : Bool) : Nat × Nat := (1, b.toNat)

/-- A station list: its count, then the stations. -/
def stationFields (l : List StationId) : List (Nat × Nat) := (1, l.length) :: l.map fun i => (2, i.val)

/-- A page reference. -/
def refFields : Option PageRef → List (Nat × Nat)
  | none => [(1, 255), (1, 0)]
  | some r => [(1, r.id.val), (1, r.gen.toNat)]

theorem spelled_stationFields (l : List StationId) : spelled (stationFields l) = putStations l := by
  rw [stationFields, spelled_cons, spelled_map]
  rfl

theorem spelled_refFields (r : Option PageRef) : spelled (refFields r) = putRef r := by
  cases r with
  | none => rfl
  | some r => simp [refFields, putNumber, putRef]

/-! ## Sets of outputs (R166) -/

theorem outputSetOf_foldl (l : List OutputId) (hl : l.Pairwise (· < ·)) (m : OutputSet) (hm : ∀ o ∈ l, m.toNat < 2 ^ o.val) :
    (l.foldl (fun m o => m ||| (1#16 <<< o.val)) m).toNat = m.toNat + (l.map fun o => 2 ^ o.val).sum := by
  induction l generalizing m with
  | nil => rfl
  | cons o l ih =>
    obtain ⟨above, hl⟩ := List.pairwise_cons.1 hl
    have bit : (1#16 <<< o.val).toNat = 2 ^ o.val := by
      have := Nat.pow_lt_pow_right (by decide : 1 < 2) o.isLt
      simp [BitVec.toNat_shiftLeft, Nat.shiftLeft_eq]
      omega
    have lt : m.toNat < 2 ^ o.val := hm o (by simp)
    have step : (m ||| (1#16 <<< o.val)).toNat = m.toNat + 2 ^ o.val := by
      rw [BitVec.toNat_or, bit, Nat.or_comm, Nat.add_comm]
      simpa using (Nat.two_pow_add_eq_or_of_lt lt 1).symm
    rw [List.foldl_cons, ih hl _ fun p hp => ?_, step, List.map_cons, List.sum_cons]
    · omega
    · have : 2 ^ (o.val + 1) ≤ 2 ^ p.val := Nat.pow_le_pow_right (by decide) (above p hp)
      rw [step]
      omega

/-- The set of an ascending list of outputs, as a number. -/
theorem outputSetOf_toNat {l : List OutputId} (hl : l.Pairwise (· < ·)) :
    (outputSetOf l).toNat = (l.map fun o => 2 ^ o.val).sum := by
  rw [outputSetOf, outputSetOf_foldl l hl 0 fun o _ => Nat.two_pow_pos _]
  simp

section
variable (s : State)

theorem held_ascending (p : PageId) : (s.held p).Pairwise (· < ·) := (List.pairwise_lt_finRange 16).filter _

theorem wanted_ascending (p : PageId) : (s.wanted p).Pairwise (· < ·) := by
  unfold State.wanted
  split
  · exact .nil
  · exact ((List.pairwise_lt_finRange 16).filter _).filter _

/-! ## The contents (R178, R179) -/

theorem statusContent_spelled : statusContent s = spelled
    [ (4, s.now.toNat), (1, s.calls.length), (1, s.calls.countP fun c => decide (c.state = .ending)),
      (1, (List.finRange 16).countP fun p => (s.page p).isSome), (1, s.waitOrder.length),
      (1, (List.finRange 20).countP fun o => (s.orbitHolder o).isSome), flagField s.save.isSome, (1, s.cfg.digitWidth),
      (2, s.cfg.directory.length), (1, s.link.rxBuffer.length), (1, s.link.replies.length), (1, s.link.callOrders.length),
      (2, s.link.stationOrders.length), (1, s.link.advisories.length) ] := by
  unfold statusContent
  rw [State.pagesInUse, ← List.countP_eq_length_filter]
  simp only [spelled_cons, spelled_nil, List.append_assoc, List.append_nil]
  rfl

theorem orbitsContent_spelled : (List.finRange 20).flatMap (orbitContent s) = spelled ((List.finRange 20).flatMap fun o =>
    match s.orbitHolder o with
    | none => [(2, 0), byteField none, wideField none, remainsField s.now none]
    | some c => [(2, c.handle), (1, c.state.code), wideField (c.parker.map Fin.val), remainsField s.now c.parkDeadline]) := by
  rw [spelled_flatMap]
  refine congrArg (List.flatMap · _) (funext fun o => ?_)
  unfold orbitContent
  cases s.orbitHolder o with
  | none =>
    simp only [spelled_cons, spelled_nil, List.append_assoc, List.append_nil]
    rfl
  | some c =>
    simp only [spelled_cons, spelled_nil, List.append_assoc, List.append_nil]
    rfl

theorem membershipsOf_eq (i : StationId) : membershipsOf s i = (List.finRange 32).flatMap fun g =>
    (((s.groupCfg g).members.find? fun m => decide (m.station = i)).map fun m => (g, m.loggedIn)).toList := by
  rw [membershipsOf, List.filterMap_eq_flatMap_toList]
  rfl

theorem stationContent_spelled (i : StationId) : stationContent s i = spelled (
    [(1, (s.station i).state.code)] ++ (match (s.station i).state with
      | .ringing h => [(2, h)]
      | .pageListen r => refFields (some r)
      | _ => [(2, 0)]) ++
    [ (4, s.idleAge i), flagField (s.station i).saturated, (1, (s.station i).lastSent.code), flagField (s.marked i),
      flagField (s.stationCfg i).inUse, byteField ((s.stationCfg i).pickupGroup.map Fin.val),
      byteField ((s.stationCfg i).searchList.map Fin.val), flagField (s.stationCfg i).override,
      flagField (s.stationCfg i).directAny, (1, (s.stationCfg i).classLimit.num), (1, (s.stationCfg i).defaultMapSet.val),
      (1, (membershipsOf s i).length) ] ++
    (membershipsOf s i).flatMap fun m => [(1, m.1.val), flagField m.2]) := by
  have reference : spelled (match (s.station i).state with
      | .ringing h => [(2, h)]
      | .pageListen r => refFields (some r)
      | _ => [(2, 0)]) = putReference (s.station i).state := by
    cases (s.station i).state with
    | ringing h => rfl
    | pageListen r => exact spelled_refFields _
    | unused => rfl
    | outOfService => rfl
    | idle => rfl
    | busy => rfl
  rw [spelled_append, spelled_append, spelled_append, reference, spelled_flatMap]
  unfold stationContent
  simp only [spelled_cons, spelled_nil, List.append_assoc, List.append_nil]
  rfl

theorem queueContent_spelled (g : GroupId) : queueContent s g = spelled ((1, ((s.group g).queue.filterMap s.findCall).length) ::
    ((s.group g).queue.filterMap s.findCall).flatMap fun c =>
      [(2, c.handle), (4, s.queueAge c), flagField c.escalated, flagField c.noPickup]) := by
  unfold queueContent
  simp only [spelled_cons, spelled_flatMap, spelled_nil, List.append_assoc, List.append_nil]
  rfl

theorem callContent_spelled (c : Call) : callContent s c = spelled (
    [(1, c.state.code), byteField (c.offerKind.map OfferKind.code), (1, c.caller.length)] ++ (c.caller.map fun x => (1, x)) ++
    [ flagField c.noPickup, byteField (c.currentGroup.map Fin.val), byteField (c.originGroup.map Fin.val), (1, c.hops),
      (1, c.offered.length) ] ++
    (c.offered.flatMap fun x => [(2, x.station.val), (2, ageOf s.now x.start)]) ++ stationFields c.tried ++
    [ (4, s.arrivalAge c), timeField (c.queueEntry.map fun _ => s.queueAge c), remainsField s.now c.ringDeadline,
      remainsField s.now c.waitDeadline, remainsField s.now c.escDeadline, remainsField s.now c.parkDeadline,
      flagField c.escalated, flagField c.waitPassed, byteField (c.orbit.map Fin.val), wideField (c.parker.map Fin.val),
      byteField (c.outcome.map CallOutcome.code), wideField (c.outcomeStation.map Fin.val) ]) := by
  have entry : (if c.queueEntry.isSome then some (s.queueAge c) else none) = c.queueEntry.map fun _ => s.queueAge c := by
    cases c.queueEntry <;> rfl
  unfold callContent
  rw [entry]
  simp only [spelled_append, spelled_cons, spelled_flatMap, spelled_map, spelled_stationFields, spelled_nil, List.append_assoc,
    List.append_nil]
  rfl

theorem pageInUseContent_spelled (p : PageId) (pg : Page) : pageInUseContent s p pg = spelled (
    [ (1, pg.state.code), (1, pg.cls.num), wideField (pg.requester.map Fin.val),
      byteField (pg.escGroup.map Fin.val), (1, match pg.source with | .input i => i.val | .chime k => 16 + k.val),
      byteField (pg.preAnnounce.map Fin.val), (1, pg.mode.code), flagField pg.started, remainsField s.now pg.waitDeadline,
      (4, s.requestAge pg), (2, pg.zoneOutputs.toNat),
      (2, ((s.held p).map fun o => 2 ^ o.val).sum), (2, ((s.wanted p).map fun o => 2 ^ o.val).sum) ] ++
    stationFields (s.joined p) ++
    [ byteField (waitPlace s p), byteField (pg.chime.map fun c => c.pattern.val), wideField (pg.chime.map Chime.length),
      byteField (pg.chime.map Chime.completed) ]) := by
  have source : putSource pg.source = putNumber 1 (match pg.source with | .input i => i.val | .chime k => 16 + k.val) := by
    cases pg.source <;> rfl
  unfold pageInUseContent
  rw [source, putSet, putSet, putSet, outputSetOf_toNat (held_ascending s p), outputSetOf_toNat (wanted_ascending s p)]
  simp only [spelled_append, spelled_cons, spelled_stationFields, spelled_nil, List.append_assoc, List.append_nil]
  rfl

theorem waitOrder_nodup : s.waitOrder.Nodup :=
  (sortBy_perm _ _).nodup_iff.2 (((List.nodup_finRange 16).filter _).filter _)

/-- The place of a page is its position in the wait order, counted from 1. -/
theorem waitPlace_eq {p : PageId} {places : Option Nat} (hn : places = none ↔ p ∉ s.waitOrder)
    (hp : ∀ n, places = some n → 1 ≤ n ∧ s.waitOrder[n - 1]? = some p) : waitPlace s p = places := by
  unfold waitPlace
  cases places with
  | none => rw [if_neg (by simpa using hn.1 rfl)]
  | some n =>
    obtain ⟨pos, at_n⟩ := hp n rfl
    obtain ⟨lt, rfl⟩ := List.getElem?_eq_some_iff.1 at_n
    rw [if_pos (by simp), (waitOrder_nodup s).idxOf_getElem]
    simp only [Option.some.injEq]
    omega

theorem pageContent_free {p : PageId} (hp : s.page p = none) :
    pageContent s p = spelled [(1, p.val), (1, s.pages[p].gen.toNat), (1, 4)] := by
  have gen : [s.pages[p].gen] = putNumber 1 s.pages[p].gen.toNat := by simp [putNumber]
  unfold pageContent
  rw [hp, gen]
  simp only [spelled_cons, spelled_nil, List.append_assoc, List.append_nil]
  rfl

theorem pageContent_used {p : PageId} {pg : Page} (hp : s.page p = some pg) :
    pageContent s p = spelled [(1, p.val), (1, s.pages[p].gen.toNat)] ++ pageInUseContent s p pg := by
  have gen : [s.pages[p].gen] = putNumber 1 s.pages[p].gen.toNat := by simp [putNumber]
  unfold pageContent
  rw [hp, gen]
  simp only [spelled_cons, spelled_nil, List.append_assoc, List.append_nil]
  rfl

theorem outputContent_spelled (o : OutputId) : outputContent s o = spelled (
    (1, (s.output o).state.code) :: refFields (s.output o).state.holder ++
    [ remainsField s.now (s.output o).state.deadline, (1, (s.output o).gt), (1, (s.outputCfg o).gmin), (1, (s.outputCfg o).gmax),
      (1, (s.outputCfg o).gceil), (1, (s.outputCfg o).stepSize), (2, (s.outputCfg o).ut), (2, (s.outputCfg o).lt),
      (2, (s.outputCfg o).ct), (2, (s.outputCfg o).window), flagField (s.outputCfg o).settle, flagField (s.outputCfg o).hold,
      wideField (currentGain s o), (4, ageOf s.now (s.output o).windowStart), flagField (s.output o).settling,
      (2, (s.output o).count), (2, (s.output o).clips), wideField (s.output o).lastCount, wideField (s.output o).lastMean,
      wideField (s.output o).lastClips, byteField ((s.output o).lastDecision.map Decision.code),
      flagField (s.output o).atLimit ]) := by
  unfold outputContent
  simp only [spelled_append, spelled_cons, spelled_refFields, spelled_nil, List.append_assoc, List.append_nil]
  rfl

theorem deadline_eq {x : OutputState} {d : Option Time} (h1 : ∀ r t, x = .guard r t → d = some t)
    (h0 : (∀ r t, x ≠ .guard r t) → d = none) : x.deadline = d := by
  cases x with
  | guard r t => exact (h1 r t rfl).symm
  | free => exact (h0 nofun).symm
  | audible r => exact (h0 nofun).symm

theorem currentGain_eq {o : OutputId} {ge : Option Nat}
    (h1 : ∀ r pg, (s.output o).state = .audible r → s.pageAt r = some pg → ge = some (s.gainOf o pg.cls))
    (h0 : (∀ r pg, (s.output o).state = .audible r → s.pageAt r ≠ some pg) → ge = none) : currentGain s o = ge := by
  unfold currentGain
  split
  · rename_i r audible
    cases found : s.pageAt r with
    | none =>
      refine (h0 fun r' pg e => ?_).symm
      obtain rfl : r = r' := by simpa using audible.symm.trans e
      simp [found]
    | some pg => exact (h1 r pg audible found).symm
  · rename_i quiet
    exact (h0 fun r pg e => absurd e (quiet r)).symm

theorem groupContent_spelled (g : GroupId) : groupContent s g =
    spelled [flagField (s.groupCfg g).enabled, (1, (s.groupCfg g).algorithm.code), (1, (s.groupCfg g).noAnswer),
      (1, (s.groupCfg g).queueLimit), (2, (s.groupCfg g).maxWait)] ++
    (match (s.groupCfg g).target with
      | .nowhere => [0, Config.unreadOctet 0, Config.unreadOctet 1]
      | .group j => spelled [(1, 1), (2, j.val)]
      | .station i => spelled [(1, 2), (2, i.val)]
      | .attendant => [3, Config.unreadOctet 0, Config.unreadOctet 1]) ++
    spelled ([(2, (s.groupCfg g).escDelay), (1, (s.groupCfg g).escMapSet.val), (1, (s.groupCfg g).escZones.length)] ++
      ((s.groupCfg g).escZones.map fun z => (1, z.val)) ++
      [(1, (s.groupCfg g).chime.val), (1, (s.groupCfg g).repeatInterval), (1, (s.groupCfg g).members.length)] ++
      ((s.groupCfg g).members.flatMap fun m => [(2, m.station.val), flagField m.loggedIn]) ++
      [wideField ((s.group g).cursor.map Fin.val), (1, (s.group g).queue.length)] ++ refFields (s.group g).escPage ++
      [remainsField s.now (s.group g).repeatDeadline, flagField (s.group g).repeatDue]) := by
  have target : (match (s.groupCfg g).target with
      | .nowhere => [0, Config.unreadOctet 0, Config.unreadOctet 1]
      | .group j => spelled [(1, 1), (2, j.val)]
      | .station i => spelled [(1, 2), (2, i.val)]
      | .attendant => [3, Config.unreadOctet 0, Config.unreadOctet 1]) = putTarget (s.groupCfg g).target := by
    cases (s.groupCfg g).target <;> rfl
  rw [target]
  unfold groupContent
  simp only [spelled_append, spelled_cons, spelled_flatMap, spelled_map, spelled_refFields, spelled_nil, List.append_assoc,
    List.append_nil]
  rfl

end

/-! ## The directory in number order (R178) -/

theorem insertBy_sorted {α : Type} (measure : α → Nat) (x : α) {l : List α} (hl : l.Pairwise fun a b => measure a ≤ measure b) :
    (insertBy (fun a b => decide (measure a < measure b)) x l).Pairwise fun a b => measure a ≤ measure b := by
  induction l with
  | nil => simp [insertBy]
  | cons y l ih =>
    obtain ⟨first, hl'⟩ := List.pairwise_cons.1 hl
    unfold insertBy
    split
    · rename_i lt
      have lt : measure x < measure y := of_decide_eq_true lt
      refine List.pairwise_cons.2 ⟨fun z hz => ?_, hl⟩
      rcases List.mem_cons.1 hz with rfl | hz
      · omega
      · have := first z hz
        omega
    · rename_i ge
      refine List.pairwise_cons.2 ⟨fun z hz => ?_, ih hl'⟩
      rcases List.mem_cons.1 ((insertBy_perm _ x l).mem_iff.1 hz) with rfl | hz
      · simpa using ge
      · exact first z hz

theorem sortBy_sorted {α : Type} (measure : α → Nat) (l : List α) :
    (sortBy (fun a b => decide (measure a < measure b)) l).Pairwise fun a b => measure a ≤ measure b := by
  induction l with
  | nil => exact .nil
  | cons x l ih => exact insertBy_sorted measure x ih

/-- A list in strictly ascending order is the sorted form of each of its permutations. -/
theorem sortBy_eq {α : Type} {measure : α → Nat} {l m : List α} (hp : m.Perm l) (hm : m.Pairwise fun a b => measure a < measure b) :
    sortBy (fun a b => decide (measure a < measure b)) l = m := by
  have perm := (sortBy_perm (fun a b => decide (measure a < measure b)) l).trans hp.symm
  refine perm.eq_of_pairwise (le := fun a b => measure a ≤ measure b) (fun a b ha hb hab hba => ?_) (sortBy_sorted measure l)
    (hm.imp Nat.le_of_lt)
  have apart : (m.map measure).Nodup := List.pairwise_map.2 (hm.imp Nat.ne_of_lt)
  exact List.inj_on_of_nodup_map apart (perm.mem_iff.1 ha) hb (le_antisymm hab hba)

theorem directoryContent_spelled (s : State) {start : Nat} {es : List DirEntry} (h : entriesFrom s start = es) :
    directoryContent s start = spelled ((1, (es.take 32).length) ::
      ((es.take 32).flatMap fun e => [(3, decimalOf e.number), (1, e.target.codes.1), (2, e.target.codes.2)]) ++
      [flagField (decide (32 < es.length))]) := by
  have target (t : DirTarget) : putDirTarget t = put1 t.codes.1 ++ put2 t.codes.2 := by cases t <;> rfl
  unfold directoryContent
  rw [h]
  simp only [target, spelled_append, spelled_cons, spelled_flatMap, spelled_nil, List.append_assoc, List.append_nil]
  rfl

end Sys2Proof.Machine
end

