-- ==== Sys2Proof/Proofs/Queries.lean ====
section
/-! SUPPORT. Every query is answered with its content, and changes no state (R177 to R179). -/

namespace Sys2Proof.Machine

/-! ## A query that names a record by its number (R177) -/

section
variable {n k v : Nat} {content : State → Fin k → List Octet}

theorem queryBy_some (hk : k ≤ 256 ^ n) (i : Fin k) (s : State) :
    queryBy n k content (putNumber n i.val) s = accept s (content s i) := by
  have read : StateT.run (readNumber n 0) (putNumber n i.val) = some (i.val, []) :=
    (readNumber_takes' n _ _ _).2 ⟨i.isLt.trans_le hk, (List.append_nil _).symm⟩
  rw [queryBy, withBody_of read, finOf_val, orBadValue_some]

theorem queryBy_none (hv : v < 256 ^ n) (hk : k ≤ v) (s : State) : queryBy n k content (putNumber n v) s = refuse s .badValue := by
  have read : StateT.run (readNumber n 0) (putNumber n v) = some (v, []) :=
    (readNumber_takes' n _ _ _).2 ⟨hv, (List.append_nil _).symm⟩
  rw [queryBy, withBody_of read, finOf_none_iff.2 hk, orBadValue_none]

end

section
variable {s : State} {rest : List Frame} {row : Row} {f : Frame} {i : Instr} {handle : State → Handled} {c : List Octet}

/-- A request whose handling accepts it with a content. -/
theorem answers_ok (he : exec i s = dispatch row f handle s) (hrow : f.row = row)
    (h : handle (s.takeHead rest) = accept (s.takeHead rest) c) : Answers s rest i f .ok c :=
  fun ready => he.trans (dispatch_answered hrow h ready)

/-- A request whose handling refuses it. -/
theorem answers_refused {r : Result} (he : exec i s = dispatch row f handle s) (hrow : f.row = row)
    (h : handle (s.takeHead rest) = refuse (s.takeHead rest) r) : Answers s rest i f r [] :=
  fun ready => he.trans (dispatch_answered hrow h ready)

end

/-! ## The queries with checks of their own -/

section
variable {h : Nat} {s : State}

theorem handleGetCall_eq (hh : h < 65536) (s : State) : handleGetCall (put2 h) s =
    if h = 0 then refuse s .badValue
    else
      match s.findCall h with
      | none => refuse s .unknown
      | some c => accept s (callContent s c) := by
  unfold handleGetCall
  exact withBody_of (readWide_put2' hh) s _

theorem getCall_found {c : Call} (hh : h < 65536) (h0 : h ≠ 0) (hc : s.findCall h = some c) :
    handleGetCall (put2 h) s = accept s (callContent s c) := by
  rw [handleGetCall_eq hh, if_neg h0, hc]

theorem getCall_unknown (hh : h < 65536) (h0 : h ≠ 0) (hc : s.findCall h = none) :
    handleGetCall (put2 h) s = refuse s .unknown := by
  rw [handleGetCall_eq hh, if_neg h0, hc]

theorem handleGetDir_eq {d : List Digit} (hl : d.length < 256) (hd : ∀ x ∈ d, x < 256) (s : State) :
    handleGetDir (putDigits d) s =
      if d.length = s.cfg.digitWidth ∧ d.all (· ≤ 9) then accept s (directoryContent s (decimalOf d)) else refuse s .badValue := by
  have read : StateT.run readDigits (putDigits d) = some (d, []) := by simpa using readDigits_put d hl hd []
  unfold handleGetDir
  exact withBody_of read s _

end

/-! ## The obligation -/

/-- Settles O50, query by query, by the contents as they are spelled. -/
theorem queriesReportAndChangeNothing : Obligations.QueriesReportAndChangeNothing := by
  intro s tag rest spell byte wide ms remains yes list ref hspell hbyte hwide hms hremains hyes hlist hnone hsome
  obtain rfl : spell = spelled := funext fun l => (hspell l).trans (List.flatMap_congr fun x _ => putNumber_digits x.1 x.2)
  obtain rfl : byte = byteField := funext hbyte
  obtain rfl : wide = wideField := funext hwide
  obtain rfl : ms = timeField := funext hms
  obtain rfl : remains = remainsField s.now := funext hremains
  obtain rfl : yes = flagField := funext fun b => (hyes b).trans (by cases b <;> rfl)
  obtain rfl : list = stationFields := funext hlist
  obtain rfl : ref = refFields := funext fun
    | none => hnone
    | some r => hsome r
  refine ⟨fun _ _ => rfl, fun _ _ _ _ _ => rfl, rfl, rfl, rfl, rfl, rfl, rfl, fun _ _ => rfl, rfl, rfl, ?status, ?orbits, ?station,
    ?queue, ?page, ?output, ?group, ?stationRange, ?ranges, ?call, ?dir⟩
  case status => exact answers_ok (handle := handleStatus []) rfl rfl (congrArg (accept _) (statusContent_spelled (s.takeHead rest)))
  case orbits => exact answers_ok (handle := handleGetOrbits []) rfl rfl (congrArg (accept _) (orbitsContent_spelled (s.takeHead rest)))
  case station =>
    rintro i _ _ _ rfl rfl rfl
    rw [← membershipsOf_eq]
    exact answers_ok rfl rfl ((queryBy_some (by decide) i _).trans (congrArg (accept _) (stationContent_spelled (s.takeHead rest) i)))
  case queue =>
    rintro g _ rfl
    exact answers_ok rfl rfl ((queryBy_some (by decide) g _).trans (congrArg (accept _) (queueContent_spelled (s.takeHead rest) g)))
  case page =>
    refine fun p => ⟨fun free => ?_, fun pg places hp hnone hplace => ?_⟩
    · exact answers_ok rfl rfl ((queryBy_some (by decide) p _).trans (congrArg (accept _) (pageContent_free (s.takeHead rest) free)))
    · obtain rfl := waitPlace_eq s hnone hplace
      refine answers_ok rfl rfl ((queryBy_some (by decide) p _).trans (congrArg (accept _) ((pageContent_used _ hp).trans ?_)))
      rw [pageInUseContent_spelled, ← spelled_append]
      rfl
  case output =>
    rintro o _ _ ge guard rfl rfl g1 g0 e1 e0
    obtain rfl := deadline_eq g1 g0
    obtain rfl := currentGain_eq s e1 e0
    exact answers_ok rfl rfl ((queryBy_some (by decide) o _).trans (congrArg (accept _) (outputContent_spelled (s.takeHead rest) o)))
  case group =>
    rintro g _ _ rfl rfl
    exact answers_ok rfl rfl ((queryBy_some (by decide) g _).trans (congrArg (accept _) (groupContent_spelled (s.takeHead rest) g)))
  case stationRange => exact fun v hv hb => answers_refused rfl rfl (queryBy_none (n := 2) hv hb _)
  case ranges =>
    exact fun v hv => ⟨fun hb => ⟨answers_refused rfl rfl (queryBy_none (n := 1) hv hb _),
      answers_refused rfl rfl (queryBy_none (n := 1) hv hb _)⟩, fun hb => ⟨answers_refused rfl rfl (queryBy_none (n := 1) hv hb _),
      answers_refused rfl rfl (queryBy_none (n := 1) hv hb _)⟩⟩
  case call =>
    refine fun h hh => ⟨fun h0 => ?_, fun h0 hc => ?_, fun c h0 hc => ?_⟩
    · exact answers_refused rfl rfl ((handleGetCall_eq hh _).trans (if_pos h0))
    · exact answers_refused rfl rfl (getCall_unknown hh h0 hc)
    · exact answers_ok rfl rfl ((getCall_found (s := s.takeHead rest) hh h0 hc).trans (congrArg (accept _) (callContent_spelled (s.takeHead rest) c)))
  case dir =>
    refine fun d hl hd => ⟨fun ⟨width, digits⟩ number es hnumber hperm hes => ?_, fun bad => ?_⟩
    · obtain rfl : number = decimalOf := funext hnumber
      have sorted : entriesFrom (s.takeHead rest) (decimalOf d) = es :=
        sortBy_eq (measure := fun e : DirEntry => decimalOf e.number) hperm hes
      refine answers_ok rfl rfl ((handleGetDir_eq hl hd _).trans ((if_pos ⟨width, by simpa using digits⟩).trans ?_))
      exact congrArg (accept _) (directoryContent_spelled _ sorted)
    · refine answers_refused rfl rfl ((handleGetDir_eq hl hd _).trans (if_neg fun good => ?_))
      obtain ⟨width, digits⟩ := good
      rcases bad with bad | ⟨x, hx, large⟩
      · exact bad width
      · have : x ≤ 9 := of_decide_eq_true (List.all_eq_true.1 digits x hx)
        omega

end Sys2Proof.Machine
end

