-- ==== Sys2Proof/Proofs/Selections.lean ====
section
/-! SUPPORT. What each algorithm selects (R48 to R52); and that a group's cursor is moved by a CIRCULAR offer alone. -/

namespace Sys2Proof.Machine

/-! ## The members as a selection meets them -/

/-- The members before the first one of a station. -/
theorem takeWhile_others {before after : List Member} {m : Member} {i : StationId} (hm : m.station = i)
    (hb : i ∉ before.map Member.station) : ((before ++ m :: after).takeWhile fun x => !(x.station == i)) = before := by
  have others : ∀ x ∈ before, (!(x.station == i)) = true := fun x hx => by
    have : x.station ≠ i := fun e => hb (List.mem_map.2 ⟨x, hx, e⟩)
    simp [this]
  rw [List.takeWhile_append_of_pos others, List.takeWhile_cons_of_neg (by simp [hm]), List.append_nil]

/-- CIRCULAR walks from the member after the cursor round to the cursor's own (R49). -/
theorem circularWalk_from {before after : List Member} {m : Member} (hb : m.station ∉ before.map Member.station) :
    State.circularWalk (before ++ m :: after) (some m.station) = after ++ before ++ [m] := by
  have regroup : before ++ m :: after = (before ++ [m]) ++ after := by simp
  unfold State.circularWalk
  dsimp only
  rw [takeWhile_others rfl hb, regroup, List.drop_left' (by simp), List.take_left' (by simp), List.append_assoc]

/-- The greatest, by its place in the list: greater than all before it, and at least as great as all behind it. -/
theorem firstGreatest_split {α : Type} (m : α → Nat) {l : List α} (hl : l ≠ []) :
    ∃ before x behind, l = before ++ x :: behind ∧ firstGreatest m l = some x ∧ (∀ y ∈ before, m y < m x) ∧
      ∀ y ∈ behind, m y ≤ m x := by
  induction l with
  | nil => exact absurd rfl hl
  | cons x l ih =>
    by_cases hn : l = []
    · subst hn
      exact ⟨[], x, [], rfl, rfl, by simp, by simp⟩
    · obtain ⟨before, y, behind, e, first, greater, least⟩ := ih hn
      by_cases hxy : m x < m y
      · refine ⟨x :: before, y, behind, by rw [e]; rfl, ?_, ?_, least⟩
        · rw [firstGreatest, first]
          exact if_pos hxy
        · exact List.forall_mem_cons.2 ⟨hxy, greater⟩
      · refine ⟨[], x, l, rfl, ?_, by simp, fun z hz => ?_⟩
        · rw [firstGreatest, first]
          exact if_neg hxy
        · rw [e, List.mem_append, List.mem_cons] at hz
          obtain hz | rfl | hz := hz
          · have := greater z hz
            omega
          · omega
          · have := least z hz
            omega

namespace State

/-! ## One equation for each algorithm (R48 to R52) -/

section
variable {s : State} {g : GroupId} {c : Call}

theorem candidates_first (s : State) (c : Call) (ms : List Member) :
    (s.candidates c ms).take 1 = ((ms.find? (s.available c)).map Member.station).toList := by
  have first : ∀ l : List StationId, l.take 1 = l.head?.toList := fun l => by cases l <;> rfl
  rw [first, candidates, List.head?_map, List.head?_filter]

theorem select_linear (h : (s.groupCfg g).algorithm = .linear) :
    s.select g c = (((s.groupCfg g).members.find? (s.available c)).map Member.station).toList := by
  unfold select
  rw [h]
  exact s.candidates_first c _

theorem select_circular (h : (s.groupCfg g).algorithm = .circular) : s.select g c =
    (((circularWalk (s.groupCfg g).members (s.group g).cursor).find? (s.available c)).map Member.station).toList := by
  unfold select
  rw [h]
  exact s.candidates_first c _

theorem select_longestIdle (h : (s.groupCfg g).algorithm = .longestIdle) :
    s.select g c = (firstGreatest s.idleAge (s.candidates c (s.groupCfg g).members)).toList := by
  unfold select
  rw [h]

theorem select_simultaneous (h : (s.groupCfg g).algorithm = .simultaneous) :
    s.select g c = s.candidates c (s.groupCfg g).members := by
  unfold select
  rw [h]

end

/-- A ring or a page of a station leaves its idle age (R12, R51). -/
theorem idleAge_enterState (s : State) (i j : StationId) (st : StationState) : (s.enterState i st).idleAge j = s.idleAge j := by
  have now : (s.enterState i st).now = s.now := by rw [(s.enterState_stays i st).1]
  unfold idleAge
  rw [now, enterState_station]
  split
  · rename_i h
    rw [h]
  · rfl

end State

/-! ## The cursors (R48, R49) -/

/-- From `s` to `t` no cursor has moved. -/
def SameCursors (s t : State) : Prop := ∀ g, (t.group g).cursor = (s.group g).cursor

namespace SameCursors

variable {s t u : State}

theorem refl (s : State) : SameCursors s s := fun _ => rfl

theorem trans (a : SameCursors s t) (b : SameCursors t u) : SameCursors s u := fun g => (b g).trans (a g)

theorem of_groups (h : t.groups = s.groups) : SameCursors s t := fun g => by simp [State.group, h]

theorem foldl {α : Type} {f : State → α → State} (hf : ∀ u x, SameCursors u (f u x)) (l : List α) (s : State) :
    SameCursors s (l.foldl f s) :=
  List.foldlRecOn l f (motive := fun t : State => SameCursors s t) (refl s) fun t h x _ => h.trans (hf t x)

/-- A group changes, but for its cursor. -/
theorem updGroup (s : State) (g : GroupId) {f : Group → Group} (hf : ∀ x, (f x).cursor = x.cursor) :
    SameCursors s (s.updGroup g f) := by
  intro k
  by_cases h : k = g
  · rw [h, State.group_updGroup_self, hf]
  · rw [s.group_updGroup_ne h]

/-! ### The engines of the pages -/

theorem advisePage (s : State) (p : PageId) (e : PageEvent) : SameCursors s (s.advisePage p e) := by
  unfold State.advisePage
  split
  · exact .refl s
  · exact .of_groups rfl

theorem enterState (s : State) (i : StationId) (st : StationState) : SameCursors s (s.enterState i st) := .of_groups (by simp)

theorem joinDesk (p : PageId) (c : PageClass) (s : State) (i : StationId) : SameCursors s (State.joinDesk p c s i) := by
  unfold State.joinDesk
  split
  · exact .enterState s i _
  · split
    · split
      · split
        · exact .enterState s i _
        · exact .refl s
      · exact .refl s
    · exact .refl s

theorem joinDesks (s : State) (p : PageId) : SameCursors s (s.joinDesks p) := by
  unfold State.joinDesks
  split
  · exact .refl s
  · exact .foldl (.joinDesk _ _) _ s

theorem enterStarting (s : State) (p : PageId) : SameCursors s (s.enterStarting p) :=
  ((SameCursors.of_groups (t := s.updPage p _) rfl).trans (.advisePage _ p _)).trans (.joinDesks _ p)

theorem releaseJoined (s : State) (p : PageId) : SameCursors s (s.releaseJoined p) :=
  (SameCursors.foldl (fun u i => .enterState u i _) (s.joined p) s).trans (.of_groups rfl)

theorem endPageRecord (s : State) (p : PageId) (why : EndReason) : SameCursors s (s.endPageRecord p why) := by
  unfold State.endPageRecord
  split
  · exact .refl s
  · have released : SameCursors s ((s.held p).foldl State.release s) :=
      .foldl (f := State.release) (fun _ _ => .of_groups rfl) _ s
    exact (released.trans (.releaseJoined _ p)).trans (.of_groups rfl)

theorem strip (s : State) (p : PageId) (pg : Page) : SameCursors s (s.strip p pg) := by
  unfold State.strip
  split
  · refine (SameCursors.endPageRecord s p .preempted).trans ?_
    unfold State.forgetEscPage
    split
    · exact .refl _
    · split
      · exact .updGroup _ _ fun _ => rfl
      · exact .refl _
  · exact ((SameCursors.of_groups (t := s.toWaiting p) rfl).trans (.releaseJoined _ p)).trans (.advisePage _ p _)

theorem takeSteps (s : State) (p : PageId) (outs : List OutputId) : SameCursors s (s.takeSteps p outs) := by
  have granted : SameCursors s (outs.foldl (State.grant (s.refOf p)) s) :=
    .foldl (f := State.grant (s.refOf p)) (fun _ _ => .of_groups rfl) outs s
  unfold State.takeSteps
  refine SameCursors.trans ?_ (.foldl (fun u r => ?_) _ _)
  · split
    · exact granted.trans (.enterStarting _ p)
    · exact granted
  · unfold State.settleLoss
    split
    · exact .refl u
    · split
      · exact .strip u _ _
      · exact .refl u

theorem reviewPages (s : State) : SameCursors s s.reviewPages := by
  unfold State.reviewPages
  generalize State.reviewBound = n
  induction n generalizing s with
  | zero => exact .refl s
  | succ n ih =>
    unfold State.reviewWalks
    split
    · exact .refl s
    · exact (SameCursors.takeSteps s _ _).trans (ih _)

/-- The end of a page whose escalation is cleared: its group makes no attempt. -/
theorem endCleared (s : State) (p : PageId) : SameCursors s (s.endPage p .escalationCleared) := by
  unfold State.endPage
  split
  · exact .refl s
  · rename_i pg _
    have ended : SameCursors s
        (match pg.escGroup with
          | none => s.endPageRecord p .escalationCleared
          | some g =>
            if EndReason.escalationCleared = .escalationCleared then s.endPageRecord p .escalationCleared
            else (s.endPageRecord p .escalationCleared).escPageEnded (s.refOf p) g) := by
      split
      · exact .endPageRecord s p _
      · exact .endPageRecord s p _
    dsimp only
    split
    · exact ended
    · exact ended.trans (.reviewPages _)

theorem escalationClear (s : State) (g : GroupId) : SameCursors s (s.escalationClear g) := by
  unfold State.escalationClear
  dsimp only
  refine SameCursors.trans ?_ (SameCursors.updGroup (f := fun x => { x with escPage := none, repeatDeadline := none, repeatDue := false }) _ g
    fun _ => rfl)
  split
  · split
    · exact .endCleared s _
    · exact .refl s
  · exact .refl s

/-! ### Offers -/

theorem leaveQueue (s : State) (h : Handle) (g : GroupId) : SameCursors s (s.leaveQueue h g) := by
  have left : SameCursors s (s.updGroup g fun x => { x with queue := x.queue.filter fun k => !(k == h) }) :=
    .updGroup s g fun _ => rfl
  unfold State.leaveQueue
  dsimp only
  split
  · exact left.trans (.escalationClear _ g)
  · exact left

/-- An offer at a group that is not CIRCULAR moves no cursor (R48). -/
theorem offerGroup (s : State) (h : Handle) {g : GroupId} (ha : (s.groupCfg g).algorithm ≠ .circular) (sts : List StationId) :
    SameCursors s (s.offerGroup h g sts) := by
  unfold State.offerGroup
  split
  · exact .refl s
  · have rung : ∀ f, SameCursors s ((s.updCall h f).ringAll h sts) := fun f => .of_groups (State.ringAll_groups _ h sts)
    dsimp only
    split
    · exact absurd ‹_› ha
    · split
      · exact (rung _).trans (.leaveQueue _ h g)
      · exact rung _

end SameCursors

/-! ## The obligation -/

/-- Settles O27, by the equation of each algorithm. -/
theorem selectionByTheGroupsAlgorithm : Obligations.SelectionByTheGroupsAlgorithm := by
  rintro s g c alg ms isOpen halg rfl hopen
  obtain rfl : isOpen = s.available c := funext hopen
  refine ⟨fun linear => ⟨?_, fun k => ?_, fun h sts => ?_⟩, fun longest => ⟨fun closed => ?_, fun eligible => ?_⟩,
    fun i j st => s.idleAge_enterState i j st, fun simultaneous => ?_, fun circular => ⟨fun start => ?_, ?_⟩⟩
  · exact State.select_linear (halg.symm.trans linear)
  · rw [State.select_linear (halg.symm.trans linear), State.select_linear (by exact halg.symm.trans linear)]
    rfl
  · exact SameCursors.offerGroup s h (by rw [← halg, linear]; decide) sts
  · rw [State.select_longestIdle (halg.symm.trans longest), State.candidates, closed]
    rfl
  · obtain ⟨before, i, behind, e, first, greater, least⟩ :=
      firstGreatest_split s.idleAge (l := s.candidates c (s.groupCfg g).members) (by simpa [State.candidates] using eligible)
    refine ⟨before, i, behind, e, ?_, greater, least⟩
    rw [State.select_longestIdle (halg.symm.trans longest), first]
    rfl
  · exact State.select_simultaneous (halg.symm.trans simultaneous)
  · rw [State.select_circular (halg.symm.trans circular), start]
    rfl
  · intro before m after list cursor fresh
    rw [State.select_circular (halg.symm.trans circular), cursor, list, circularWalk_from fresh]

end Sys2Proof.Machine
end

