-- ==== Sys2Proof/Proofs/NextMembers.lean ====
section
/-! SUPPORT. An unanswered call is offered to a member not yet tried (R53, R54). -/

namespace Sys2Proof.Machine

/-- A selection yields no station that the call has tried (R46, R47). -/
theorem State.select_untried {s : State} {g : GroupId} {c : Call} : ∀ i ∈ s.select g c, i ∉ c.tried := by
  have candidate : ∀ ms, ∀ i ∈ s.candidates c ms, i ∉ c.tried := by
    intro ms i hi
    obtain ⟨m, hm, rfl⟩ := List.mem_map.1 hi
    have eligible := (List.mem_filter.1 hm).2
    simp only [State.available, Bool.and_eq_true, Bool.not_eq_true', List.contains_eq_mem, decide_eq_false_iff_not] at eligible
    exact eligible.2
  intro i hi
  cases ha : (s.groupCfg g).algorithm <;> unfold State.select at hi <;> rw [ha] at hi
  case linear => exact candidate _ i (List.mem_of_mem_take hi)
  case circular => exact candidate _ i (List.mem_of_mem_take hi)
  case longestIdle => exact candidate _ i (State.firstGreatest_mem (Option.mem_toList.1 hi))
  case simultaneous => exact candidate _ i hi

section
variable {s : State} {h : Handle} {c : Call} {g : GroupId} {sts : List StationId}

/-- An unanswered call with a member left to try is offered to the members selected, and the stations that rang have their
availability events (R54 step 2). -/
theorem ringExpired_offers (hc : s.findCall h = some c) (hk : c.offerKind = some .group) (hg : c.currentGroup = some g)
    (ha : (s.groupCfg g).algorithm ≠ .simultaneous) (hs : sts = (s.stopRings h).select g c.unrung) (hne : sts ≠ []) :
    s.ringExpired h = ((s.stopRings h).offerGroup h g sts).availAll (c.offered.map Offer.station) := by
  obtain rfl := State.findCall_handle hc
  obtain ⟨⟨stays, -⟩, -, ⟨found, -⟩, -⟩ := stopRings_effect hc
  change _ = some c.unrung at found
  have cfg : (s.stopRings c.handle).groupCfg g = s.groupCfg g := by rw [stays]; rfl
  unfold State.ringExpired
  rw [ringingFor_of hc, ringEnded_group found hk hg, cfg, ← hs, if_neg (by simp [ha, hne])]

theorem OnlyCalls.then_hunting {s t u : State} (o : OnlyCalls s t) (k : OnlyHunting t u) : OnlyHunting s u := by
  obtain ⟨o1, o2⟩ := o
  obtain ⟨k1, k2⟩ := k
  exact ⟨by rw [k1, o1], by rw [k2, o2]⟩

/-- A call whose rings stop is offered again: its record, its stations, its group, and nothing else (R53, R54). -/
theorem reoffer_effect {u : State} (hc : s.findCall h = some c) (ho : c.state = .offering)
    (hs : sts = (s.stopRings h).select g c.unrung) (htried : ∀ x ∈ c.offered, x.station ∈ c.tried)
    (hu : u = (s.stopRings h).offerGroup h g sts) :
    OnlyHunting s u ∧ u.link.callOrders = s.link.callOrders ∧
      CallBecomes s u c (c.offeredAt g sts (c.tried ++ sts) s.now (seconds (s.groupCfg g).noAnswer)) ∧
      (∀ i ∈ sts, (u.station i).state = .ringing h) ∧ (∀ x ∈ c.offered, (u.station x.station).state = .idle) ∧
      (∀ i, i ∉ sts → i ∉ c.offered.map Offer.station → u.station i = s.station i) ∧
      (∀ i, (u.station i).idleSince = (s.station i).idleSince ∧ (u.station i).saturated = (s.station i).saturated) ∧
      (∀ k, k ≠ g → u.group k = s.group k) ∧
      u.group g = { s.group g with
        cursor := if (s.groupCfg g).algorithm = .circular ∧ sts ≠ [] then sts.head? else (s.group g).cursor } := by
  obtain rfl := State.findCall_handle hc
  obtain ⟨stopped, orders, ⟨found, others⟩, idle, quiet, since⟩ := stopRings_effect hc
  have untried : ∀ x ∈ c.offered, x.station ∉ sts := fun x hx hm =>
    State.select_untried (c := c.unrung) _ (hs ▸ hm) (htried x hx)
  have unqueued : c.unrung.state ≠ .queued := by simp [Call.unrung, ho]
  obtain ⟨offered, orders', ⟨found', others'⟩, ⟨rung, quiet', since'⟩, elsewhere, there⟩ :=
    offerGroup_effect (c := c.unrung) found rfl (.inl unqueued) hu
  have now : (s.stopRings c.handle).now = s.now := by rw [stopped.1]
  have cfg : (s.stopRings c.handle).groupCfg g = s.groupCfg g := by rw [stopped.1]; rfl
  have group : ∀ k, (s.stopRings c.handle).group k = s.group k := fun k => by rw [stopped.1]; rfl
  rw [if_neg unqueued, now, cfg] at found'
  rw [if_neg unqueued, cfg, group] at there
  refine ⟨stopped.then_hunting offered, orders'.trans orders, ⟨found', fun k hk => (others' k hk).trans (others k hk)⟩, rung,
    fun x hx => ?_, fun i hi hn => (quiet' i hi).trans (quiet i hn),
    fun i => ⟨(since' i).1.trans (since i).1, (since' i).2.trans (since i).2⟩, fun k hk => (elsewhere k hk).trans (group k), there⟩
  rw [quiet' _ (untried x hx)]
  exact idle _ (List.mem_map_of_mem hx)

end

/-- Settles O29, by the stop of the rings and the offer after it. -/
theorem noAnswerOffersTheNextMember : Obligations.NoAnswerOffersTheNextMember := by
  rintro s h c g s1 sts ⟨run, held⟩ hc ho hk hg hd ha htried rfl hsts hne
  change sts = (s.stopRings h).select g c.unrung at hsts
  have happens : exec (.noAnswerExpiry h) s = .next (s.ringExpired h).finish :=
    event_happens (e := fun s => s.ringExpired h) run (ringDue_of hc hk hd)
  rw [ringExpired_offers hc hk hg ha hsts hne] at happens
  refine ⟨happens, fun hw => ?_⟩
  obtain ⟨only, orders, ⟨found, others⟩, rung, idle, quiet, since, elsewhere, there⟩ := reoffer_effect hc ho hsts htried rfl
  rw [State.findCall_handle hc] at found others
  generalize (s.stopRings h).offerGroup h g sts = u at happens only orders found others rung idle quiet since elsewhere there
  have calm : NoCallWaits u := fun k => by
    by_cases e : k = g
    · rw [e, there]
      exact hw g
    · rw [elsewhere k e]
      exact hw k
  rw [availAll_none calm, finish_none _ (by rw [only.1]; exact held)] at happens
  refine ⟨u, happens, only, orders, ?_, others, rung, idle, quiet, since, elsewhere, ?_⟩
  · rw [found, Call.offeredAt, ← ho, ← hg, ← hk]
  · rw [there]
    by_cases circular : (s.groupCfg g).algorithm = .circular
    · rw [if_pos ⟨circular, hne⟩, if_pos circular]
    · rw [if_neg fun e => circular e.1, if_neg circular]

end Sys2Proof.Machine
end

