-- ==== Sys2Proof/Proofs/GroupEdits.lean ====
section
/-! SUPPORT. SET_GROUP: its ranges, its writes, and what its live effects leave (R42, R64, R72, R73, R86, R182). -/

namespace Sys2Proof.Machine

/-! ## Ranges by their codes (R64, R73, R86, R166) -/

theorem zeroOr_some {lo hi v w : Nat} (h : zeroOr lo hi v = some w) : w = v := by
  unfold zeroOr at h
  split at h
  · exact (Option.some.inj h).symm
  · cases h

theorem zeroOr_none_iff {lo hi v : Nat} : zeroOr lo hi v = none ↔ v ≠ 0 ∧ (v < lo ∨ hi < v) := by
  unfold zeroOr
  split <;> simp <;> omega

theorem algorithmOf_eq (v : Nat) : algorithmOf v = [Algorithm.linear, .circular, .longestIdle, .simultaneous][v]? := by
  obtain _ | _ | _ | _ | v := v <;> rfl

theorem algorithmOf_none_iff {v : Nat} : algorithmOf v = none ↔ 3 < v := by
  rw [algorithmOf_eq, List.getElem?_eq_none_iff]
  exact Iff.rfl

theorem targetOf_none_iff {code v : Nat} : targetOf code v = none ↔ 3 < code ∨ (code = 1 ∧ 31 < v) ∨ (code = 2 ∧ 511 < v) := by
  obtain _ | _ | _ | _ | code := code <;> simp [targetOf, finOf_none_iff, Nat.succ_le_iff]

section
variable {α β γ : Type} {f : α → Option β} {l : List α} {ys : List β}

theorem allOf_none_iff : allOf f l = none ↔ ∃ x ∈ l, f x = none := by
  induction l with
  | nil => simp [allOf]
  | cons x l ih =>
    rw [List.exists_mem_cons_iff, ← ih, allOf]
    cases f x <;> cases allOf f l <;> simp

/-- The values of a list in range, seen through a view `g` that their codes `c` agree with. -/
theorem allOf_view {c : α → γ} {g : β → γ} (hf : ∀ v w, f v = some w → g w = c v) (h : allOf f l = some ys) :
    ys.map g = l.map c := by
  induction l generalizing ys with
  | nil => rw [← Option.some.inj h]; rfl
  | cons x l ih =>
    rw [allOf] at h
    split at h
    · rename_i y zs hy hzs
      rw [← Option.some.inj h, List.map_cons, List.map_cons, hf x y hy, ih hzs]
    · cases h

theorem allOf_length (h : allOf f l = some ys) : ys.length = l.length := by
  simpa using congrArg List.length (allOf_view (c := fun _ => ()) (g := fun _ => ()) (fun _ _ _ => rfl) h)

end

theorem escZonesOf_iff {q : Nat × List Nat} {m : MapSetId} {zs : List ZoneId} :
    escZonesOf q = some (m, zs) ↔ finOf 4 q.1 = some m ∧ allOf (finOf 32) q.2 = some zs ∧ zs.length ≤ 4 := by
  simp only [escZonesOf, Option.bind_eq_bind, Option.bind_eq_some_iff, Option.ite_none_right_eq_some]
  constructor
  · rintro ⟨_, hm, _, hz, hl, e⟩
    cases e
    exact ⟨hm, hz, hl⟩
  · rintro ⟨hm, hz, hl⟩
    exact ⟨m, hm, zs, hz, hl, rfl⟩

theorem escZonesOf_none_iff {m : Nat} {zs : List Nat} : escZonesOf (m, zs) = none ↔ 3 < m ∨ 4 < zs.length ∨ ∃ z ∈ zs, 31 < z := by
  have map : finOf 4 m = none ↔ 3 < m := finOf_none_iff
  have zones : allOf (finOf 32) zs = none ↔ ∃ z ∈ zs, 31 < z :=
    allOf_none_iff.trans (exists_congr fun z => and_congr_right fun _ => finOf_none_iff)
  rw [← map, ← zones, Option.eq_none_iff_forall_ne_some]
  constructor
  · intro refused
    by_contra good
    push Not at good
    obtain ⟨hm, hl, hz⟩ := good
    obtain ⟨k, hk⟩ := Option.ne_none_iff_exists'.1 hm
    obtain ⟨ys, hys⟩ := Option.ne_none_iff_exists'.1 hz
    exact refused _ (escZonesOf_iff.2 ⟨hk, hys, by rw [allOf_length hys]; exact hl⟩)
  · rintro bad ⟨k, ys⟩ e
    obtain ⟨hk, hys, hl⟩ := escZonesOf_iff.1 e
    rw [allOf_length hys] at hl
    simp only [hk, hys, reduceCtorEq, false_or, or_false] at bad
    exact absurd bad (not_lt.2 hl)

/-! ## The fields of SET_GROUP (R42) -/

theorem RawGroup.fields_iff (q : RawGroup) (f : GroupFields) : q.fields = some f ↔
    presentOf flagOf q.enabled = some f.enabled ∧ presentOf algorithmOf q.algorithm = some f.algorithm ∧
      presentOf (stepped 5 60 1) q.noAnswer = some f.noAnswer ∧ presentOf (stepped 0 24 1) q.queueLimit = some f.queueLimit ∧
      presentOf (zeroOr 10 900) q.maxWait = some f.maxWait ∧
      presentOf (fun t => targetOf t.1 t.2) q.target = some f.target ∧ presentOf (zeroOr 10 600) q.escDelay = some f.escDelay ∧
      presentOf escZonesOf q.escZones = some f.escZones ∧ presentOf (finOf 8) q.chime = some f.chime ∧
      presentOf (stepped 10 120 1) q.repeatInterval = some f.repeatInterval ∧ q.mask < 1024 := by
  simp only [RawGroup.fields, Option.bind_eq_bind, Option.bind_eq_some_iff, Option.ite_none_right_eq_some]
  constructor
  · rintro ⟨_, h0, _, h1, _, h2, _, h3, _, h4, _, h5, _, h6, _, h7, _, h8, _, h9, hm, e⟩
    cases e
    exact ⟨h0, h1, h2, h3, h4, h5, h6, h7, h8, h9, hm⟩
  · rintro ⟨h0, h1, h2, h3, h4, h5, h6, h7, h8, h9, hm⟩
    exact ⟨_, h0, _, h1, _, h2, _, h3, _, h4, _, h5, _, h6, _, h7, _, h8, _, h9, hm, rfl⟩

theorem RawGroup.fields_none_iff (q : RawGroup) : q.fields = none ↔
    ¬ q.mask < 1024 ∨ presentOf flagOf q.enabled = none ∨ presentOf algorithmOf q.algorithm = none ∨
      presentOf (stepped 5 60 1) q.noAnswer = none ∨ presentOf (stepped 0 24 1) q.queueLimit = none ∨
      presentOf (zeroOr 10 900) q.maxWait = none ∨ presentOf (fun t => targetOf t.1 t.2) q.target = none ∨
      presentOf (zeroOr 10 600) q.escDelay = none ∨ presentOf escZonesOf q.escZones = none ∨
      presentOf (finOf 8) q.chime = none ∨ presentOf (stepped 10 120 1) q.repeatInterval = none := by
  rw [or_comm (a := ¬ q.mask < 1024)]
  simp only [or_assoc]
  unfold RawGroup.fields
  iterate 10 refine bind_eq_none_or fun _ => ?_
  simp

/-- The ranges of SET_GROUP. -/
theorem group_outOfRange (q : RawGroup) : q.fields = none ↔
    1024 ≤ q.mask ∨ (∃ v, q.enabled = some v ∧ 1 < v) ∨ (∃ v, q.algorithm = some v ∧ 3 < v) ∨
      (∃ v, q.noAnswer = some v ∧ (v < 5 ∨ 60 < v)) ∨ (∃ v, q.queueLimit = some v ∧ 24 < v) ∨
      (∃ v, q.maxWait = some v ∧ v ≠ 0 ∧ (v < 10 ∨ 900 < v)) ∨
      (∃ code v, q.target = some (code, v) ∧ (3 < code ∨ (code = 1 ∧ 31 < v) ∨ (code = 2 ∧ 511 < v))) ∨
      (∃ v, q.escDelay = some v ∧ v ≠ 0 ∧ (v < 10 ∨ 600 < v)) ∨
      (∃ m zs, q.escZones = some (m, zs) ∧ (3 < m ∨ 4 < zs.length ∨ ∃ z ∈ zs, 31 < z)) ∨
      (∃ v, q.chime = some v ∧ 7 < v) ∨ ∃ v, q.repeatInterval = some v ∧ (v < 10 ∨ 120 < v) := by
  rw [RawGroup.fields_none_iff]
  simp only [presentOf_none_iff, flagOf_none_iff, algorithmOf_none_iff, stepped_none_iff, zeroOr_none_iff, targetOf_none_iff,
    finOf_none_iff, Prod.exists, escZonesOf_none_iff, Nat.mod_one, ne_eq, not_true_eq_false, or_false, not_lt, Nat.not_lt_zero,
    false_or, Nat.succ_le_iff]

/-! ## The record after the write -/

section
variable {α β γ δ : Type} {f : α → Option β} {x : Option α} {y : Option β}

/-- A part of the record after the write, seen through a view: that of the present field, or what stood there. -/
theorem presentOf_part {part : β → δ} {view : δ → γ} {code : α → γ} (hf : ∀ v w, f v = some w → view (part w) = code v)
    (h : presentOf f x = some y) (k : δ) : view ((y.map part).getD k) = (x.map code).getD (view k) := by
  rw [← presentOf_view (g := fun w => view (part w)) hf h]
  cases y <;> rfl

theorem presentOf_absent (h : presentOf f x = some y) (hx : x = none) (k : β) : y.getD k = k := by
  subst hx
  rw [← Option.some.inj h]
  rfl

/-- What a present field in range leaves in the record. -/
theorem presentOf_present {v : α} (h : presentOf f x = some y) (hx : x = some v) (k : β) : f v = some (y.getD k) := by
  obtain ⟨rfl, -⟩ | ⟨v', w, rfl, hw, rfl⟩ := presentOf_some_iff.1 h
  · cases hx
  · rw [← Option.some.inj hx, hw]
    rfl

end

theorem group_writes {q : RawGroup} {f : GroupFields} (hf : q.fields = some f) {k w : GroupCfg} (hw : w = f.write k) :
    w.members = k.members ∧ w.enabled = (q.enabled.map fun v => decide (v = 1)).getD k.enabled ∧
      w.noAnswer = q.noAnswer.getD k.noAnswer ∧ w.queueLimit = q.queueLimit.getD k.queueLimit ∧
      w.maxWait = q.maxWait.getD k.maxWait ∧ w.escDelay = q.escDelay.getD k.escDelay ∧
      w.chime.val = q.chime.getD k.chime.val ∧ w.repeatInterval = q.repeatInterval.getD k.repeatInterval ∧
      w.escMapSet.val = (q.escZones.map Prod.fst).getD k.escMapSet.val ∧
      w.escZones.map Fin.val = (q.escZones.map Prod.snd).getD (k.escZones.map Fin.val) ∧
      (q.algorithm = none → w.algorithm = k.algorithm) ∧
      (∀ v, q.algorithm = some v → [.linear, .circular, .longestIdle, .simultaneous][v]? = some w.algorithm) ∧
      (q.target = none → w.target = k.target) ∧
      ∀ code v, q.target = some (code, v) →
        (code = 0 → w.target = .nowhere) ∧ (∀ g : GroupId, code = 1 → g.val = v → w.target = .group g) ∧
        (∀ i : StationId, code = 2 → i.val = v → w.target = .station i) ∧ (code = 3 → w.target = .attendant) := by
  subst hw
  obtain ⟨enabled, algorithm, noAnswer, limit, wait, target, delay, zones, chime, interval, -⟩ := (RawGroup.fields_iff q f).1 hf
  have zoneCodes : ∀ v w, escZonesOf v = some w → w.1.val = v.1 ∧ w.2.map Fin.val = v.2 := by
    rintro v ⟨m, zs⟩ e
    obtain ⟨hm, hz, -⟩ := escZonesOf_iff.1 e
    exact ⟨finOf_eq_some_iff.1 hm, (allOf_view (c := id) (fun _ _ h => finOf_eq_some_iff.1 h) hz).trans (List.map_id _)⟩
  refine ⟨rfl, flag_write enabled _, presentOf_code (g := id) (fun _ _ h => stepped_some h) noAnswer _,
    presentOf_code (g := id) (fun _ _ h => stepped_some h) limit _, presentOf_code (g := id) (fun _ _ h => zeroOr_some h) wait _,
    presentOf_code (g := id) (fun _ _ h => zeroOr_some h) delay _, presentOf_code (fun _ _ h => finOf_eq_some_iff.1 h) chime _,
    presentOf_code (g := id) (fun _ _ h => stepped_some h) interval _,
    presentOf_part (view := Fin.val) (fun v w h => (zoneCodes v w h).1) zones _,
    presentOf_part (view := List.map Fin.val) (fun v w h => (zoneCodes v w h).2) zones _,
    fun h => presentOf_absent algorithm h _, fun v h => ?_, fun h => presentOf_absent target h _, fun code v h => ?_⟩
  · rw [← algorithmOf_eq]
    exact presentOf_present algorithm h _
  · have named : targetOf code v = some (f.target.getD k.target) := presentOf_present target h _
    refine ⟨?_, ?_, ?_, ?_⟩
    · rintro rfl
      exact (Option.some.inj named).symm
    · rintro g rfl rfl
      rw [targetOf, finOf_val] at named
      exact (Option.some.inj named).symm
    · rintro i rfl rfl
      rw [targetOf, finOf_val] at named
      exact (Option.some.inj named).symm
    · rintro rfl
      exact (Option.some.inj named).symm

/-! ## SET_GROUP (R182) -/

/-- The fields written into every group of the mask. -/
def State.writeGroups (s : State) (mask : Nat) (f : GroupFields) : State :=
  s.updCfg fun c => { c with groups := c.groups.mapFinIdx fun i x _ => if mask.testBit i then f.write x else x }

theorem writeGroups_groupCfg (s : State) (mask : Nat) (f : GroupFields) (g : GroupId) :
    (s.writeGroups mask f).groupCfg g = if mask.testBit g.val then f.write (s.groupCfg g) else s.groupCfg g := by
  simp [State.writeGroups, State.updCfg, State.groupCfg]

/-- The live effects of an accepted SET_GROUP are the engines' doing. -/
theorem acceptSetGroup_quiet (s : State) (mask : Nat) (f : GroupFields) :
    Quiet (s.writeGroups mask f) (acceptSetGroup s mask f).flush :=
  (Quiet.foldl (fun _ q => q.live f _ _) _ (.refl _)).flush

/-- Without a disabling, a queue limit and an escalation delay an edit has no live effect. -/
theorem acceptSetGroup_plain {f : GroupFields} (he : f.enabled ≠ some false) (hl : f.queueLimit = none) (hd : f.escDelay = none)
    (s : State) (mask : Nat) : acceptSetGroup s mask f = s.writeGroups mask f := by
  have still : ∀ b (t : State) g, f.live b t g = t := fun b t g => by simp [GroupFields.live, he, hl, hd]
  exact List.foldl_fixed' (f := fun t g => f.live (s.groupCfg g).enabled t g) (fun g => still _ _ g) _

section
variable {s : State} {q : RawGroup} {body : List Octet} {tag : Octet} {rest : List Frame}

theorem handleSetGroup_eq (hq : q.Spells body) (hs : s.save = none) : handleSetGroup body s =
    orBadUnless s (decide (q.groups ≠ 0)) (orBadValue s q.fields fun f => accept (acceptSetGroup s q.groups f) []) :=
  (withBody_of ((readSetGroup_iff _ _).2 hq) s _).trans (unlessSaving_none hs _)

theorem setGroup_badValue (hq : q.Spells body) (hs : s.save = none) (h : q.groups = 0 ∨ q.fields = none) :
    Answers s rest (.setGroup tag body) ⟨0x33, tag, body⟩ .badValue [] := by
  refine dispatch_answered (row := .setGroup) rfl ?_
  rw [handleSetGroup_eq hq (by exact hs)]
  by_cases hg : q.groups = 0
  · rw [decide_eq_false (by simp [hg])]
    rfl
  · rw [decide_eq_true hg, h.resolve_left hg]
    rfl

theorem setGroup_accepted {f : GroupFields} (hq : q.Spells body) (hs : s.save = none) (hg : q.groups ≠ 0) (hf : q.fields = some f)
    (ready : Ready s ⟨0x33, tag, body⟩ rest) :
    exec (.setGroup tag body) s =
      .next ((acceptSetGroup (s.takeHead rest) q.groups f).flush.answer ⟨0x33, tag, body⟩ .ok []) := by
  refine dispatch_flushed (row := .setGroup) rfl ?_ ready
  rw [handleSetGroup_eq hq (by exact hs), decide_eq_true hg, hf]
  rfl

end

/-- Settles O54, by the ranges and the writes, and what the live effects leave. -/
theorem groupEditsWriteTheirGroups : Obligations.GroupEditsWriteTheirGroups := by
  rintro s tag body rest _ q rfl hq hs
  refine ⟨setGroup_badValue hq hs, group_outOfRange q, fun f hg hf ready => ⟨?_, fun k w hw => group_writes hf hw⟩⟩
  have quiet := acceptSetGroup_quiet (s.takeHead rest) q.groups f
  refine ⟨_, (s.takeHead rest).writeGroups q.groups f, setGroup_accepted hq hs hg hf ready,
    writeGroups_groupCfg (s.takeHead rest) q.groups f, rfl, quiet.cfg, quiet.now, quiet.stored, quiet.save.trans hs,
    congrArg Link.rxBuffer quiet.link, fun he hl hd => ?_⟩
  rw [acceptSetGroup_plain he hl hd]
  exact flush_none _ ready.2.2

end Sys2Proof.Machine
end

