-- ==== Sys2Proof/Proofs/MemberEdits.lean ====
section
/-! SUPPORT. SET_MEMBERS: its checks in their order, its edits of the member list, and the ring it cancels (R45, R50, R55, R61 to R63). -/

namespace Sys2Proof.Machine

/-! ## The member list of one group -/

theorem updMembers_congr {s : State} {g : GroupId} {v w : List Member → List Member}
    (h : v (s.groupCfg g).members = w (s.groupCfg g).members) : s.updMembers g v = s.updMembers g w :=
  congrArg (fun ms => s.updCfg fun c => { c with groups := c.groups.set g.val { s.groupCfg g with members := ms } g.isLt }) h

theorem setLoggedIn_eq (i : StationId) (b : Bool) (ms : List Member) :
    setLoggedIn i b ms = ms.map fun m => if m.station = i then { m with loggedIn := b } else m :=
  List.map_congr_left fun m _ => by simp

theorem isLoggedIn_iff (s : State) (g : GroupId) (i : StationId) :
    isLoggedIn s g i = true ↔ ∃ m ∈ (s.groupCfg g).members, m.station = i ∧ m.loggedIn = true := by
  simp [isLoggedIn]

theorem isLoggedIn_false {s : State} {g : GroupId} {i : StationId}
    (h : ∀ m ∈ (s.groupCfg g).members, m.station = i → m.loggedIn = false) : isLoggedIn s g i = false := by
  rw [Bool.eq_false_iff]
  intro e
  obtain ⟨m, hm, hi, hl⟩ := (isLoggedIn_iff s g i).1 e
  simp [h m hm hi] at hl

/-- The limits of R44, each by its own count. -/
theorem membersFull_iff (s : State) (g : GroupId) (i : StationId) : s.membersFull g i = true ↔
    32 ≤ (s.groupCfg g).members.length ∨
      4 ≤ (List.finRange 32).countP (fun k => decide (i ∈ (s.groupCfg k).members.map Member.station)) ∨
      512 ≤ ((List.finRange 32).map fun k => (s.groupCfg k).members.length).sum := by
  have lists : s.listsWith i = (List.finRange 32).countP fun k => decide (i ∈ (s.groupCfg k).members.map Member.station) :=
    List.countP_congr fun k _ => by rw [s.isMember_iff, decide_eq_true_iff]
  unfold State.membersFull
  rw [lists, Bool.or_eq_true, Bool.or_eq_true, decide_eq_true_iff, decide_eq_true_iff, decide_eq_true_iff, or_assoc]
  exact Iff.rfl

section
variable {before after : List Member} {m : Member} {i : StationId}

theorem filter_others (hm : m.station = i) (hb : i ∉ before.map Member.station) (ha : i ∉ after.map Member.station) :
    ((before ++ m :: after).filter fun x => !(x.station == i)) = before ++ after := by
  have stay : ∀ l : List Member, i ∉ l.map Member.station → (l.filter fun x => !(x.station == i)) = l := fun l hl =>
    List.filter_eq_self.2 fun x hx => by
      have : x.station ≠ i := fun e => hl (List.mem_map.2 ⟨x, hx, e⟩)
      simp [this]
  rw [List.filter_append, List.filter_cons_of_neg (by simp [hm]), stay _ hb, stay _ ha]

/-- The cursor passes to the member before the one removed, round to the last (R50). -/
theorem cursorAfter_split (hm : m.station = i) (hb : i ∉ before.map Member.station) (ha : i ∉ after.map Member.station)
    (cursor : Option StationId) : cursorAfter (before ++ m :: after) i cursor =
      if cursor = some i then (after ++ before).getLast?.map Member.station else cursor := by
  unfold cursorAfter
  dsimp only
  have last : (after ++ before).getLast? = before.getLast?.or after.getLast? := List.getLast?_append
  rw [takeWhile_others hm hb, filter_others hm hb ha, last]
  cases hl : before.getLast? with
  | some x => rfl
  | none =>
    rw [List.getLast?_eq_none_iff.1 hl]
    rfl

theorem setLoggedIn_split (b : Bool) (hm : m.station = i) (hb : i ∉ before.map Member.station)
    (ha : i ∉ after.map Member.station) :
    setLoggedIn i b (before ++ m :: after) = before ++ { m with loggedIn := b } :: after := by
  have stay : ∀ l : List Member, i ∉ l.map Member.station →
      (l.map fun m => if m.station = i then { m with loggedIn := b } else m) = l := fun l hl =>
    (List.map_congr_left (g := id) fun x hx => if_neg fun e => hl (List.mem_map.2 ⟨x, hx, e⟩)).trans (List.map_id l)
  rw [setLoggedIn_eq, List.map_append, List.map_cons, stay _ hb, stay _ ha, if_pos hm]

end

/-! ## The ring that is cancelled (R55, R61, R62) -/

section
variable {s : State} {g : GroupId} {i : StationId} {h : Handle} {c : Call}

/-- A station that rings for no call of the group keeps its ring. -/
theorem cancelGroupRing_none (hr : ∀ h c, (s.station i).state = .ringing h → s.findCall h = some c → c.currentGroup ≠ some g) :
    s.cancelGroupRing g i = s := by
  unfold State.cancelGroupRing
  split
  · rename_i h e
    refine if_neg fun any => ?_
    obtain ⟨c, hc, hg⟩ := (Option.any_eq_true _ _).1 any
    exact hr h c e hc (of_decide_eq_true hg)
  · rfl

theorem cancelGroupRing_ring (hr : (s.station i).state = .ringing h) (hc : s.findCall h = some c) (hg : c.currentGroup = some g) :
    s.cancelGroupRing g i = s.leaveRing i h .idle := by
  unfold State.cancelGroupRing
  rw [hr]
  simp [hc, hg]

/-- A station that becomes IDLE leaves the ring of a call, the call rings on or proceeds, and the availability event follows. -/
theorem leaveRing_idle (hc : s.findCall h = some c) : s.leaveRing i h .idle =
    (if ∀ x ∈ c.offered, x.station = i then
      ((s.ringLeft i h .idle).updCall h fun c => { c with ringDeadline := none }).ringEnded h [i]
    else s.ringLeft i h .idle).availability i := by
  have same : (fun c : Call => { c with offered := c.offered.filter fun x => !(x.station == i) }) = fun c => c.withoutOffer i :=
    funext fun c => by simp [Call.withoutOffer, beq_eq_decide]
  have left : (s.ringLeft i h .idle).ringingFor h = [] ↔ ∀ x ∈ c.offered, x.station = i := by
    rw [ringingFor_of (ringLeft_findCall hc), List.map_eq_nil_iff, Call.withoutOffer, List.filter_eq_nil_iff]
    simp
  unfold State.leaveRing
  rw [same]
  exact congrArg (fun u : State => u.availability i) (if_congr left rfl rfl)

/-- The call that has lost its last ring, as it proceeds. -/
theorem ringLeft_unrung (hc : s.findCall h = some c) (ho : ∀ x ∈ c.offered, x.station = i) :
    ((s.ringLeft i h .idle).updCall h fun c => { c with ringDeadline := none }).findCall h = some c.unrung := by
  have emptied : (c.withoutOffer i).offered = [] := List.filter_eq_nil_iff.2 fun x hx => by simpa using ho x hx
  rw [State.findCall_updCall_self _ h _ (by exact fun _ => rfl), ringLeft_findCall hc]
  change some { c with offered := (c.withoutOffer i).offered, ringDeadline := none } = _
  rw [emptied]
  rfl

/-- Where the call rang at other stations too, it rings on. -/
theorem cancelGroupRing_ringsOn (hr : (s.station i).state = .ringing h) (hc : s.findCall h = some c) (hg : c.currentGroup = some g)
    (ho : ∃ x ∈ c.offered, x.station ≠ i) : s.cancelGroupRing g i = (s.ringLeft i h .idle).availability i := by
  rw [cancelGroupRing_ring hr hc hg, leaveRing_idle hc, if_neg]
  obtain ⟨x, hx, hne⟩ := ho
  exact fun all => hne (all x hx)

/-- Where it rang nowhere else, a group call is offered to a member selected or returns to its queue. -/
theorem cancelGroupRing_last {s1 s2 : State} (hr : (s.station i).state = .ringing h) (hc : s.findCall h = some c)
    (hg : c.currentGroup = some g) (ho : ∀ x ∈ c.offered, x.station = i) (hk : c.offerKind = some .group)
    (h1 : s1 = s.ringLeft i h .idle) (h2 : s2 = s1.updCall h fun c => { c with ringDeadline := none }) :
    s.cancelGroupRing g i =
      (if (s.groupCfg g).algorithm = .simultaneous ∨ s1.select g c = [] then s2.returnToQueue h g [i]
      else s2.offerGroup h g (s1.select g c)).availability i := by
  have found := ringLeft_unrung hc ho
  rw [← h1, ← h2] at found
  have cfg : s2.groupCfg g = s.groupCfg g := by
    rw [h2, h1, State.ringLeft]
    exact congrArg (fun k : WorkingConfig => k.groups[g]) (State.enterState_cfg _ i .idle)
  have selection : s2.select g c.unrung = s1.select g c := by rw [h2]; rfl
  rw [cancelGroupRing_ring hr hc hg, leaveRing_idle hc, if_pos ho, ← h1, ← h2, ringEnded_group found (by exact hk) (by exact hg), cfg,
    selection]

end

/-- Before its cancelled ring an edit has changed the records by `cut`, and neither stations nor algorithms. -/
structure CutTo (s t : State) (g : GroupId) (cut : Call → Call) : Prop where
  calls : t.calls = s.calls.map cut
  stations : t.stations = s.stations
  heldAvail : t.heldAvail = []
  algorithm : (t.groupCfg g).algorithm = (s.groupCfg g).algorithm
  same : ∀ c, (cut c).handle = c.handle ∧ (cut c).offered = c.offered ∧ (cut c).currentGroup = c.currentGroup ∧
    (cut c).offerKind = c.offerKind

/-- The ring of a member for a call of the group is cancelled: what follows, by what the call rang at (R55, R61, R62). -/
theorem CutTo.ring_cancelled {s t : State} {g : GroupId} {cut : Call → Call} (k : CutTo s t g cut) {i : StationId}
    {ends : State → Prop} (goes : ends (t.cancelGroupRing g i).flush) :
    ((∀ h c, (s.station i).state = .ringing h → s.findCall h = some c → c.currentGroup ≠ some g) → ends t) ∧
      ∀ h c s1 s2, (s.station i).state = .ringing h → s.findCall h = some c → c.currentGroup = some g →
        s1 = t.ringLeft i h .idle → s2 = (s1.updCall h fun x => { x with ringDeadline := none }) →
        ((∃ x ∈ c.offered, x.station ≠ i) → ends (s1.availability i).flush) ∧
        ((∀ x ∈ c.offered, x.station = i) → c.offerKind = some .group → ∀ sts, sts = s1.select g (cut c) →
          ((s.groupCfg g).algorithm ≠ .simultaneous → sts ≠ [] → ends ((s2.offerGroup h g sts).availability i).flush) ∧
          ((s.groupCfg g).algorithm = .simultaneous ∨ sts = [] → ends ((s2.returnToQueue h g [i]).availability i).flush)) := by
  obtain ⟨calls, stations, held, algorithm, same⟩ := k
  have station : t.station i = s.station i := by simp only [State.station, stations]
  have find : ∀ h, t.findCall h = (s.findCall h).map cut := fun h => by
    rw [← s.findCall_map fun c => (same c).1]
    simp only [State.findCall, calls]
  refine ⟨fun silent => ?_, fun h c s1 s2 hr hc hg h1 h2 => ?_⟩
  · rw [cancelGroupRing_none (s := t), flush_none t held] at goes
    · exact goes
    · intro h d hr hd
      rw [find] at hd
      obtain ⟨c, hc, rfl⟩ := Option.map_eq_some_iff.1 hd
      obtain ⟨-, -, current, -⟩ := same c
      rw [current]
      exact silent h c (station ▸ hr) hc
  · obtain ⟨-, offered, current, kind⟩ := same c
    rw [← station] at hr
    have found : t.findCall h = some (cut c) := by rw [find, hc]; rfl
    rw [← current] at hg
    refine ⟨fun ho => ?_, fun ho hk sts hsts => ⟨fun ha hne => ?_, fun hs => ?_⟩⟩
    · rw [cancelGroupRing_ringsOn hr found hg (by rw [offered]; exact ho), ← h1] at goes
      exact goes
    all_goals
      rw [cancelGroupRing_last hr found hg (by rw [offered]; exact ho) (by rw [kind]; exact hk) h1 h2, algorithm, ← hsts] at goes
    · rw [if_neg (by simp [ha, hne])] at goes
      exact goes
    · rw [if_pos hs] at goes
      exact goes

/-! ## REMOVE and LOGOUT before the ring (R61, R62) -/

section
variable {s : State} {g : GroupId} {i : StationId} {before after : List Member} {m : Member}

theorem acceptRemove_cancels {t : State} {cut : Call → Call} (hms : (s.groupCfg g).members = before ++ m :: after) (hm : m.station = i)
    (hb : i ∉ before.map Member.station) (ha : i ∉ after.map Member.station)
    (hcut : ∀ c, cut c = if c.currentGroup = some g ∧ (c.state = .queued ∨ c.state = .offering) then
      { c with tried := c.tried.filter fun k => decide (k ≠ i) } else c)
    (ht : t = ((({ s with calls := s.calls.map cut } : State).updGroup g fun x =>
      { x with cursor := if x.cursor = some i then (after ++ before).getLast?.map Member.station else x.cursor }).updMembers g
      fun _ => before ++ after)) : acceptRemove s g i = t.cancelGroupRing g i := by
  have untried : (fun c : Call => if c.currentGroup = some g ∧ (c.state = .queued ∨ c.state = .offering) then
      { c with tried := c.tried.filter fun k => !(k == i) } else c) = cut := funext fun c => by
    rw [hcut]
    simp [beq_eq_decide]
  have removed : (s.updGroup g fun x => { x with cursor := cursorAfter (s.groupCfg g).members i x.cursor }).updMembers g
        (fun ms => ms.filter fun m => !(m.station == i)) =
      (s.updGroup g fun x =>
        { x with cursor := if x.cursor = some i then (after ++ before).getLast?.map Member.station else x.cursor }).updMembers g
        fun _ => before ++ after := by
    rw [hms, funext fun x : Group => congrArg (fun k => ({ x with cursor := k } : Group)) (cursorAfter_split hm hb ha x.cursor)]
    exact updMembers_congr ((congrArg _ hms).trans (filter_others hm hb ha))
  unfold acceptRemove
  dsimp only
  rw [removed, State.untry, untried, ht]
  rfl

theorem acceptLogout_cancels {t : State} (hms : (s.groupCfg g).members = before ++ m :: after) (hm : m.station = i)
    (hb : i ∉ before.map Member.station) (ha : i ∉ after.map Member.station) (hl : m.loggedIn = true)
    (ht : t = s.updMembers g fun _ => before ++ { m with loggedIn := false } :: after) :
    acceptLogout s g i = t.cancelGroupRing g i := by
  have member : m ∈ (s.groupCfg g).members := by simp [hms]
  unfold acceptLogout
  rw [if_pos ((isLoggedIn_iff s g i).2 ⟨m, member, hm, hl⟩),
    updMembers_congr (w := fun _ => before ++ { m with loggedIn := false } :: after)
      ((congrArg _ hms).trans (setLoggedIn_split false hm hb ha)), ht]

end

/-! ## The request (R45, R171) -/

/-- The frame of a SET_MEMBERS. -/
def membersFrame (tag : Octet) (gv op v pos flag : Nat) : Frame :=
  ⟨0x34, tag, put1 gv ++ put1 op ++ put2 v ++ put1 pos ++ put1 flag⟩

section
variable {gv op v pos flag : Nat} {tag : Octet}

/-- The operation octet of a SET_MEMBERS decides its row (R45). -/
theorem setMembers_row (hop : op < 256) : (membersFrame tag gv op v pos flag).row =
    if op = 1 then .setMembersRemove else if op = 2 then .setMembersLogin else if op = 3 then .setMembersLogout
    else .setMembersAdd := by
  have e : ((membersFrame tag gv op v pos flag).body.getD 1 0).toNat = op := by
    simp [membersFrame, put1_eq, Nat.mod_eq_of_lt hop]
  change setMembersRow (membersFrame tag gv op v pos flag).body = _
  unfold setMembersRow
  rw [e]
  obtain _ | _ | _ | _ | op := op <;> simp

theorem setMembers_addRow (hop : op < 256) (h : op = 0 ∨ 3 < op) : (membersFrame tag gv op v pos flag).row = .setMembersAdd := by
  rw [setMembers_row hop, if_neg (by omega), if_neg (by omega), if_neg (by omega)]

/-- A REMOVE, LOGIN or LOGOUT is dispatched by its own row, with the checks of a member. -/
theorem memberRequest (hop : op < 256) (h1 : 1 ≤ op) (h3 : op ≤ 3) : ∃ effect, ∀ s,
    exec (membersFrame tag gv op v pos flag).request s = dispatch (membersFrame tag gv op v pos flag).row
      (membersFrame tag gv op v pos flag) (handleMember effect (membersFrame tag gv op v pos flag).body) s := by
  have row := setMembers_row (tag := tag) (gv := gv) (v := v) (pos := pos) (flag := flag) hop
  obtain rfl | rfl | rfl : op = 1 ∨ op = 2 ∨ op = 3 := by omega
  · exact ⟨acceptRemove, fun s => by rw [request_setMembersRemove row, row]; rfl⟩
  · exact ⟨acceptLogin, fun s => by rw [request_setMembersLogin row, row]; rfl⟩
  · exact ⟨acceptLogout, fun s => by rw [request_setMembersLogout row, row]; rfl⟩

theorem readSetMembers_frame (hgv : gv < 256) (hop : op < 256) (hv : v < 65536) (hpos : pos < 256) (hflag : flag < 256) :
    StateT.run readSetMembers (membersFrame tag gv op v pos flag).body = some ((gv, op, v, pos, flag), []) := by
  simp only [readSetMembers, run_bind_some readOctet_takes, run_bind_some readWide_takes, run_pure_some, membersFrame, List.append_assoc]
  exact ⟨gv, _, ⟨hgv, rfl⟩, op, _, ⟨hop, rfl⟩, v, _, ⟨hv, rfl⟩, pos, _, ⟨hpos, rfl⟩, flag, _,
    ⟨hflag, (List.append_nil _).symm⟩, rfl, rfl⟩

end

section
variable {body : List Octet} {gv op v pos flag : Nat} {effect : State → GroupId → StationId → State} {s : State}

theorem handleMember_eq (h : StateT.run readSetMembers body = some ((gv, op, v, pos, flag), [])) (hs : s.save = none) :
    handleMember effect body s = orBadValue s (finOf 32 gv) fun g => orBadValue s (finOf 512 v) fun i =>
      if s.isMember g i = true then accept (effect s g i) [] else refuse s .unknown :=
  (withBody_of h s _).trans (unlessSaving_none hs _)

theorem handleSetMembersAdd_eq (h : StateT.run readSetMembers body = some ((gv, op, v, pos, flag), [])) (hs : s.save = none) :
    handleSetMembersAdd body s = orBadValue s (finOf 32 gv) fun g => orBadValue s (finOf 512 v) fun i =>
      orBadValue s (flagOf flag) fun flag => orBadUnless s (decide (op = 0) && decide (pos ≤ (s.groupCfg g).members.length))
        (if s.isMember g i = true then refuse s .duplicate
        else if s.membersFull g i = true then refuse s .full
        else accept (acceptAdd s g i pos flag) []) :=
  (withBody_of h s _).trans (unlessSaving_none hs _)

/-- A group or a station out of range, in a REMOVE, LOGIN or LOGOUT. -/
theorem handleMember_badValue (h : StateT.run readSetMembers body = some ((gv, op, v, pos, flag), [])) (hs : s.save = none)
    (bad : 31 < gv ∨ 511 < v) : handleMember effect body s = refuse s .badValue := by
  rw [handleMember_eq h hs]
  cases hg : finOf 32 gv with
  | none => rfl
  | some g =>
    have range := finOf_eq_some_iff.1 hg
    have := g.isLt
    rw [orBadValue_some, finOf_none_iff.2 (by omega), orBadValue_none]

/-- A field of an ADD out of range (R45 check 1; log entry 24). -/
theorem handleSetMembersAdd_badValue (h : StateT.run readSetMembers body = some ((gv, op, v, pos, flag), [])) (hs : s.save = none)
    (bad : 31 < gv ∨ 511 < v ∨ 1 < flag ∨ op ≠ 0 ∨ ∃ g : GroupId, g.val = gv ∧ (s.groupCfg g).members.length < pos) :
    handleSetMembersAdd body s = refuse s .badValue := by
  rw [handleSetMembersAdd_eq h hs]
  cases hg : finOf 32 gv with
  | none => rfl
  | some g =>
    cases hi : finOf 512 v with
    | none => rfl
    | some i =>
      cases hf : flagOf flag with
      | none => rfl
      | some b =>
        have out : (decide (op = 0) && decide (pos ≤ (s.groupCfg g).members.length)) = false := by
          have hg := finOf_eq_some_iff.1 hg
          have hi := finOf_eq_some_iff.1 hi
          have hf : ¬ 1 < flag := fun e => by rw [flagOf_none_iff.2 e] at hf; cases hf
          have := g.isLt
          have := i.isLt
          obtain bad | bad | bad | bad | ⟨k, hk, bad⟩ := bad
          · omega
          · omega
          · exact absurd bad hf
          · rw [decide_eq_false bad, Bool.false_and]
          · rw [Fin.ext (hk.trans hg.symm)] at bad
            rw [decide_eq_false (not_le.2 bad), Bool.and_false]
        rw [orBadValue_some, orBadValue_some, orBadValue_some, out, orBadUnless_false]

section
variable {g : GroupId} {i : StationId}

theorem handleMember_checked (h : StateT.run readSetMembers body = some ((g.val, op, i.val, pos, flag), [])) (hs : s.save = none) :
    handleMember effect body s = if s.isMember g i = true then accept (effect s g i) [] else refuse s .unknown := by
  rw [handleMember_eq h hs, finOf_val, finOf_val, orBadValue_some, orBadValue_some]

theorem handleSetMembersAdd_checked (h : StateT.run readSetMembers body = some ((g.val, 0, i.val, pos, flag), [])) (hs : s.save = none)
    (hpos : pos ≤ (s.groupCfg g).members.length) (hflag : flag ≤ 1) : handleSetMembersAdd body s =
      if s.isMember g i = true then refuse s .duplicate
      else if s.membersFull g i = true then refuse s .full
      else accept (acceptAdd s g i pos (decide (flag = 1))) [] := by
  have code : flagOf flag = some (decide (flag = 1)) := by
    obtain _ | _ | flag := flag
    · rfl
    · rfl
    · omega
  rw [handleSetMembersAdd_eq h hs, finOf_val, finOf_val, orBadValue_some, orBadValue_some, code, orBadValue_some,
    decide_eq_true hpos, decide_eq_true rfl, Bool.and_true, orBadUnless_true]

end

end

/-! ## The answers (R45) -/

section
variable {s : State} {rest : List Frame} {tag : Octet} {gv op v pos flag : Nat}

/-- A group, a station or an operation out of range (R45 check 1). -/
theorem setMembers_badValue (hop : op < 256)
    (read : StateT.run readSetMembers (membersFrame tag gv op v pos flag).body = some ((gv, op, v, pos, flag), []))
    (hs : s.save = none) (bad : 31 < gv ∨ 511 < v ∨ 3 < op) :
    Answers s rest (membersFrame tag gv op v pos flag).request (membersFrame tag gv op v pos flag) .badValue [] := by
  by_cases member : 1 ≤ op ∧ op ≤ 3
  · obtain ⟨h1, h3⟩ := member
    obtain ⟨effect, served⟩ := memberRequest (tag := tag) (gv := gv) (v := v) (pos := pos) (flag := flag) hop h1 h3
    unfold Answers
    rw [served]
    exact dispatch_answered rfl (handleMember_badValue read (by exact hs) (by omega))
  · have row := setMembers_addRow (tag := tag) (gv := gv) (v := v) (pos := pos) (flag := flag) hop (by omega)
    rw [request_setMembersAdd row]
    exact dispatch_answered row (handleSetMembersAdd_badValue read (by exact hs) (by omega))

section
variable {g : GroupId} {i : StationId}

/-- A station that is no member (R45 check 4). -/
theorem member_unknown (hop : op < 256)
    (read : StateT.run readSetMembers (membersFrame tag g op i pos flag).body = some ((g.val, op, i.val, pos, flag), []))
    (hs : s.save = none) (h1 : 1 ≤ op) (h3 : op ≤ 3) (new : i ∉ (s.groupCfg g).members.map Member.station) :
    Answers s rest (membersFrame tag g op i pos flag).request (membersFrame tag g op i pos flag) .unknown [] := by
  obtain ⟨effect, served⟩ := memberRequest (tag := tag) (gv := g) (v := i) (pos := pos) (flag := flag) hop h1 h3
  unfold Answers
  rw [served]
  refine dispatch_answered rfl ((handleMember_checked read (by exact hs)).trans (if_neg ?_))
  rw [State.isMember_iff]
  exact new

/-- The edit of a member does what its operation says. -/
theorem member_accepted {cmd : Instr} {row : Row} {effect : State → GroupId → StationId → State}
    (hcmd : exec cmd s =
      dispatch row (membersFrame tag g op i pos flag) (handleMember effect (membersFrame tag g op i pos flag).body) s)
    (hrow : (membersFrame tag g op i pos flag).row = row)
    (read : StateT.run readSetMembers (membersFrame tag g op i pos flag).body = some ((g.val, op, i.val, pos, flag), []))
    (hs : s.save = none) (member : i ∈ (s.groupCfg g).members.map Member.station)
    (ready : Ready s (membersFrame tag g op i pos flag) rest) :
    exec cmd s = .next ((effect (s.takeHead rest) g i).flush.answer (membersFrame tag g op i pos flag) .ok []) := by
  rw [hcmd]
  refine dispatch_flushed hrow ((handleMember_checked read (by exact hs)).trans (if_pos ?_)) ready
  rw [State.isMember_iff]
  exact member

theorem add_refused {r : Result} (h : handleSetMembersAdd (membersFrame tag g 0 i pos flag).body (s.takeHead rest) =
      refuse (s.takeHead rest) r) :
    Answers s rest (.setMembersAdd tag (membersFrame tag g 0 i pos flag).body) (membersFrame tag g 0 i pos flag) r [] :=
  dispatch_answered (setMembers_addRow (by decide) (.inl rfl)) h

/-- An accepted ADD inserts the member; one logged in has its availability event, which gives it to no call while none waits. -/
theorem add_accepted {t : State} (h : handleSetMembersAdd (membersFrame tag g 0 i pos flag).body (s.takeHead rest) =
      accept (acceptAdd (s.takeHead rest) g i pos (decide (flag = 1))) []) (ready : Ready s (membersFrame tag g 0 i pos flag) rest)
    (ht : t = (s.takeHead rest).updMembers g fun ms => ms.take pos ++ { station := i, loggedIn := decide (flag = 1) } :: ms.drop pos) :
    (flag = 0 ∨ NoCallWaits s → exec (.setMembersAdd tag (membersFrame tag g 0 i pos flag).body) s =
      .next (t.answer (membersFrame tag g 0 i pos flag) .ok [])) ∧
    (flag = 1 → exec (.setMembersAdd tag (membersFrame tag g 0 i pos flag).body) s =
      .next ((t.availability i).flush.answer (membersFrame tag g 0 i pos flag) .ok [])) := by
  have added : exec (.setMembersAdd tag (membersFrame tag g 0 i pos flag).body) s =
      .next ((if decide (flag = 1) = true then t.availability i else t).flush.answer (membersFrame tag g 0 i pos flag) .ok []) := by
    rw [ht]
    exact dispatch_flushed (setMembers_addRow (by decide) (.inl rfl)) h ready
  obtain ⟨-, -, held⟩ := ready
  refine ⟨fun quiet => ?_, fun h1 => ?_⟩
  · have unmoved : (if decide (flag = 1) = true then t.availability i else t) = t := by
      split
      · rename_i h1
        have calm : NoCallWaits t := by
          rw [ht]
          exact quiet.resolve_left fun h0 => by simp [h0] at h1
        exact availability_none calm i
      · rfl
    rw [unmoved, flush_none t (by rw [ht]; exact held)] at added
    exact added
  · rw [if_pos (decide_eq_true h1)] at added
    exact added

/-- A LOGIN of a member logged in changes nothing; any other sets the flag, and the availability event follows (R63). -/
theorem login_accepted {t : State} (accepted : exec (.setMembersLogin tag (membersFrame tag g op i pos flag).body) s =
      .next ((acceptLogin (s.takeHead rest) g i).flush.answer (membersFrame tag g op i pos flag) .ok [])) (held : s.heldAvail = [])
    (ht : t = (s.takeHead rest).updMembers g (setLoggedIn i true)) :
    ((∃ m ∈ (s.groupCfg g).members, m.station = i ∧ m.loggedIn = true) →
      exec (.setMembersLogin tag (membersFrame tag g op i pos flag).body) s =
        .next ((s.takeHead rest).answer (membersFrame tag g op i pos flag) .ok [])) ∧
    ((∀ m ∈ (s.groupCfg g).members, m.station = i → m.loggedIn = false) →
      exec (.setMembersLogin tag (membersFrame tag g op i pos flag).body) s =
        .next ((t.availability i).flush.answer (membersFrame tag g op i pos flag) .ok []) ∧
      (NoCallWaits s → exec (.setMembersLogin tag (membersFrame tag g op i pos flag).body) s =
        .next (t.answer (membersFrame tag g op i pos flag) .ok []))) := by
  unfold acceptLogin at accepted
  rw [← ht] at accepted
  refine ⟨fun already => ?_, fun out => ?_⟩
  · rw [if_pos ((isLoggedIn_iff (s.takeHead rest) g i).2 already), flush_none (s.takeHead rest) held] at accepted
    exact accepted
  · rw [if_neg (by simp [isLoggedIn_false (s := s.takeHead rest) out])] at accepted
    refine ⟨accepted, fun calm => ?_⟩
    rw [availability_none (by rw [ht]; exact calm), flush_none t (by rw [ht]; exact held)] at accepted
    exact accepted

end

end

/-- Settles O56, check by check and operation by operation. -/
theorem memberEditsCheckedInOrder : Obligations.MemberEditsCheckedInOrder := by
  refine ⟨fun _ _ _ => rfl, setLoggedIn_eq, ?_⟩
  rintro s tag gv op v pos flag rest f _ hgv hop hv hpos hflag hs rfl hf
  obtain rfl : f = membersFrame tag gv op v pos flag := hf
  have read := readSetMembers_frame (tag := tag) hgv hop hv hpos hflag
  refine ⟨setMembers_badValue hop read hs, ?_⟩
  rintro g i ms rfl rfl rfl
  refine ⟨?add, fun h1 h3 new => member_unknown hop read hs h1 h3 new, fun member ready => ?_⟩
  case add =>
    rintro rfl
    refine ⟨fun bad => add_refused (handleSetMembersAdd_badValue read (by exact hs) ?_), fun hp hf => ⟨fun old => ?_,
      fun new => ⟨fun full => ?_, fun members lists entries ready t ht => ?_⟩⟩⟩
    · obtain below | bad := bad
      · exact .inr (.inr (.inr (.inr ⟨g, rfl, below⟩)))
      · exact .inr (.inr (.inl bad))
    all_goals
      have checked := handleSetMembersAdd_checked (s := s.takeHead rest) read hs hp hf
    · exact add_refused (checked.trans (if_pos ((State.isMember_iff _ g i).2 old)))
    all_goals
      rw [if_neg fun e => new ((State.isMember_iff (s.takeHead rest) g i).1 e)] at checked
    · exact add_refused (checked.trans (if_pos ((membersFull_iff _ g i).2 full)))
    · refine add_accepted (checked.trans (if_neg fun e => ?_)) ready ht
      obtain h | h | h := (membersFull_iff _ g i).1 e
      · exact absurd members (not_lt.2 h)
      · exact absurd lists (not_lt.2 h)
      · exact absurd entries (not_lt.2 h)
  have ⟨_, _, held⟩ := ready
  have logout : op = 3 → exec (.setMembersLogout tag (membersFrame tag g op i pos flag).body) s =
      .next ((acceptLogout (s.takeHead rest) g i).flush.answer (membersFrame tag g op i pos flag) .ok []) := by
    rintro rfl
    exact member_accepted (row := .setMembersLogout) rfl (setMembers_row hop) read hs member ready
  refine ⟨?login, fun h3 out => ?_, ?cancels⟩
  case login =>
    rintro rfl
    have accepted := member_accepted (cmd := .setMembersLogin tag _) (effect := acceptLogin) rfl (setMembers_row hop) read hs member ready
    exact ⟨(login_accepted accepted held rfl).1, fun out t ht => (login_accepted accepted held ht).2 out⟩
  · have done := logout h3
    rw [acceptLogout, if_neg (by simp [isLoggedIn_false (s := s.takeHead rest) out]), flush_none (s.takeHead rest) held] at done
    exact done
  case cancels =>
    intro cmd t cut before after m ends hms hm hb ha hcut cause hends
    have goes : exec cmd s = .next ((t.cancelGroupRing g i).flush.answer (membersFrame tag g op i pos flag) .ok []) := by
      obtain ⟨rfl, rfl, ht⟩ | ⟨h3, hl, rfl, ht⟩ := cause
      · rw [← acceptRemove_cancels (s := s.takeHead rest) hms hm hb ha (fun c => (hcut c).trans (by simp)) ht]
        exact member_accepted (row := .setMembersRemove) rfl (setMembers_row hop) read hs member ready
      · rw [← acceptLogout_cancels (s := s.takeHead rest) hms hm hb ha hl ht]
        exact logout h3
    have same : ∀ c, (cut c).handle = c.handle ∧ (cut c).offered = c.offered ∧ (cut c).currentGroup = c.currentGroup ∧
        (cut c).offerKind = c.offerKind := fun c => by
      rw [hcut]
      split <;> exact ⟨rfl, rfl, rfl, rfl⟩
    have changed : CutTo s t g cut := by
      obtain ⟨-, -, rfl⟩ | ⟨rfl, -, -, rfl⟩ := cause
      · refine ⟨rfl, rfl, held, ?_, same⟩
        rw [State.groupCfg_updMembers, if_pos rfl]
        rfl
      · have kept : cut = id := funext fun c => (hcut c).trans (if_neg (by simp))
        refine ⟨by rw [kept, List.map_id]; rfl, rfl, held, ?_, same⟩
        rw [State.groupCfg_updMembers, if_pos rfl]
        rfl
    exact changed.ring_cancelled ((hends _).2 goes)

end Sys2Proof.Machine
end

