-- ==== Sys2Proof/Proofs/Routing.lean ====
section
/-! SUPPORT. An overflow hop by hop: the call leaves its group, its destination, and what it meets there (R67, R68, R70, R71, R75 to R79, R81). -/

namespace Sys2Proof.Machine

/-! ## The call leaves its group (R70, R75) -/

section
variable {s : State} {h : Handle} {c : Call} {g : GroupId} {r : RouteReason}

theorem overflow_eq (hc : s.findCall h = some c) :
    s.overflow h g r = (s.overflowMove h g r).availAll (c.offered.map Offer.station) := by
  rw [State.overflow, ringingFor_of hc]

theorem overflowMove_unqueued (hc : s.findCall h = some c) (hq : c.state ≠ .queued) :
    s.overflowMove h g r = (s.stopRings h).route h g r := by
  rw [State.overflowMove, hc]
  exact if_neg hq

theorem overflowMove_queued (hc : s.findCall h = some c) (hq : c.state = .queued) :
    s.overflowMove h g r = ((s.leaveQueue h g).route h g r).reviewIf (s.atHead h g) g := by
  rw [State.overflowMove, hc]
  exact if_pos hq

theorem overflowMove_head (hc : s.findCall h = some c) (hq : c.state = .queued) (hh : (s.group g).queue.head? = some h) :
    s.overflowMove h g r = ((s.leaveQueue h g).route h g r).reviewQueue g := by
  rw [overflowMove_queued hc hq, State.atHead, decide_eq_true hh]
  rfl

theorem overflowMove_within (hc : s.findCall h = some c) (hq : c.state = .queued) (hh : (s.group g).queue.head? ≠ some h) :
    s.overflowMove h g r = (s.leaveQueue h g).route h g r := by
  rw [overflowMove_queued hc hq, State.atHead, decide_eq_false hh]
  rfl

/-- A group whose queue the call `h` has left. -/
def State.without (s : State) (h : Handle) (g : GroupId) : State :=
  s.updGroup g fun x => { x with queue := x.queue.filter fun k => decide (k ≠ h) }

theorem without_inEscalation (s : State) (h : Handle) (g : GroupId) : (s.without h g).inEscalation g = true ↔
    ∃ k ∈ (s.group g).queue, k ≠ h ∧ ∃ x, s.findCall k = some x ∧ x.escalated = true := by
  have queue : ((s.without h g).group g).queue = (s.group g).queue.filter fun k => decide (k ≠ h) := by
    rw [State.without, State.group_updGroup_self]
  rw [State.inEscalation_iff, queue]
  simp only [List.mem_filter, decide_eq_true_eq, and_assoc]
  rfl

/-- A call leaves its queue; escalation is cleared when it was the last escalated call there (R70). -/
theorem leaveQueue_eq (hc : s.findCall h = some c) : s.leaveQueue h g =
    if c.escalated = true ∧ (s.without h g).inEscalation g = false then (s.without h g).escalationClear g else s.without h g := by
  have same : (fun k => !(k == h)) = fun k => decide (k ≠ h) := funext fun k => by simp [beq_eq_decide]
  have left : (s.updGroup g fun x => { x with queue := x.queue.filter fun k => !(k == h) }) = s.without h g := by
    rw [same]
    rfl
  unfold State.leaveQueue
  rw [left, hc]
  simp

end

/-! ## One hop (R75) -/

/-- The delivery of a call that has left group `g`: where it goes, and for a GROUP destination the group it arrives at (R75 step 5). -/
def State.deliver (s : State) (h : Handle) (g : GroupId) : Target → State × Option GroupId
  | .nowhere => (s.endCall h .noRoute none, none)
  | .attendant => (s.toAttendant h, none)
  | .station t =>
    if s.freeForOffer t then (s.ringOne h t .target (seconds (s.groupCfg g).noAnswer), none)
    else (s.fallToAttendant h .targetBusy, none)
  | .group k =>
    (s.updCall h fun c => { c with currentGroup := some k, arrivalWait := some (s.groupCfg k).maxWait }, some k)

/-- What a hop of the call `c` from group `g` makes of its reason, its destination and its hop count (R75 steps 2 and 3). -/
structure HopFits (s : State) (g : GroupId) (c : Call) (r why : RouteReason) (dest : Target) (n : Nat) : Prop where
  within : c.hops ≤ 6
  looped : c.hops = 6 → dest = .attendant ∧ n = 6 ∧ why = .loop
  counted : c.hops < 6 → n = c.hops + 1 ∧ why = r ∧
    dest = if (s.groupCfg g).enabled = false ∧ (s.groupCfg g).target = .group g then .attendant else (s.groupCfg g).target

/-- The state after steps 1 to 4 of a hop: the call has left its group, and the ROUTED advisory is placed (R75). -/
def State.hopped (s : State) (h : Handle) (g : GroupId) (why : RouteReason) (dest : Target) (n : Nat) : State :=
  (s.updCall h fun x => x.leftGroup n).advise (.routed h (some g) why dest n)

section
variable {s : State} {h : Handle} {c : Call} {g k : GroupId} {r why : RouteReason} {dest : Target} {n : Nat}

theorem hop_eq (hc : s.findCall h = some c) (fits : HopFits s g c r why dest n) :
    s.hop h g r = (s.hopped h g why dest n).deliver h g dest := by
  obtain ⟨le, looped, counted⟩ := fits
  unfold State.hop
  rw [hc]
  rcases le.lt_or_eq with few | six
  · obtain ⟨rfl, rfl, hd⟩ := counted few
    have low : ¬ Config.hopLimit ≤ c.hops := Nat.not_le_of_lt few
    simp only [low, decide_false, Bool.false_eq_true, false_or, if_false]
    rw [← hd]
    cases dest <;> rfl
  · obtain ⟨rfl, rfl, rfl⟩ := looped six
    simp only [six]
    rfl

theorem hopped_findCall (hc : s.findCall h = some c) : (s.hopped h g why dest n).findCall h = some (c.leftGroup n) := by
  change (s.updCall h fun x => x.leftGroup n).findCall h = _
  rw [State.findCall_updCall_self s h _ (by exact fun _ => rfl), hc]
  rfl

theorem route_of_hop {t : State} (e : s.hop h g r = (t, none)) : s.route h g r = t := by
  rw [State.route, e]

theorem route_of_next {t : State} (e : s.hop h g r = (t, some k)) : s.route h g r = State.arrive State.arriveBound t h k := by
  rw [State.route, e]

theorem route_nowhere (hc : s.findCall h = some c) (ho : c.offered = []) (fits : HopFits s g c r why .nowhere n) :
    s.route h g r = ((s.hopped h g why .nowhere n).updCall h fun x => x.ended .noRoute none).updLink fun l =>
      { l with callOrders := l.callOrders ++ [h] } := by
  rw [route_of_hop (hop_eq hc fits), endCall_ringless (hopped_findCall hc) (by simp [Call.leftGroup]) ho]

/-- A call that rings nowhere and waits in no queue goes to the attendant. -/
theorem toAttendant_goesToAttendant (hc : s.findCall h = some c) (hq : c.state ≠ .queued) (ho : c.offered = []) :
    GoesToAttendant s h (s.toAttendant h) := by
  refine ⟨fun a ha => ?_, fun hn => ?_⟩
  · rw [State.toAttendant, ha]
    rfl
  · rw [State.toAttendant, hn, endCall_ringless hc hq ho]

theorem route_attendant (hc : s.findCall h = some c) (ho : c.offered = []) (fits : HopFits s g c r why .attendant n) :
    GoesToAttendant (s.hopped h g why .attendant n) h (s.route h g r) := by
  rw [route_of_hop (hop_eq hc fits)]
  exact toAttendant_goesToAttendant (hopped_findCall hc) (by simp [Call.leftGroup]) ho

theorem route_station {i : StationId} (hc : s.findCall h = some c) (fits : HopFits s g c r why (.station i) n)
    (hf : (s.hopped h g why (.station i) n).freeForOffer i = true) : s.route h g r =
      ((s.hopped h g why (.station i) n).updCall h fun x => x.atTarget i s.now (seconds (s.groupCfg g).noAnswer)).enterState i
        (.ringing h) := by
  refine route_of_hop ((hop_eq hc fits).trans ?_)
  rw [State.deliver, if_pos hf]
  rfl

theorem route_stationBusy {i : StationId} (hc : s.findCall h = some c) (ho : c.offered = [])
    (fits : HopFits s g c r why (.station i) n) (hf : (s.hopped h g why (.station i) n).freeForOffer i = false) :
    GoesToAttendant ((s.hopped h g why (.station i) n).advise (.routed h none .targetBusy .attendant n)) h (s.route h g r) := by
  have found := hopped_findCall (g := g) (why := why) (dest := .station i) (n := n) hc
  have falls : s.route h g r = ((s.hopped h g why (.station i) n).advise (.routed h none .targetBusy .attendant n)).toAttendant h := by
    refine route_of_hop ((hop_eq hc fits).trans ?_)
    rw [State.deliver, if_neg (by simp [hf]), State.fallToAttendant, found]
    rfl
  rw [falls]
  exact toAttendant_goesToAttendant (c := c.leftGroup n) found (by simp [Call.leftGroup]) ho

end

/-! ## A new arrival by a hop (R47, R67, R68, R76) -/

/-- The record of a call that arrives at group `k` by its `n`th hop. -/
def Call.arrivedBy (c : Call) (n : Nat) (k : GroupId) (wait : Nat) : Call :=
  { c.leftGroup n with currentGroup := some k, arrivalWait := some wait }

theorem queueAge_arrivedBy (s : State) (c : Call) (n : Nat) (k : GroupId) (wait : Nat) :
    s.queueAge (c.arrivedBy n k wait) = s.queueAge c := rfl

theorem arrivedBy_escalated (c : Call) (n : Nat) (k : GroupId) (wait : Nat) : (c.arrivedBy n k wait).escalated = false := rfl

section
variable {s s2 t : State} {h : Handle} {c : Call} {g k : GroupId} {r why : RouteReason} {n : Nat}

/-- A hop to a group: the call arrives there with the maximum wait of that moment. -/
theorem route_group (hc : s.findCall h = some c) (fits : HopFits s g c r why (.group k) n)
    (hs : s2 = (s.hopped h g why (.group k) n).updCall h fun y =>
      { y with currentGroup := some k, arrivalWait := some (s.groupCfg k).maxWait }) :
    s.route h g r = State.arrive State.arriveBound s2 h k ∧
      s2.findCall h = some (c.arrivedBy n k (s.groupCfg k).maxWait) := by
  refine ⟨?_, ?_⟩
  · rw [route_of_next (hop_eq hc fits), hs]
    rfl
  · rw [hs, State.findCall_updCall_self _ h _ (by exact fun _ => rfl), hopped_findCall hc]
    rfl

theorem arrive_offered (hc : s.findCall h = some c) (he : (s.groupCfg k).enabled = true) (hq : (s.group k).queue = [])
    (hs : s.select k c ≠ []) : State.arrive State.arriveBound s h k = s.offerGroup h k (s.select k c) := by
  rw [State.arriveBound, arrive_succ hc, arrivalAt_offered he hq hs]

theorem arrive_full (hc : s.findCall h = some c) (he : (s.groupCfg k).enabled = true)
    (hq : (s.group k).queue ≠ [] ∨ s.select k c = []) (hl : (s.groupCfg k).queueLimit ≤ (s.group k).queue.length) :
    State.arrive State.arriveBound s h k = s.route h k .queueFull := by
  refine arrive_overflow hc ?_
  rw [arrivalAt_tested he hq, State.entryTest, if_pos hl]

theorem arrive_waited (hc : s.findCall h = some c) (he : (s.groupCfg k).enabled = true)
    (hq : (s.group k).queue ≠ [] ∨ s.select k c = []) (hl : (s.group k).queue.length < (s.groupCfg k).queueLimit)
    (hw : s.waitReached c = true) : State.arrive State.arriveBound s h k = s.route h k .waitExpired := by
  refine arrive_overflow hc ?_
  rw [arrivalAt_tested he hq, State.entryTest, if_neg (by omega), if_pos hw]

theorem arrive_joins (hc : s.findCall h = some c) (he : (s.groupCfg k).enabled = true)
    (hq : (s.group k).queue ≠ [] ∨ s.select k c = []) (hl : (s.group k).queue.length < (s.groupCfg k).queueLimit)
    (hw : s.waitReached c = false) : State.arrive State.arriveBound s h k = s.enterQueue h k false [] := by
  rw [State.arriveBound, arrive_succ hc, arrivalAt_tested he hq, State.entryTest, if_neg (by omega), if_neg (by simp [hw])]

/-- The entry of a new arrival: the record, the tail of the list, and the start of an escalation. -/
theorem enterQueue_arrived {wait : Nat} {entry : Time} {flag : Bool} (hc : s.findCall h = some (c.arrivedBy n k wait))
    (hentry : entry = c.queueEntry.getD s.now)
    (hflag : flag = true ↔ (s.groupCfg k).escDelay ≠ 0 ∧ seconds (s.groupCfg k).escDelay ≤ s.queueAge c)
    (hw : wait = 0 ∨ s.queueAge c < seconds wait)
    (ht : t = ((s.updCall h fun y => y.queuedAt k [] entry (if wait = 0 then none else some (later entry (seconds wait)))
      (s.groupCfg k).escDelay flag).updGroup k fun y => { y with queue := y.queue ++ [h] })) :
    s.enterQueue h k false [] = if flag = true ∧ s.inEscalation k = false then t.escalationStart k else t := by
  obtain ⟨entry', flag', he, hf, t', ht', e⟩ := enterQueue_eq hc k false []
  have same : flag' = flag := by
    rw [queueAge_arrivedBy, arrivedBy_escalated] at hf
    rw [Bool.eq_iff_iff, hflag, hf]
    simp
  have deadline : s.waitOnEntry (c.arrivedBy n k wait) = if wait = 0 then none else some (later entry (seconds wait)) := by
    split
    · rename_i h0
      exact waitOnEntry_none s (by rw [h0]; rfl)
    · rename_i h0
      rw [hentry]
      exact waitOnEntry_fresh s (c := c.arrivedBy n k wait) rfl h0 (hw.resolve_left h0)
  have at_entry : entry' = entry := he.trans hentry.symm
  rw [deadline, same, at_entry] at ht'
  have base : t' = t := by rw [ht', ht]; rfl
  rw [e, same, base]
  simp

/-- The wait test of a new arrival asks its queue age (R68). -/
theorem waitReached_arrivedBy (s : State) (c : Call) (n : Nat) (k : GroupId) (wait : Nat) :
    s.waitReached (c.arrivedBy n k wait) = true ↔ wait ≠ 0 ∧ seconds wait ≤ s.queueAge c := by
  rw [waitReached_iff]
  exact ⟨fun ⟨m, hm, h0, hle⟩ => Option.some.inj hm ▸ ⟨h0, hle⟩, fun ⟨h0, hle⟩ => ⟨wait, rfl, h0, hle⟩⟩

end

/-- Settles O33, by the departure from the group, the hop, and what the call meets at its destination. -/
theorem overflowFollowsTheTarget : Obligations.OverflowFollowsTheTarget := by
  refine ⟨fun s h c g r hc => ⟨overflow_eq hc, overflowMove_unqueued hc,
    fun hq => ⟨overflowMove_within hc hq, overflowMove_head hc hq⟩, ?_⟩, ?_⟩
  · rintro s1 others rfl hothers
    change (_ → _ = s.without h g) ∧ (_ → _ → _ = (s.without h g).escalationClear g)
    rw [leaveQueue_eq hc, hothers, ← without_inEscalation, Bool.not_eq_true]
    refine ⟨fun stays => if_neg ?_, fun he hn => if_pos ⟨he, hn⟩⟩
    rintro ⟨he, hn⟩
    simp [he, hn] at stays
  · rintro s s1 h c g r why dest n hc ho hle h6 hlt rfl
    have fits : HopFits s g c r why dest n := ⟨hle, h6, hlt⟩
    refine ⟨?_, ?_, ?_, ?_⟩
    · rintro rfl
      exact route_nowhere hc ho fits
    · rintro rfl
      exact route_attendant hc ho fits
    · rintro i rfl
      exact ⟨route_station hc fits, route_stationBusy hc ho fits⟩
    · rintro k x s2 t sts entry flag rfl rfl hs2 hsts hentry hflag ht
      obtain rfl : sts = s2.select k (c.arrivedBy n k (s.groupCfg k).maxWait) := hsts
      obtain ⟨arrives, found⟩ := route_group hc fits hs2
      have cfg : s2.groupCfg k = s.groupCfg k := by rw [hs2]; rfl
      have group : s2.group k = s.group k := by rw [hs2]; rfl
      have age : s2.queueAge c = s.queueAge c := by rw [hs2]; rfl
      have reached := waitReached_arrivedBy s2 c n k (s.groupCfg k).maxWait
      rw [age] at reached
      rw [arrives]
      refine ⟨fun hd => arrive_overflow found (arrivalAt_disabled (by rw [cfg]; exact hd)),
        fun he hq hs => arrive_offered found (by rw [cfg]; exact he) (by rw [group]; exact hq) hs, fun he hq => ?_⟩
      replace he : (s2.groupCfg k).enabled = true := by rw [cfg]; exact he
      replace hq : (s2.group k).queue ≠ [] ∨ s2.select k (c.arrivedBy n k (s.groupCfg k).maxWait) = [] := by rw [group]; exact hq
      refine ⟨fun hl => arrive_full found he hq (by rw [cfg, group]; exact hl), fun hl => ⟨fun h0 hle => ?_, fun hw => ?_⟩⟩
      · exact arrive_waited found he hq (by rw [cfg, group]; exact hl) (reached.2 ⟨h0, hle⟩)
      · have below : s2.waitReached (c.arrivedBy n k (s.groupCfg k).maxWait) = false := by
          rw [Bool.eq_false_iff, Ne, reached]
          omega
        rw [arrive_joins found he hq (by rw [cfg, group]; exact hl) below]
        refine enterQueue_arrived found ?_ (by rw [cfg, age]; exact hflag) (by rw [age]; exact hw) (by rw [cfg]; exact ht)
        rw [hentry, hs2]
        rfl

/-! ## The wait deadline (R71) -/

section
variable {s : State} {h : Handle} {c : Call} {g : GroupId}

theorem waitDeadline_expires (run : s.power = .running) (hc : s.findCall h = some c) (hq : c.state = .queued ∨ c.state = .offering)
    (hd : c.waitDeadline = some s.now) : exec (.waitDeadlineExpiry h) s = .next (s.waitExpired h).finish :=
  event_happens (e := fun s => s.waitExpired h) run (by simp [hc, State.waitDueFor, hq, State.due, hd])

theorem waitExpired_ringing (hc : s.findCall h = some c) (hq : c.state = .offering) :
    s.waitExpired h = s.updCall h fun c => { c with waitDeadline := none, waitPassed := true } := by
  rw [State.waitExpired, hc]
  dsimp only
  rw [hq]

theorem waitExpired_queued (hc : s.findCall h = some c) (hq : c.state = .queued) (hg : c.currentGroup = some g) :
    s.waitExpired h = s.overflow h g .waitExpired := by
  rw [State.waitExpired, hc]
  dsimp only
  rw [hq, hg]

/-- A call that stands within a queue, not at its head, and is not escalated overflows from a group that overflows nowhere. -/
theorem overflow_nowhere {r : RouteReason} (hc : s.findCall h = some c) (hq : c.state = .queued) (he : c.escalated = false)
    (ho : c.offered = []) (hh : (s.group g).queue.head? ≠ some h) (ht : (s.groupCfg g).target = .nowhere) (hn : c.hops < 6) :
    s.overflow h g r = (((s.without h g).advise (.routed h (some g) r .nowhere (c.hops + 1))).updCall h fun x =>
      { x.ended .noRoute none with hops := c.hops + 1, arrivalWait := none }).updLink fun l =>
        { l with callOrders := l.callOrders ++ [h] } := by
  have left : s.leaveQueue h g = s.without h g := by
    rw [leaveQueue_eq hc]
    exact if_neg (by simp [he])
  have fits : HopFits (s.without h g) g c r r .nowhere (c.hops + 1) :=
    ⟨hn.le, fun six => by omega, fun _ => ⟨rfl, rfl, by rw [show (s.without h g).groupCfg g = s.groupCfg g from rfl, ht]; simp⟩⟩
  have record : ∀ x : Call, (x.leftGroup (c.hops + 1)).ended .noRoute none =
      { x.ended .noRoute none with hops := c.hops + 1, arrivalWait := none } := fun x => by
    simp [Call.leftGroup, Call.ended]
  rw [overflow_eq hc, ho, overflowMove_within hc hq hh, left, route_nowhere (by exact hc) ho fits, ← funext record]
  exact congrArg (fun u : State => (u.advise (.routed h (some g) r .nowhere (c.hops + 1))).updLink fun l =>
    { l with callOrders := l.callOrders ++ [h] }) (updCall_updCall (s.without h g) h _ _ (by exact fun _ => rfl))

end

/-- Settles O32, by the state of the call. -/
theorem waitDeadlineExpires : Obligations.WaitDeadlineExpires := by
  rintro s h c g ⟨run, held⟩ hc hd
  have expires := fun hq => waitDeadline_expires run hc hq hd
  refine ⟨fun hq => ?_, fun hq hg => ?_, fun hq hg he ho hh ht hn => ?_⟩
  · rw [expires (.inr hq), waitExpired_ringing hc hq, finish_none _ (by exact held)]
  · rw [expires (.inl hq), waitExpired_queued hc hq hg]
    rfl
  · rw [expires (.inl hq), waitExpired_queued hc hq hg, overflow_nowhere hc hq he ho hh ht hn, finish_none _ (by exact held)]
    rfl

end Sys2Proof.Machine
end

