-- ==== Sys2Proof/Proofs/RingEnds.lean ====
section
/-! SUPPORT. The ends of target rings, attendant rings and recalls while no call waits (R77 to R79, R104, R105). -/

namespace Sys2Proof.Machine

/-! ## Stations that stop ringing (R35, R54) -/

/-- Stations that enter one state after another keep all but their state. -/
theorem enterStates_station {α : Type} (at' : α → StationId) (st : StationId → StationState) (l : List α) (s : State) (i : StationId) :
    (l.foldl (fun s x => s.enterState (at' x) (st (at' x))) s).station i =
      if i ∈ l.map at' then { s.station i with state := st i } else s.station i := by
  induction l generalizing s with
  | nil => rfl
  | cons x l ih =>
    rw [List.foldl_cons, ih, State.enterState_station]
    by_cases e : i = at' x
    · subst e
      simp
    · simp [e]

section
variable {s : State} {h : Handle} {c : Call}

theorem stopRings_eq (hc : s.findCall h = some c) :
    s.stopRings h = ((c.offered.map Offer.station).foldl (fun v i => v.enterState i .idle) s).updCall h fun x =>
      { x with offered := [], ringDeadline := none } := by
  rw [State.stopRings, ringingFor_of hc]

theorem stopRings_station (hc : s.findCall h = some c) (i : StationId) : (s.stopRings h).station i =
    if i ∈ c.offered.map Offer.station then { s.station i with state := .idle } else s.station i := by
  have rung := enterStates_station id (fun _ => .idle) (c.offered.map Offer.station) s i
  rw [List.map_id] at rung
  rw [stopRings_eq hc]
  exact rung

/-- The stations of an unqueued call that ends, while no call waits. -/
theorem endCall_station (hc : s.findCall h = some c) (hq : c.state ≠ .queued) (hw : NoCallWaits s) (o : CallOutcome)
    (st : Option StationId) (i : StationId) : (s.endCall h o st).station i =
      if i ∈ c.offered.map Offer.station then { s.station i with state := if some i = st then .busy else .idle } else s.station i := by
  unfold State.endCall
  rw [hc]
  simp only [if_neg hq]
  generalize hs1 : ((s.updCall h fun c => { c with state := .ending, outcome := some o, outcomeStation := st }).updLink
    fun l => { l with callOrders := l.callOrders ++ [h] }) = s1
  have rung := enterStates_station Offer.station (fun i => if some i = st then StationState.busy else .idle) c.offered s1 i
  obtain ⟨⟨stays, -⟩, -⟩ := enterStates Offer.station (fun i => if some i = st then StationState.busy else .idle) c.offered s1
  generalize c.offered.foldl (fun s x => s.enterState x.station (if some x.station = st then .busy else .idle)) s1 = s2 at rung stays ⊢
  rw [availAll_none]
  · subst hs1
    exact rung
  · intro g
    rw [State.group, State.updCall_groups, stays, ← hs1]
    exact hw g

/-- A call whose ring has expired ends NO_ROUTE with the stations its stopped rings leave. -/
theorem endCall_endsNoRoute (hc : s.findCall h = some c) (hq : c.state ≠ .queued) (hw : NoCallWaits s) :
    EndsNoRoute (s.stopRings h) (s.endCall h .noRoute none) c := by
  obtain ⟨⟨stays, link⟩, orders, ⟨-, others⟩, -⟩ := stopRings_effect hc
  have stations := stopRings_station hc
  have ends := endCall_station hc hq hw .noRoute none
  obtain rfl := State.findCall_handle hc
  obtain ⟨⟨stays', link'⟩, ⟨found', others'⟩, -, orders'⟩ := endCall_unqueued hc hq hw .noRoute none
  refine ⟨⟨?_, ?_⟩, ⟨found', fun k hk => (others' k hk).trans (others k hk).symm⟩, fun i => ?_, ?_⟩
  · rw [stays', stays]
  · rw [link', link]
  · rw [ends, stations]
    simp
  · rw [orders', orders]

/-! ## What the call makes of it (R77, R78, R104, R105) -/

/-- A call that rings nowhere and stands in no queue ends NO_ROUTE; what its last ring left is cleared with it. -/
theorem unrung_endsNoRoute (hc : s.findCall c.handle = some c.unrung) : EndsNoRoute s
    ((s.updCall c.handle fun x => x.ended .noRoute none).updLink fun l => { l with callOrders := l.callOrders ++ [c.handle] }) c := by
  refine ⟨⟨rfl, rfl⟩, ⟨?_, fun k hk => ?_⟩, fun _ => rfl, rfl⟩
  · change (s.updCall c.handle _).findCall c.handle = _
    rw [State.findCall_updCall_self s _ _ (by exact fun _ => rfl), hc]
    rfl
  · exact State.findCall_updCall_ne s hk _ (by exact fun _ => rfl)

theorem stopRings_findCall (hc : s.findCall h = some c) : (s.stopRings h).findCall h = some c.unrung := by
  obtain ⟨-, -, ⟨found, -⟩, -⟩ := stopRings_effect hc
  obtain rfl := State.findCall_handle hc
  exact found

/-- An event of the running part that holds back no availability event. -/
theorem event_settled {t : State} {b : Bool} {e : State → State} (ready : Runs s) (hb : b = true) (he : e s = t)
    (ht : t.heldAvail = s.heldAvail) : event s b e = .next t.transmitTake := by
  rw [event_happens ready.1 hb, he, finish_none _ (ht.trans ready.2)]

/-- While no call waits, an expired ring ends as the call's kind of ring says, and the stations it leaves are given to no call. -/
theorem ringExpiry_settled {t : State} {k : OfferKind} (ready : Runs s) (hw : NoCallWaits s) (hc : s.findCall h = some c)
    (hk : c.offerKind = some k) (hd : c.ringDeadline = some s.now) (ht : ∀ left, (s.stopRings h).ringEnded h left = t)
    (hg : t.groups = (s.stopRings h).groups) (hh : t.heldAvail = (s.stopRings h).heldAvail) :
    event s (s.ringDue k h) (fun s => s.ringExpired h) = .next t.transmitTake := by
  obtain ⟨⟨stays, -⟩, -⟩ := stopRings_effect hc
  rw [stays] at hg hh
  refine event_settled ready (ringDue_of hc hk hd) ?_ hh
  rw [State.ringExpired, ht]
  refine availAll_none (fun g => ?_) _
  rw [State.group, hg]
  exact hw g

end

/-- Settles O31, by the stop of the rings and the call's kind of ring. -/
theorem ringsOutsideTheGroupsExpire : Obligations.RingsOutsideTheGroupsExpire := by
  refine ⟨fun s h c hc => stopRings_eq hc, ?_⟩
  rintro s h c s1 s2 ready hw hc hq hd hs1 hs2
  obtain ⟨⟨stays, -⟩, -, -, stations⟩ := stopRings_effect hc
  have found := stopRings_findCall hc
  have now : (s.stopRings h).now = s.now := by rw [stays]
  have gone := endCall_endsNoRoute hc hq hw
  obtain rfl := State.findCall_handle hc
  have expiry := fun {k} t hk => ringExpiry_settled (t := t) (k := k) ready hw hc hk hd
  rw [← hs1] at found now gone stations expiry
  refine ⟨fun hk => ⟨_, event_settled (e := fun s => s.endCall c.handle .noRoute none) ready (ringDue_of hc hk hd) rfl ?_, gone⟩,
    fun hk => ⟨fun ha => ?_, fun a ha => ?_⟩, fun hk => ⟨fun ha => ?_, fun a ha hp => ?_⟩, stations⟩
  · rw [(endCall_unqueued hc hq hw .noRoute none).1.1]
  · have ended : EndsNoRoute s2 _ c := unrung_endsNoRoute (by rw [hs2]; exact found)
    rw [hs2] at ended ⊢
    refine ⟨_, expiry _ hk (fun left => ringEnded_target found hk hq rfl ⟨fun a e => ?_, fun _ => rfl⟩) rfl rfl, ended⟩
    exact absurd (ha.symm.trans e) (by simp)
  · rw [hs2, ← now]
    refine expiry _ hk (fun left => ringEnded_target found hk hq rfl ⟨fun b e => ?_, fun e => ?_⟩) (State.enterState_groups ..) (State.enterState_heldAvail ..)
    · obtain rfl := Option.some.inj (ha.symm.trans e)
      rfl
    · exact absurd (ha.symm.trans e) (by simp)
  · refine ⟨_, ?_, unrung_endsNoRoute found⟩
    refine expiry _ hk (fun left => ?_) rfl rfl
    rw [ringEnded_recall found hk, recallToAttendant_ends found hq rfl ha]
  · rw [← now]
    refine expiry _ hk (fun left => ?_) (State.enterState_groups ..) (State.enterState_heldAvail ..)
    rw [ringEnded_recall found hk, recallToAttendant_rings found ha hp]

end Sys2Proof.Machine
end

