-- ==== Sys2Proof/Proofs/EscalationPages.lean ====
section
/-! SUPPORT. Page attempts, the end of an escalation page, the clearing of an escalation, and the deadlines that lead to them (R80 to R85, R126). -/

namespace Sys2Proof.Machine

/-! ## The escalated calls of a queue (R81, R85) -/

theorem escalatedCalls_length (s : State) (g : GroupId) :
    (s.escalatedCalls g).length = (s.group g).queue.countP fun h => (s.findCall h).any Call.escalated :=
  List.countP_eq_length_filter.symm

/-- What the Page Arbiter does leaves the escalated calls of every queue. -/
theorem Still.escalatedCalls {s t : State} (k : Still s t) (g : GroupId) : t.escalatedCalls g = s.escalatedCalls g := by
  simp only [State.escalatedCalls, k.queue, k.findCall]

theorem adviseEscalate_eq {s : State} {g : GroupId} {n : Nat} (h : (s.escalatedCalls g).length = n) (r : EscReport) :
    s.adviseEscalate g r = s.advise (.escalate g r n) := by
  rw [State.adviseEscalate, h]

/-! ## Page attempts (R82, R85) -/

section
variable {s : State} {g : GroupId} {n : Nat}

theorem escZones_eq_nil_iff : s.escZones g = [] ↔ ∀ z ∈ (s.groupCfg g).escZones,
    (s.cfg.maps[(s.groupCfg g).escMapSet])[z].valid = false ∨ (s.cfg.maps[(s.groupCfg g).escMapSet])[z].reserved = true := by
  rw [State.escZones, List.filter_eq_nil_iff]
  refine forall₂_congr fun z _ => ?_
  rw [Bool.and_eq_true, Bool.not_eq_true', not_and_or, Bool.not_eq_true, Bool.not_eq_false]

theorem pageAttempt_badZone (hz : s.escZones g = []) (hn : (s.escalatedCalls g).length = n) :
    s.pageAttempt g = s.advise (.escalate g .badZone n) := by
  rw [State.pageAttempt]
  exact (if_pos hz).trans (adviseEscalate_eq hn _)

theorem pageAttempt_skipped (hz : s.escZones g ≠ []) (hp : ∀ p, (s.page p).isSome = true) (hn : (s.escalatedCalls g).length = n) :
    s.pageAttempt g = s.advise (.escalate g .skipped n) := by
  have full : s.freePage = none := List.find?_eq_none.2 fun p _ => by
    obtain ⟨pg, e⟩ := Option.isSome_iff_exists.1 (hp p)
    simp [e]
  rw [State.pageAttempt]
  refine (if_neg hz).trans ?_
  rw [full]
  exact adviseEscalate_eq hn _

/-- The lowest record that is FREE (R113). -/
theorem freePage_of {p : PageId} (hp : s.page p = none) (lower : ∀ q, q < p → (s.page q).isSome = true) : s.freePage = some p := by
  obtain ⟨before, after, e, hb⟩ := finRange_split p
  refine List.find?_eq_some_iff_append.2 ⟨by simp [hp], before, after, e, fun q hq => ?_⟩
  obtain ⟨pg, hpg⟩ := Option.isSome_iff_exists.1 (lower q (hb q hq))
  simp [hpg]

theorem pageAttempt_started {p : PageId} {u : State} (hz : s.escZones g ≠ []) (hp : s.page p = none)
    (lower : ∀ q, q < p → (s.page q).isSome = true) (hn : (s.escalatedCalls g).length = n)
    (hu : s.acceptPage p (s.escPageOf g (s.escZones g)) = u) :
    s.pageAttempt g = (u.updGroup g fun x => { x with escPage := some (s.refOf p) }).advise (.escalate g (.started (s.refOf p)) n) := by
  have still : Still s (u.updGroup g fun x => { x with escPage := some (s.refOf p) }) :=
    (hu ▸ (Still.refl s).acceptPage p _).updGroup g fun _ => rfl
  rw [State.pageAttempt]
  refine (if_neg hz).trans ?_
  rw [freePage_of hp lower]
  dsimp only
  rw [hu]
  exact adviseEscalate_eq ((congrArg List.length (still.escalatedCalls g)).trans hn) _

theorem updPage_updPageRec (s : State) (p : PageId) (f : PageRec → PageRec) (k : Page → Page) :
    (s.updPageRec p f).updPage p k = s.updPageRec p fun r => { f r with page := (f r).page.map k } := by
  simp [State.updPage, State.updPageRec, Vector.set_set]

/-- A page that takes nothing waits from now on (R117, R119). -/
theorem acceptPage_waits {p : PageId} {pg : Page} (ho : s.takeableOf pg.cls (decide (pg.mode = .allOrWait)) (outputsOf pg.zoneOutputs) = []) :
    s.acceptPage p pg = (s.updPageRec p fun x =>
      { x with page := some { pg with state := .waiting, waitDeadline := s.waitDeadlineOf pg.waitLimit, chime := none } }).advise
      (.pageState (s.refOf p) pg.cls (.entered .waiting) (s.held p).length pg.escGroup) := by
  have waits : (s.updPageRec p fun r => { r with page := some pg }).toWaiting p = s.updPageRec p fun x =>
      { x with page := some { pg with state := .waiting, waitDeadline := s.waitDeadlineOf pg.waitLimit, chime := none } } :=
    updPage_updPageRec s p _ _
  have ref : (s.updPageRec p fun x => { x with
      page := some { pg with state := .waiting, waitDeadline := s.waitDeadlineOf pg.waitLimit, chime := none } }).refOf p = s.refOf p := by
    unfold State.refOf
    rw [State.pages_updPageRec_self]
  have held : (s.updPageRec p fun x => { x with
      page := some { pg with state := .waiting, waitDeadline := s.waitDeadlineOf pg.waitLimit, chime := none } }).held p = s.held p :=
    State.held_congr (fun _ => rfl) ref
  rw [State.acceptPage]
  refine (if_pos ho).trans ?_
  rw [waits, State.advisePage, ref, held]
  unfold State.page
  rw [State.pages_updPageRec_self]

theorem acceptPage_takes {p : PageId} {pg : Page} {outs : List OutputId}
    (ho : s.takeableOf pg.cls (decide (pg.mode = .allOrWait)) (outputsOf pg.zoneOutputs) = outs) (hne : outs ≠ []) :
    s.acceptPage p pg = ((s.updPageRec p fun x => { x with page := some pg }).takeSteps p outs).reviewPages := by
  rw [State.acceptPage, ho]
  exact if_neg hne

end

/-! ## The end of a page (R126) -/

/-- The outputs of a list released one after another. -/
theorem releases_output (l : List OutputId) (s : State) (o : OutputId) : (l.foldl State.release s).output o =
    if o ∈ l then { s.output o with state := .free } else s.output o := by
  induction l generalizing s with
  | nil => rfl
  | cons x l ih =>
    rw [List.foldl_cons, ih, State.release]
    by_cases e : o = x
    · subst e
      simp
    · simp [e, s.output_updOutput_ne e]

/-- An advisory placed where only the station order set differs leaves the same queue of advisories. -/
theorem advise_link_orders {s t : State} (h : t.link = { s.link with stationOrders := t.link.stationOrders }) (a : Advisory) :
    (t.advise a).link = { (s.advise a).link with stationOrders := (t.advise a).link.stationOrders } := by
  simp only [State.advise, State.updLink_link]
  rw [h]
  split <;> rfl

section
variable {s : State} {p : PageId} {pg : Page}

/-- The record of a page whose outputs and joined stations are free becomes FREE itself, and the end is advised. -/
theorem pageGone_of {v : State} (stays : v = { s with outputs := v.outputs, stations := v.stations, link := v.link })
    (link : v.link = { s.link with stationOrders := v.link.stationOrders })
    (freed : ∀ o, v.output o = if o ∈ s.held p then { s.output o with state := .free } else s.output o)
    (idle : StationsIn s v (s.joined p) fun _ => .idle) (why : EndReason) :
    PageGone s ((v.updPageRec p fun x => { gen := x.gen + 1, page := none }).advise
      (.pageState (s.refOf p) pg.cls (.ended why) 0 pg.escGroup)) p pg why := by
  have pages : v.pages = s.pages := by rw [stays]
  refine ⟨?_, ?_, ?_, fun q hq => ?_, fun o => ?_, idle⟩
  · rw [stays]
    rfl
  · exact advise_link_orders (t := v.updPageRec p fun x => { gen := x.gen + 1, page := none }) link _
  · rw [← pages]
    exact v.pages_updPageRec_self p fun x => { gen := x.gen + 1, page := none }
  · rw [← pages]
    exact v.pages_updPageRec_ne hq fun x => { gen := x.gen + 1, page := none }
  · exact (freed o).trans (ite_congr (propext (s.mem_held p o)) (fun _ => rfl) fun _ => rfl)

/-- Steps 1 to 6 of the end of a page in use. -/
theorem endPageRecord_gone (hp : s.page p = some pg) (why : EndReason) :
    ∃ u, PageGone s u p pg why ∧ s.endPageRecord p why = { u with heldAvail := s.heldAvail ++ s.joined p } := by
  have freed := releases_output (s.held p) s
  have outputs : (s.held p).foldl State.release s = _ := Fit.updOutputs_stays (fun _ _ x => { x with state := .free }) (s.held p) s
  have ended : s.endPageRecord p why = ((((s.held p).foldl State.release s).releaseJoined p).updPageRec p fun x =>
      { gen := x.gen + 1, page := none }).advise (.pageState (s.refOf p) pg.cls (.ended why) 0 pg.escGroup) := by
    rw [State.endPageRecord, hp]
  generalize (s.held p).foldl State.release s = w at freed outputs ended
  obtain ⟨⟨stays, link⟩, idle, others, ages⟩ := State.enterAll (fun _ => .idle) (s.joined p) w
  rw [State.releaseJoined, show w.joined p = s.joined p by rw [outputs]; rfl] at ended
  generalize (s.joined p).foldl (fun s i => s.enterState i .idle) w = v at stays link idle others ages ended
  have station : ∀ i, w.station i = s.station i := fun i => by rw [outputs]; rfl
  have held : v.heldAvail = s.heldAvail := by rw [stays, outputs]
  refine ⟨_, pageGone_of (v := v) (by rw [stays, outputs]) (by rw [link, outputs]) (fun o => ?_) ⟨idle, fun i hi => ?_, fun i => ?_⟩ why, ?_⟩
  · rw [← freed, stays]
    rfl
  · rw [others i hi, station]
  · rw [← station]
    exact ages i
  · rw [ended, ← held]
    rfl

/-- The end of an escalation page for a reason that clears nothing: the Hunt Engine is told of it, and the review comes last. -/
theorem endPage_told {why : EndReason} {g : GroupId} (hp : s.page p = some pg) (hg : pg.escGroup = some g)
    (hw : why ≠ .escalationCleared) : s.endPage p why =
      if s.held p = [] then (s.endPageRecord p why).escPageEnded (s.refOf p) g
      else ((s.endPageRecord p why).escPageEnded (s.refOf p) g).reviewPages := by
  rw [State.endPage, hp]
  dsimp only
  rw [hg]
  dsimp only
  rw [if_neg hw]

/-- The end of a page by a clearing tells the Hunt Engine nothing. -/
theorem endPage_cleared (hp : s.page p = some pg) : s.endPage p .escalationCleared =
    if s.held p = [] then s.endPageRecord p .escalationCleared else (s.endPageRecord p .escalationCleared).reviewPages := by
  rw [State.endPage, hp]
  dsimp only
  cases pg.escGroup with
  | none => rfl
  | some g => simp

theorem escPageEnded_of {g : GroupId} {r : PageRef} (he : (s.group g).escPage = some r) : s.escPageEnded r g =
    if (s.group g).repeatDue = true then
      (((s.updGroup g fun x => { x with escPage := none }).updGroup g fun x => { x with repeatDue := false }).pageAttempt g).updGroup g
        fun x => { x with repeatDeadline := some (s.repeatFrom g) }
    else s.updGroup g fun x => { x with escPage := none } := by
  rw [State.escPageEnded, if_pos he]

theorem escalationClear_noPage {g : GroupId} (he : (s.group g).escPage = none) : s.escalationClear g =
    (s.updGroup g fun x => { x with escPage := none, repeatDeadline := none, repeatDue := false }).adviseEscalate g .cleared := by
  rw [State.escalationClear, he]

theorem escalationClear_page {g : GroupId} {r : PageRef} (he : (s.group g).escPage = some r) (hp : s.pageAt r = some pg) :
    s.escalationClear g = ((s.endPage r.id .escalationCleared).updGroup g fun x =>
      { x with escPage := none, repeatDeadline := none, repeatDue := false }).adviseEscalate g .cleared := by
  rw [State.escalationClear, he]
  dsimp only
  rw [if_pos (by rw [hp]; rfl)]

end

/-- Settles O35, by the steps of the attempt and of the end of a page. -/
theorem escalationPagesComeAndGo : Obligations.EscalationPagesComeAndGo := by
  refine ⟨State.inEscalation_iff, ?_, ?_, ?_⟩
  · rintro s g k zs n rfl hzs hn
    rw [← escalatedCalls_length] at hn
    obtain rfl : zs = s.escZones g := hzs
    refine ⟨rfl, fun hz => pageAttempt_badZone hz hn.symm, fun hz full => pageAttempt_skipped hz full hn.symm, ?_⟩
    intro p pg outs u hz free lower hpg houts wait take
    obtain rfl : pg = s.escPageOf g (s.escZones g) := hpg
    refine pageAttempt_started hz free lower hn.symm ?_
    by_cases ho : outs = []
    · rw [wait ho]
      exact acceptPage_waits (houts.symm.trans ho)
    · rw [take ho]
      exact acceptPage_takes houts.symm ho
  · intro s p pg g why hp hg hw he
    obtain ⟨s1, gone, e⟩ := endPageRecord_gone hp why
    have stays := gone.1
    have group : (s.endPageRecord p why).group g = s.group g := by rw [e, stays]; rfl
    have repeats : (s.endPageRecord p why).repeatFrom g = s.repeatFrom g := by rw [e, stays]; rfl
    refine ⟨s1, _, (s.endPageRecord p why).escPageEnded (s.refOf p) g, gone, rfl, fun hd => ?_, fun hd => ?_, endPage_told hp hg hw⟩
    · rw [escPageEnded_of (by rw [group]; exact he), group, hd, e]
      rfl
    · rw [escPageEnded_of (by rw [group]; exact he), group, hd, repeats, e]
      rfl
  · intro s g clears n hn hc
    rw [← escalatedCalls_length] at hn
    have clear : ∀ t, Still s t → (t.updGroup g fun x =>
        { x with escPage := none, repeatDeadline := none, repeatDue := false }).adviseEscalate g .cleared = clears t := fun t k => by
      rw [hc, hn]
      exact adviseEscalate_eq (congrArg List.length ((k.updGroup g (by exact fun _ => rfl)).escalatedCalls g)) _
    refine ⟨fun he => (escalationClear_noPage he).trans (clear s (.refl s)), fun r pg he hp => ?_⟩
    obtain ⟨-, hpage⟩ := (State.pageAt_iff s r pg).1 hp
    obtain ⟨s1, gone, e⟩ := endPageRecord_gone hpage .escalationCleared
    refine ⟨s1, _, gone, rfl, ?_⟩
    rw [escalationClear_page he hp, clear _ ((Still.refl s).endPage _ _), endPage_cleared hpage, e]

/-! ## The escalation deadline and the repeat deadline (R80 to R83) -/

section
variable {s : State} {h : Handle} {c : Call} {g : GroupId}

/-- The escalation flag is set and its deadline cleared (R80). -/
def Call.flagged (c : Call) : Call := { c with escDeadline := none, escalated := true }

theorem escExpired_of (hc : s.findCall h = some c) (hg : c.currentGroup = some g) : s.escExpired h =
    if s.inEscalation g = true then s.updCall h Call.flagged else (s.updCall h Call.flagged).escalationStart g := by
  rw [State.escExpired, hc]
  dsimp only
  rw [hg]
  rfl

/-- The first escalated call of a queue is the only one. -/
theorem flagged_escalatedCalls (hc : s.findCall h = some c) (once : (s.group g).queue.count h = 1)
    (below : ∀ k ∈ (s.group g).queue, ∀ x, s.findCall k = some x → x.escalated = false) :
    ((s.updCall h Call.flagged).escalatedCalls g).length = 1 := by
  rw [escalatedCalls_length, ← once]
  refine List.countP_congr fun k hk => ?_
  rw [beq_iff_eq]
  by_cases e : k = h
  · subst e
    rw [State.findCall_updCall_self s k _ (by exact fun _ => rfl), hc]
    simp [Call.flagged]
  · rw [State.findCall_updCall_ne s e _ (by exact fun _ => rfl)]
    cases hx : s.findCall k with
    | none => simp [e]
    | some x => simp [e, below k hk x hx]

theorem updGroup_updGroup (s : State) (g : GroupId) (f k : Group → Group) :
    (s.updGroup g f).updGroup g k = s.updGroup g fun x => k (f x) := by
  simp [State.updGroup]

end

/-- Settles O34, by whether the group is in escalation and whether it has an escalation page. -/
theorem escalationAndRepeatDeadlinesExpire : Obligations.EscalationAndRepeatDeadlinesExpire := by
  refine ⟨?_, ?_⟩
  · rintro s s1 h c g ⟨run, held⟩ hc hq hg hd
    have due : (s.findCall h).any s.escDueFor = true := by simp [hc, State.escDueFor, hq, State.due, hd]
    have expires : exec (.escalationDeadlineExpiry h) s = .next (s.escExpired h).finish :=
      event_happens (e := fun s => s.escExpired h) run due
    refine ⟨fun on => ?_, fun off hs1 => ?_⟩
    · rw [expires, escExpired_of hc hg, if_pos ((State.inEscalation_iff s g).2 on), finish_none _ (by exact held)]
      rfl
    · have quiet : ¬ s.inEscalation g = true := fun on => by
        obtain ⟨k, hk, x, hx, e⟩ := (State.inEscalation_iff s g).1 on
        simp [off k hk x hx] at e
      have starts : s.escExpired h = s1.pageAttempt g := by
        rw [escExpired_of hc hg, if_neg quiet, hs1]
        rfl
      rw [expires, starts]
      refine ⟨rfl, fun once zones => ?_⟩
      have still : Still (s.updCall h Call.flagged) s1 := hs1 ▸ (Still.refl _).updGroup g fun _ => rfl
      rw [pageAttempt_badZone (n := 1), finish_none _ (by rw [hs1]; exact held)]
      · rw [hs1]
        exact escZones_eq_nil_iff.2 zones
      · rw [still.escalatedCalls, flagged_escalatedCalls hc once off]
  · rintro s g ⟨run, held⟩ hd
    have due : s.repeatDue g = true := by simp [State.repeatDue, State.due, hd]
    have expires : exec (.repeatDeadlineExpiry g) s = .next (s.repeatExpired g).finish :=
      event_happens (e := fun s => s.repeatExpired g) run due
    refine ⟨fun hp => ?_, fun hp => ?_⟩
    · obtain ⟨r, hr⟩ := Option.isSome_iff_exists.1 hp
      rw [expires, State.repeatExpired, hr, finish_none _ (by exact held)]
    · rw [expires, State.repeatExpired, hp]
      refine ⟨rfl, fun zones => ?_⟩
      dsimp only
      have still : Still s (s.updGroup g fun x => { x with repeatDeadline := none }) := (Still.refl s).updGroup g fun _ => rfl
      rw [pageAttempt_badZone (s := s.updGroup g _) (escZones_eq_nil_iff.2 zones)
        ((congrArg List.length (still.escalatedCalls g)).trans (escalatedCalls_length s g)), finish_none _ (by exact held)]
      generalize (s.group g).queue.countP _ = n
      exact congrArg (fun u : State => Host.Outcome.next (u.advise (.escalate g .badZone n)).transmitTake)
        (updGroup_updGroup s g (fun x => { x with repeatDeadline := none }) fun x => { x with repeatDeadline := some (s.repeatFrom g) })

end Sys2Proof.Machine
end

