-- ==== Sys2Proof/Proofs/EveryCommand.lean ====
section
/-! SUPPORT. Every command answers, and leaves the queue of waiting commands alone (R84, R124). -/

namespace Sys2Proof.Machine

/-- From `s` to `t` the queue of waiting commands is the same. -/
def SameWaiting (s t : State) : Prop := t.pending = s.pending

namespace SameWaiting

variable {s0 s t : State}

theorem refl (s : State) : SameWaiting s s := rfl

theorem trans (q : SameWaiting s0 s) (r : SameWaiting s t) : SameWaiting s0 t := Eq.trans r q

/-- What the Hunt Engine and the Page Arbiter do. -/
theorem quiet (q : SameWaiting s0 s) (k : Quiet s t) : SameWaiting s0 t := q.trans k.pending

theorem updLink (q : SameWaiting s0 s) (f : Link → Link) : SameWaiting s0 (s.updLink f) := q

theorem updCfg (q : SameWaiting s0 s) (f : WorkingConfig → WorkingConfig) : SameWaiting s0 (s.updCfg f) := q

theorem updOutput (q : SameWaiting s0 s) (o : OutputId) (f : Output → Output) : SameWaiting s0 (s.updOutput o f) := q

theorem transmitTake (q : SameWaiting s0 s) : SameWaiting s0 s.transmitTake := q.trans (by rw [SameWaiting, transmitTake_stays])

theorem finish (q : SameWaiting s0 s) : SameWaiting s0 s.finish := (q.quiet (Quiet.refl s).flush).transmitTake

/-! ## The receiver (R167, R168) -/

theorem huntOctet (q : SameWaiting s0 s) (o : Octet) (b : Bool) : SameWaiting s0 (s.huntOctet o b) := by
  unfold State.huntOctet
  split
  · exact q.updLink _
  · exact q

theorem closeFrame (q : SameWaiting s0 s) (os : List Octet) : SameWaiting s0 (s.closeFrame os) := by
  unfold State.closeFrame
  split
  · dsimp only
    split
    · exact (q.updLink _).updLink _
    · exact q.updLink _
  · exact q.updLink _

theorem frameOctet (q : SameWaiting s0 s) (os : List Octet) (o : Octet) : SameWaiting s0 (s.frameOctet os o) := by
  unfold State.frameOctet
  split
  · exact q
  · split
    · exact q.updLink _
    · split
      · exact q.closeFrame _
      · exact q.updLink _

theorem receiveOctet (q : SameWaiting s0 s) (o : Octet) (b : Bool) : SameWaiting s0 (s.receiveOctet o b) := by
  unfold State.receiveOctet
  split
  · exact q.huntOctet o b
  · split
    · exact huntOctet (s := s.abandonFrame) (q.updLink _) o b
    · split
      · exact q.updLink _
      · exact q.frameOctet _ o

theorem receiveAll (q : SameWaiting s0 s) (os : List Octet) : SameWaiting s0 (s.receiveAll os) := by
  induction os generalizing s with
  | nil => exact q
  | cons o os ih => exact ih (q.receiveOctet o true)

/-! ## Deadlines, guards, periods and windows (R71, R80, R83, R103, R134, R142, R157) -/

theorem waitExpired (s : State) (h : Handle) : SameWaiting s (s.waitExpired h) := by
  unfold State.waitExpired
  split
  · exact refl s
  · split
    · exact (refl s).quiet ((Quiet.refl s).overflow h _ _)
    · exact refl s

theorem escExpired (s : State) (h : Handle) : SameWaiting s (s.escExpired h) := by
  unfold State.escExpired
  split
  · exact refl s
  · dsimp only
    split
    · split
      · exact refl s
      · exact (refl s).quiet (((Quiet.refl s).updCall h _).escalationStart _)
    · exact refl s

theorem parkExpired (s : State) (h : Handle) : SameWaiting s (s.parkExpired h) := by
  unfold State.parkExpired
  split
  · exact refl s
  · split
    · exact (refl s).quiet (((Quiet.refl s).updCall h _).enterState _ _)
    · exact (refl s).quiet (((Quiet.refl s).updCall h _).recallToAttendant h)

theorem repeatExpired (s : State) (g : GroupId) : SameWaiting s (s.repeatExpired g) := by
  unfold State.repeatExpired
  split
  · exact (refl s).quiet ((((Quiet.refl s).updGroup g _).pageAttempt g).updGroup g _)
  · exact refl s

theorem guardEnds (s : State) (o : OutputId) : SameWaiting s (s.guardEnds o) := by
  unfold State.guardEnds
  split
  · dsimp only
    split
    · exact ((refl s).updOutput o _).quiet ((Quiet.refl _).openingStep _)
    · exact refl s
  · exact refl s

theorem periodEnds (s : State) (p : PageId) : SameWaiting s (s.periodEnds p) := by
  unfold State.periodEnds
  split
  · exact refl s
  · split
    · exact refl s
    · split
      · exact (refl s).quiet ((Quiet.refl s).chimeComplete p _)
      · exact refl s

theorem endWindow (s : State) (o : OutputId) : SameWaiting s (s.endWindow o) := by
  unfold State.endWindow
  dsimp only
  split
  · exact ((refl s).updOutput o _).quiet ((Quiet.refl _).advise _)
  · exact refl s

theorem ringExpired (s : State) (h : Handle) : SameWaiting s (s.ringExpired h) := (refl s).quiet ((Quiet.refl s).ringExpired h)

theorem buildBlocks (s : State) (inputs : Vector (Vector Sample 8) 4) (noise : Vector Envelope 16) :
    SameWaiting s (s.buildBlocks inputs noise).tick := refl s

theorem endSave (s : State) (o : SaveOutcome) : SameWaiting s (endSave s o) := by
  unfold Machine.endSave
  split <;> exact refl s

/-! ## Requests about calls and stations (chapters 2, 3 and 5) -/

theorem reportOffhook (s : State) (i : StationId) : SameWaiting s (reportOffhook s i) := by
  unfold Machine.reportOffhook
  split
  · exact (refl s).quiet ((Quiet.refl s).enterState i _)
  · exact (refl s).quiet ((Quiet.refl s).leaveRing i _ _)
  · exact (refl s).quiet ((Quiet.refl s).enterState i _)
  all_goals exact refl s

theorem reportOutOfService (s : State) (i : StationId) : SameWaiting s (reportOutOfService s i) := by
  unfold Machine.reportOutOfService
  split
  · exact (refl s).quiet ((Quiet.refl s).enterState i _)
  · exact (refl s).quiet ((Quiet.refl s).enterState i _)
  · exact (refl s).quiet ((Quiet.refl s).leaveRing i _ _)
  · exact (refl s).quiet ((Quiet.refl s).enterState i _)
  all_goals exact refl s

theorem reportOnhook (s : State) (i : StationId) : SameWaiting s (reportOnhook s i) := by
  unfold Machine.reportOnhook
  split
  · exact (refl s).quiet (((Quiet.refl s).enterFreshIdle i).availability i)
  all_goals exact refl s

theorem reportInService (s : State) (i : StationId) : SameWaiting s (reportInService s i) := by
  unfold Machine.reportInService
  split
  · exact (refl s).quiet (((Quiet.refl s).enterFreshIdle i).availability i)
  all_goals exact refl s

theorem arrivesAt (s : State) (c : Call) (g : GroupId) (h : Handle) :
    SameWaiting s (State.arrive State.arriveBound (s.addCall c) h g).flush :=
  (refl s).quiet (((Quiet.refl s).addCall c).arrive _ h g).flush

theorem ends (s : State) (h : Handle) (o : CallOutcome) (st : Option StationId) : SameWaiting s (s.endCall h o st) :=
  (refl s).quiet ((Quiet.refl s).endCall h o st)

/-! ## Edits of groups, members and stations (chapters 3 and 4) -/

theorem acceptSetGroup (s : State) (mask : Nat) (f : GroupFields) : SameWaiting s (acceptSetGroup s mask f) := by
  unfold Machine.acceptSetGroup
  exact quiet (s := s.updCfg _) rfl (Quiet.foldl (fun g q => q.live f _ g) _ (Quiet.refl _))

theorem acceptSetStation (s : State) (first last : Nat) (f : StationFields) : SameWaiting s (acceptSetStation s first last f) := by
  unfold Machine.acceptSetStation
  dsimp only
  split
  · exact refl s
  · exact quiet (s := s.writeStations first last f.write) rfl (Quiet.foldl (fun i q => q.applyInUse _ i) _ (Quiet.refl _))

theorem acceptAdd (s : State) (g : GroupId) (i : StationId) (pos : Nat) (flag : Bool) : SameWaiting s (acceptAdd s g i pos flag) := by
  unfold Machine.acceptAdd
  dsimp only
  split
  · exact (refl s).quiet (s := s.updMembers g _) ((Quiet.refl _).availability i)
  · exact refl s

theorem acceptRemove (s : State) (g : GroupId) (i : StationId) : SameWaiting s (acceptRemove s g i) := by
  unfold Machine.acceptRemove
  exact quiet (s := (s.updGroup g _).updMembers g _) rfl (((Quiet.refl _).untry g i).cancelGroupRing g i)

theorem acceptLogin (s : State) (g : GroupId) (i : StationId) : SameWaiting s (acceptLogin s g i) := by
  unfold Machine.acceptLogin
  split
  · exact refl s
  · exact ((refl s).updCfg _).quiet ((Quiet.refl _).availability i)

theorem acceptLogout (s : State) (g : GroupId) (i : StationId) : SameWaiting s (acceptLogout s g i) := by
  unfold Machine.acceptLogout
  split
  · exact ((refl s).updCfg _).quiet ((Quiet.refl _).cancelGroupRing g i)
  · exact refl s

/-! ## Pages and edits of the configuration (chapters 6 and 10) -/

theorem handlePage (s : State) (body : List Octet) : SameWaiting s (handlePage body s).st := by
  refine withBody_ind (refl s) _ body fun q _ => orBadValue_ind (refl s) _ fun f _ => ?_
  dsimp only
  split
  · exact refl s
  · unfold startPage
    dsimp only
    split
    · exact refl s
    · split
      · exact refl s
      · exact (refl s).quiet ((Quiet.refl s).acceptPage _ _)

theorem handlePageEnd (s : State) (body : List Octet) : SameWaiting s (handlePageEnd body s).st := by
  refine withBody_ind (refl s) _ body fun ⟨p, g⟩ _ => orBadValue_ind (refl s) _ fun p _ => ?_
  split
  · exact (refl s).quiet ((Quiet.refl s).endPage p _)
  · exact refl s

theorem handleSetSystem (s : State) (body : List Octet) : SameWaiting s (handleSetSystem body s).st := by
  refine withBody_ind (refl s) _ body fun q _ => unlessSaving_ind (refl s) (orBadValue_ind (refl s) _ fun f _ => ?_)
  split
  · exact refl s
  · exact (refl s).updCfg _

theorem handleSetDirAdd (s : State) (body : List Octet) : SameWaiting s (handleSetDirAdd body s).st := by
  refine withBody_ind (refl s) _ body fun ⟨_, _, _, _⟩ _ => unlessSaving_ind (refl s) (orBadUnless_ind (refl s) _ fun _ =>
    orBadValue_ind (refl s) _ fun t _ => ?_)
  split
  · exact refl s
  · split
    · exact refl s
    · exact (refl s).updCfg _

theorem handleSetDirRemove (s : State) (body : List Octet) : SameWaiting s (handleSetDirRemove body s).st := by
  refine withBody_ind (refl s) _ body fun ⟨_, _, _, _⟩ _ => unlessSaving_ind (refl s) (orBadUnless_ind (refl s) _ fun _ => ?_)
  split
  · exact (refl s).updCfg _
  · exact refl s

theorem handleSetPickup (s : State) (body : List Octet) : SameWaiting s (handleSetPickup body s).st :=
  withBody_ind (refl s) _ body fun ⟨_, _, _⟩ _ => unlessSaving_ind (refl s) (orBadUnless_ind (refl s) _ fun _ =>
    orBadValue_ind (refl s) _ fun _ _ => (refl s).updCfg _)

theorem handleSetList (s : State) (body : List Octet) : SameWaiting s (handleSetList body s).st := by
  refine withBody_ind (refl s) _ body fun ⟨_, _⟩ _ => unlessSaving_ind (refl s) (orBadValue_ind (refl s) _ fun _ _ =>
    orBadUnless_ind (refl s) _ fun _ => orBadValue_ind (refl s) _ fun _ _ => ?_)
  split
  · exact (refl s).updCfg _
  · exact refl s

theorem handleSetMap (s : State) (body : List Octet) : SameWaiting s (handleSetMap body s).st := by
  refine withBody_ind (refl s) _ body fun q _ => unlessSaving_ind (refl s) (orBadValue_ind (refl s) _ fun ⟨_, _, _⟩ _ => ?_)
  dsimp only
  split
  · exact refl s
  · split
    · exact refl s
    · exact (refl s).updCfg _

theorem acceptSetOutput (s : State) (m : OutputSet) (f : OutputFields) : SameWaiting s (acceptSetOutput s m f) := by
  unfold Machine.acceptSetOutput SameWaiting
  rw [Fit.updOutputs_stays fun s o => f.live s.now (s.outputCfg o)]
  rfl

theorem handleSetOutput (s : State) (body : List Octet) : SameWaiting s (handleSetOutput body s).st :=
  withBody_ind (refl s) _ body fun _ _ => unlessSaving_ind (refl s) (orBadUnless_ind (refl s) _ fun _ =>
    orBadValue_ind (refl s) _ fun f _ => orBadUnless_ind (refl s) _ fun _ => acceptSetOutput s _ f)

theorem handleSetChime (s : State) (body : List Octet) : SameWaiting s (handleSetChime body s).st :=
  withBody_ind (refl s) _ body fun ⟨_, _, _⟩ _ => unlessSaving_ind (refl s) (orBadValue_ind (refl s) _ fun _ _ =>
    orBadValue_ind (refl s) _ fun _ _ => orBadValue_ind (refl s) _ fun _ _ => (refl s).updCfg _)

theorem handleReset (s : State) (body : List Octet) : SameWaiting s (handleReset body s).st :=
  withBody_ind (refl s) _ body fun _ _ => (refl s).updLink _

/-! ## The queries (9.6) -/

theorem queryBy (s : State) (n k : Nat) (content : State → Fin k → List Octet) (body : List Octet) :
    SameWaiting s (queryBy n k content body s).st :=
  withBody_ind (refl s) _ body fun _ _ => orBadValue_ind (refl s) _ fun _ _ => refl s

theorem handleStatus (s : State) (body : List Octet) : SameWaiting s (handleStatus body s).st :=
  withBody_ind (refl s) _ body fun _ _ => refl s

theorem handleGetOrbits (s : State) (body : List Octet) : SameWaiting s (handleGetOrbits body s).st :=
  withBody_ind (refl s) _ body fun _ _ => refl s

theorem handleGetCall (s : State) (body : List Octet) : SameWaiting s (handleGetCall body s).st := by
  refine withBody_ind (refl s) _ body fun h _ => ?_
  split
  · exact refl s
  · split <;> exact refl s

theorem handleGetDir (s : State) (body : List Octet) : SameWaiting s (handleGetDir body s).st := by
  refine withBody_ind (refl s) _ body fun d _ => ?_
  split <;> exact refl s

end SameWaiting

/-! ## Every command -/

/-- A command's answer: a next state with the same commands waiting, and nothing held back when nothing was. -/
def Answered (s : State) (o : Host.Outcome State Fault Refusal) : Prop :=
  ∃ t, o = .next t ∧ t.pending = s.pending ∧ (s.heldAvail = [] → t.heldAvail = [])

namespace Answered

variable {s : State}

theorem unchanged (s : State) : Answered s (.next s) := ⟨s, rfl, rfl, id⟩

theorem finish {t : State} (q : SameWaiting s t) : Answered s (.next t.finish) :=
  ⟨_, rfl, q.finish, fun _ => by rw [State.finish, transmitTake_stays]; exact flush_heldAvail t⟩

theorem dispatch (row : Row) (f : Frame) {handle : State → Handled} (h : ∀ u, SameWaiting u (handle u).st) :
    Answered s (Machine.dispatch row f handle s) := by
  obtain ⟨rest, -, -, -, e⟩ | e := dispatch_answers row f handle s <;> rw [e]
  · refine ⟨_, rfl, (answer_pending _ _ _ _).trans ?_, fun _ => (answer_heldAvail _ _ _ _).trans (flush_heldAvail _)⟩
    exact (h (s.takeHead rest)).quiet (Quiet.refl _).flush
  · exact unchanged s

theorem event (b : Bool) {effect : State → State} (h : SameWaiting s (effect s)) : Answered s (Machine.event s b effect) := by
  obtain ⟨-, -, e⟩ | e := event_answers s b effect <;> rw [e]
  · exact finish h
  · exact unchanged s

theorem transmissionEnds (s : State) (f : TxFrame) : Answered s (.next (s.transmissionEnds f)) := by
  unfold State.transmissionEnds
  split
  · exact ⟨_, rfl, rfl, fun _ => rfl⟩
  all_goals exact finish rfl

theorem exec (i : Instr) (s : State) : Answered s (exec i s) := by
  unfold Machine.exec
  cases i with
  | powerOnReset b => exact ⟨_, rfl, rfl, fun _ => rfl⟩
  | pinReset =>
    dsimp only
    unfold execPinReset
    split
    · exact ⟨_, rfl, rfl, fun _ => rfl⟩
    · exact unchanged s
  | linkReset =>
    dsimp only
    unfold execLinkReset
    split
    · split
      · exact transmissionEnds s _
      · exact unchanged s
    · exact unchanged s
  | frameTransmitted =>
    dsimp only
    unfold execFrameTransmitted
    split
    · exact transmissionEnds s _
    · exact unchanged s
  | leavesReset =>
    dsimp only
    unfold execLeavesReset
    split
    · exact ⟨_, rfl, rfl, id⟩
    · exact unchanged s
  | lossOfPower => exact ⟨_, rfl, rfl, id⟩
  | frameReceived k tag body check => exact event _ ((SameWaiting.refl s).receiveAll _)
  | octetReceived o b => exact event _ ((SameWaiting.refl s).receiveOctet o b)
  | rxOctetTimeout => exact event _ ((SameWaiting.refl s).updLink _)
  | unknownKind k tag body => exact dispatch _ _ SameWaiting.refl
  | callIn tag body => exact dispatch _ _ fun u => handleCallIn_ind (.refl u) body fun k _ _ g _ _ _ _ => .arrivesAt u _ g k
  | answer tag body => exact dispatch _ _ fun u => handleAnswer_ind (.refl u) body fun _ k _ _ _ => .ends u k _ _
  | hangup tag body => exact dispatch _ _ fun u => handleHangup_ind (.refl u) body fun k _ _ _ => .ends u k _ _
  | stationOffhook tag body => exact dispatch _ _ fun u => handleReport_ind (.refl u) (.reportOffhook u) body
  | stationOnhook tag body => exact dispatch _ _ fun u => handleReport_ind (.refl u) (.reportOnhook u) body
  | stationOutOfService tag body => exact dispatch _ _ fun u => handleReport_ind (.refl u) (.reportOutOfService u) body
  | stationInService tag body => exact dispatch _ _ fun u => handleReport_ind (.refl u) (.reportInService u) body
  | pickup tag body => exact dispatch _ _ fun u => handlePickup_ind (.refl u) body fun _ _ k _ => .ends u k _ _
  | dpickup tag body =>
    exact dispatch _ _ fun u => handleDpickup_ind (.refl u) body (fun _ _ k _ => .ends u k _ _) (fun _ _ k _ => .ends u k _ _)
      fun _ _ c _ => .ends u c.handle _ _
  | park tag body => exact dispatch _ _ fun u => handlePark_ind (.refl u) body fun _ _ _ _ _ _ _ _ _ _ => .refl u
  | page tag body => exact dispatch _ _ fun u => .handlePage u body
  | pageEnd tag body => exact dispatch _ _ fun u => .handlePageEnd u body
  | status tag body => exact dispatch _ _ fun u => .handleStatus u body
  | getStation tag body => exact dispatch _ _ fun u => .queryBy u _ _ _ body
  | getCall tag body => exact dispatch _ _ fun u => .handleGetCall u body
  | listQueue tag body => exact dispatch _ _ fun u => .queryBy u _ _ _ body
  | getOrbits tag body => exact dispatch _ _ fun u => .handleGetOrbits u body
  | getPage tag body => exact dispatch _ _ fun u => .queryBy u _ _ _ body
  | getOutput tag body => exact dispatch _ _ fun u => .queryBy u _ _ _ body
  | getGroup tag body => exact dispatch _ _ fun u => .queryBy u _ _ _ body
  | getDir tag body => exact dispatch _ _ fun u => .handleGetDir u body
  | setSystem tag body => exact dispatch _ _ fun u => .handleSetSystem u body
  | setDirAdd tag body => exact dispatch _ _ fun u => .handleSetDirAdd u body
  | setDirRemove tag body => exact dispatch _ _ fun u => .handleSetDirRemove u body
  | setStation tag body => exact dispatch _ _ fun u => handleSetStation_ind (.refl u) body (.acceptSetStation u)
  | setGroup tag body => exact dispatch _ _ fun u => handleSetGroup_ind (.refl u) body (.acceptSetGroup u)
  | setMembersAdd tag body =>
    exact dispatch _ _ fun u => handleSetMembersAdd_ind (.refl u) body fun g i pos flag _ _ => .acceptAdd u g i pos flag
  | setMembersRemove tag body => exact dispatch _ _ fun u => handleMember_ind (.refl u) (.acceptRemove u) body
  | setMembersLogin tag body => exact dispatch _ _ fun u => handleMember_ind (.refl u) (.acceptLogin u) body
  | setMembersLogout tag body => exact dispatch _ _ fun u => handleMember_ind (.refl u) (.acceptLogout u) body
  | setPickup tag body => exact dispatch _ _ fun u => .handleSetPickup u body
  | setList tag body => exact dispatch _ _ fun u => .handleSetList u body
  | setMap tag body => exact dispatch _ _ fun u => .handleSetMap u body
  | setOutput tag body => exact dispatch _ _ fun u => .handleSetOutput u body
  | setChime tag body => exact dispatch _ _ fun u => .handleSetChime u body
  | save tag body => exact dispatch _ _ fun u => handleSave_ind (.refl u) body (.refl u)
  | reset tag body => exact dispatch _ _ fun u => .handleReset u body
  | noAnswerExpiry h => exact event _ (.ringExpired s h)
  | targetRingExpiry h => exact event _ (.ringExpired s h)
  | attendantRingExpiry h => exact event _ (.ends s h _ _)
  | recallRingExpiry h => exact event _ (.ringExpired s h)
  | waitDeadlineExpiry h => exact event _ (.waitExpired s h)
  | escalationDeadlineExpiry h => exact event _ (.escExpired s h)
  | parkDeadlineExpiry h => exact event _ (.parkExpired s h)
  | repeatDeadlineExpiry g => exact event _ (.repeatExpired s g)
  | pageWaitExpiry p => exact event _ ((SameWaiting.refl s).quiet ((Quiet.refl s).endPage p _))
  | guardExpiry o => exact event _ (.guardEnds s o)
  | chimePeriodEnd p => exact event _ (.periodEnds s p)
  | windowEnd o => exact event _ (.endWindow s o)
  | outputBlock inputs noise => exact event _ (.buildBlocks s inputs noise)
  | saveWriteComplete b => exact event _ (.endSave s _)
  | saveDeadlineExpiry => exact event _ (.endSave s _)
  | idleAgeSaturated i => exact event _ (.refl s)
  | queueAgeSaturated h => exact event _ (.refl s)
  | arrivalAgeSaturated h => exact event _ (.refl s)
  | requestAgeSaturated p => exact event _ (.refl s)

end Answered

/-- Settles O3, by what each command does with the waiting commands and how it ends. -/
theorem everyCommandAnswers : Obligations.EveryCommandAnswers :=
  Answered.exec

end Sys2Proof.Machine
end

