-- ==== Sys2Proof/Proofs/LiveGroupEdits.lean ====
section
/-! SUPPORT. The live effects of SET_GROUP on one group: what a disabling, a lowered limit and a new delay do to its calls (R72, R74, R86). -/

namespace Sys2Proof.Machine

/-! ## The other calls of a queue keep their places (R75) -/

/-- From `s` to `t` every queue holds the same calls but for `h`, in the same order. -/
def OthersStay (h : Handle) (s t : State) : Prop :=
  ∀ g, ((t.group g).queue.filter fun k => !(k == h)) = (s.group g).queue.filter fun k => !(k == h)

namespace OthersStay

variable {s t u : State} {h : Handle} {c : Call} {g : GroupId}

theorem trans (a : OthersStay h s t) (b : OthersStay h t u) : OthersStay h s u := fun g => (b g).trans (a g)

theorem of_queues (a : SameQueues s t) : OthersStay h s t := fun g => by rw [a g]

theorem of_groups (e : t.groups = s.groups) : OthersStay h s t := .of_queues (.of_groups e)

theorem leaveQueue (s : State) (h : Handle) (g : GroupId) : OthersStay h s (s.leaveQueue h g) := fun k => by
  rw [s.leaveQueue_queue]
  split
  · rename_i e
    simp [e]
  · rfl

theorem offerGroup (hc : s.findCall h = some c) (g : GroupId) (sts : List StationId) : OthersStay h s (s.offerGroup h g sts) := by
  unfold State.offerGroup
  rw [hc]
  dsimp only
  generalize hu : State.ringAll _ h sts = u
  have rung : OthersStay h s u := .of_groups (by rw [← hu, State.ringAll_groups]; rfl)
  have left : OthersStay h s (if decide (c.state = .queued) = true then u.leaveQueue h g else u) := by
    split
    · exact rung.trans (.leaveQueue u h g)
    · exact rung
  split
  · exact left.trans (.of_queues (.updGroup _ g (by exact fun _ => rfl)))
  · exact left

theorem enterQueue (hc : s.findCall h = some c) (g : GroupId) (tried : List StationId) : OthersStay h s (s.enterQueue h g false tried) := by
  obtain ⟨entry, flag, -, -, t, ht, e⟩ := enterQueue_eq hc g false tried
  have joined : OthersStay h s t := fun k => by
    rw [ht]
    by_cases hk : k = g
    · rw [hk, State.group_updGroup_self]
      simp [State.group]
    · rw [State.group_updGroup_ne _ hk]
      rfl
  rw [e]
  split
  · exact joined.trans (.of_queues ((Still.refl t).escalationStart g).queue)
  · exact joined

end OthersStay

/-! ## A call adrift moves no other call (R75, R76) -/

/-- The call `h` is found, is not queued, and rings nowhere. -/
def Roams (s : State) (h : Handle) : Prop := ∃ c, s.findCall h = some c ∧ c.state ≠ .queued ∧ c.offered = []

section
variable {s : State} {h : Handle} {g k : GroupId}

theorem toAttendant_queues (a : Roams s h) : SameQueues s (s.toAttendant h) := by
  obtain ⟨c, hc, hq, ho⟩ := a
  obtain ⟨rings, ends⟩ := toAttendant_goesToAttendant hc hq ho
  cases e : s.idleAttendant with
  | some i =>
    rw [rings i e]
    exact (SameQueues.of_groups rfl).trans (.enterState _ i _)
  | none =>
    rw [ends e]
    exact .of_groups rfl

theorem deliver_queues (a : Roams s h) (dest : Target) : SameQueues s (s.deliver h g dest).1 := by
  unfold State.deliver
  split
  · obtain ⟨c, hc, hq, ho⟩ := a
    rw [endCall_ringless hc hq ho]
    exact .of_groups rfl
  · exact toAttendant_queues a
  · split
    · exact (SameQueues.of_groups rfl).trans (.enterState _ _ _)
    · obtain ⟨c, hc, hq, ho⟩ := a
      rw [State.fallToAttendant, hc]
      exact (SameQueues.of_groups rfl).trans (toAttendant_queues (s := s.advise _) ⟨c, hc, hq, ho⟩)
  · exact .of_groups rfl

/-- A call that a hop delivers to a group roams on. -/
theorem deliver_roams (a : Roams s h) {dest : Target} (e : (s.deliver h g dest).2 = some k) : Roams (s.deliver h g dest).1 h := by
  obtain ⟨c, hc, hq, ho⟩ := a
  cases dest with
  | group j =>
    refine ⟨_, (State.findCall_updCall_self s h _ (by exact fun _ => rfl)).trans (congrArg (Option.map _) hc), hq, ho⟩
  | station i =>
    unfold State.deliver at e
    dsimp only at e
    split at e <;> cases e
  | nowhere => cases e
  | attendant => cases e

/-- Every hop is a departure from the group and a delivery. -/
theorem hop_delivers {c : Call} (hc : s.findCall h = some c) (r : RouteReason) :
    ∃ why dest n, s.hop h g r = (s.hopped h g why dest n).deliver h g dest := by
  unfold State.hop
  rw [hc]
  dsimp only
  generalize (if decide (Config.hopLimit ≤ c.hops) = true ∨ (s.groupCfg g).enabled = false ∧ (s.groupCfg g).target = .group g
    then Target.attendant else (s.groupCfg g).target) = dest
  cases dest with
  | nowhere => exact ⟨_, .nowhere, _, rfl⟩
  | attendant => exact ⟨_, .attendant, _, rfl⟩
  | station i => exact ⟨_, .station i, _, rfl⟩
  | group k => exact ⟨_, .group k, _, rfl⟩

theorem hop_queues (hc : ∃ c, s.findCall h = some c ∧ c.offered = []) (r : RouteReason) :
    SameQueues s (s.hop h g r).1 ∧ ∀ k, (s.hop h g r).2 = some k → Roams (s.hop h g r).1 h := by
  obtain ⟨c, hc, ho⟩ := hc
  obtain ⟨why, dest, n, e⟩ := hop_delivers (g := g) hc r
  have found := hopped_findCall (g := g) (why := why) (dest := dest) (n := n) hc
  have roams : Roams (s.hopped h g why dest n) h := ⟨_, found, by simp [Call.leftGroup], ho⟩
  rw [e]
  exact ⟨(SameQueues.of_groups rfl).trans (deliver_queues roams dest), fun k hk => deliver_roams roams hk⟩

theorem arrive_others (n : Nat) (a : Roams s h) (g : GroupId) : OthersStay h s (State.arrive n s h g) := by
  induction n generalizing s g with
  | zero => exact .of_groups rfl
  | succ n ih =>
    obtain ⟨c, hc, hq, ho⟩ := a
    rw [arrive_succ hc]
    split
    · exact .offerGroup hc g _
    · exact .enterQueue hc g []
    · obtain ⟨same, next⟩ := hop_queues (g := g) ⟨c, hc, ho⟩ ‹_›
      split
      · rename_i e
        rw [e] at same
        exact .of_queues same
      · rename_i e
        rw [e] at same next
        exact (OthersStay.of_queues same).trans (ih (next _ rfl) _)

theorem route_others (hc : ∃ c, s.findCall h = some c ∧ c.offered = []) (r : RouteReason) : OthersStay h s (s.route h g r) := by
  obtain ⟨same, next⟩ := hop_queues (g := g) hc r
  unfold State.route
  split
  · rename_i e
    rw [e] at same
    exact .of_queues same
  · rename_i e
    rw [e] at same next
    exact (OthersStay.of_queues same).trans (arrive_others _ (next _ rfl) _)

end

/-! ## A lowered limit (R72) -/

section
variable {G : GroupId → Prop} {cap : GroupId → Nat} {s : State} {h : Handle} {g : GroupId} {l stay leave : List Handle}

/-- The tail of a queue above its limit overflows: the calls before it stay, and it does not come back. -/
theorem overflow_tail (q : Orderly (fun _ => False) G cap s) (hl : (s.group g).queue = l ++ [h])
    (limit : (s.groupCfg g).queueLimit ≤ l.length) (r : RouteReason) :
    ((s.overflow h g r).group g).queue = l ∧
      Orderly (fun _ => False) G (fun k => if k = g then l.length else cap k) (s.overflow h g r) := by
  obtain ⟨c, hc, hq, hg⟩ := (q.queue g h id).1 (by simp [hl])
  have q1 : Orderly (fun _ => False) G (fun k => if k = g then l.length else cap k) (s.overflow h g r) :=
    q.overflow hc hq hg (fun k e => by simp [e]) (by simp [hl]) r
  have few : ((s.overflow h g r).group g).queue.length ≤ l.length := by
    have room := q1.room g
    rw [State.groupCfg, ((Quiet.refl s).overflow h g r).cfg, if_pos rfl] at room
    exact room.trans (max_le le_rfl limit)
  refine ⟨?_, q1⟩
  by_cases alone : l = []
  · rw [alone] at few ⊢
    exact List.eq_nil_of_length_eq_zero (Nat.le_zero.1 few)
  · have once := q.once g
    rw [hl, List.nodup_append] at once
    obtain ⟨-, -, apart⟩ := once
    have before : ∀ k ∈ l, (!(k == h)) = true := fun k hk => by simpa using apart k hk h (by simp)
    have ho : c.offered = [] := by
      have shape := q.shape h c id hc
      unfold Call.Shape at shape
      rw [hq] at shape
      obtain ⟨-, offered, -⟩ := shape
      exact offered
    have within : (s.group g).queue.head? ≠ some h := by
      obtain ⟨k, l', rfl⟩ := List.exists_cons_of_ne_nil alone
      rw [hl]
      simpa using apart k (by simp) h (by simp)
    have moved : s.overflow h g r = (s.leaveQueue h g).route h g r := by
      rw [overflow_eq hc, ho, overflowMove_within hc hq within]
      rfl
    have found : (s.leaveQueue h g).findCall h = some c := (s.leaveQueue_findCall h h g).trans hc
    have others := (OthersStay.leaveQueue s h g).trans (route_others (g := g) ⟨c, found, ho⟩ r) g
    rw [← moved, hl, List.filter_append, List.filter_eq_self.2 before] at others
    simp only [List.filter_singleton, beq_self_eq_true, Bool.not_true, Bool.cond_false, List.append_nil] at others
    rw [← others]
    exact (List.filter_sublist.eq_of_length_le (by rw [others]; exact few)).symm

/-- Calls overflow one by one from the tail until the queue is within the limit. -/
theorem lowerLimit_overflows (n : Nat) (q : Orderly (fun _ => False) G cap s) (hs : (s.group g).queue = stay ++ leave)
    (hn : leave.length ≤ n) (hl : stay.length = min (s.groupCfg g).queueLimit (s.group g).queue.length) :
    State.lowerLimit n g s = leave.reverse.foldl (fun v h => v.overflow h g .limitLowered) s := by
  induction n generalizing s leave cap with
  | zero =>
    rw [List.eq_nil_of_length_eq_zero (Nat.le_zero.1 hn)]
    rfl
  | succ n ih =>
    have length : (s.group g).queue.length = stay.length + leave.length := by rw [hs, List.length_append]
    unfold State.lowerLimit
    rcases List.eq_nil_or_concat leave with rfl | ⟨init, h, rfl⟩
    · rw [if_neg (by rw [List.length_nil] at length; omega)]
      rfl
    · rw [List.concat_eq_append] at hs hn length ⊢
      rw [List.length_append, List.length_singleton] at hn length
      have tail : (s.group g).queue = (stay ++ init) ++ [h] := by rw [hs, List.append_assoc]
      obtain ⟨queue, q1⟩ := overflow_tail q tail (by rw [List.length_append]; omega) .limitLowered
      have cfg : (s.overflow h g .limitLowered).groupCfg g = s.groupCfg g := by
        rw [State.groupCfg, ((Quiet.refl s).overflow h g .limitLowered).cfg]
        rfl
      rw [if_pos (by omega), tail, List.getLast?_concat, List.reverse_append]
      exact ih q1 queue (by omega) (by rw [cfg, queue, List.length_append]; omega)

end

/-! ## A disabling (R74) -/

section
variable {α : Type} {before : α → α → Bool}

/-- A list in the order of a strict weak order stays so with one element more. -/
theorem insertBy_ordered (asymm : ∀ a b, before a b = true → before b a = false)
    (chain : ∀ a b c, before b a = false → before c b = false → before c a = false) (x : α) {l : List α}
    (hl : l.Pairwise fun a b => before b a = false) : (insertBy before x l).Pairwise fun a b => before b a = false := by
  induction l with
  | nil => simp [insertBy]
  | cons y l ih =>
    obtain ⟨hy, hl'⟩ := List.pairwise_cons.1 hl
    unfold insertBy
    split
    · rename_i first
      refine List.pairwise_cons.2 ⟨fun z hz => ?_, hl⟩
      rcases List.mem_cons.1 hz with rfl | hz
      · exact asymm _ _ first
      · exact chain x y z (asymm _ _ first) (hy z hz)
    · rename_i later
      refine List.pairwise_cons.2 ⟨fun z hz => ?_, ih hl'⟩
      rcases List.mem_cons.1 ((insertBy_perm before x l).mem_iff.1 hz) with rfl | hz
      · exact Bool.eq_false_iff.2 later
      · exact hy z hz

/-- A list sorted by a strict weak order stands in that order. -/
theorem sortBy_ordered (asymm : ∀ a b, before a b = true → before b a = false)
    (chain : ∀ a b c, before b a = false → before c b = false → before c a = false) (l : List α) :
    (sortBy before l).Pairwise fun a b => before b a = false := by
  induction l with
  | nil => exact .nil
  | cons x l ih => exact insertBy_ordered asymm chain x ih

end

/-- Among the calls ringing for a disabled group, `c` is moved before `d`: it has the older arrival, or the same and the lower
handle (R74). -/
def State.leavesBefore (s : State) (c d : Call) : Prop :=
  s.arrivalAge d < s.arrivalAge c ∨ (s.arrivalAge d = s.arrivalAge c ∧ @LT.lt Nat _ c.handle d.handle)

section
variable {s : State} {g : GroupId}

theorem leavesBefore_iff (c d : Call) : (if s.arrivalAge c ≠ s.arrivalAge d then decide (s.arrivalAge d < s.arrivalAge c)
    else decide (c.handle < d.handle)) = true ↔ s.leavesBefore c d := by
  unfold State.leavesBefore
  split
  · rename_i apart
    exact decide_eq_true_iff.trans ⟨.inl, fun k => k.resolve_right fun e => apart e.1.symm⟩
  · rename_i same
    have e := not_not.1 same
    exact decide_eq_true_iff.trans ⟨fun k => .inr ⟨e.symm, k⟩, fun k => (k.resolve_left fun lt => absurd e lt.ne').2⟩

/-- The calls ringing for a group stand in the order in which a disabling moves them. -/
theorem offeringAt_ordered (hn : (s.calls.map Call.handle).Nodup) :
    (s.offeringAt g).Pairwise fun a b => ∀ c d, s.findCall a = some c → s.findCall b = some d → ¬ s.leavesBefore d c := by
  unfold State.offeringAt
  refine List.pairwise_map.2 (List.Pairwise.imp_of_mem (fun {c d} hc hd ordered c' d' hc' hd' => ?_) (sortBy_ordered ?_ ?_ _))
  · rw [(sortBy_perm _ _).mem_iff, List.mem_filter] at hc hd
    have found : ∀ {x x'}, x ∈ s.calls → s.findCall x.handle = some x' → x' = x := fun hx e =>
      Option.some.inj (e.symm.trans ((State.findCall_iff hn _ _).2 ⟨hx, rfl⟩))
    rw [found hc.1 hc', found hd.1 hd', ← leavesBefore_iff, ordered]
    exact Bool.false_ne_true
  · intro a b first
    rw [leavesBefore_iff] at first
    rw [← Bool.not_eq_true, leavesBefore_iff]
    unfold State.leavesBefore at *
    omega
  · intro a b c ab bc
    rw [← Bool.not_eq_true, leavesBefore_iff] at *
    unfold State.leavesBefore at *
    omega

theorem mem_offeringAt (hn : (s.calls.map Call.handle).Nodup) (h : Handle) :
    h ∈ s.offeringAt g ↔ ∃ c, s.findCall h = some c ∧ c.state = .offering ∧ c.currentGroup = some g := by
  rw [(s.offeringAt_perm g).mem_iff]
  simp only [List.mem_map, List.mem_filter, Bool.and_eq_true, decide_eq_true_eq, State.findCall_iff hn]
  constructor
  · rintro ⟨c, ⟨hc, ho, hg⟩, e⟩
    exact ⟨c, ⟨hc, e⟩, ho, hg⟩
  · rintro ⟨c, ⟨hc, e⟩, ho, hg⟩
    exact ⟨c, ⟨hc, ho, hg⟩, e⟩

/-- The list of the calls ringing for a group in the order of a disabling is one. -/
theorem offeringAt_unique (hn : (s.calls.map Call.handle).Nodup) {hs : List Handle}
    (mem : ∀ h, h ∈ hs ↔ ∃ c, s.findCall h = some c ∧ c.state = .offering ∧ c.currentGroup = some g)
    (ordered : hs.Pairwise fun a b => ∀ c d, s.findCall a = some c → s.findCall b = some d → s.leavesBefore c d) :
    s.offeringAt g = hs := by
  have asymm : ∀ c d, s.leavesBefore c d → ¬ s.leavesBefore d c := fun c d => by
    unfold State.leavesBefore
    omega
  have once : hs.Nodup := ordered.imp_of_mem fun {a b} ha _ first e => by
    obtain ⟨c, hc, -⟩ := (mem a).1 ha
    exact asymm c c (first c c hc (e ▸ hc)) (first c c hc (e ▸ hc))
  have once' : (s.offeringAt g).Nodup := (s.offeringAt_perm g).nodup_iff.2 (hn.sublist (List.filter_sublist.map _))
  have perm : (s.offeringAt g).Perm hs := (List.perm_ext_iff_of_nodup once' once).2 fun h => (mem_offeringAt hn h).trans (mem h).symm
  refine perm.eq_of_pairwise (fun a b ha hb hab hba => ?_) (offeringAt_ordered hn)
    (ordered.imp fun first c d hc hd => asymm c d (first c d hc hd))
  obtain ⟨c, hc, -⟩ := (mem_offeringAt hn a).1 ha
  obtain ⟨d, hd, -⟩ := (mem b).1 hb
  have ab := hab c d hc hd
  have ba := hba d c hd hc
  rw [← State.findCall_handle hc, ← State.findCall_handle hd]
  unfold State.leavesBefore at ab ba
  exact Nat.le_antisymm (by omega) (by omega)

end

/-! ## A new delay (R86) -/

section
variable {s : State} {g : GroupId} {delay : Nat}

theorem redelayed_handle (s : State) (delay : Nat) (c : Call) : (s.redelayed delay c).handle = c.handle := by
  obtain ⟨handle, -⟩ := SameTable.redelayed_handle_hops s delay c
  exact handle

/-- The calls of a list that take a new delay one after another, as one change of the table. -/
theorem redelays_map (delay : Nat) {l : List Handle} (hn : l.Nodup) (s : State) :
    l.foldl (fun s h => s.updCall h (s.redelayed delay)) s =
      { s with calls := s.calls.map fun c => if c.handle ∈ l then s.redelayed delay c else c } := by
  induction l generalizing s with
  | nil => simp
  | cons h l ih =>
    obtain ⟨fresh, hn⟩ := List.nodup_cons.1 hn
    rw [List.foldl_cons, ih hn]
    refine congrArg (fun cs => { s with calls := cs }) ?_
    unfold State.updCall
    rw [List.map_map]
    refine List.map_congr_left fun c _ => ?_
    by_cases e : c.handle = h
    · simp [e, redelayed_handle, fresh]
    · simp [e]
      rfl

/-- A call of the table under a new delay of the group. -/
def State.underDelay (s : State) (g : GroupId) (delay : Nat) (c : Call) : Call :=
  if c.handle ∈ (s.group g).queue then s.redelayed delay c else c

theorem underDelay_handle (s : State) (g : GroupId) (delay : Nat) (c : Call) : (s.underDelay g delay c).handle = c.handle := by
  unfold State.underDelay
  split
  · exact redelayed_handle s delay c
  · rfl

/-- A queued call not escalated takes its flag or a fresh deadline; every other call is as it was. -/
theorem underDelay_eq (s : State) (g : GroupId) (delay : Nat) (c : Call) : s.underDelay g delay c =
    if c.handle ∈ (s.group g).queue ∧ c.escalated = false then
      if seconds delay ≤ s.queueAge c then { c with escalated := true, escDeadline := none }
      else { c with escDeadline := c.queueEntry.map fun e => later e (seconds delay) }
    else c := by
  unfold State.underDelay State.redelayed
  by_cases hm : c.handle ∈ (s.group g).queue
  · cases c.escalated <;> simp [hm]
  · simp [hm]

theorem delaySet_eq (hn : (s.group g).queue.Nodup) : s.delaySet g delay =
    if ({ s with calls := s.calls.map (s.underDelay g delay) } : State).inEscalation g = true ∧ s.inEscalation g = false then
      ({ s with calls := s.calls.map (s.underDelay g delay) } : State).escalationStart g
    else { s with calls := s.calls.map (s.underDelay g delay) } := by
  unfold State.delaySet
  rw [redelays_map delay hn]
  simp only [Bool.and_eq_true, Bool.not_eq_true']
  rfl

/-- A new delay leaves a group in escalation when it was, and where the queue age of a call has reached it. -/
theorem underDelay_inEscalation :
    ({ s with calls := s.calls.map (s.underDelay g delay) } : State).inEscalation g = true ↔
      s.inEscalation g = true ∨ ∃ h ∈ (s.group g).queue, ∃ c, s.findCall h = some c ∧ seconds delay ≤ s.queueAge c := by
  have escalated : ∀ c, (s.redelayed delay c).escalated = true ↔ c.escalated = true ∨ seconds delay ≤ s.queueAge c := fun c => by
    unfold State.redelayed
    split
    · simp [*]
    · split <;> simp [*]
  have flagged : ∀ h ∈ (s.group g).queue,
      ((∃ c, ({ s with calls := s.calls.map (s.underDelay g delay) } : State).findCall h = some c ∧ c.escalated = true) ↔
        ∃ c, s.findCall h = some c ∧ (c.escalated = true ∨ seconds delay ≤ s.queueAge c)) := fun h hm => by
    rw [s.findCall_map (underDelay_handle s g delay)]
    cases hc : s.findCall h with
    | none => simp
    | some c =>
      have queued : s.underDelay g delay c = s.redelayed delay c := if_pos (State.findCall_handle hc ▸ hm)
      simp [queued, escalated]
  rw [State.inEscalation_iff, State.inEscalation_iff]
  constructor
  · rintro ⟨h, hm, x⟩
    obtain ⟨c, hc, e | e⟩ := (flagged h hm).1 x
    · exact .inl ⟨h, hm, c, hc, e⟩
    · exact .inr ⟨h, hm, c, hc, e⟩
  · rintro (⟨h, hm, c, hc, e⟩ | ⟨h, hm, c, hc, e⟩)
    · exact ⟨h, hm, (flagged h hm).2 ⟨c, hc, .inl e⟩⟩
    · exact ⟨h, hm, (flagged h hm).2 ⟨c, hc, .inr e⟩⟩

theorem delaySet_quiet (hn : (s.group g).queue.Nodup) (off : s.inEscalation g = true ∨
    ∀ h ∈ (s.group g).queue, ∀ c, s.findCall h = some c → s.queueAge c < seconds delay) :
    s.delaySet g delay = { s with calls := s.calls.map (s.underDelay g delay) } := by
  rw [delaySet_eq hn]
  refine if_neg ?_
  rintro ⟨on, was⟩
  rcases underDelay_inEscalation.1 on with x | ⟨h, hm, c, hc, reached⟩
  · simp [was] at x
  · rcases off with x | below
    · simp [was] at x
    · exact Nat.not_lt.2 reached (below h hm c hc)

theorem delaySet_starts (hn : (s.group g).queue.Nodup) (was : s.inEscalation g = false)
    (reached : ∃ h ∈ (s.group g).queue, ∃ c, s.findCall h = some c ∧ seconds delay ≤ s.queueAge c) :
    s.delaySet g delay = ({ s with calls := s.calls.map (s.underDelay g delay) } : State).escalationStart g := by
  rw [delaySet_eq hn]
  exact if_pos ⟨underDelay_inEscalation.2 (.inr reached), was⟩

end

/-! ## The edit of one group (R182) -/

theorem groupsIn_single : ∀ g : GroupId, groupsIn (2 ^ g.val) = [g] := by decide

section
variable {s : State} {f : GroupFields} {g : GroupId}

/-- The write of one group's fields. -/
theorem writeGroups_single (s : State) (g : GroupId) (f : GroupFields) : s.writeGroups (2 ^ g.val) f =
    s.updCfg fun c => { c with groups := c.groups.set g.val (f.write (s.groupCfg g)) g.isLt } := by
  have groups : (s.cfg.groups.mapFinIdx fun i x _ => if (2 ^ g.val).testBit i then f.write x else x) =
      s.cfg.groups.set g.val (f.write (s.groupCfg g)) g.isLt := by
    refine Vector.ext fun i hi => ?_
    rw [Vector.getElem_mapFinIdx, Vector.getElem_set, Nat.testBit_two_pow]
    by_cases e : g.val = i
    · subst e
      simp [State.groupCfg]
    · simp [e]
  exact congrArg (fun gs => ({ s with cfg := { s.cfg with groups := gs } } : State)) groups

theorem acceptSetGroup_single (s : State) (g : GroupId) (f : GroupFields) : acceptSetGroup s (2 ^ g.val) f =
    f.live (s.groupCfg g).enabled (s.writeGroups (2 ^ g.val) f) g := by
  unfold acceptSetGroup
  rw [groupsIn_single]
  rfl

/-- The table of calls still agrees when the fields of one group are written, but for the delay and the limit of that group. -/
theorem writeGroups_orderly (q : Tidy s) (g : GroupId) (f : GroupFields) : Orderly (fun _ => False) (· = g)
    (fun k => if k = g then (s.group g).queue.length else 0) (s.writeGroups (2 ^ g.val) f) := by
  have cfg : ∀ k, k ≠ g → (s.writeGroups (2 ^ g.val) f).groupCfg k = s.groupCfg k := fun k e => by
    rw [writeGroups_groupCfg, Nat.testBit_two_pow, if_neg]
    simpa using fun x => e (Fin.ext x.symm)
  refine q.recfg (q.members.sublist fun k => ?_) (fun k => ?_) fun k e => ⟨id, congrArg GroupCfg.escDelay (cfg k e)⟩
  · have members : ((s.writeGroups (2 ^ g.val) f).groupCfg k).members = (s.groupCfg k).members := by
      rw [writeGroups_groupCfg]
      split <;> rfl
    exact (congrArg (List.map Member.station) members) ▸ .refl _
  · by_cases e : k = g
    · rw [e, if_pos rfl]
      exact Nat.le_max_left _ _
    · rw [if_neg e]
      exact (q.room k).trans (le_of_eq (congrArg (fun x : GroupCfg => max 0 x.queueLimit) (cfg k e).symm))

theorem live_disabled (he : f.enabled = some false) (hl : f.queueLimit = none) (hd : f.escDelay = none) (was : Bool) :
    f.live was s g = if was = true then s.disableGroup g else s := by
  simp [GroupFields.live, he, hl, hd]

theorem live_limited {n : Nat} (he : f.enabled ≠ some false) (hl : f.queueLimit = some n) (hd : f.escDelay = none) (was : Bool) :
    f.live was s g = State.lowerLimit (s.group g).queue.length g s := by
  simp [GroupFields.live, he, hl, hd]

theorem live_delayCleared (he : f.enabled ≠ some false) (hl : f.queueLimit = none) (hd : f.escDelay = some 0) (was : Bool) :
    f.live was s g = s.delayCleared g := by
  simp [GroupFields.live, he, hl, hd]

theorem live_delaySet {n : Nat} (he : f.enabled ≠ some false) (hl : f.queueLimit = none) (hd : f.escDelay = some n) (h0 : n ≠ 0)
    (was : Bool) : f.live was s g = s.delaySet g n := by
  obtain ⟨m, rfl⟩ := Nat.exists_eq_succ_of_ne_zero h0
  simp [GroupFields.live, he, hl, hd]

/-- The calls of a disabled group leave it: those queued from head to tail, then those ringing in their order. -/
theorem disableGroup_eq {G : GroupId → Prop} {cap : GroupId → Nat} {u : State} {hs : List Handle} (q : Orderly (fun _ => False) G cap s)
    (hd : (s.groupCfg g).enabled = false)
    (hu : u = (s.group g).queue.foldl (fun v h => v.overflowMove h g .groupDisabled) s)
    (mem : ∀ h, h ∈ hs ↔ ∃ c, u.findCall h = some c ∧ c.state = .offering ∧ c.currentGroup = some g)
    (ordered : hs.Pairwise fun a b => ∀ c d, u.findCall a = some c → u.findCall b = some d →
      u.arrivalAge d < u.arrivalAge c ∨ (u.arrivalAge d = u.arrivalAge c ∧ a < b)) :
    s.disableGroup g = (hs.foldl (fun v h => v.overflowMove h g .groupDisabled) u).availAll (hs.flatMap u.ringingFor) := by
  have q1 : Orderly (fun _ => False) G cap u := by
    rw [hu]
    refine q.overflowMoves _ _ hd (q.once g) fun h hm => ?_
    obtain ⟨c, hc, hq, hg⟩ := (q.queue g h id).1 hm
    exact ⟨c, hc, .inl ⟨hq, hg⟩⟩
  have order : u.offeringAt g = hs := offeringAt_unique q1.handles mem (ordered.imp fun {a b} first c d hc hd => by
    obtain rfl := State.findCall_handle hc
    obtain rfl := State.findCall_handle hd
    exact first c d hc hd)
  rw [State.disableGroup, show s.overflowQueue g = u from hu.symm, State.overflowOffers, order]

end

/-- Settles O55, by the live effect of each field. -/
theorem groupEditsActAtOnce : Obligations.GroupEditsActAtOnce := by
  intro s t tag body rest fr q f g ends hfr hq hs hf hmask ready agree ht hends
  rw [hfr] at ready hends
  have written : t = (s.takeHead rest).writeGroups (2 ^ g.val) f := ht.trans (writeGroups_single _ g f).symm
  have answers : ∀ {u}, f.live (s.groupCfg g).enabled t g = u → ends u := fun {u} e => (hends u).2 <| by
    rw [setGroup_accepted hq hs (by rw [hmask]; exact (Nat.two_pow_pos _).ne') hf ready, hmask, acceptSetGroup_single, ← written, ← e]
    rfl
  have orderly : Orderly (fun _ => False) (· = g) (fun k => if k = g then (s.group g).queue.length else 0) t := by
    rw [written]
    exact writeGroups_orderly (s := s.takeHead rest) (((callsAgree_iff s).1 agree).of_still ((Still.refl s).updLink rfl rfl)) g f
  have cfg : t.groupCfg g = f.write (s.groupCfg g) := by
    rw [written, writeGroups_groupCfg, Nat.testBit_two_pow_self, if_pos rfl]
    rfl
  have calls : t.calls = s.calls := by rw [ht]; rfl
  have group : t.group g = s.group g := by rw [ht]; rfl
  have now : t.now = s.now := by rw [ht]; rfl
  have escalation : t.inEscalation g = s.inEscalation g := State.inEscalation_of_eq calls (congrArg Group.queue group)
  refine ⟨fun he hl hd => ⟨fun was => answers ?_, fun was u hs' hu mem ordered => answers ?_⟩,
    fun limit stay leave he hl hd hqueue hstay => answers ?_, fun delay fresh he hl hd => ⟨?_, ?_⟩⟩
  · rw [live_disabled he hl hd, was]
    rfl
  · rw [live_disabled he hl hd, was, if_pos rfl]
    exact disableGroup_eq orderly (by rw [cfg]; simp [GroupFields.write, he]) (by rw [group]; exact hu) mem ordered
  · rw [live_limited he hl hd]
    refine lowerLimit_overflows _ orderly (by rw [group]; exact hqueue) (by rw [group, hqueue]; simp) ?_
    rw [cfg, group, hstay]
    simp [GroupFields.write, hl]
  · rintro rfl hfresh
    have clears := congrArg (fun l : List Call => ({ t with calls := l.map fresh } : State)) calls
    rw [← clears, funext hfresh]
    refine ⟨fun off => answers ?_, fun on => answers ?_⟩ <;> rw [live_delayCleared he hl hd, State.delayCleared, escalation]
    · rw [off]
      rfl
    · rw [on]
      rfl
  · intro h0 hfresh
    have found : ∀ h, t.findCall h = s.findCall h := fun h => by unfold State.findCall; rw [calls]
    have age : ∀ c, t.queueAge c = s.queueAge c := fun c => by unfold State.queueAge; rw [now]
    have redelays : fresh = t.underDelay g delay := funext fun c => by
      rw [hfresh, underDelay_eq, group, age]
    rw [redelays, ← calls]
    refine ⟨fun off => answers ?_, fun was reached => answers ?_⟩ <;> rw [live_delaySet he hl hd h0]
    · refine delaySet_quiet (orderly.once g) ?_
      rw [escalation, group]
      exact off.imp id fun below h hm c hc => age c ▸ below h hm c (found h ▸ hc)
    · refine delaySet_starts (orderly.once g) (escalation.trans was) ?_
      obtain ⟨h, hm, c, hc, reached⟩ := reached
      exact ⟨h, by rw [group]; exact hm, c, (found h).trans hc, (age c).symm ▸ reached⟩

end Sys2Proof.Machine
end

