-- ==== Sys2Proof/Proofs/ParkExpiries.lean ====
section
/-! SUPPORT. The park deadline of a parked call: the recall of its parker, or its fall to the attendant (R103, R105). -/

namespace Sys2Proof.Machine

section
variable {s : State} {h : Handle} {c : Call}

theorem parkDue_of (hc : s.findCall h = some c) (hp : c.state = .parked) (hd : c.parkDeadline = some s.now) :
    (s.findCall h).any s.parkDueFor = true := by
  simp [hc, State.parkDueFor, hp, hd, State.due]

/-- The record of a parked call whose park deadline has expired at an IDLE parker `r` (R103). -/
def Call.recalledAt (c : Call) (r : StationId) (now : Time) : Call :=
  { c with
    state := .recalling, offerKind := some .recalling, offered := [{ station := r, start := now }],
    ringDeadline := some (later now 30000), parkDeadline := none }

theorem parkExpired_recalls {r : StationId} (hc : s.findCall h = some c) (hr : c.parker = some r) (hi : s.isIdle r = true) :
    s.parkExpired h = (s.updCall h fun c => c.recalledAt r s.now).enterState r (.ringing h) := by
  rw [State.parkExpired, hc]
  dsimp only
  rw [hr, Option.filter_some, if_pos hi]
  rfl

/-- A call without its park deadline. -/
def Call.undated (c : Call) : Call := { c with parkDeadline := none }

theorem undated_findCall (hc : s.findCall h = some c) : (s.updCall h Call.undated).findCall h = some c.undated := by
  rw [State.findCall_updCall_self s h _ (by exact fun _ => rfl), hc]
  rfl

theorem parkExpired_falls {r : StationId} (hc : s.findCall h = some c) (hr : c.parker = some r) (hi : s.isIdle r = false) :
    s.parkExpired h = (s.updCall h Call.undated).recallToAttendant h := by
  rw [State.parkExpired, hc]
  dsimp only
  rw [hr, Option.filter_some, if_neg (by simp [hi])]
  rfl

/-- The attendant, IDLE and therefore not the parker, is rung. -/
theorem parkExpired_ringsAttendant {r a : StationId} (hc : s.findCall h = some c) (hr : c.parker = some r) (hi : s.isIdle r = false)
    (ha : s.idleAttendant = some a) :
    s.parkExpired h = (s.updCall h fun c => c.atAttendant a s.now).enterState a (.ringing h) := by
  have apart : c.undated.parker ≠ some a := fun e => by
    obtain rfl := Option.some.inj (hr.symm.trans e)
    exact absurd ((idleAttendant_iff s r).1 ha).2 (by simp [hi])
  rw [parkExpired_falls hc hr hi, recallToAttendant_rings (undated_findCall hc) ha apart, updCall_updCall s h _ _ (by exact fun _ => rfl)]
  rfl

/-- With no attendant to ring the call ends, while no call waits by the teardown of R35. -/
theorem parkExpired_ends {r : StationId} (hc : s.findCall c.handle = some c) (hp : c.state = .parked) (hr : c.parker = some r)
    (hi : s.isIdle r = false) (ha : s.idleAttendant = none) (hw : NoCallWaits s) :
    OnlyCalls s (s.parkExpired c.handle) ∧ TornDown s (s.parkExpired c.handle) c .noRoute none := by
  have found := undated_findCall hc
  have ends : s.parkExpired c.handle = (s.updCall c.handle Call.undated).endCall c.undated.handle .noRoute none := by
    rw [parkExpired_falls hc hr hi, State.recallToAttendant, found]
    dsimp only
    rw [show (s.updCall c.handle Call.undated).idleAttendant = none from ha]
    rfl
  obtain ⟨only, ⟨ended, others⟩, stations, orders⟩ :=
    endCall_unqueued (s := s.updCall c.handle Call.undated) (c := c.undated) found (by simp [Call.undated, hp]) hw .noRoute none
  rw [ends]
  refine ⟨only, ⟨ended, fun k hk => (others k hk).trans ?_⟩, stations, orders⟩
  exact State.findCall_updCall_ne s hk _ (by exact fun _ => rfl)

end

/-- Settles O36, by the state of the parker and then of the attendant. -/
theorem parkDeadlineExpires : Obligations.ParkDeadlineExpires := by
  intro s h c ready hc hp hd
  have expires : ∀ {t}, s.parkExpired h = t → t.heldAvail = s.heldAvail → exec (.parkDeadlineExpiry h) s = .next t.transmitTake :=
    fun ht held => event_settled (e := fun s => s.parkExpired h) ready (parkDue_of hc hp hd) ht held
  refine ⟨fun r hr hi => expires (parkExpired_recalls hc hr hi) (State.enterState_heldAvail ..), fun r hr hi => ⟨fun a ha =>
    expires (parkExpired_ringsAttendant hc hr hi ha) (State.enterState_heldAvail ..), fun ha hw => ?_⟩⟩
  obtain rfl := State.findCall_handle hc
  obtain ⟨only, torn⟩ := parkExpired_ends hc hp hr hi ha hw
  exact ⟨_, expires rfl (by rw [only.1]), only, torn⟩

end Sys2Proof.Machine
end

