-- ==== Sys2Proof/Proofs/Pickups.lean ====
section
/-! SUPPORT. PICKUP: the requester, the walk of its search list, and the call it takes (R90, R92, R95). -/

namespace Sys2Proof.Machine

/-! ## The walk of a search list (R92) -/

section
variable {s : State} {r : StationId} {l : ListId}

theorem walkList_none (h : ∀ e ∈ s.cfg.lists[l], s.entryCall r e = none) : s.walkList r l = none :=
  List.findSome?_eq_none_iff.2 h

/-- The first entry that yields a call ends the walk. -/
theorem walkList_some {before after : List SearchEntry} {e : SearchEntry} {h : Handle} (hl : s.cfg.lists[l] = before ++ e :: after)
    (hb : ∀ x ∈ before, s.entryCall r x = none) (he : s.entryCall r e = some h) : s.walkList r l = some h :=
  List.findSome?_eq_some_iff.2 ⟨before, e, after, hl, he, hb⟩

end

/-! ## The request (R90, R92) -/

/-- What a PICKUP of a BUSY requester does. -/
def pickupOf (s : State) (r : StationId) : Handled :=
  match (s.stationCfg r).searchList with
  | none => refuse s .denied
  | some l =>
    match s.walkList r l with
    | none => refuse s .nothing
    | some h => pickCall s r h

section
variable {s : State} {tag : Octet} {v : Nat} {rest : List Frame} {r : StationId} {l : ListId} {h : Handle}

theorem handlePickup_eq (hv : v < 65536) (s : State) : handlePickup (put2 v) s = withRequester s v (pickupOf s) :=
  withBody_of (readWide_put2' hv) s _

theorem pickup_badRequester (hv : v < 65536) (h : 511 < v) :
    Answers s rest (.pickup tag (put2 v)) ⟨0x10, tag, put2 v⟩ .badValue [] := by
  refine dispatch_answered (row := .pickup) rfl ?_
  rw [handlePickup_eq hv, withRequester_bad h]
  rfl

theorem pickup_refusedState (h : (s.station r).state ≠ .busy) :
    Answers s rest (.pickup tag (put2 r.val)) ⟨0x10, tag, put2 r.val⟩ .refusedState [] := by
  refine dispatch_answered (row := .pickup) rfl ?_
  rw [handlePickup_eq (by omega), withRequester_of, if_neg (by exact h)]
  rfl

/-- A PICKUP of a BUSY requester answers what its search list gives. -/
theorem handlePickup_busy (h : (s.station r).state = .busy) : handlePickup (put2 r.val) s = pickupOf s r := by
  rw [handlePickup_eq (by omega), withRequester_of, if_pos h]

theorem pickup_denied (h : (s.station r).state = .busy) (hl : (s.stationCfg r).searchList = none) :
    Answers s rest (.pickup tag (put2 r.val)) ⟨0x10, tag, put2 r.val⟩ .denied [] := by
  refine dispatch_answered (row := .pickup) rfl ?_
  rw [handlePickup_busy (by exact h), pickupOf, show ((s.takeHead rest).stationCfg r).searchList = none from hl]
  rfl

theorem pickup_nothing (h : (s.station r).state = .busy) (hl : (s.stationCfg r).searchList = some l) (hw : s.walkList r l = none) :
    Answers s rest (.pickup tag (put2 r.val)) ⟨0x10, tag, put2 r.val⟩ .nothing [] := by
  refine dispatch_answered (row := .pickup) rfl ?_
  rw [handlePickup_busy (by exact h), pickupOf, show ((s.takeHead rest).stationCfg r).searchList = some l from hl]
  dsimp only
  rw [show (s.takeHead rest).walkList r l = none from hw]
  rfl

theorem pickup_takes (hb : (s.station r).state = .busy) (hl : (s.stationCfg r).searchList = some l) (hw : s.walkList r l = some h)
    (ready : Ready s ⟨0x10, tag, put2 r.val⟩ rest) : exec (.pickup tag (put2 r.val)) s =
      .next (((s.takeHead rest).endCall h .picked (some r)).flush.answer ⟨0x10, tag, put2 r.val⟩ .ok (put2 h)) := by
  refine dispatch_flushed (row := .pickup) rfl ?_ ready
  rw [handlePickup_busy (by exact hb), pickupOf, show ((s.takeHead rest).stationCfg r).searchList = some l from hl]
  dsimp only
  rw [show (s.takeHead rest).walkList r l = some h from hw]
  rfl

end

/-- Settles O38, by the checks of the requester and the walk of its search list. -/
theorem pickupWalksTheSearchList : Obligations.PickupWalksTheSearchList := by
  intro s tag v r rest hv
  refine ⟨fun ready h => pickup_badRequester hv h ready, ?_⟩
  rintro _ _ rfl rfl ready
  refine ⟨fun h => pickup_refusedState h ready, fun busy => ⟨fun hl => pickup_denied busy hl ready, fun l hl =>
    ⟨fun none => pickup_nothing busy hl (walkList_none none) ready, fun before e after h list hb he => ?_⟩⟩⟩
  have taken := pickup_takes (tag := tag) busy hl (walkList_some list hb he) ready
  refine ⟨taken, fun c hc hq hw => ?_⟩
  obtain rfl := State.findCall_handle hc
  obtain ⟨only, torn⟩ := endCall_unqueued (s := s.takeHead rest) hc hq hw .picked (some r)
  have held : ((s.takeHead rest).endCall c.handle .picked (some r)).heldAvail = [] := by
    rw [only.1]
    exact ready.2.2
  exact ⟨_, by rw [taken, flush_none _ held], only, torn⟩

end Sys2Proof.Machine
end

