-- ==== Sys2Proof/Proofs/SearchEntries.lean ====
section
/-! SUPPORT. What an entry of a search list yields: the head of the eligible calls of a queue, or of those that ring in a pickup group (R91 to R94). -/

namespace Sys2Proof.Machine

section
variable {s : State} {r : StationId}

theorem findCall_any_eligible_iff (h : Handle) :
    (s.findCall h).any (s.eligible r) = true ↔ ∃ c, s.findCall h = some c ∧ s.eligible r c = true := by
  cases s.findCall h <;> simp

/-! ## A queue (R94) -/

section
variable {g : GroupId}

theorem hqCall_none_iff : s.hqCall r g = none ↔ ∀ k ∈ (s.group g).queue, ∀ x, s.findCall k = some x → ¬ s.eligible r x = true := by
  unfold State.hqCall
  rw [List.find?_eq_none]
  refine forall₂_congr fun k _ => ?_
  rw [findCall_any_eligible_iff]
  push Not
  rfl

theorem hqCall_some {h : Handle} {before after : List Handle} {c : Call} (hq : (s.group g).queue = before ++ h :: after)
    (hc : s.findCall h = some c) (he : s.eligible r c = true)
    (hb : ∀ k ∈ before, ∀ x, s.findCall k = some x → ¬ s.eligible r x = true) : s.hqCall r g = some h := by
  unfold State.hqCall
  refine List.find?_eq_some_iff_append.2 ⟨(findCall_any_eligible_iff h).2 ⟨c, hc, he⟩, before, after, hq, fun k hk => ?_⟩
  rw [Bool.not_eq_true', Bool.eq_false_iff, Ne, findCall_any_eligible_iff]
  rintro ⟨x, hx, ok⟩
  exact hb k hk x hx ok

end

/-! ## A pickup group (R93) -/

section
variable {n : PickupGroup}

theorem mem_pgAges {c : Call} {a : Nat} : a ∈ s.pgAges n c ↔
    ∃ x ∈ c.offered, (s.stationCfg x.station).pickupGroup = some n ∧ ageOf s.now x.start = a := by
  simp [State.pgAges, and_assoc]

theorem pgAges_ne_nil_iff {c : Call} : s.pgAges n c ≠ [] ↔ ∃ x ∈ c.offered, (s.stationCfg x.station).pickupGroup = some n := by
  simp [State.pgAges]

theorem pgCandidate_iff (c : Call) : s.pgCandidate n c = true ↔ (c.state = .offering ∨ c.state = .recalling) ∧
    ∃ x ∈ c.offered, (s.stationCfg x.station).pickupGroup = some n := by
  rw [State.pgCandidate, Bool.and_eq_true, Bool.or_eq_true, decide_eq_true_iff, decide_eq_true_iff, decide_eq_true_iff,
    pgAges_ne_nil_iff]

/-- The ranking age is the greatest of the ages of the rings in the group. -/
theorem pgRank_greatest {c : Call} (hc : s.pgAges n c ≠ []) : s.pgRank n c ∈ s.pgAges n c ∧ ∀ a ∈ s.pgAges n c, a ≤ s.pgRank n c := by
  obtain ⟨m, hm⟩ := Option.isSome_iff_exists.1 (List.isSome_max?_of_ne_nil hc)
  have rank : s.pgRank n c = m := by
    rw [State.pgRank, List.foldl_max, hm]
    exact Nat.zero_max m
  rw [rank]
  exact List.max?_eq_some_iff.1 hm

/-- At PG(n) the call `c` is taken before the call `d`: it has the older ranking time, then the older arrival, then the lower
handle (R93). -/
def State.pgFirst (s : State) (n : PickupGroup) (c d : Call) : Prop :=
  s.pgRank n d < s.pgRank n c ∨ (s.pgRank n d = s.pgRank n c ∧ s.leavesBefore c d)

/-- A call that is not taken before `c` ranks behind it, or stands level with it in all but the handle (R93). -/
theorem not_pgFirst_iff (c d : Call) : ¬ s.pgFirst n d c ↔ s.pgRank n d < s.pgRank n c ∨ (s.pgRank n d = s.pgRank n c ∧
    (s.arrivalAge d < s.arrivalAge c ∨ (s.arrivalAge d = s.arrivalAge c ∧ @LE.le Nat _ c.handle d.handle))) := by
  unfold State.pgFirst State.leavesBefore
  omega

theorem pgBefore_iff (c d : Call) : s.pgBefore n c d = true ↔ s.pgFirst n c d := by
  unfold State.pgBefore State.pgFirst
  split
  · rename_i apart
    exact decide_eq_true_iff.trans ⟨.inl, fun k => k.resolve_right fun e => apart e.1.symm⟩
  · rename_i same
    have e := (not_not.1 same).symm
    exact (leavesBefore_iff c d).trans ⟨fun k => .inr ⟨e, k⟩, fun k => (k.resolve_left fun lt => absurd e lt.ne).2⟩

/-- The candidates at PG(n) that are eligible to the requester, the one to be taken in front (R93). -/
def State.pgLine (s : State) (r : StationId) (n : PickupGroup) : List Call :=
  sortBy (s.pgBefore n) (s.calls.filter fun c => s.pgCandidate n c && s.eligible r c)

theorem pgCall_eq : s.pgCall r n = (s.pgLine r n).head?.map Call.handle := rfl

theorem mem_pgLine {c : Call} : c ∈ s.pgLine r n ↔ c ∈ s.calls ∧ s.pgCandidate n c = true ∧ s.eligible r c = true := by
  rw [State.pgLine, (sortBy_perm _ _).mem_iff, List.mem_filter, Bool.and_eq_true]

theorem pgLine_ordered : (s.pgLine r n).Pairwise fun c d => ¬ s.pgFirst n d c := by
  refine (sortBy_ordered ?_ ?_ _).imp fun {c d} ordered => ?_
  · intro c d first
    rw [pgBefore_iff] at first
    rw [← Bool.not_eq_true, pgBefore_iff]
    unfold State.pgFirst State.leavesBefore at *
    omega
  · intro c d e cd de
    rw [← Bool.not_eq_true, pgBefore_iff] at *
    unfold State.pgFirst State.leavesBefore at *
    omega
  · rw [← pgBefore_iff, ordered]
    exact Bool.false_ne_true

theorem pgCall_none_iff : s.pgCall r n = none ↔ ∀ c ∈ s.calls, ¬ (s.pgCandidate n c = true ∧ s.eligible r c = true) := by
  rw [pgCall_eq, Option.map_eq_none_iff, List.head?_eq_none_iff, List.eq_nil_iff_forall_not_mem]
  simp only [mem_pgLine, not_and]

/-- The call yielded is a candidate, and no other eligible candidate is taken before it. -/
theorem pgCall_some {h : Handle} (hh : s.pgCall r n = some h) : ∃ c ∈ s.calls, c.handle = h ∧ s.pgCandidate n c = true ∧
    s.eligible r c = true ∧ ∀ d ∈ s.calls, s.pgCandidate n d = true → s.eligible r d = true → ¬ s.pgFirst n d c := by
  rw [pgCall_eq, Option.map_eq_some_iff] at hh
  obtain ⟨c, front, rfl⟩ := hh
  obtain ⟨behind, line⟩ := List.head?_eq_some_iff.1 front
  obtain ⟨mem, cand, elig⟩ := mem_pgLine.1 (List.mem_of_head? front)
  refine ⟨c, mem, rfl, cand, elig, fun d hd cd ed => ?_⟩
  have ordered := pgLine_ordered (s := s) (r := r) (n := n)
  have inLine : d ∈ s.pgLine r n := mem_pgLine.2 ⟨hd, cd, ed⟩
  rw [line] at ordered inLine
  obtain rfl | later := List.mem_cons.1 inLine
  · exact (not_pgFirst_iff d d).2 (.inr ⟨rfl, .inr ⟨rfl, le_rfl⟩⟩)
  · exact (List.pairwise_cons.1 ordered).1 d later

end

end

/-- Settles O39, by the place of the entry's call in its queue or in the order of its pickup group. -/
theorem searchEntriesYieldTheOldestEligibleCall : Obligations.SearchEntriesYieldTheOldestEligibleCall := by
  intro s r eligible heligible
  obtain rfl : eligible = fun c => s.eligible r c = true := funext fun c => propext ((heligible c).trans (eligible_iff s r c).symm)
  refine ⟨fun k => rfl, fun g h before after c hq hc he hb => hqCall_some hq hc he hb, fun g hn => hqCall_none_iff.2 hn,
    fun n candidate hcandidate => ?_⟩
  obtain rfl : candidate = fun c => s.pgCandidate n c = true := funext fun c => propext ((hcandidate c).trans (pgCandidate_iff c).symm)
  refine ⟨pgCall_none_iff, fun h hh => ?_, fun c hc => ?_⟩
  · obtain ⟨c, mem, rfl, cand, elig, first⟩ := pgCall_some hh
    exact ⟨c, mem, rfl, cand, elig, fun d hd cd ed => (not_pgFirst_iff c d).1 (first d hd cd ed)⟩
  · obtain ⟨mem, greatest⟩ := pgRank_greatest (pgAges_ne_nil_iff.2 ((pgCandidate_iff c).1 hc).2)
    obtain ⟨x, hx, hn, age⟩ := mem_pgAges.1 mem
    exact ⟨⟨x, hx, hn, age.symm⟩, fun y hy hn => greatest _ (mem_pgAges.2 ⟨y, hy, hn, rfl⟩)⟩

end Sys2Proof.Machine
end

