-- ==== Sys2Proof/Proofs/Parkings.lean ====
section
/-! SUPPORT. PARK: its checks in their order, and the orbit it takes (R90, R100 to R102). -/

namespace Sys2Proof.Machine

/-! ## The orbit a PARK takes (R100 to R102) -/

section
variable {s : State}

/-- An orbit is free: no call's record names it (R100). -/
def State.orbitFree (s : State) (k : OrbitId) : Prop := ∀ c ∈ s.calls, c.orbit ≠ some k

theorem orbitHolder_isNone_iff (k : OrbitId) : (s.orbitHolder k).isNone = true ↔ s.orbitFree k := by
  rw [Option.isNone_iff_eq_none]
  exact orbitHolder_none_iff s k

theorem chooseOrbit_named {k : OrbitId} (h : s.orbitFree k) : (chooseOrbit s (some k)).1 = some k :=
  if_pos ((orbitHolder_isNone_iff k).2 h)

theorem chooseOrbit_held {k : OrbitId} (h : ¬ s.orbitFree k) : chooseOrbit s (some k) = (none, .refusedState) := by
  rw [chooseOrbit, if_neg (by rw [orbitHolder_isNone_iff]; exact h)]

/-- ANY takes the lowest free orbit. -/
theorem chooseOrbit_lowest {k : OrbitId} (h : s.orbitFree k) (low : ∀ j, j < k → ¬ s.orbitFree j) : (chooseOrbit s none).1 = some k := by
  refine List.find?_eq_some_iff_getElem.2 ⟨(orbitHolder_isNone_iff k).2 h, k.val, by simp, by simp, fun j hj => ?_⟩
  rw [List.getElem_finRange, Bool.not_eq_true', Bool.eq_false_iff, Ne, orbitHolder_isNone_iff]
  exact low _ hj

theorem chooseOrbit_full (h : ∀ k, ¬ s.orbitFree k) : chooseOrbit s none = (none, .full) := by
  have none : (List.finRange 20).find? (fun o => (s.orbitHolder o).isNone) = none :=
    List.find?_eq_none.2 fun k _ => by rw [orbitHolder_isNone_iff]; exact h k
  rw [chooseOrbit, none]

end

theorem finOrNone_some_iff {n absent v : Nat} {w : Option (Fin n)} (h : n ≤ absent) :
    finOrNone n absent v = some w ↔ (w.map Fin.val).getD absent = v := by
  refine ⟨finOrNone_code, fun e => ?_⟩
  unfold finOrNone
  obtain _ | i := w
  · exact if_pos e.symm
  · obtain rfl : i.val = v := e
    rw [if_neg (by omega), finOf_self]
    rfl

/-! ## The checks (R90, R101) -/

/-- The fields of a PARK are out of their ranges (R101 check 1). -/
def badPark (h o flag : Nat) (d : List Nat) : Prop := h = 0 ∨ (20 ≤ o ∧ o ≠ 255) ∨ 1 < flag ∨ 8 < d.length ∨ ∃ x ∈ d, 9 < x

/-- The checks of PARK in the order of R90 and R101. -/
def parkChecks (s : State) (v h o flag : Nat) (d : List Nat) : List (Prop × Result) :=
  [ (511 < v, .badValue), (∀ i : StationId, i.val = v → (s.station i).state ≠ .busy, .refusedState), (badPark h o flag d, .badValue),
    ((s.findCall h).isSome = true, .duplicate), (96 ≤ s.calls.length, .full), (o = 255 ∧ ∀ k, ¬ s.orbitFree k, .full),
    (∃ k : OrbitId, k.val = o ∧ ¬ s.orbitFree k, .refusedState) ]

/-- What a PARK does with the orbit chosen for it, or with the refusal of one. -/
def parkIn (s : State) (h : Handle) (d : List Digit) (noPickup : Bool) (r : StationId) : Option OrbitId × Result → Handled
  | (some o, _) => accept (s.addCall (parkedCall s h d noPickup r o)) (put1 o.val)
  | (none, why) => refuse s why

/-- What a PARK does once its requester and its fields are in range. -/
def parkOf (s : State) (h : Handle) (d : List Digit) (noPickup : Bool) (r : StationId) (asked : Option OrbitId) : Handled :=
  if (s.findCall h).isSome then refuse s .duplicate
  else if Config.callRecords ≤ s.calls.length then refuse s .full
  else parkIn s h d noPickup r (chooseOrbit s asked)

/-- What a PARK of a BUSY requester does. -/
def parkFields (s : State) (h o flag : Nat) (d : List Nat) (r : StationId) : Handled :=
  orBadValue s (finOrNone 20 255 o) fun asked =>
    orBadValue s (flagOf flag) fun noPickup =>
      if h = 0 ∨ goodDigits d = false then refuse s .badValue else parkOf s h d noPickup r asked

section
variable {s : State} {v h o flag : Nat} {d : List Nat} {r : StationId} {asked : Option OrbitId} {noPickup : Bool}

theorem handlePark_eq (hv : v < 65536) (hh : h < 65536) (ho : o < 256) (hf : flag < 256) (hd : Carried d) (s : State) :
    handlePark (put2 v ++ put2 h ++ put1 o ++ put1 flag ++ putDigits d) s = withRequester s v (parkFields s h o flag d) :=
  withBody_of (v := (v, h, o, flag, d)) ((readPark_takes _ _ _).2 ⟨⟨hv, hh, ho, hf, hd⟩, (List.append_nil _).symm⟩) s _

/-- The orbit field names an orbit or asks for ANY when it is in range. -/
theorem asked_of_good (good : ¬ badPark h o flag d) : ∃ asked : Option OrbitId, (asked.map Fin.val).getD 255 = o := by
  by_cases any : o = 255
  · exact ⟨none, any.symm⟩
  · have named : o < 20 := Nat.lt_of_not_le fun e => good (.inr (.inl ⟨e, any⟩))
    exact ⟨some ⟨o, named⟩, rfl⟩

theorem parkFields_bad (bad : badPark h o flag d) : parkFields s h o flag d r = refuse s .badValue := by
  unfold parkFields
  cases ho : finOrNone 20 255 o with
  | none => rfl
  | some asked =>
    cases hf : flagOf flag with
    | none => rfl
    | some noPickup =>
      have orbit : ¬ (20 ≤ o ∧ o ≠ 255) := fun e => by simp [finOrNone_none_iff.2 e] at ho
      have flagged : ¬ 1 < flag := fun e => by simp [flagOf_none_iff.2 e] at hf
      exact if_pos (bad.imp_right fun e => (badDigits_iff d).2 ((e.resolve_left orbit).resolve_left flagged))

theorem parkFields_good (ho : (asked.map Fin.val).getD 255 = o) (good : ¬ badPark h o flag d) :
    parkFields s h o flag d r = parkOf s h d (decide (flag = 1)) r asked := by
  obtain ⟨nonzero, -, flagged, digits⟩ : h ≠ 0 ∧ ¬ (20 ≤ o ∧ o ≠ 255) ∧ ¬ 1 < flag ∧ ¬ (8 < d.length ∨ ∃ x ∈ d, 9 < x) := by
    simpa only [badPark, not_or] using good
  obtain ⟨noPickup, hf⟩ := Option.ne_none_iff_exists'.1 (mt flagOf_none_iff.1 flagged)
  obtain rfl := flagOf_code hf
  rw [parkFields, (finOrNone_some_iff (by decide)).2 ho, hf]
  exact if_neg (not_or.2 ⟨nonzero, mt (badDigits_iff d).1 digits⟩)

theorem parkOf_room (fresh : s.findCall h = none) (room : s.calls.length < 96) :
    parkOf s h d noPickup r asked = parkIn s h d noPickup r (chooseOrbit s asked) := by
  rw [parkOf, if_neg (by simp [fresh])]
  exact if_neg (not_le.2 room)

/-- The first check that fails gives the reply. -/
theorem park_refused {result : Result} (fails : FirstFailure (parkChecks s v h o flag d) result) :
    withRequester s v (parkFields s h o flag d) = refuse s result := by
  obtain ⟨big, rfl⟩ | ⟨small, fails⟩ := fails
  · exact withRequester_bad big _
  obtain ⟨r, rfl⟩ : ∃ r : StationId, r.val = v := ⟨⟨v, by omega⟩, rfl⟩
  rw [withRequester_of]
  obtain ⟨quiet, rfl⟩ | ⟨busy, fails⟩ := fails
  · exact if_neg (quiet r rfl)
  have busy : (s.station r).state = .busy := by
    by_contra quiet
    exact busy fun i e => by rwa [Fin.ext e]
  rw [if_pos busy]
  obtain ⟨bad, rfl⟩ | ⟨good, fails⟩ := fails
  · exact parkFields_bad bad
  obtain ⟨asked, ho⟩ := asked_of_good good
  rw [parkFields_good ho good]
  obtain ⟨held, rfl⟩ | ⟨fresh, fails⟩ := fails
  · exact if_pos held
  have fresh : s.findCall h = none := by simpa using fresh
  obtain ⟨full, rfl⟩ | ⟨room, fails⟩ := fails
  · rw [parkOf, if_neg (by simp [fresh])]
    exact if_pos full
  rw [parkOf_room fresh (by omega)]
  obtain ⟨⟨any, taken⟩, rfl⟩ | ⟨-, ⟨⟨k, hk, held⟩, rfl⟩ | ⟨-, fails⟩⟩ := fails
  · obtain rfl : asked = none := by
      obtain _ | i := asked
      · rfl
      · exact absurd (show i.val = 255 from ho.trans any) (by omega)
    rw [chooseOrbit_full taken]
    rfl
  · obtain rfl : asked = some k := Option.some.inj (((finOrNone_some_iff (by decide)).2 ho).symm.trans
      ((finOrNone_some_iff (w := some k) (by decide)).2 hk))
    rw [chooseOrbit_held held]
    rfl
  · exact fails.elim

/-- A PARK that passes every check sets up its record in the orbit chosen. -/
theorem park_accepted {k : OrbitId} (busy : (s.station r).state = .busy) (good : ¬ badPark h o flag d)
    (ho : (asked.map Fin.val).getD 255 = o) (fresh : s.findCall h = none) (room : s.calls.length < 96)
    (chosen : (chooseOrbit s asked).1 = some k) : withRequester s r.val (parkFields s h o flag d) =
      accept (s.addCall (parkedCall s h d (decide (flag = 1)) r k)) (put1 k.val) := by
  rw [withRequester_of, if_pos busy, parkFields_good ho good, parkOf_room fresh room]
  generalize chooseOrbit s asked = choice at chosen
  obtain ⟨orbit, why⟩ := choice
  obtain rfl := chosen
  rfl

end

/-- Settles O41, by the checks in their order, and then by the orbit asked for. -/
theorem parkTakesARecordAndAnOrbit : Obligations.ParkTakesARecordAndAnOrbit := by
  rintro s tag v h o flag d rest _ _ isFree hv hh ho hf hl hd rfl rfl ready hfree
  obtain rfl : isFree = s.orbitFree := funext fun k => propext (hfree k)
  have handled := handlePark_eq hv hh ho hf ⟨hl, hd⟩ (s.takeHead rest)
  refine ⟨fun r fails => dispatch_answered (row := .park) rfl (handled.trans (park_refused (by exact fails))) ready, ?_⟩
  rintro i k rfl busy nonzero flagged short digits fresh room free orbit
  have good : ¬ badPark h o flag d := by
    rintro (e | e | e | e | ⟨x, hx, e⟩)
    · exact nonzero e
    · omega
    · omega
    · omega
    · exact absurd (digits x hx) (not_le.2 e)
  obtain ⟨asked, named, chosen⟩ : ∃ asked : Option OrbitId, (asked.map Fin.val).getD 255 = o ∧
      (chooseOrbit (s.takeHead rest) asked).1 = some k := by
    obtain rfl | ⟨rfl, low⟩ := orbit
    · exact ⟨some k, rfl, chooseOrbit_named (by exact free)⟩
    · exact ⟨none, rfl, chooseOrbit_lowest (by exact free) (by exact low)⟩
  exact dispatch_served (row := .park) rfl (handled.trans (park_accepted (by exact busy) good named fresh room chosen)) ready.2.2 ready

end Sys2Proof.Machine
end

