-- ==== Sys2Proof/Proofs/PlainEdits.lean ====
section
/-! SUPPORT. SET_PICKUP, SET_LIST, SET_MAP and SET_CHIME: their ranges, their repeats, and the one record each writes (R88, R89, R110, R140, R182). -/

namespace Sys2Proof.Machine

/-! ## SET_PICKUP (R88) -/

section
variable {s : State} {tag : Octet} {first last n : Nat} {rest : List Frame}

/-- The body of SET_PICKUP. -/
theorem readSetPickup_takes : Reader.Takes readSetPickup (fun v => v.1 < 65536 ∧ v.2.1 < 65536 ∧ v.2.2 < 256)
    (fun v => put2 v.1 ++ put2 v.2.1 ++ put1 v.2.2) := by
  intro b v rest
  simp only [readSetPickup, run_bind_some readWide_takes, run_bind_some readOctet_takes, run_pure_some]
  constructor
  · rintro ⟨_, _, ⟨h0, rfl⟩, _, _, ⟨h1, rfl⟩, _, _, ⟨h2, rfl⟩, rfl, rfl⟩
    exact ⟨⟨h0, h1, h2⟩, by simp only [List.append_assoc]⟩
  · rintro ⟨⟨h0, h1, h2⟩, hb⟩
    simp only [List.append_assoc] at hb
    exact ⟨_, _, ⟨h0, hb⟩, _, _, ⟨h1, rfl⟩, _, _, ⟨h2, rfl⟩, rfl, rfl⟩

theorem goodRange_iff : goodRange first last = true ↔ first ≤ last ∧ last ≤ 511 := by
  rw [goodRange, Bool.and_eq_true, decide_eq_true_iff, decide_eq_true_iff]

theorem handleSetPickup_eq (hf : first < 65536) (hl : last < 65536) (hn : n < 256) (hs : s.save = none) :
    handleSetPickup (put2 first ++ put2 last ++ put1 n) s = orBadUnless s (goodRange first last)
      (orBadValue s (finOrNone 64 255 n) fun g => accept (s.writeStations first last fun c => { c with pickupGroup := g }) []) :=
  (withBody_of (v := (first, last, n)) ((readSetPickup_takes _ _ _).2 ⟨⟨hf, hl, hn⟩, (List.append_nil _).symm⟩) s _).trans
    (unlessSaving_none hs _)

theorem setPickup_badValue (hf : first < 65536) (hl : last < 65536) (hn : n < 256) (hs : s.save = none)
    (bad : last < first ∨ 511 < last ∨ (63 < n ∧ n ≠ 255)) : Answers s rest (.setPickup tag (put2 first ++ put2 last ++ put1 n))
      ⟨0x35, tag, put2 first ++ put2 last ++ put1 n⟩ .badValue [] := by
  refine dispatch_answered (row := .setPickup) rfl ?_
  rw [handleSetPickup_eq hf hl hn (by exact hs)]
  by_cases range : goodRange first last = true
  · obtain ⟨h1, h2⟩ := goodRange_iff.1 range
    rw [range, finOrNone_none_iff.2 ((bad.resolve_left (by omega)).resolve_left (by omega))]
    rfl
  · rw [Bool.not_eq_true] at range
    rw [range]
    rfl

theorem setPickup_writes {g : Option PickupGroup} (hf : first < 65536) (hl : last < 65536) (hn : n < 256) (hs : s.save = none)
    (h1 : first ≤ last) (h2 : last ≤ 511) (hg : (g.map Fin.val).getD 255 = n) :
    Edits s rest (.setPickup tag (put2 first ++ put2 last ++ put1 n)) ⟨0x35, tag, put2 first ++ put2 last ++ put1 n⟩ fun c =>
      { c with stations := c.stations.mapFinIdx fun i x _ => if first ≤ i ∧ i ≤ last then { x with pickupGroup := g } else x } := by
  refine fun ready => dispatch_served (row := .setPickup) rfl ?_ ready.2.2 ready
  rw [handleSetPickup_eq hf hl hn (by exact hs), goodRange_iff.2 ⟨h1, h2⟩, (finOrNone_some_iff (by decide)).2 hg]
  rfl

end

/-! ## SET_LIST (R89) -/

theorem allOf_map {α β : Type} {f : α → Option β} {code : β → α} (h : ∀ y, f (code y) = some y) (l : List β) :
    allOf f (l.map code) = some l := by
  induction l with
  | nil => rfl
  | cons y l ih => rw [List.map_cons, allOf, h, ih]

/-- An entry of a SET_LIST body in range. -/
def entryOf (e : Nat × Nat × Nat) : Option SearchEntry := searchEntryOf e.1 e.2.1 e.2.2

theorem entryOf_none_iff (e : Nat × Nat × Nat) :
    entryOf e = none ↔ 1 < e.1 ∨ (e.1 = 0 ∧ 63 < e.2.1) ∨ (e.1 = 1 ∧ 31 < e.2.1) ∨ 1 < e.2.2 := by
  obtain ⟨kind, n, flag⟩ := e
  unfold entryOf searchEntryOf
  obtain _ | _ | kind := kind <;> obtain _ | _ | flag := flag <;> simp [flagOf, finOf_none_iff, Nat.succ_le_iff]

/-- The numbers that spell an entry of a search list: kind, number, enabled flag (R171). -/
def SearchEntry.codes (e : SearchEntry) : Nat × Nat × Nat :=
  match e.key with
  | .pg n => (0, n.val, e.enabled.toNat)
  | .hq g => (1, g.val, e.enabled.toNat)

theorem entryOf_codes (e : SearchEntry) : entryOf e.codes = some e := by
  obtain ⟨_ | _, enabled⟩ := e <;> simp [SearchEntry.codes, entryOf, searchEntryOf, flagOf_toNat, finOf_self]

theorem octets_codes (e : SearchEntry) : e.octets = put1 e.codes.1 ++ put1 e.codes.2.1 ++ put1 e.codes.2.2 := by
  obtain ⟨_ | _, enabled⟩ := e <;> rfl

theorem codes_lt (e : SearchEntry) : e.codes.1 < 256 ∧ e.codes.2.1 < 256 ∧ e.codes.2.2 < 256 := by
  have flag := Bool.toNat_lt e.enabled
  unfold SearchEntry.codes
  split <;> dsimp only <;> omega

/-- The octets of a SET_LIST. -/
def listBody (v : Nat) (es : List (Nat × Nat × Nat)) : List Octet :=
  put1 v ++ put1 es.length ++ es.flatMap fun e => put1 e.1 ++ put1 e.2.1 ++ put1 e.2.2

theorem listBody_codes (v : Nat) (es : List SearchEntry) :
    listBody v (es.map SearchEntry.codes) = put1 v ++ put1 es.length ++ es.flatMap SearchEntry.octets := by
  rw [listBody, List.length_map, List.flatMap_map, funext octets_codes]

section
variable {s : State} {tag : Octet} {v : Nat} {es : List (Nat × Nat × Nat)} {rest : List Frame}

/-- What a SET_LIST with its entries in range does to a list. -/
def writeList (s : State) (l : ListId) (es : List SearchEntry) : Handled :=
  if (es.map SearchEntry.key).Nodup then accept (s.updCfg fun c => { c with lists := c.lists.set l.val es l.isLt }) []
  else refuse s .duplicate

theorem handleSetList_eq (hv : v < 256) (hl : es.length < 256) (he : ∀ e ∈ es, e.1 < 256 ∧ e.2.1 < 256 ∧ e.2.2 < 256)
    (hs : s.save = none) : handleSetList (listBody v es) s =
      orBadValue s (finOf 16 v) fun l => orBadUnless s (decide (es.length ≤ 8)) (orBadValue s (allOf entryOf es) (writeList s l)) :=
  (withBody_of (v := (v, es)) ((readSetList_takes _ _ _).2 ⟨⟨hv, hl, he⟩, by rw [List.append_nil]; exact List.append_assoc _ _ _⟩)
    s _).trans (unlessSaving_none hs _)

theorem setList_badValue (hv : v < 256) (hl : es.length < 256) (he : ∀ e ∈ es, e.1 < 256 ∧ e.2.1 < 256 ∧ e.2.2 < 256)
    (hs : s.save = none)
    (bad : 15 < v ∨ 8 < es.length ∨ ∃ e ∈ es, 1 < e.1 ∨ (e.1 = 0 ∧ 63 < e.2.1) ∨ (e.1 = 1 ∧ 31 < e.2.1) ∨ 1 < e.2.2) :
    Answers s rest (.setList tag (listBody v es)) ⟨0x36, tag, listBody v es⟩ .badValue [] := by
  refine dispatch_answered (row := .setList) rfl ?_
  rw [handleSetList_eq hv hl he (by exact hs)]
  cases h : finOf 16 v with
  | none => rfl
  | some l =>
    have place : ¬ 15 < v := fun big => by simp [finOf_none_iff.2 big] at h
    rw [orBadValue_some]
    by_cases few : es.length ≤ 8
    · have out : allOf entryOf es = none := allOf_none_iff.2 <| by
        simpa only [entryOf_none_iff] using (bad.resolve_left place).resolve_left (not_lt.2 few)
      rw [out, decide_eq_true few]
      rfl
    · rw [decide_eq_false few]
      rfl

theorem handleSetList_codes {es : List SearchEntry} (l : ListId) (few : es.length ≤ 8) (hs : s.save = none) :
    handleSetList (put1 l.val ++ put1 es.length ++ es.flatMap SearchEntry.octets) s = writeList s l es := by
  have small : ∀ e ∈ es.map SearchEntry.codes, e.1 < 256 ∧ e.2.1 < 256 ∧ e.2.2 < 256 :=
    List.forall_mem_map.2 fun e _ => codes_lt e
  rw [← listBody_codes, handleSetList_eq (by omega) (by rw [List.length_map]; omega) small hs, finOf_self, orBadValue_some,
    allOf_map entryOf_codes, List.length_map, decide_eq_true few]
  rfl

end

/-! ## SET_MAP (R110, R111) -/

theorem RawMap.entry_iff (q : RawMap) (m : MapSetId) (z : ZoneId) (e : ZoneEntry) : q.entry = some (m, z, e) ↔
    finOf 4 q.mapSet = some m ∧ finOf 32 q.zone = some z ∧ flagOf q.valid = some e.valid ∧ flagOf q.reserved = some e.reserved ∧
      allOf (finOf 512) q.desks = some e.desks ∧ e.desks.length ≤ 8 ∧ ¬ (e.valid = true ∧ q.outputs = 0) ∧
      e.outputs = BitVec.ofNat 16 q.outputs := by
  simp only [RawMap.entry, Option.bind_eq_bind, Option.bind_eq_some_iff, Option.ite_none_right_eq_some]
  constructor
  · rintro ⟨_, hm, _, hz, _, hv, _, hr, _, hd, ⟨few, sounds⟩, e⟩
    cases e
    exact ⟨hm, hz, hv, hr, hd, few, sounds, rfl⟩
  · rintro ⟨hm, hz, hv, hr, hd, few, sounds, ho⟩
    exact ⟨_, hm, _, hz, _, hv, _, hr, _, hd, ⟨few, sounds⟩, by rw [← ho]⟩

/-- The fields of a SET_MAP are out of their ranges (R110 check 1). -/
def RawMap.bad (q : RawMap) : Prop := 3 < q.mapSet ∨ 31 < q.zone ∨ 1 < q.valid ∨ 1 < q.reserved ∨ 8 < q.desks.length ∨
  (∃ d ∈ q.desks, 511 < d) ∨ (q.valid = 1 ∧ q.outputs = 0)

theorem RawMap.entry_none {q : RawMap} (bad : q.bad) : q.entry = none := by
  refine Option.eq_none_iff_forall_ne_some.2 fun ⟨m, z, e⟩ h => ?_
  obtain ⟨hm, hz, hv, hr, hd, few, sounds, -⟩ := (q.entry_iff m z e).1 h
  obtain big | big | big | big | big | ⟨d, hmem, big⟩ | ⟨valid, silent⟩ := bad
  · simp [finOf_none_iff.2 big] at hm
  · simp [finOf_none_iff.2 big] at hz
  · simp [flagOf_none_iff.2 big] at hv
  · simp [flagOf_none_iff.2 big] at hr
  · exact absurd (allOf_length hd ▸ few) (not_le.2 big)
  · simp [allOf_none_iff.2 ⟨d, hmem, finOf_none_iff.2 big⟩] at hd
  · exact sounds ⟨by rw [flagOf_code hv, valid]; rfl, silent⟩

/-- The octets of a SET_MAP. -/
def RawMap.octets (q : RawMap) : List Octet :=
  put1 q.mapSet ++ put1 q.zone ++ put1 q.valid ++ put2 q.outputs ++ put1 q.reserved ++ put1 q.desks.length ++ q.desks.flatMap put2

/-- The fields of a SET_MAP fit their octets. -/
structure RawMap.Fits (q : RawMap) : Prop where
  mapSet : q.mapSet < 256
  zone : q.zone < 256
  valid : q.valid < 256
  outputs : q.outputs < 65536
  reserved : q.reserved < 256
  count : q.desks.length < 256
  desks : ∀ d ∈ q.desks, d < 65536

/-- The numbers that spell a zone map entry at its place. -/
def ZoneEntry.codes (m : MapSetId) (z : ZoneId) (e : ZoneEntry) : RawMap :=
  { mapSet := m.val, zone := z.val, valid := e.valid.toNat, outputs := e.outputs.toNat, reserved := e.reserved.toNat,
    desks := e.desks.map Fin.val }

section
variable {m : MapSetId} {z : ZoneId} {e : ZoneEntry}

theorem zoneCodes_fits (h : e.desks.length < 256) : (e.codes m z).Fits where
  mapSet := by change m.val < 256; omega
  zone := by change z.val < 256; omega
  valid := lt_trans (Bool.toNat_lt _) (by decide)
  outputs := e.outputs.isLt
  reserved := lt_trans (Bool.toNat_lt _) (by decide)
  count := by simpa [ZoneEntry.codes] using h
  desks := List.forall_mem_map.2 fun i _ => by omega

theorem zoneCodes_octets : (e.codes m z).octets =
    put1 m.val ++ put1 z.val ++ putFlag e.valid ++ putSet e.outputs ++ putFlag e.reserved ++ putStations e.desks := by
  simp [RawMap.octets, ZoneEntry.codes, putFlag, putSet, putStations, List.flatMap_map]

theorem zoneCodes_entry (few : e.desks.length ≤ 8) (sounds : ¬ (e.valid = true ∧ e.outputs = 0)) :
    (e.codes m z).entry = some (m, z, e) := by
  refine (RawMap.entry_iff _ m z e).2 ⟨finOf_self m, finOf_self z, flagOf_toNat _, flagOf_toNat _, allOf_map finOf_self _, few, ?_, ?_⟩
  · rintro ⟨valid, silent⟩
    exact sounds ⟨valid, BitVec.eq_of_toNat_eq silent⟩
  · simp [ZoneEntry.codes]

theorem zoneInLesserUse_iff (s : State) : zoneInLesserUse s m z = true ↔
    ∃ p pg, s.page p = some pg ∧ pg.cls ≠ .emergency ∧ pg.mapSet = m ∧ z ∈ pg.zones := by
  unfold zoneInLesserUse State.pagesInUse
  rw [List.any_eq_true]
  refine exists_congr fun p => ?_
  cases h : s.page p <;> simp [h, and_assoc]

end

section
variable {s : State} {tag : Octet} {q : RawMap} {rest : List Frame}

/-- What a SET_MAP with its fields in range does to a zone entry. -/
def writeZone (s : State) (x : MapSetId × ZoneId × ZoneEntry) : Handled :=
  if ¬ x.2.2.desks.Nodup then refuse s .duplicate
  else if x.2.2.valid = true ∧ x.2.2.reserved = true ∧ zoneInLesserUse s x.1 x.2.1 = true then refuse s .refusedState
  else accept (s.updCfg fun c =>
    { c with maps := c.maps.set x.1.val ((c.maps[x.1]).set x.2.1.val x.2.2 x.2.1.isLt) x.1.isLt }) []

theorem handleSetMap_eq (h : q.Fits) (hs : s.save = none) : handleSetMap q.octets s = orBadValue s q.entry (writeZone s) :=
  (withBody_of ((readSetMap_takes _ q _).2 ⟨⟨h.mapSet, h.zone, h.valid, h.outputs, h.reserved, h.count, h.desks⟩,
    by rw [List.append_nil]; exact List.append_assoc _ _ _⟩) s _).trans (unlessSaving_none hs _)

theorem setMap_badValue (h : q.Fits) (hs : s.save = none) (bad : q.bad) :
    Answers s rest (.setMap tag q.octets) ⟨0x37, tag, q.octets⟩ .badValue [] := by
  refine dispatch_answered (row := .setMap) rfl ?_
  rw [handleSetMap_eq h (by exact hs), RawMap.entry_none bad]
  rfl

theorem handleSetMap_codes {m : MapSetId} {z : ZoneId} {e : ZoneEntry} (few : e.desks.length ≤ 8)
    (sounds : ¬ (e.valid = true ∧ e.outputs = 0)) (hs : s.save = none) :
    handleSetMap (put1 m.val ++ put1 z.val ++ putFlag e.valid ++ putSet e.outputs ++ putFlag e.reserved ++ putStations e.desks) s =
      writeZone s (m, z, e) := by
  rw [← zoneCodes_octets, handleSetMap_eq (zoneCodes_fits (by omega)) hs, zoneCodes_entry few sounds]
  rfl

end

/-! ## SET_CHIME (R140) -/

theorem stepped_self {lo hi unit v : Nat} (h : lo ≤ v ∧ v ≤ hi ∧ v % unit = 0) : stepped lo hi unit v = some v := if_pos h

section
variable {s : State} {tag : Octet} {v on n : Nat} {rest : List Frame}

/-- The body of SET_CHIME. -/
theorem readSetChime_takes : Reader.Takes readSetChime (fun v => v.1 < 256 ∧ v.2.1 < 65536 ∧ v.2.2 < 256)
    (fun v => put1 v.1 ++ put2 v.2.1 ++ put1 v.2.2) := by
  intro b v rest
  simp only [readSetChime, run_bind_some readWide_takes, run_bind_some readOctet_takes, run_pure_some]
  constructor
  · rintro ⟨_, _, ⟨h0, rfl⟩, _, _, ⟨h1, rfl⟩, _, _, ⟨h2, rfl⟩, rfl, rfl⟩
    exact ⟨⟨h0, h1, h2⟩, by simp only [List.append_assoc]⟩
  · rintro ⟨⟨h0, h1, h2⟩, hb⟩
    simp only [List.append_assoc] at hb
    exact ⟨_, _, ⟨h0, hb⟩, _, _, ⟨h1, rfl⟩, _, _, ⟨h2, rfl⟩, rfl, rfl⟩

theorem handleSetChime_eq (hv : v < 256) (ho : on < 65536) (hn : n < 256) (hs : s.save = none) :
    handleSetChime (put1 v ++ put2 on ++ put1 n) s = orBadValue s (finOf 8 v) fun p =>
      orBadValue s (stepped 0 1000 10 on) fun on => orBadValue s (stepped 1 8 1 n) fun n =>
        accept (s.updCfg fun c => { c with patterns := c.patterns.set p.val { on := on, repeats := n } p.isLt }) [] :=
  (withBody_of (v := (v, on, n)) ((readSetChime_takes _ _ _).2 ⟨⟨hv, ho, hn⟩, (List.append_nil _).symm⟩) s _).trans
    (unlessSaving_none hs _)

theorem setChime_badValue (hv : v < 256) (ho : on < 65536) (hn : n < 256) (hs : s.save = none)
    (bad : 7 < v ∨ 1000 < on ∨ on % 10 ≠ 0 ∨ n = 0 ∨ 8 < n) :
    Answers s rest (.setChime tag (put1 v ++ put2 on ++ put1 n)) ⟨0x39, tag, put1 v ++ put2 on ++ put1 n⟩ .badValue [] := by
  refine dispatch_answered (row := .setChime) rfl ?_
  rw [handleSetChime_eq hv ho hn (by exact hs)]
  by_cases place : 8 ≤ v
  · rw [finOf_none_iff.2 place]
    rfl
  rw [show finOf 8 v = some ⟨v, not_le.1 place⟩ from dif_pos (not_le.1 place), orBadValue_some]
  by_cases sounding : 0 ≤ on ∧ on ≤ 1000 ∧ on % 10 = 0
  · rw [stepped_self sounding, orBadValue_some, stepped_none_iff.2 (by omega)]
    rfl
  · rw [stepped_none_iff.2 (by omega)]
    rfl

theorem setChime_writes {p : PatternId} (ho : on ≤ 1000) (ho' : on % 10 = 0) (hn : 1 ≤ n) (hn' : n ≤ 8) (hs : s.save = none) :
    Edits s rest (.setChime tag (put1 p.val ++ put2 on ++ put1 n)) ⟨0x39, tag, put1 p.val ++ put2 on ++ put1 n⟩ fun c =>
      { c with patterns := c.patterns.set p.val { on := on, repeats := n } p.isLt } := by
  refine fun ready => dispatch_served (row := .setChime) rfl ?_ ready.2.2 ready
  rw [handleSetChime_eq (by omega) (by omega) (by omega) (by exact hs), finOf_self, stepped_self ⟨Nat.zero_le _, ho, ho'⟩,
    stepped_self ⟨hn, hn', Nat.mod_one n⟩]
  rfl

end

/-- Settles O57, edit by edit: the ranges, the repeats and the write. -/
theorem plainRecordEdits : Obligations.PlainRecordEdits := by
  refine fun s tag rest hs => ⟨?_, ?_, ?_, ?_, ?_, ?_⟩
  · rintro first last n _ hf hl hn rfl
    exact ⟨setPickup_badValue hf hl hn hs, fun g h1 h2 hg => setPickup_writes hf hl hn hs h1 h2 hg⟩
  · rintro v es _ hv hl he rfl bad
    exact setList_badValue hv hl he hs bad
  · rintro _ es _ - - rfl l rfl few
    have handled := handleSetList_codes l few (s := s.takeHead rest) hs
    refine ⟨fun twice => dispatch_answered (row := .setList) rfl (handled.trans (if_neg twice)), fun once ready => ?_⟩
    exact dispatch_served (row := .setList) rfl (handled.trans (if_pos once)) ready.2.2 ready
  · rintro m z valid outputs reserved desks _ hm hz hv ho hr hl hd rfl bad
    exact setMap_badValue (q := ⟨m, z, valid, outputs, reserved, desks⟩) ⟨hm, hz, hv, ho, hr, hl, hd⟩ hs bad
  · rintro m z e _ - rfl few sounds
    have handled := handleSetMap_codes (m := m) (z := z) few sounds (s := s.takeHead rest) hs
    refine ⟨fun twice => dispatch_answered (row := .setMap) rfl (handled.trans (if_pos twice)), fun used hused once => ?_⟩
    have handled := handled.trans (if_neg (not_not.2 once))
    have lesser : zoneInLesserUse (s.takeHead rest) m z = true ↔ used := (zoneInLesserUse_iff _).trans hused.symm
    refine ⟨fun valid reserved hu => dispatch_answered (row := .setMap) rfl
      (handled.trans (if_pos ⟨valid, reserved, lesser.2 hu⟩)), fun free ready => ?_⟩
    exact dispatch_served (row := .setMap) rfl
      (handled.trans (if_neg fun ⟨valid, reserved, hu⟩ => free ⟨valid, reserved, lesser.1 hu⟩)) ready.2.2 ready
  · rintro v on n _ hv ho hn rfl
    refine ⟨setChime_badValue hv ho hn hs, ?_⟩
    rintro p rfl ho1 ho2 hn1 hn2
    exact setChime_writes ho1 ho2 hn1 hn2 hs

end Sys2Proof.Machine
end

