-- ==== Sys2Proof/Proofs/PageRequests.lean ====
section
/-! SUPPORT. PAGE: the ranges of its fields, and the checks of R115 in their order (R114, R115, R117). -/

namespace Sys2Proof.Machine

/-! ## The ranges by their codes (R114, R166) -/

theorem sourceOf_none_iff {v : Nat} : sourceOf v = none ↔ (3 < v ∧ v < 16) ∨ 23 < v := by
  unfold sourceOf
  split <;> simp only [Option.map_eq_none_iff, finOf_none_iff] <;> omega

theorem sourceOf_code {v : Nat} {src : Source} :
    sourceOf v = some src → (match src with | .input i => i.val | .chime k => 16 + k.val) = v := by
  intro h
  unfold sourceOf at h
  split at h <;> obtain ⟨i, hi, rfl⟩ := Option.map_eq_some_iff.1 h <;> have := finOf_eq_some_iff.1 hi <;> dsimp only <;> omega

theorem modeOf_none_iff {v : Nat} : modeOf v = none ↔ 1 < v := by
  obtain _ | _ | v := v <;> simp [modeOf]

theorem modeOf_code {v : Nat} {mode : PageMode} (h : modeOf v = some mode) : mode.code = v := by
  unfold modeOf at h
  split at h <;> cases h <;> rfl

theorem waitLimitOf_none_iff {v : Nat} : waitLimitOf v = none ↔ 120 < v ∧ v ≠ 255 := by
  unfold waitLimitOf
  split
  · simp [*]
  · split <;> simp <;> omega

theorem waitLimitOf_code {v : Nat} {w : Option Nat} (h : waitLimitOf v = some w) : w.getD 255 = v := by
  unfold waitLimitOf at h
  split at h
  · obtain rfl := Option.some.inj h
    exact Eq.symm ‹_›
  · split at h
    · obtain rfl := Option.some.inj h
      rfl
    · cases h

/-- A pre-announce does not fit a chime source (R114). -/
theorem preFits_false_iff {v w : Nat} {pre : Option PatternId} {src : Source} (hp : finOrNone 8 255 v = some pre)
    (hs : sourceOf w = some src) : ¬ preFits pre src = true ↔ 16 ≤ w ∧ v ≠ 255 := by
  have pattern : pre = none ↔ v = 255 := by
    refine ⟨fun e => ?_, fun e => ?_⟩
    · rw [← finOrNone_code hp, e]
      rfl
    · rw [e] at hp
      exact (Option.some.inj hp).symm
  have code := sourceOf_code hs
  cases src with
  | input i => simp [preFits]; dsimp only at code; omega
  | chime k => simp [preFits, pattern]; dsimp only at code; omega

/-- Fields read in turn, the later ones with what is known of the earlier. -/
theorem bind_eq_none_or_of {α β : Type} {o : Option α} {k : α → Option β} {p : Prop} (h : ∀ a, o = some a → (k a = none ↔ p)) :
    o.bind k = none ↔ o = none ∨ p := by
  cases o with
  | none => simp
  | some a => simpa using h a rfl

/-- Dropping repeats and reading the codes of distinct values commute. -/
theorem map_eraseDups {α β : Type} [BEq α] [LawfulBEq α] [BEq β] [LawfulBEq β] {f : α → β} (hf : Function.Injective f) (l : List α) :
    l.eraseDups.map f = (l.map f).eraseDups := by
  induction h : l.length using Nat.strong_induction_on generalizing l with
  | _ n ih =>
    cases l with
    | nil => rfl
    | cons x xs =>
      rw [List.eraseDups_cons, List.map_cons, List.map_cons, List.eraseDups_cons,
        ih _ (by rw [← h]; exact Nat.lt_succ_of_le (List.length_filter_le _ _)) _ rfl, List.filter_map]
      congr 3
      refine List.filter_congr fun y _ => ?_
      by_cases e : y = x <;> simp [e, hf.eq_iff]

/-! ## The fields of a PAGE (R114) -/

section
variable {q : RawPage}

theorem RawPage.fields_none_iff : q.fields = none ↔ 511 < q.requester ∨ 3 < q.cls ∨ (3 < q.source ∧ q.source < 16) ∨ 23 < q.source ∨
    (7 < q.pre ∧ q.pre ≠ 255) ∨ (16 ≤ q.source ∧ q.pre ≠ 255) ∨ (3 < q.mapSet ∧ q.mapSet ≠ 255) ∨ 1 < q.mode ∨
    (120 < q.wait ∧ q.wait ≠ 255) ∨ q.zones = [] ∨ 8 < q.zones.length ∨ ∃ z ∈ q.zones, 31 < z := by
  have inTurn : q.fields = none ↔ finOf 512 q.requester = none ∨ classOf q.cls = none ∨ sourceOf q.source = none ∨
      finOrNone 8 255 q.pre = none ∨ finOrNone 4 255 q.mapSet = none ∨ modeOf q.mode = none ∨ waitLimitOf q.wait = none ∨
      allOf (finOf 32) q.zones = none ∨ (16 ≤ q.source ∧ q.pre ≠ 255) ∨ q.zones = [] ∨ 8 < q.zones.length := by
    unfold RawPage.fields
    refine bind_eq_none_or fun _ => bind_eq_none_or fun _ => bind_eq_none_or_of fun src hs => bind_eq_none_or_of fun pre hp =>
      bind_eq_none_or fun _ => bind_eq_none_or fun _ => bind_eq_none_or fun _ => bind_eq_none_or_of fun zones hz => ?_
    rw [← preFits_false_iff hp hs, ← List.length_eq_zero_iff, ← allOf_length hz]
    by_cases fits : preFits pre src = true
    · by_cases count : 1 ≤ zones.length ∧ zones.length ≤ 8
      · rw [if_pos ⟨fits, count⟩]
        exact iff_of_false (by simp) (not_or.2 ⟨not_not.2 fits, by omega⟩)
      · rw [if_neg fun k => count k.2]
        simp only [fits, not_true_eq_false, false_or, true_iff]
        omega
    · rw [if_neg fun k => fits k.1]
      exact iff_of_true rfl (.inl fits)
  have zones : allOf (finOf 32) q.zones = none ↔ ∃ z ∈ q.zones, 31 < z :=
    allOf_none_iff.trans (exists_congr fun z => and_congr_right fun _ => finOf_none_iff)
  rw [inTurn, finOf_none_iff, classOf_none_iff, sourceOf_none_iff, finOrNone_none_iff, finOrNone_none_iff, modeOf_none_iff,
    waitLimitOf_none_iff, zones]
  grind

theorem RawPage.fields_iff {x : PageFields} : q.fields = some x ↔ finOf 512 q.requester = some x.requester ∧
    classOf q.cls = some x.cls ∧ sourceOf q.source = some x.source ∧ finOrNone 8 255 q.pre = some x.pre ∧
    finOrNone 4 255 q.mapSet = some x.mapSet ∧ modeOf q.mode = some x.mode ∧ waitLimitOf q.wait = some x.wait ∧
    ∃ zones, allOf (finOf 32) q.zones = some zones ∧ (preFits x.pre x.source = true ∧ 1 ≤ zones.length ∧ zones.length ≤ 8) ∧
      keepFirst zones = x.zones := by
  simp only [RawPage.fields, Option.bind_eq_bind, Option.bind_eq_some_iff, Option.ite_none_right_eq_some]
  constructor
  · rintro ⟨_, h0, _, h1, _, h2, _, h3, _, h4, _, h5, _, h6, zones, h7, good, e⟩
    cases e
    exact ⟨h0, h1, h2, h3, h4, h5, h6, zones, h7, good, rfl⟩
  · rintro ⟨h0, h1, h2, h3, h4, h5, h6, zones, h7, good, e⟩
    exact ⟨_, h0, _, h1, _, h2, _, h3, _, h4, _, h5, _, h6, zones, h7, good, by rw [e]⟩

theorem RawPage.fields_codes {x : PageFields} (h : q.fields = some x) : x.requester.val = q.requester ∧ x.cls.num = q.cls ∧
    (match x.source with | .input i => i.val | .chime k => 16 + k.val) = q.source ∧
    (x.pre.map Fin.val).getD 255 = q.pre ∧ (x.mapSet.map Fin.val).getD 255 = q.mapSet ∧ x.mode.code = q.mode ∧
    x.wait.getD 255 = q.wait ∧ x.zones.map Fin.val = q.zones.eraseDups := by
  obtain ⟨requester, cls, source, pre, mapSet, mode, wait, zones, hz, -, e⟩ := RawPage.fields_iff.1 h
  refine ⟨finOf_eq_some_iff.1 requester, classOf_code cls, sourceOf_code source, finOrNone_code pre, finOrNone_code mapSet,
    modeOf_code mode, waitLimitOf_code wait, ?_⟩
  rw [← e, keepFirst_eq, map_eraseDups Fin.val_injective, allOf_view (c := id) (g := Fin.val) (fun _ _ => finOf_eq_some_iff.1) hz,
    List.map_id]

end

/-! ## The checks of R115 -/

section
variable {s : State} {x : PageFields} {m : MapSetId}

theorem sourceBusy_iff (src : Source) :
    sourceBusy s src = true ↔ ∃ i p pg, src = .input i ∧ s.page p = some pg ∧ pg.source = .input i := by
  cases src with
  | input i =>
    simp only [sourceBusy, State.inputBound, State.pagesInUse, List.any_eq_true, List.mem_filter, Option.any_eq_true,
      decide_eq_true_eq, Source.input.injEq]
    constructor
    · rintro ⟨p, -, pg, hp, e⟩
      exact ⟨i, p, pg, rfl, hp, e⟩
    · rintro ⟨_, p, pg, rfl, hp, e⟩
      exact ⟨p, ⟨List.mem_finRange p, by simp [hp]⟩, pg, hp, e⟩
  | chime k => simp [sourceBusy]

theorem freePage_none_iff : s.freePage.isNone = true ↔ ∀ p, (s.page p).isSome = true := by
  simp [State.freePage, Option.isSome_iff_ne_none]

theorem zones_bad_iff : (x.zones.any fun z => !(s.cfg.maps[m])[z].valid) = true ↔ ∃ z ∈ x.zones, (s.cfg.maps[m])[z].valid = false := by
  simp

theorem zones_reserved_iff : (x.cls ≠ .emergency ∧ (x.zones.any fun z => (s.cfg.maps[m])[z].reserved) = true) ↔
    x.cls ≠ .emergency ∧ ∃ z ∈ x.zones, (s.cfg.maps[m])[z].reserved = true := by
  simp

/-- The first check that fails gives the reply. -/
theorem pageRefusal_first {r : Result} (fails : FirstFailure (pageChecks s x m) r) : pageRefusal s x m = some r := by
  unfold pageRefusal
  obtain ⟨quiet, rfl⟩ | ⟨known, fails⟩ := fails
  · exact if_pos quiet
  obtain ⟨high, rfl⟩ | ⟨low, fails⟩ := fails
  · exact (if_neg known).trans (if_pos high)
  obtain ⟨bad, rfl⟩ | ⟨valid, fails⟩ := fails
  · exact (if_neg known).trans ((if_neg low).trans (if_pos (zones_bad_iff.2 bad)))
  refine (if_neg known).trans ((if_neg low).trans ((if_neg (mt zones_bad_iff.1 valid)).trans ?_))
  obtain ⟨reserved, rfl⟩ | ⟨allowed, fails⟩ := fails
  · exact if_pos (zones_reserved_iff.2 reserved)
  obtain ⟨busy, rfl⟩ | ⟨unbound, fails⟩ := fails
  · exact (if_neg (mt zones_reserved_iff.1 allowed)).trans (if_pos ((sourceBusy_iff _).2 busy))
  refine (if_neg (mt zones_reserved_iff.1 allowed)).trans ((if_neg (mt (sourceBusy_iff _).1 unbound)).trans ?_)
  obtain ⟨full, rfl⟩ | ⟨room, ⟨unlimited, rfl⟩ | ⟨-, fails⟩⟩ := fails
  · exact if_pos (freePage_none_iff.2 full)
  · exact (if_neg (mt freePage_none_iff.1 room)).trans (if_pos unlimited)
  · exact fails.elim

theorem pageRefusal_none (passes : NoFailure (pageChecks s x m)) : pageRefusal s x m = none := by
  obtain ⟨known, low, valid, allowed, unbound, room, limited, -⟩ := passes
  unfold pageRefusal
  exact (if_neg known).trans ((if_neg low).trans ((if_neg (mt zones_bad_iff.1 valid)).trans
    ((if_neg (mt zones_reserved_iff.1 allowed)).trans ((if_neg (mt (sourceBusy_iff _).1 unbound)).trans
      ((if_neg (mt freePage_none_iff.1 room)).trans (if_neg limited))))))

/-- While the checks pass there is a FREE record. -/
theorem freePage_of_pass (passes : NoFailure (pageChecks s x m)) : ∃ p, s.freePage = some p := by
  obtain ⟨-, -, -, -, -, room, -⟩ := passes
  cases e : s.freePage with
  | some p => exact ⟨p, rfl⟩
  | none => exact absurd (freePage_none_iff.1 (by rw [e]; rfl)) room

/-- The outputs that a page set up by R116 may take. -/
def pageOuts (s : State) (x : PageFields) (m : MapSetId) : List OutputId :=
  s.takeableOf x.cls (decide (x.mode = .allOrWait)) (outputsOf (s.zoneOutputs m x.zones))

theorem startPage_noOutputs {p : PageId} (hp : s.freePage = some p) (nothing : pageOuts s x m = []) (limit : x.wait = some 0) :
    startPage s (pageOf s x m) = refuse s .noOutputs := by
  unfold startPage
  dsimp only
  rw [hp]
  exact if_pos ⟨nothing, limit⟩

theorem startPage_accepted {p : PageId} (hp : s.freePage = some p) (starts : ¬ (pageOuts s x m = [] ∧ x.wait = some 0)) :
    startPage s (pageOf s x m) = accept (s.acceptPage p (pageOf s x m))
      (putRef (some (s.refOf p)) ++ put1 (if pageOuts s x m = [] then PageState.waiting else .starting).code) := by
  unfold startPage
  dsimp only
  rw [hp]
  exact if_neg starts

end

/-! ## The handling of a PAGE -/

section
variable {s : State} {q : RawPage} {body : List Octet} {tag : Octet} {rest : List Frame} {x : PageFields} {m : MapSetId}

theorem handlePage_eq (hq : q.Spells body) : handlePage body s = orBadValue s q.fields fun x =>
    match pageRefusal s x (x.mapSet.getD (s.stationCfg x.requester).defaultMapSet) with
    | some r => refuse s r
    | none => startPage s (pageOf s x (x.mapSet.getD (s.stationCfg x.requester).defaultMapSet)) :=
  (withBody_of ((readPage_iff _ _).2 hq) s _).trans rfl

theorem handlePage_refused {r : Result} (hq : q.Spells body) (hx : q.fields = some x)
    (hm : m = x.mapSet.getD (s.stationCfg x.requester).defaultMapSet) (fails : FirstFailure (pageChecks s x m) r) :
    handlePage body s = refuse s r := by
  subst hm
  rw [handlePage_eq hq, hx, orBadValue_some, pageRefusal_first fails]

theorem handlePage_passed (hq : q.Spells body) (hx : q.fields = some x)
    (hm : m = x.mapSet.getD (s.stationCfg x.requester).defaultMapSet) (passes : NoFailure (pageChecks s x m)) :
    handlePage body s = startPage s (pageOf s x m) := by
  subst hm
  rw [handlePage_eq hq, hx, orBadValue_some, pageRefusal_none passes]

end

/-- Settles O42, by the ranges of the fields and the checks in their order. -/
theorem pageCheckedInOrder : Obligations.PageCheckedInOrder := by
  rintro s tag body rest _ q rfl ready spells
  refine ⟨fun bad => ?_, RawPage.fields_none_iff, fun x => RawPage.fields_codes, fun x m hx hm => ⟨fun r fails => ?_,
    fun passes limit nothing => ?_⟩⟩
  · exact dispatch_answered (row := .page) rfl (by rw [handlePage_eq spells, bad]; rfl) ready
  · exact dispatch_answered (row := .page) rfl (handlePage_refused (s := s.takeHead rest) spells hx hm fails) ready
  · obtain ⟨p, hp⟩ := freePage_of_pass passes
    refine dispatch_answered (row := .page) rfl ?_ ready
    rw [handlePage_passed (s := s.takeHead rest) spells hx hm passes]
    exact startPage_noOutputs (s := s.takeHead rest) hp nothing limit

end Sys2Proof.Machine
end

