-- ==== Sys2Proof/Proofs/TakeEffects.lean ====
section
/-! SUPPORT. What a take does, step by step: the grants, the entry to STARTING with its desk stations, and the pages stripped (R122, R124, R132, R133, R135, R136). -/

namespace Sys2Proof.Machine

/-! ## Views that read one record -/

section
variable {s t : State}

theorem page_congr {p : PageId} (h : t.pages[p] = s.pages[p]) : t.page p = s.page p := congrArg PageRec.page h

theorem refOf_congr {p : PageId} (h : t.pages[p] = s.pages[p]) : t.refOf p = s.refOf p := by
  unfold State.refOf
  rw [h]

theorem pageAt_congr {r : PageRef} (h : t.pages[r.id] = s.pages[r.id]) : t.pageAt r = s.pageAt r := by
  unfold State.pageAt
  rw [h, page_congr h]

/-- The stations joined to a page depend on its record and on which stations listen to it. -/
theorem joined_congr {p : PageId} (hp : (t.page p).map Page.deskList = (s.page p).map Page.deskList) (hr : t.refOf p = s.refOf p)
    (hs : ∀ i, (t.station i).state = .pageListen (s.refOf p) ↔ (s.station i).state = .pageListen (s.refOf p)) :
    t.joined p = s.joined p := by
  have desks : ∀ u : State, u.joined p =
      (((u.page p).map Page.deskList).getD []).filter fun i => decide ((u.station i).state = .pageListen (u.refOf p)) := fun u => by
    unfold State.joined
    cases u.page p <;> rfl
  rw [desks, desks, hp, hr]
  exact List.filter_congr fun i _ => decide_eq_decide.2 (hs i)

end

/-! ## The grants (R132) -/

section
variable (r : PageRef) (l : List OutputId)

theorem grants_stays (s : State) : l.foldl (State.grant r) s = { s with outputs := (l.foldl (State.grant r) s).outputs } :=
  Fit.updOutputs_stays (fun s _ x => { x with state := .guard r (later s.now s.cfg.guardInterval) }) l s

theorem grants_output (s : State) (o : OutputId) : (l.foldl (State.grant r) s).output o =
    if o ∈ l then { s.output o with state := .guard r (later s.now s.cfg.guardInterval) } else s.output o := by
  induction l generalizing s with
  | nil => rfl
  | cons x l ih =>
    rw [List.foldl_cons, ih, State.grant]
    by_cases e : o = x
    · subst e
      simp
    · simp [e, s.output_updOutput_ne e]

end

/-! ## The desk stations (R122, R124) -/

/-- Stations of a list enter one state one after another. -/
theorem enterAll_station (st : StationState) (l : List StationId) (s : State) (i : StationId) :
    (l.foldl (fun s i => s.enterState i st) s).station i = if i ∈ l then { s.station i with state := st } else s.station i := by
  induction l generalizing s with
  | nil => rfl
  | cons x l ih =>
    rw [List.foldl_cons, ih]
    by_cases e : i = x
    · subst e
      simp [s.enterState_station_self]
    · simp [e, s.enterState_station_ne e]

/-- A desk station that a page of the class takes: it is IDLE, or listens to a page of strictly lower class (R122). -/
def State.Joins (s : State) (cls : PageClass) (i : StationId) : Prop :=
  s.isIdle i = true ∨ ∃ q x, (s.station i).state = .pageListen q ∧ s.pageAt q = some x ∧ x.cls.num < cls.num

section
variable {s : State} {p : PageId} {cls : PageClass} {i : StationId}

theorem joinDesk_joins (h : s.Joins cls i) : State.joinDesk p cls s i = s.enterState i (.pageListen (s.refOf p)) := by
  unfold State.joinDesk
  split
  · rfl
  · rename_i busy
    obtain ⟨q, x, hq, hx, lower⟩ := h.resolve_left busy
    rw [hq]
    dsimp only
    rw [hx]
    exact if_pos lower

theorem joinDesk_stays (h : ¬ s.Joins cls i) : State.joinDesk p cls s i = s := by
  unfold State.joinDesk
  rw [if_neg fun k => h (.inl k)]
  split
  · rename_i q hq
    split
    · rename_i x hx
      exact if_neg fun lower => h (.inr ⟨q, x, hq, hx, lower⟩)
    · rfl
  · rfl

/-- Whether a station joins is read from its state, "in use" and the pages alone. -/
theorem joins_congr {t : State} (hs : t.station i = s.station i) (hc : t.cfg = s.cfg)
    (hp : ∀ q, (t.pageAt q).map Page.cls = (s.pageAt q).map Page.cls) : t.Joins cls i ↔ s.Joins cls i := by
  have idle : t.isIdle i = s.isIdle i := by rw [State.isIdle, State.isIdle, State.stationCfg, State.stationCfg, hs, hc]
  have lower : ∀ (u : State) q, (∃ x, u.pageAt q = some x ∧ x.cls.num < cls.num) ↔
      ∃ c, (u.pageAt q).map Page.cls = some c ∧ c.num < cls.num := fun u q => by simp [Option.map_eq_some_iff]
  unfold State.Joins
  rw [idle, hs]
  simp only [exists_and_left, lower, hp]

/-- The desk stations of a list join one after another. -/
theorem joins_all (l : List StationId) : ∀ {s : State} {pg : Page}, s.page p = some pg → pg.cls = cls →
    OnlyStations s (l.foldl (State.joinDesk p cls) s) ∧
      ∀ i, (i ∈ l ∧ s.Joins cls i →
          (l.foldl (State.joinDesk p cls) s).station i = { s.station i with state := .pageListen (s.refOf p) }) ∧
        (¬ (i ∈ l ∧ s.Joins cls i) → (l.foldl (State.joinDesk p cls) s).station i = s.station i) := by
  induction l with
  | nil => exact fun _ _ => ⟨.refl _, fun i => ⟨fun h => absurd h.1 List.not_mem_nil, fun _ => rfl⟩⟩
  | cons k l ih =>
    intro s pg hp hc
    rw [List.foldl_cons]
    by_cases hk : s.Joins cls k
    · rw [joinDesk_joins hk]
      obtain ⟨only, each⟩ := ih (s := s.enterState k (.pageListen (s.refOf p))) (pg := pg)
        ((page_congr (by rw [State.enterState_pages])).trans hp) hc
      have ref : (s.enterState k (.pageListen (s.refOf p))).refOf p = s.refOf p := refOf_congr (by rw [State.enterState_pages])
      have at' : ∀ q, (s.enterState k (.pageListen (s.refOf p))).pageAt q = s.pageAt q := fun q =>
        pageAt_congr (by rw [State.enterState_pages])
      have joined : ¬ (s.enterState k (.pageListen (s.refOf p))).Joins cls k := by
        unfold State.Joins State.isIdle
        rw [s.enterState_station_self]
        rintro (idle | ⟨q, x, hq, hx, lower⟩)
        · simp at idle
        · obtain rfl := StationState.pageListen.inj hq
          rw [at', State.pageAt_refOf, hp] at hx
          rw [← Option.some.inj hx, hc] at lower
          exact absurd lower (lt_irrefl _)
      refine ⟨(s.enterState_stays k _).trans only, fun i => ?_⟩
      obtain ⟨moved, kept⟩ := each i
      by_cases e : i = k
      · subst e
        have arrived := (kept fun h => joined h.2).trans (s.enterState_station_self i _)
        exact ⟨fun _ => arrived, fun h => absurd ⟨List.mem_cons_self, hk⟩ h⟩
      · have rest := each i
        rw [ref, s.enterState_station_ne e, joins_congr (s.enterState_station_ne e _) (s.enterState_cfg k _)
          fun q => by rw [at']] at rest
        simpa [e] using rest
    · rw [joinDesk_stays hk]
      obtain ⟨only, each⟩ := ih hp hc
      refine ⟨only, fun i => ?_⟩
      by_cases e : i = k
      · subst e
        simpa [hk] using each i
      · simpa [e] using each i

theorem joinDesks_effect {pg : Page} (hp : s.page p = some pg) :
    OnlyStations s (s.joinDesks p) ∧ ∀ i,
      (i ∈ pg.deskList ∧ s.Joins pg.cls i → (s.joinDesks p).station i = { s.station i with state := .pageListen (s.refOf p) }) ∧
        (¬ (i ∈ pg.deskList ∧ s.Joins pg.cls i) → (s.joinDesks p).station i = s.station i) := by
  unfold State.joinDesks
  rw [hp]
  exact joins_all pg.deskList hp rfl

theorem releaseJoined_effect (s : State) (p : PageId) :
    s.releaseJoined p = { s with stations := (s.releaseJoined p).stations, link := (s.releaseJoined p).link,
                                 heldAvail := s.heldAvail ++ s.joined p } ∧
      (s.releaseJoined p).link = { s.link with stationOrders := (s.releaseJoined p).link.stationOrders } ∧
      ∀ i, (s.releaseJoined p).station i = if i ∈ s.joined p then { s.station i with state := .idle } else s.station i := by
  obtain ⟨⟨stays, link⟩, -⟩ := State.enterAll (fun _ => .idle) (s.joined p) s
  have station := enterAll_station .idle (s.joined p) s
  unfold State.releaseJoined
  generalize (s.joined p).foldl (fun s i => s.enterState i .idle) s = v at stays link station
  refine ⟨?_, link, station⟩
  rw [stays]
  rfl

end

/-! ## The pages that are stripped (R135, R136) -/

/-- The record of a stripped page: FREE with the generation one higher when it has no wait, and otherwise WAITING again. -/
def strippedRec (now : Time) (gen : BitVec 8) (x : Page) : PageRec :=
  if x.waitLimit = some 0 then { gen := gen + 1, page := none }
  else
    { gen := gen
      page := some { x with
        state := .waiting, waitDeadline := x.waitLimit.map (fun w => later now (seconds w)), chime := none } }

/-- A stripped page is advised. -/
def adviseStripped (s v : State) (q : PageRef) : State :=
  match s.page q.id with
  | some x => v.advise (.pageState q x.cls (if x.waitLimit = some 0 then .ended .preempted else .entered .waiting) 0 x.escGroup)
  | none => v

/-- From `s` to `u` the pages of the list have been stripped in their order; groups stay unless an escalation page had no wait. -/
structure Settled (s u : State) (l : List PageRef) : Prop where
  stays : u = { s with groups := u.groups, pages := u.pages, stations := u.stations, link := u.link, heldAvail := u.heldAvail }
  groups : (∀ q x, s.page q = some x → x.waitLimit = some 0 → x.escGroup = none) → u.groups = s.groups
  link : u.link = { (l.foldl (adviseStripped s) s).link with stationOrders := u.link.stationOrders }
  stripped : ∀ q x, s.page q = some x → s.refOf q ∈ l → u.pages[q] = strippedRec s.now s.pages[q].gen x
  others : ∀ q, s.page q = none ∨ s.refOf q ∉ l → u.pages[q] = s.pages[q]
  station : ∀ i, u.station i = if ∃ q ∈ l, i ∈ s.joined q.id then { s.station i with state := .idle } else s.station i
  heldAvail : u.heldAvail = s.heldAvail ++ l.flatMap fun q => s.joined q.id

section
variable {s t u v : State} {p : PageId} {pg : Page} {r : PageRef} {l : List PageRef}

/-- The advisories of stripped pages, placed where only the order set and the records of other pages differ. -/
theorem adviseStripped_all (l : List PageRef) : ∀ {u v : State}, (∀ r ∈ l, t.page r.id = s.page r.id) →
    u.link = { v.link with stationOrders := u.link.stationOrders } → ∃ orders,
      (l.foldl (adviseStripped t) u).link = { (l.foldl (adviseStripped s) v).link with stationOrders := orders } := by
  induction l with
  | nil => exact fun _ link => ⟨_, link⟩
  | cons r l ih =>
    intro u v same link
    refine ih (fun q hq => same q (List.mem_cons_of_mem _ hq)) ?_
    unfold adviseStripped
    rw [same r List.mem_cons_self]
    cases s.page r.id with
    | none => exact link
    | some x => exact advise_link_orders link _

theorem Settled.nil (s : State) : Settled s s [] :=
  ⟨rfl, fun _ => rfl, rfl, fun _ _ _ h => absurd h List.not_mem_nil, fun _ _ => rfl, fun i => by simp, by simp⟩

namespace Settled

/-- Pages with another reference are as they were. -/
theorem pageAt (k : Settled s t [r]) (hr : s.pageAt r = some pg) {q : PageRef} (hq : q ≠ r) : t.pageAt q = s.pageAt q := by
  obtain ⟨e, hp⟩ := (State.pageAt_iff s r pg).1 hr
  by_cases same : q.id = r.id
  · obtain ⟨id, gen⟩ := q
    obtain rfl : id = r.id := same
    have gone : ∀ u : State, u.pages[r.id].gen = r.gen ∨ u.page r.id = none → u.pageAt ⟨r.id, gen⟩ = none := fun u h => by
      unfold State.pageAt
      split
      · rename_i named
        exact h.resolve_left fun g => hq (congrArg (PageRef.mk r.id) (named.symm.trans g))
      · rfl
    have old : s.pages[r.id].gen = r.gen := congrArg PageRef.gen e
    have new := k.stripped r.id pg hp (by rw [e]; exact List.mem_singleton_self r)
    rw [gone s (.inl old), gone t]
    unfold State.page
    rw [new, strippedRec]
    split
    · exact .inr rfl
    · exact .inl old
  · exact pageAt_congr (k.others _ (.inr fun h =>
      same (show (s.refOf q.id).id = r.id from congrArg PageRef.id (List.mem_singleton.1 h))))

/-- A page in use of another record keeps its record and its joined stations. -/
theorem other (k : Settled s t [r]) (hr : s.refOf r.id = r) {q : PageId} (hq : q ≠ r.id) :
    t.pages[q] = s.pages[q] ∧ t.joined q = s.joined q := by
  have apart : s.refOf q ≠ r := fun e => hq (congrArg PageRef.id e)
  have pages : t.pages[q] = s.pages[q] := k.others q (.inr (by simpa using apart))
  refine ⟨pages, joined_congr (by rw [page_congr pages]) (refOf_congr pages) fun i => ?_⟩
  rw [k.station]
  split
  · rename_i h
    simp only [List.mem_singleton, exists_eq_left] at h
    obtain ⟨_, -, -, listens⟩ := (s.mem_joined r.id i).1 h
    rw [listens, hr]
    simpa using apart.symm
  · rfl

theorem cons (k : Settled s t [r]) (hr : s.pageAt r = some pg) (hl : ∀ q ∈ l, (s.pageAt q).isSome = true ∧ q ≠ r)
    (k' : Settled t u l) : Settled s u (r :: l) := by
  obtain ⟨er, hp⟩ := (State.pageAt_iff s r pg).1 hr
  have inUse : ∀ q ∈ l, s.refOf q.id = q ∧ q.id ≠ r.id := fun q hq => by
    obtain ⟨some, ne⟩ := hl q hq
    obtain ⟨x, hx⟩ := Option.isSome_iff_exists.1 some
    have eq := ((State.pageAt_iff s q x).1 hx).1
    exact ⟨eq, fun e => ne (by rw [← eq, ← er, e])⟩
  have apart : ∀ q ∈ l, t.pages[q.id] = s.pages[q.id] ∧ t.joined q.id = s.joined q.id := fun q hq => k.other er (inUse q hq).2
  have joined : (l.flatMap fun q => t.joined q.id) = l.flatMap fun q => s.joined q.id :=
    List.flatMap_congr fun q hq => (apart q hq).2
  refine ⟨?_, fun waits => ?_, ?_, fun q x hx hq => ?_, fun q hq => ?_, fun i => ?_, ?_⟩
  · rw [k'.stays, k.stays]
  · refine (k'.groups fun q x hx => ?_).trans (k.groups waits)
    by_cases e : q = r.id
    · subst e
      have new := k.stripped r.id pg hp (by rw [er]; exact List.mem_singleton_self r)
      unfold State.page at hx
      rw [new, strippedRec] at hx
      split at hx
      · cases hx
      · rename_i limit
        obtain rfl := Option.some.inj hx
        exact fun zero => absurd zero limit
    · rw [page_congr (k.other er e).1] at hx
      exact waits q x hx
  · obtain ⟨orders, link⟩ := adviseStripped_all l (fun q hq => page_congr (apart q hq).1) k.link
    rw [k'.link, link]
    rfl
  · rcases List.mem_cons.1 hq with e | hq
    · have eq : q = r.id := congrArg PageRef.id e
      have new := k.stripped q x hx (by rw [e]; exact List.mem_singleton_self r)
      have rest : t.page q = none ∨ t.refOf q ∉ l := .inr fun h => by
        have := (inUse _ h).2
        exact this eq
      rw [k'.others q rest, new]
    · have same : t.pages[q] = s.pages[q] := (k.other er (inUse _ hq).2).1
      have now : t.now = s.now := by rw [k.stays]
      rw [← same, ← now]
      exact k'.stripped q x ((page_congr same).trans hx) (by rw [refOf_congr same]; exact hq)
  · have ne : s.page q = none ∨ s.refOf q ≠ r ∧ s.refOf q ∉ l := by simpa using hq
    have first : t.pages[q] = s.pages[q] := k.others q (ne.imp_right fun h => by simpa using h.1)
    rw [k'.others q ((page_congr first).symm ▸ (refOf_congr first).symm ▸ ne.imp_right And.right), first]
  · have later : (∃ q ∈ l, i ∈ t.joined q.id) ↔ ∃ q ∈ l, i ∈ s.joined q.id :=
      exists_congr fun q => and_congr_right fun hq => by rw [(apart q hq).2]
    rw [k'.station, k.station]
    simp only [later, List.mem_singleton, exists_eq_left, List.exists_mem_cons_iff]
    by_cases h1 : i ∈ s.joined r.id <;> by_cases h2 : ∃ q ∈ l, i ∈ s.joined q.id <;> simp [h1, h2]
  · rw [k'.heldAvail, k.heldAvail, joined]
    simp

end Settled

/-- The end of a page that holds nothing. -/
theorem endPageRecord_unheld (hp : s.page p = some pg) (hh : s.held p = []) (why : EndReason) : s.endPageRecord p why =
    ((s.releaseJoined p).updPageRec p fun x => { gen := x.gen + 1, page := none }).advise
      (.pageState (s.refOf p) pg.cls (.ended why) 0 pg.escGroup) := by
  unfold State.endPageRecord
  rw [hp]
  dsimp only
  rw [hh]
  rfl

/-- The advisory of a page in use. -/
theorem advisePage_eq (hp : s.page p = some pg) (e : PageEvent) :
    s.advisePage p e = s.advise (.pageState (s.refOf p) pg.cls e (s.held p).length pg.escGroup) := by
  unfold State.advisePage
  rw [hp]

theorem strip_preempted (hr : s.pageAt r = some pg) (hh : s.held r.id = []) (limit : pg.waitLimit = some 0) :
    Settled s (s.strip r.id pg) [r] := by
  obtain ⟨e, hp⟩ := (State.pageAt_iff s r pg).1 hr
  obtain ⟨stays, link, station⟩ := releaseJoined_effect s r.id
  unfold State.strip
  rw [if_pos limit, endPageRecord_unheld hp hh, e]
  generalize s.releaseJoined r.id = v at stays link station
  have forgets := Fit.forgetEscPage_stays ((v.updPageRec r.id fun x => { gen := x.gen + 1, page := none }).advise
    (.pageState r pg.cls (.ended .preempted) 0 pg.escGroup)) r pg.escGroup
  have pages : v.pages = s.pages := by rw [stays]
  refine ⟨?_, fun waits => ?_, ?_, fun q x hx hq => ?_, fun q hq => ?_, fun i => ?_, ?_⟩
  · rw [forgets, stays]
    rfl
  · rw [waits r.id pg hp limit, stays]
    rfl
  · rw [forgets]
    simp only [List.foldl_cons, List.foldl_nil, adviseStripped, hp, limit, if_true]
    exact advise_link_orders (t := v.updPageRec r.id fun x => { gen := x.gen + 1, page := none }) link _
  · obtain rfl : q = r.id := congrArg PageRef.id (List.mem_singleton.1 hq)
    obtain rfl := Option.some.inj (hp.symm.trans hx)
    rw [forgets, strippedRec, if_pos limit, ← pages]
    exact v.pages_updPageRec_self r.id fun x => { gen := x.gen + 1, page := none }
  · have ne : q ≠ r.id := fun k => by
      subst k
      simp [hp, e] at hq
    rw [forgets, ← pages]
    exact v.pages_updPageRec_ne ne fun x => { gen := x.gen + 1, page := none }
  · rw [forgets]
    exact (station i).trans (by simp)
  · rw [forgets, stays]
    simp [State.advise]

theorem strip_waits (hr : s.pageAt r = some pg) (hh : s.held r.id = []) (limit : pg.waitLimit ≠ some 0) :
    Settled s (s.strip r.id pg) [r] := by
  obtain ⟨e, hp⟩ := (State.pageAt_iff s r pg).1 hr
  obtain ⟨stays, link, station⟩ := releaseJoined_effect (s.toWaiting r.id) r.id
  have ref : (s.toWaiting r.id).refOf r.id = s.refOf r.id := s.refOf_updPage _ _ _
  have page : (s.toWaiting r.id).page r.id = some { pg with
      state := .waiting, waitDeadline := pg.waitLimit.map (fun w => later s.now (seconds w)), chime := none } := by
    rw [State.toWaiting, State.page_updPage_self, hp]
    rfl
  have joined : (s.toWaiting r.id).joined r.id = s.joined r.id :=
    joined_congr (by rw [page, hp]; rfl) ref fun _ => Iff.rfl
  unfold State.strip
  rw [if_neg limit]
  rw [joined] at stays station
  generalize (s.toWaiting r.id).releaseJoined r.id = v at stays link station
  have pages : v.pages = (s.toWaiting r.id).pages := by rw [stays]
  have held : v.held r.id = [] := by
    rw [← hh]
    exact State.held_congr (fun o => by rw [stays]; rfl) ((refOf_congr (by rw [pages])).trans ref)
  rw [advisePage_eq (pg := { pg with
      state := .waiting, waitDeadline := pg.waitLimit.map (fun w => later s.now (seconds w)), chime := none })
    ((page_congr (by rw [pages])).trans page), held, refOf_congr (s := s.toWaiting r.id) (by rw [pages]), ref, e]
  refine ⟨?_, fun _ => ?_, ?_, fun q x hx hq => ?_, fun q hq => ?_, fun i => ?_, ?_⟩
  · rw [stays]
    rfl
  · rw [stays]
    rfl
  · simp only [List.foldl_cons, List.foldl_nil, adviseStripped, hp, if_neg limit]
    exact advise_link_orders (s := s) link _
  · obtain rfl : q = r.id := congrArg PageRef.id (List.mem_singleton.1 hq)
    obtain rfl := Option.some.inj (hp.symm.trans hx)
    refine (congrArg (fun x : Vector PageRec 16 => x[r.id]) pages).trans ?_
    rw [strippedRec, if_neg limit, State.toWaiting, State.updPage, State.pages_updPageRec_self]
    unfold State.page at hp
    rw [hp]
    rfl
  · have ne : q ≠ r.id := fun k => by
      subst k
      simp [hp, e] at hq
    exact (congrArg (fun x : Vector PageRec 16 => x[q]) pages).trans (s.pages_updPageRec_ne ne _)
  · exact (station i).trans (by simp; rfl)
  · rw [stays]
    simp [State.advise]
    rfl

/-- A page that still holds an output keeps its state (R135). -/
theorem settleLoss_keeps (h : ¬ ((s.pageAt r).isSome = true ∧ s.held r.id = [])) : s.settleLoss r = s := by
  unfold State.settleLoss
  cases hr : s.pageAt r with
  | none => rfl
  | some pg => exact if_neg fun hh => h ⟨by rw [hr]; rfl, hh⟩

/-- A page that holds none is stripped (R136). -/
theorem settleLoss_strips (hr : s.pageAt r = some pg) (hh : s.held r.id = []) : Settled s (s.settleLoss r) [r] := by
  unfold State.settleLoss
  rw [hr]
  dsimp only
  rw [if_pos hh]
  by_cases limit : pg.waitLimit = some 0
  · exact strip_preempted hr hh limit
  · exact strip_waits hr hh limit

/-- Whether a reference names a page in use that holds no output. -/
def stripsAt (s : State) (r : PageRef) : Bool := (s.pageAt r).isSome && decide (s.held r.id = [])

theorem stripsAt_iff : stripsAt s r = true ↔ (s.pageAt r).isSome = true ∧ s.held r.id = [] := by
  simp [stripsAt]

/-- The strip of one page changes nothing for another. -/
theorem Settled.stripsAt (k : Settled s t [r]) (hr : s.pageAt r = some pg) {q : PageRef} (hq : q ≠ r) :
    stripsAt t q = stripsAt s q := by
  have er := ((State.pageAt_iff s r pg).1 hr).1
  unfold Machine.stripsAt
  rw [k.pageAt hr hq]
  cases hx : s.pageAt q with
  | none => rfl
  | some x =>
    have eq := ((State.pageAt_iff s q x).1 hx).1
    have apart : t.pages[q.id] = s.pages[q.id] := (k.other er fun e => hq (by rw [← eq, ← er, e])).1
    rw [State.held_congr (s := s) (t := t) (fun o => by rw [k.stays]; rfl) (refOf_congr apart)]

/-- The pages that lose outputs are dealt with one after another. -/
theorem settleLosses_effect (l : List PageRef) :
    ∀ s : State, l.Nodup → Settled s (l.foldl State.settleLoss s) (l.filter (stripsAt s)) := by
  induction l with
  | nil => exact fun s _ => .nil s
  | cons r l ih =>
    intro s once
    obtain ⟨fresh, once⟩ := List.nodup_cons.1 once
    rw [List.foldl_cons, List.filter_cons]
    split
    · rename_i lost
      obtain ⟨named, hh⟩ := stripsAt_iff.1 lost
      obtain ⟨pg, hr⟩ := Option.isSome_iff_exists.1 named
      have first := settleLoss_strips hr hh
      have rest := ih (s.settleLoss r) once
      rw [List.filter_congr fun q hq => first.stripsAt hr fun e => fresh (e ▸ hq)] at rest
      refine first.cons hr (fun q hq => ?_) rest
      obtain ⟨hq, strips⟩ := List.mem_filter.1 hq
      exact ⟨(stripsAt_iff.1 strips).1, fun e => fresh (e ▸ hq)⟩
    · rename_i keeps
      rw [settleLoss_keeps (mt stripsAt_iff.2 keeps)]
      exact ih s once

end
end Sys2Proof.Machine
end

