-- ==== Sys2Proof/Proofs/WholeTakes.lean ====
section
/-! SUPPORT. A take as a whole: what it begins, whom it strips, and what it leaves (R122, R124, R127, R132, R133, R135, R136). -/

namespace Sys2Proof.Machine

/-! ## What a take begins (R122, R132, R133 steps 1 and 2) -/

/-- The page after the entry to STARTING that a take brings a WAITING page; one that has started keeps its state. -/
def Page.begun (pg : Page) : Page :=
  if pg.state = .waiting then { pg with state := .starting, waitDeadline := none, started := true, chime := none } else pg

theorem Page.begun_desks (pg : Page) : pg.begun.deskList = pg.deskList := by
  unfold Page.begun
  split <;> rfl

theorem Page.begun_cls (pg : Page) : pg.begun.cls = pg.cls := by
  unfold Page.begun
  split <;> rfl

/-- The desk stations that a take moves to the page. -/
def Moves (s : State) (pg : Page) (i : StationId) : Prop := pg.state = .waiting ∧ i ∈ pg.deskList ∧ s.Joins pg.cls i

/-- The outputs that the page holds once `outs` are granted to it. -/
def heldWith (s : State) (r : PageRef) (outs : List OutputId) : Nat :=
  (List.finRange 16).countP fun o => decide (o ∈ outs ∨ (s.output o).state.holder = some r)

/-- The entry to STARTING is advised. -/
def adviseStarting (s : State) (r : PageRef) (pg : Page) (outs : List OutputId) : State :=
  if pg.state = .waiting then s.advise (.pageState r pg.cls (.entered .starting) (heldWith s r outs) pg.escGroup) else s

/-- From `s` to `v` the outputs have been granted to the page `p`, and it has started where it was WAITING. -/
structure Began (s v : State) (p : PageId) (pg : Page) (outs : List OutputId) : Prop where
  stays : v = { s with pages := v.pages, outputs := v.outputs, stations := v.stations, link := v.link }
  link : v.link = { (adviseStarting s (s.refOf p) pg outs).link with stationOrders := v.link.stationOrders }
  output : ∀ o, v.output o =
    if o ∈ outs then { s.output o with state := .guard (s.refOf p) (later s.now s.cfg.guardInterval) } else s.output o
  own : v.pages[p] = { gen := s.pages[p].gen, page := some pg.begun }
  others : ∀ q, q ≠ p → v.pages[q] = s.pages[q]
  moved : ∀ i, Moves s pg i → v.station i = { s.station i with state := .pageListen (s.refOf p) }
  unmoved : ∀ i, ¬ Moves s pg i → v.station i = s.station i

/-- The state in which the losses of a take are dealt with. -/
def beganBy (s : State) (p : PageId) (outs : List OutputId) : State :=
  if (s.page p).any (fun pg => pg.state = .waiting) then (outs.foldl (State.grant (s.refOf p)) s).enterStarting p
  else outs.foldl (State.grant (s.refOf p)) s

theorem takeSteps_eq (s : State) (p : PageId) (outs : List OutputId) :
    s.takeSteps p outs = (s.losersOf outs).foldl State.settleLoss (beganBy s p outs) := rfl

section
variable {s v u : State} {p : PageId} {pg : Page} {outs : List OutputId}

theorem granted_holder {w : State} (ho : ∀ o, w.output o =
      if o ∈ outs then { s.output o with state := .guard (s.refOf p) (later s.now s.cfg.guardInterval) } else s.output o) (o : OutputId) :
    (w.output o).state.holder = if o ∈ outs then some (s.refOf p) else (s.output o).state.holder := by
  rw [ho]
  split <;> rfl

theorem began_started (hp : s.page p = some pg) (hw : pg.state ≠ .waiting) : Began s (beganBy s p outs) p pg outs := by
  have output := grants_output (s.refOf p) outs s
  have stays := grants_stays (s.refOf p) outs s
  have began : pg.begun = pg := if_neg hw
  unfold beganBy
  rw [hp, if_neg (by simpa using hw)]
  generalize outs.foldl (State.grant (s.refOf p)) s = w at output stays
  refine ⟨by rw [stays], ?_, output, ?_, fun q _ => by rw [stays], fun i h => absurd h.1 hw, fun i _ => by rw [stays]; rfl⟩
  · rw [adviseStarting, if_neg hw, stays]
  · rw [began, ← hp, stays]
    rfl

theorem began_waiting (hp : s.page p = some pg) (hw : pg.state = .waiting) : Began s (beganBy s p outs) p pg outs := by
  have output := grants_output (s.refOf p) outs s
  have stays := grants_stays (s.refOf p) outs s
  unfold beganBy State.enterStarting
  rw [hp, if_pos (by simpa using hw)]
  generalize outs.foldl (State.grant (s.refOf p)) s = w at output stays
  generalize hx : (w.updPage p fun pg => { pg with state := .starting, waitDeadline := none, started := true, chime := none }) = x
  have began : x.page p = some pg.begun := by
    rw [← hx, State.page_updPage_self, Page.begun, if_pos hw, stays]
    exact congrArg (Option.map _) hp
  have ref : x.refOf p = s.refOf p := by rw [← hx, State.refOf_updPage, stays]; rfl
  have held : (x.held p).length = heldWith s (s.refOf p) outs := by
    rw [heldWith, List.countP_eq_length_filter, State.held, ref]
    refine congrArg List.length (List.filter_congr fun o _ => ?_)
    have same : x.output o = w.output o := by rw [← hx]; rfl
    rw [same, granted_holder output]
    by_cases taken : o ∈ outs <;> simp [taken]
  rw [advisePage_eq began, ref, held, Page.begun_cls, show pg.begun.escGroup = pg.escGroup by rw [Page.begun, if_pos hw]]
  generalize hy : x.advise _ = y
  have ypages : y.pages = x.pages := by rw [← hy]; rfl
  obtain ⟨⟨desks, link⟩, joins⟩ := joinDesks_effect ((page_congr (by rw [ypages])).trans began : y.page p = some pg.begun)
  have yref : y.refOf p = s.refOf p := (refOf_congr (by rw [ypages])).trans ref
  have station : ∀ i, y.station i = s.station i := fun i => by rw [← hy, ← hx, stays]; rfl
  have others : ∀ q, q ≠ p → y.pages[q] = s.pages[q] := fun q hq => by
    rw [ypages, ← hx, State.updPage, State.pages_updPageRec_ne _ hq, stays]
  have own : y.pages[p] = { gen := s.pages[p].gen, page := some pg.begun } := by
    rw [show y.pages[p] = { gen := (y.refOf p).gen, page := y.page p } from rfl, yref, page_congr (s := x) (by rw [ypages]), began]
    rfl
  have moves : ∀ i, i ∈ pg.begun.deskList ∧ y.Joins pg.begun.cls i ↔ Moves s pg i := fun i => by
    rw [Page.begun_desks, Page.begun_cls, Moves, joins_congr (s := s) (station i) (by rw [← hy, ← hx, stays]; rfl)]
    · exact (and_iff_right hw).symm
    · intro q
      by_cases e : q.id = p
      · obtain ⟨_, gen⟩ := q
        obtain rfl : _ = p := e
        unfold State.page at hp
        unfold State.pageAt State.page
        rw [own, hp]
        split
        · exact congrArg some pg.begun_cls
        · rfl
      · rw [pageAt_congr (others _ e)]
  simp only [moves, yref, station] at joins
  generalize y.joinDesks p = z at desks link joins
  refine ⟨?_, ?_, fun o => ?_, ?_, fun q hq => ?_, fun i => (joins i).1, fun i => (joins i).2⟩
  · rw [desks, ← hy, ← hx, stays]
    rfl
  · have same : x.link = s.link := by rw [← hx, stays]; rfl
    rw [link, adviseStarting, if_pos hw, ← hy, State.advise, State.advise, State.updLink_link, State.updLink_link, same]
  · rw [← output, desks, ← hy, ← hx]
    rfl
  · rw [desks]
    exact own
  · rw [← others q hq, desks]

theorem began_takes (hp : s.page p = some pg) (outs : List OutputId) : Began s (beganBy s p outs) p pg outs := by
  by_cases hw : pg.state = .waiting
  · exact began_waiting hp hw
  · exact began_started hp hw

/-! ## Whom a take strips (R133 step 3, R135, R136) -/

/-- The outputs are FREE or held by pages of strictly lower class than the taker's. -/
def FromLower (s : State) (pg : Page) (outs : List OutputId) : Prop :=
  ∀ o ∈ outs, (s.output o).state = .free ∨
    ∃ q x, (s.output o).state.holder = some q ∧ s.pageAt q = some x ∧ x.cls.num < pg.cls.num

/-- A page that loses an output to a page of higher class is another page in use. -/
theorem loser_inUse (hp : s.page p = some pg) (lower : FromLower s pg outs) {q : PageRef} (hq : q ∈ s.losersOf outs) :
    q.id ≠ p ∧ ∃ x, s.pageAt q = some x := by
  obtain ⟨o, ho, holder⟩ := (Fit.mem_losersOf s outs q).1 hq
  obtain free | ⟨q', x, holder', hx, less⟩ := lower o ho
  · rw [free] at holder
    cases holder
  · obtain rfl : q' = q := Option.some.inj (holder'.symm.trans holder)
    refine ⟨fun e => ?_, x, hx⟩
    obtain rfl := e
    obtain rfl := Option.some.inj (((State.pageAt_iff s q' x).1 hx).2.symm.trans hp)
    exact lt_irrefl _ less

theorem Began.refOf (b : Began s v p pg outs) (q : PageId) : v.refOf q = s.refOf q := by
  by_cases e : q = p
  · subst e
    unfold State.refOf
    rw [b.own]
  · exact refOf_congr (b.others q e)

/-- Another page is stripped when the take has taken all it held. -/
theorem Began.held_eq_nil (b : Began s v p pg outs) {q : PageId} (hq : q ≠ p) :
    v.held q = [] ↔ ∀ o ∈ s.held q, o ∈ outs := by
  simp only [State.held_eq_nil, State.mem_held, b.refOf, granted_holder b.output]
  refine forall_congr' fun o => ?_
  by_cases taken : o ∈ outs
  · simpa [taken] using fun e : s.refOf p = s.refOf q => s.refOf_ne hq e.symm
  · simp [taken]

/-- Of the stations joined to another page those stay that the take does not move. -/
theorem Began.joined (b : Began s v p pg outs) {q : PageId} (hq : q ≠ p) {stays : StationId → Bool}
    (hs : ∀ i, stays i = true ↔ ¬ Moves s pg i) : v.joined q = (s.joined q).filter stays := by
  unfold State.joined
  rw [page_congr (b.others q hq), b.refOf]
  cases s.page q with
  | none => rfl
  | some x =>
    refine (List.filter_congr fun i _ => ?_).trans List.filter_filter.symm
    by_cases moves : Moves s pg i
    · have away : s.refOf p ≠ s.refOf q := (s.refOf_ne hq).symm
      simp [b.moved i moves, Bool.eq_false_iff.2 (mt (hs i).1 (not_not.2 moves)), away]
    · simp [b.unmoved i moves, (hs i).2 moves]

/-- The pages stripped are those losers of which the take has taken all they held. -/
theorem Began.stripped (b : Began s v p pg outs) (hp : s.page p = some pg) (lower : FromLower s pg outs) :
    (s.losersOf outs).filter (stripsAt v) = (s.losersOf outs).filter fun q => (s.held q.id).all fun o => decide (o ∈ outs) := by
  refine List.filter_congr fun q hq => ?_
  obtain ⟨apart, x, hx⟩ := loser_inUse hp lower hq
  rw [Bool.eq_iff_iff, stripsAt_iff, pageAt_congr (b.others _ apart), hx, b.held_eq_nil apart, List.all_eq_true]
  simp

theorem losersOf_eq (s : State) (outs : List OutputId) :
    s.losersOf outs = (outs.filterMap fun o => (s.output o).state.holder).eraseDups := keepFirst_eq _

/-- A list with its later repeats left out holds each element once. -/
theorem keepFirst_nodup {α : Type} [DecidableEq α] (l : List α) : (keepFirst l).Nodup := by
  refine List.foldlRecOn (motive := List.Nodup) l _ .nil fun acc once x _ => ?_
  split
  · exact once
  · rename_i fresh
    exact once.append (List.nodup_singleton x) (by simpa using fresh)

end

/-! ## The take as a whole -/

section
variable {s v u : State} {p : PageId} {pg : Page} {outs : List OutputId} {stripped : List PageRef}

theorem taken_stays (b : Began s v p pg outs) (k : Settled v u stripped) (hp : s.page p = some pg)
    (hw : ∀ q x, s.page q = some x → x.waitLimit = some 0 → x.escGroup = none) :
    u = { s with pages := u.pages, outputs := u.outputs, stations := u.stations, link := u.link, heldAvail := u.heldAvail } := by
  have groups : u.groups = v.groups := k.groups fun q x hx => by
    by_cases e : q = p
    · subst e
      unfold State.page at hx
      rw [b.own] at hx
      obtain rfl := Option.some.inj hx
      have same : pg.begun.waitLimit = pg.waitLimit ∧ pg.begun.escGroup = pg.escGroup := by
        unfold Page.begun
        split <;> exact ⟨rfl, rfl⟩
      rw [same.1, same.2]
      exact hw q pg hp
    · exact hw q x ((page_congr (b.others q e)).symm.trans hx)
  rw [k.stays, groups, b.stays]

theorem taken_link (b : Began s v p pg outs) (k : Settled v u stripped) (apart : ∀ q ∈ stripped, q.id ≠ p) :
    u.link = { (stripped.foldl (adviseStripped s) (adviseStarting s (s.refOf p) pg outs)).link with
      stationOrders := u.link.stationOrders } := by
  obtain ⟨orders, link⟩ := adviseStripped_all stripped (fun q hq => page_congr (b.others _ (apart q hq))) b.link
  rw [k.link, link]

theorem taken_output (b : Began s v p pg outs) (k : Settled v u stripped) (o : OutputId) : u.output o =
    if o ∈ outs then { s.output o with state := .guard (s.refOf p) (later s.now s.cfg.guardInterval) } else s.output o := by
  rw [← b.output, k.stays]
  rfl

theorem taken_own (b : Began s v p pg outs) (k : Settled v u stripped) (apart : ∀ q ∈ stripped, q.id ≠ p) :
    u.pages[p] = { gen := s.pages[p].gen, page := some pg.begun } :=
  (k.others p (.inr fun h => apart _ h rfl)).trans b.own

theorem taken_kept (b : Began s v p pg outs) (k : Settled v u stripped) {q : PageId} (hq : q ≠ p)
    (h : s.page q = none ∨ s.refOf q ∉ stripped) : u.pages[q] = s.pages[q] :=
  (k.others q (by rw [page_congr (b.others q hq), b.refOf]; exact h)).trans (b.others q hq)

theorem taken_stripped (b : Began s v p pg outs) (k : Settled v u stripped) {q : PageId} (hq : q ≠ p) {x : Page}
    (hx : s.page q = some x) (h : s.refOf q ∈ stripped) : u.pages[q] = strippedRec s.now s.pages[q].gen x := by
  have now : v.now = s.now := by rw [b.stays]
  rw [← now, ← b.others q hq]
  exact k.stripped q x ((page_congr (b.others q hq)).trans hx) (by rw [b.refOf]; exact h)

/-- Of the stations of a stripped page those are released that do not move to the taker. -/
theorem released_iff (b : Began s v p pg outs) (apart : ∀ q ∈ stripped, q.id ≠ p) (i : StationId) :
    (∃ q ∈ stripped, i ∈ v.joined q.id) ↔ ¬ Moves s pg i ∧ ∃ q ∈ stripped, i ∈ s.joined q.id := by
  classical
  rw [← exists_and_left]
  refine exists_congr fun q => ⟨fun ⟨hq, hi⟩ => ?_, fun ⟨stays, hq, hi⟩ => ⟨hq, ?_⟩⟩
  · rw [b.joined (apart q hq) (stays := fun i => decide (¬ Moves s pg i)) fun i => decide_eq_true_iff, List.mem_filter] at hi
    exact ⟨of_decide_eq_true hi.2, hq, hi.1⟩
  · rw [b.joined (apart q hq) (stays := fun i => decide (¬ Moves s pg i)) fun i => decide_eq_true_iff, List.mem_filter]
    exact ⟨hi, decide_eq_true stays⟩

theorem taken_station (b : Began s v p pg outs) (k : Settled v u stripped) (apart : ∀ q ∈ stripped, q.id ≠ p) (i : StationId) :
    (Moves s pg i → u.station i = { s.station i with state := .pageListen (s.refOf p) }) ∧
      (¬ Moves s pg i →
        ((∃ q ∈ stripped, i ∈ s.joined q.id) → u.station i = { s.station i with state := .idle }) ∧
        ((∀ q ∈ stripped, i ∉ s.joined q.id) → u.station i = s.station i)) := by
  have released := released_iff b apart i
  rw [k.station]
  refine ⟨fun moves => ?_, fun stays => ⟨fun joined => ?_, fun kept => ?_⟩⟩
  · rw [if_neg fun h => (released.1 h).1 moves, b.moved i moves]
  · rw [if_pos (released.2 ⟨stays, joined⟩), b.unmoved i stays]
  · rw [if_neg fun h => let ⟨_, q, hq, hi⟩ := released.1 h; kept q hq hi, b.unmoved i stays]

theorem taken_heldAvail (b : Began s v p pg outs) (k : Settled v u stripped) (apart : ∀ q ∈ stripped, q.id ≠ p)
    {stays : StationId → Bool} (hs : ∀ i, stays i = true ↔ ¬ Moves s pg i) :
    u.heldAvail = s.heldAvail ++ (stripped.flatMap fun q => s.joined q.id).filter stays := by
  have held : v.heldAvail = s.heldAvail := by rw [b.stays]
  rw [k.heldAvail, held, List.filter_flatMap]
  exact congrArg _ (List.flatMap_congr fun q hq => b.joined (apart q hq) hs)

end

/-- Settles O44, by what a take begins and whom it strips. -/
theorem takesFollowTheClasses : Obligations.TakesFollowTheClasses := by
  rintro s u p pg outs r stripped moves began hp rfl hu lower waits hs hm hb
  have b := began_takes hp outs
  have k := settleLosses_effect (s.losersOf outs) (beganBy s p outs) (keepFirst_nodup _)
  rw [← takeSteps_eq, ← hu, b.stripped hp lower, losersOf_eq, ← hs] at k
  have apart : ∀ q ∈ stripped, q.id ≠ p := fun q hq =>
    (loser_inUse hp lower (by rw [losersOf_eq]; exact (List.mem_filter.1 (hs ▸ hq)).1)).1
  obtain rfl : began = adviseStarting s (s.refOf p) pg outs := hb
  obtain rfl : moves = Moves s pg := funext fun i => propext (hm i)
  have own := taken_own b k apart
  refine ⟨taken_stays b k hp waits, taken_link b k apart, taken_output b k, ?_, ?_, fun q x hq _ h => taken_kept b k hq (.inr h),
    fun q x hx h => ?_, fun q h => ?_, taken_station b k apart, fun stays hs => taken_heldAvail b k apart hs⟩
  · unfold State.page
    rw [own]
    rfl
  · unfold State.refOf
    rw [own]
  · exact taken_stripped b k (apart _ h) hx h
  · refine taken_kept b k (fun e => ?_) (.inl h)
    rw [e, hp] at h
    cases h

end Sys2Proof.Machine
end

