-- ==== Sys2Proof/Proofs/Reviews.lean ====
section
/-! SUPPORT. The wait order, what a page takes in its turn, and why the review of the wait order ends within its bound (R117, R120, R121). -/

namespace Sys2Proof.Machine

/-! ## The wait order (R120) -/

section
variable {α : Type} {before before' : α → α → Bool}

theorem insertBy_congr (x : α) : ∀ {l : List α}, (∀ y ∈ l, before x y = before' x y) → insertBy before x l = insertBy before' x l
  | [], _ => rfl
  | y :: l, h => by
    rw [insertBy, insertBy, h y List.mem_cons_self, insertBy_congr x fun z hz => h z (List.mem_cons_of_mem _ hz)]

/-- Sorting reads the order among the elements of the list alone. -/
theorem sortBy_congr : ∀ {l : List α}, (∀ x ∈ l, ∀ y ∈ l, before x y = before' x y) → sortBy before l = sortBy before' l
  | [], _ => rfl
  | x :: l, h => by
    rw [sortBy, sortBy, sortBy_congr fun y hy z hz => h y (List.mem_cons_of_mem _ hy) z (List.mem_cons_of_mem _ hz)]
    refine insertBy_congr x fun y hy => h x List.mem_cons_self y (List.mem_cons_of_mem _ ((sortBy_perm before' l).mem_iff.1 hy))

end

section
variable {s : State}

theorem mem_waitOrder (p : PageId) : p ∈ s.waitOrder ↔ ∃ pg, s.page p = some pg ∧
    ∃ o ∈ outputsOf pg.zoneOutputs, (s.output o).state.holder ≠ some (s.refOf p) := by
  rw [State.waitOrder, (sortBy_perm _ _).mem_iff, List.mem_filter, State.pagesInUse, List.mem_filter]
  unfold State.wanted
  cases s.page p <;> simp [List.filter_eq_nil_iff]

/-- The key of a page in the wait order: its class and its request age; pages that agree in both stand by their ids. -/
def waitKey (s : State) (p : PageId) : Nat × Nat :=
  match s.page p with
  | some pg => (pg.cls.num, s.requestAge pg)
  | none => (0, 0)

/-- Page `p` stands before page `q`: by class, highest first, then by age, greatest first, then by the lower id. -/
def StandsBefore (s : State) (p q : PageId) : Prop :=
  (waitKey s q).1 < (waitKey s p).1 ∨ ((waitKey s q).1 = (waitKey s p).1 ∧
    ((waitKey s q).2 < (waitKey s p).2 ∨ ((waitKey s q).2 = (waitKey s p).2 ∧ p < q)))

theorem standsBefore_iff {p q : PageId} {a b : Page} (hp : s.page p = some a) (hq : s.page q = some b) :
    StandsBefore s p q ↔ b.cls.num < a.cls.num ∨ (b.cls.num = a.cls.num ∧
      (s.requestAge b < s.requestAge a ∨ (s.requestAge b = s.requestAge a ∧ p < q))) := by
  simp only [StandsBefore, waitKey, hp, hq]

theorem pageBefore_iff {p q : PageId} (hp : (s.page p).isSome = true) (hq : (s.page q).isSome = true) :
    s.pageBefore p q = true ↔ StandsBefore s p q := by
  obtain ⟨a, ha⟩ := Option.isSome_iff_exists.1 hp
  obtain ⟨b, hb⟩ := Option.isSome_iff_exists.1 hq
  rw [standsBefore_iff ha hb, State.pageBefore, ha, hb, Fin.lt_def]
  dsimp only
  split
  · rw [decide_eq_true_iff]
    omega
  · split <;> rw [decide_eq_true_iff] <;> omega

/-- The wait order stands in its order. -/
theorem waitOrder_ordered : s.waitOrder.Pairwise (StandsBefore s) := by
  classical
  have inUse : ∀ p ∈ s.pagesInUse.filter fun p => decide (s.wanted p ≠ []), (s.page p).isSome = true := fun p hp =>
    (List.mem_filter.1 (List.mem_filter.1 hp).1).2
  have same : s.waitOrder = sortBy (fun p q => decide (StandsBefore s p q)) (s.pagesInUse.filter fun p => decide (s.wanted p ≠ [])) :=
    sortBy_congr fun p hp q hq => by rw [Bool.eq_iff_iff, pageBefore_iff (inUse p hp) (inUse q hq), decide_eq_true_iff]
  have ordered : s.waitOrder.Pairwise fun p q => decide (StandsBefore s q p) = false := by
    rw [same]
    refine sortBy_ordered (fun p q h => ?_) (fun p q k h1 h2 => ?_) _
    · rw [decide_eq_true_iff] at h
      rw [decide_eq_false_iff_not]
      rw [StandsBefore, Fin.lt_def] at *
      omega
    · rw [decide_eq_false_iff_not, StandsBefore, Fin.lt_def] at *
      omega
  refine (ordered.and (waitOrder_nodup s)).imp fun {p q} ⟨later, apart⟩ => ?_
  rw [decide_eq_false_iff_not, StandsBefore, Fin.lt_def] at later
  rw [StandsBefore, Fin.lt_def]
  have := Fin.val_ne_of_ne apart
  omega

end

/-! ## What a page may take (R117, R121) -/

section
variable {s : State} {p : PageId} {pg : Page}

theorem grabbable_iff (s : State) (cls : PageClass) (o : OutputId) : s.grabbable cls o = true ↔
    ∀ r x, (s.output o).state.holder = some r → s.pageAt r = some x → x.cls.num < cls.num := by
  unfold State.grabbable
  cases (s.output o).state.holder with
  | none => exact iff_of_true rfl fun _ _ h => by cases h
  | some r =>
    dsimp only
    cases hr : s.pageAt r with
    | none =>
      refine iff_of_true rfl fun r' x e hx => ?_
      obtain rfl := Option.some.inj e
      rw [hr] at hx
      cases hx
    | some x =>
      refine decide_eq_true_iff.trans ⟨fun lower r' x' e hx => ?_, fun h => h r x rfl hr⟩
      obtain rfl := Option.some.inj e
      obtain rfl := Option.some.inj (hr.symm.trans hx)
      exact lower

theorem takeableOf_whole (s : State) (cls : PageClass) (outs : List OutputId) :
    s.takeableOf cls true outs = if ∀ o ∈ outs, s.grabbable cls o = true then outs else [] :=
  (if_pos rfl).trans (if_congr List.all_eq_true rfl rfl)

theorem takeableOf_part (s : State) (cls : PageClass) (outs : List OutputId) :
    s.takeableOf cls false outs = outs.filter (s.grabbable cls) := if_neg Bool.false_ne_true

theorem takeable_eq (hp : s.page p = some pg) : s.takeable p =
    s.takeableOf pg.cls (decide (pg.state = .waiting) && !pg.started && decide (pg.mode = .allOrWait)) (s.wanted p) := by
  rw [State.takeable, hp]

/-- What a page takes in its turn it may grab. -/
theorem takeable_grabbable (hp : s.page p = some pg) {o : OutputId} (ho : o ∈ s.takeable p) : s.grabbable pg.cls o = true := by
  rw [takeable_eq hp, State.takeableOf] at ho
  split at ho
  · split at ho
    · rename_i all
      exact List.all_eq_true.1 all o ho
    · cases ho
  · exact (List.mem_filter.1 ho).2

theorem page_of_takeable (h : s.takeable p ≠ []) : ∃ pg, s.page p = some pg := by
  unfold State.takeable at h
  cases hp : s.page p with
  | none => rw [hp] at h; exact absurd rfl h
  | some pg => exact ⟨pg, rfl⟩

end

/-! ## The review (R121) -/

section
variable {s : State}

theorem firstTaker_none (h : ∀ p ∈ s.waitOrder, s.takeable p = []) : s.firstTaker = none :=
  List.findSome?_eq_none_iff.2 fun p hp => by rw [h p hp]

theorem firstTaker_some {before after : List PageId} {p : PageId} (order : s.waitOrder = before ++ p :: after)
    (nothing : ∀ q ∈ before, s.takeable q = []) (takes : s.takeable p ≠ []) : s.firstTaker = some (p, s.takeable p) := by
  refine List.findSome?_eq_some_iff.2 ⟨before, p, after, order, ?_, fun q hq => by rw [nothing q hq]⟩
  split
  · exact absurd ‹_› takes
  · rfl

/-- The first taker takes what it may. -/
theorem firstTaker_takeable {p : PageId} {outs : List OutputId} (h : s.firstTaker = some (p, outs)) :
    outs = s.takeable p ∧ outs ≠ [] := by
  obtain ⟨before, q, after, -, hq, -⟩ := List.findSome?_eq_some_iff.1 h
  split at hq
  · cases hq
  · rename_i outs' nonempty
    cases hq
    exact ⟨rfl, nonempty⟩

/-- The level of an output: 0 while no page in use holds it, and otherwise one above the class of the page that does. -/
def level (s : State) (o : OutputId) : Nat :=
  match (s.output o).state.holder.bind s.pageAt with
  | some x => x.cls.num + 1
  | none => 0

theorem level_le (s : State) (o : OutputId) : level s o ≤ 4 := by
  unfold level
  split
  · rename_i x _
    cases x.cls <;> decide
  · exact Nat.zero_le _

theorem level_lt_of_grabbable {cls : PageClass} {o : OutputId} (h : s.grabbable cls o = true) : level s o < cls.num + 1 := by
  unfold level
  split
  · rename_i x hx
    obtain ⟨r, hr, hx⟩ := Option.bind_eq_some_iff.1 hx
    exact Nat.succ_lt_succ ((grabbable_iff s cls o).1 h r x hr hx)
  · exact Nat.succ_pos _

/-- The levels of all outputs together, at most 64. -/
def levels (s : State) : Nat := ∑ o : OutputId, level s o

theorem levels_le (s : State) : levels s ≤ 64 := Finset.sum_le_card_nsmul Finset.univ (level s) 4 fun o _ => level_le s o

/-- A take lifts each output it takes to the level of the taker, and lowers none. -/
theorem takeSteps_level {p : PageId} {pg : Page} {outs : List OutputId} (hp : s.page p = some pg) (o : OutputId) :
    (o ∈ outs → pg.cls.num + 1 ≤ level (s.takeSteps p outs) o) ∧ (o ∉ outs → level s o ≤ level (s.takeSteps p outs) o) := by
  have b := began_takes hp outs
  have k := settleLosses_effect (s.losersOf outs) (beganBy s p outs) (keepFirst_nodup _)
  rw [← takeSteps_eq] at k
  generalize beganBy s p outs = v at b k
  generalize s.takeSteps p outs = u at k
  have output : u.output o = v.output o := by rw [k.stays]; rfl
  -- a page that holds an output has not been stripped
  have kept : ∀ r x, (v.output o).state.holder = some r → v.pageAt r = some x → u.pageAt r = some x := fun r x hr hx => by
    obtain ⟨e, -⟩ := (State.pageAt_iff v r x).1 hx
    refine (pageAt_congr (k.others r.id (.inr fun h => ?_))).trans hx
    have holds := (stripsAt_iff.1 (List.mem_filter.1 h).2).2
    exact (State.held_eq_nil v r.id).1 (by rw [e] at holds; exact holds) o (by rw [e]; exact hr)
  have lifts : ∀ r x, (v.output o).state.holder = some r → v.pageAt r = some x → x.cls.num + 1 ≤ level u o := fun r x hr hx => by
    unfold level
    rw [output, hr, Option.bind_some, kept r x hr hx]
  have own : v.pageAt (s.refOf p) = some pg.begun := by
    rw [← b.refOf, State.pageAt_refOf]
    unfold State.page
    rw [b.own]
  have holder := granted_holder b.output o
  refine ⟨fun taken => ?_, fun left => ?_⟩
  · rw [if_pos taken] at holder
    rw [← pg.begun_cls]
    exact lifts _ _ holder own
  · rw [if_neg left] at holder
    unfold level
    split
    · rename_i x hx
      obtain ⟨r, hr, hx⟩ := Option.bind_eq_some_iff.1 hx
      by_cases e : r.id = p
      · obtain ⟨named, hx⟩ := (State.pageAt_iff s r x).1 hx
        rw [e] at named hx
        obtain rfl := Option.some.inj (hp.symm.trans hx)
        rw [← pg.begun_cls]
        exact lifts _ _ (holder.trans hr) (named ▸ own)
      · exact lifts r x (holder.trans hr) ((pageAt_congr (b.others _ e)).trans hx)
    · exact Nat.zero_le _

/-- Each take of a review raises the levels of the outputs together. -/
theorem levels_lt_of_taker {p : PageId} {outs : List OutputId} (h : s.firstTaker = some (p, outs)) :
    levels s < levels (s.takeSteps p outs) := by
  obtain ⟨rfl, nonempty⟩ := firstTaker_takeable h
  obtain ⟨pg, hp⟩ := page_of_takeable nonempty
  have lifted : ∀ o ∈ s.takeable p, level s o < level (s.takeSteps p (s.takeable p)) o := fun o ho =>
    lt_of_lt_of_le (level_lt_of_grabbable (takeable_grabbable hp ho)) ((takeSteps_level hp o).1 ho)
  obtain ⟨o, ho⟩ := List.exists_mem_of_ne_nil _ nonempty
  refine Finset.sum_lt_sum (fun k _ => ?_) ⟨o, Finset.mem_univ o, lifted o ho⟩
  by_cases taken : k ∈ s.takeable p
  · exact (lifted k taken).le
  · exact (takeSteps_level hp k).2 taken

/-- With as many walks as levels are left to rise, one walk more changes nothing. -/
theorem reviewWalks_enough (n : Nat) : ∀ s : State, 64 ≤ n + levels s → State.reviewWalks (n + 1) s = State.reviewWalks n s := by
  induction n with
  | zero =>
    intro s full
    cases h : s.firstTaker with
    | none => simp [State.reviewWalks, h]
    | some taker =>
      have := levels_lt_of_taker (p := taker.1) (outs := taker.2) h
      have := levels_le (s.takeSteps taker.1 taker.2)
      omega
  | succ n ih =>
    intro s enough
    rw [State.reviewWalks, State.reviewWalks]
    cases h : s.firstTaker with
    | none => rfl
    | some taker =>
      have := levels_lt_of_taker (p := taker.1) (outs := taker.2) h
      exact ih _ (by omega)

/-- The review begins again after each take. -/
theorem reviewPages_again {p : PageId} {outs : List OutputId} (h : s.firstTaker = some (p, outs)) :
    s.reviewPages = (s.takeSteps p outs).reviewPages := by
  have rise := levels_lt_of_taker h
  have first : s.reviewPages = State.reviewWalks 64 (s.takeSteps p outs) := by
    rw [State.reviewPages, State.reviewBound, State.reviewWalks, h]
  rw [first, State.reviewPages, State.reviewBound, reviewWalks_enough 64 _ (by omega)]

theorem reviewPages_none (h : ∀ p ∈ s.waitOrder, s.takeable p = []) : s.reviewPages = s := by
  rw [State.reviewPages, State.reviewBound, State.reviewWalks, firstTaker_none h]

end

/-- Settles O45, by the order of the pages and the levels that each take raises. -/
theorem reviewWalksTheWaitOrder : Obligations.ReviewWalksTheWaitOrder := by
  refine fun s => ⟨mem_waitOrder, waitOrder_ordered.imp fun before a b ha hb => (standsBefore_iff ha hb).1 before, ?_, reviewPages_none,
    fun before p after order nothing takes =>
      reviewPages_again (firstTaker_some order nothing takes)⟩
  rintro p pg isOpen want hp hopen hwant
  obtain rfl : isOpen = s.grabbable pg.cls := funext fun o => by
    rw [Bool.eq_iff_iff, hopen, grabbable_iff]
    refine ⟨fun h r x hr hx => ?_, fun h => .inr fun q hq x hx => h q x hq hx⟩
    obtain free | lower := h
    · rw [free] at hr
      cases hr
    · exact lower r hr x hx
  obtain rfl : want = s.wanted p := by
    rw [hwant, State.wanted, hp]
  rw [takeable_eq hp]
  refine ⟨fun ⟨waiting, fresh, mode⟩ => ?_, fun other => ?_⟩
  · rw [waiting, fresh, mode]
    exact takeableOf_whole s _ _
  · have part : (decide (pg.state = .waiting) && !pg.started && decide (pg.mode = .allOrWait)) = false := by
      rw [← Bool.not_eq_true]
      simpa [and_assoc] using other
    rw [part, takeableOf_part]

end Sys2Proof.Machine
end

