-- ==== Sys2Proof/Proofs/AcceptedPages.lean ====
section
/-! SUPPORT. An accepted PAGE: its record, the outputs it may take, and its start at an idle part (R112, R113, R116, R117, R119, R122, R127, R132, R133). -/

namespace Sys2Proof.Machine

/-! ## The record of R116 -/

theorem foldl_or_getLsbD {α : Type} (f : α → OutputSet) (k : Nat) (l : List α) : ∀ m : OutputSet,
    (l.foldl (fun acc z => acc ||| f z) m).getLsbD k = true ↔ m.getLsbD k = true ∨ ∃ z ∈ l, (f z).getLsbD k = true := by
  induction l with
  | nil => simp
  | cons z l ih =>
    intro m
    rw [List.foldl_cons, ih, BitVec.getLsbD_or, Bool.or_eq_true, or_assoc, List.exists_mem_cons_iff]

theorem zoneOutputs_getLsbD (s : State) (m : MapSetId) (zs : List ZoneId) (o : OutputId) :
    (s.zoneOutputs m zs).getLsbD o.val = true ↔ ∃ z ∈ zs, ((s.cfg.maps[m])[z]).outputs.getLsbD o.val = true := by
  rw [State.zoneOutputs, foldl_or_getLsbD]
  simp

theorem zoneDesks_eq (s : State) (m : MapSetId) (zs : List ZoneId) :
    s.zoneDesks m zs = ((zs.flatMap fun z => ((s.cfg.maps[m])[z]).desks).eraseDups).take 32 := by
  rw [State.zoneDesks, keepFirst_eq]
  rfl

theorem outputsOf_ascending (set : OutputSet) : (outputsOf set).Pairwise (· < ·) := (List.pairwise_lt_finRange 16).filter _

theorem mem_outputsOf (set : OutputSet) (o : OutputId) : o ∈ outputsOf set ↔ set.getLsbD o.val = true := by
  simp [outputsOf]

theorem pageAt_some_iff (s : State) (r : PageRef) (x : Page) :
    s.pageAt r = some x ↔ s.pages[r.id].gen = r.gen ∧ s.page r.id = some x := Option.ite_none_right_eq_some

theorem takeableOf_free {s : State} {cls : PageClass} {outs : List OutputId} (h : ∀ o, s.grabbable cls o = true) (whole : Bool) :
    s.takeableOf cls whole outs = outs := by
  cases whole with
  | true => exact (takeableOf_whole s cls outs).trans (if_pos fun o _ => h o)
  | false => exact (takeableOf_part s cls outs).trans (List.filter_eq_self.2 fun o _ => h o)

/-! ## The start at an idle part (R122, R127, R132, R133) -/

section
variable {s v : State} {p : PageId} {pg : Page} {outs : List OutputId}

/-- Without losers a take ends with the entry to STARTING. -/
theorem takeSteps_free (free : ∀ o, (s.output o).state = .free) : s.takeSteps p outs = beganBy s p outs := by
  have losers : s.losersOf outs = [] := by
    refine List.eq_nil_iff_forall_not_mem.2 fun q hq => ?_
    obtain ⟨o, -, holder⟩ := (Fit.mem_losersOf s outs q).1 hq
    rw [free] at holder
    cases holder
  rw [takeSteps_eq, losers]
  rfl

/-- Of FREE outputs the page holds afterwards those granted. -/
theorem heldWith_free (free : ∀ o, (s.output o).state = .free) (r : PageRef) (set : OutputSet) :
    heldWith s r (outputsOf set) = (outputsOf set).length := by
  rw [heldWith, List.countP_eq_length_filter]
  refine congrArg List.length (List.filter_congr fun o _ => ?_)
  rw [free, Bool.eq_iff_iff, decide_eq_true_iff, mem_outputsOf]
  simp [OutputState.holder]

/-- While it is the one page in use the page moves the IDLE stations of its desk list. -/
theorem moves_only (hp : s.page p = some pg) (only : ∀ q, q ≠ p → s.page q = none) (hw : pg.state = .waiting) (i : StationId) :
    Moves s pg i ↔ i ∈ pg.deskList ∧ s.isIdle i = true := by
  unfold Moves State.Joins
  rw [and_iff_right hw]
  refine and_congr_right fun _ => or_iff_left ?_
  rintro ⟨q, x, -, hx, lower⟩
  have hx := ((State.pageAt_iff s q x).1 hx).2
  by_cases e : q.id = p
  · rw [e, hp] at hx
    obtain rfl := Option.some.inj hx
    exact lt_irrefl _ lower
  · rw [only _ e] at hx
    cases hx

/-- A review in which the one page in use wants nothing more changes nothing. -/
theorem reviewPages_content (own : v.page p = some pg) (only : ∀ q, q ≠ p → v.page q = none)
    (holds : ∀ o ∈ outputsOf pg.zoneOutputs, (v.output o).state.holder = some (v.refOf p)) : v.reviewPages = v := by
  refine reviewPages_none fun q hq => ?_
  obtain ⟨x, hx, o, ho, lacks⟩ := (mem_waitOrder q).1 hq
  by_cases e : q = p
  · subst e
    obtain rfl := Option.some.inj (own.symm.trans hx)
    exact absurd (holds o ho) lacks
  · rw [only q e] at hx
    cases hx

end

/-! ## The answer (R113, R117) -/

section
variable {s : State} {tag : Octet} {body : List Octet} {rest : List Frame} {q : RawPage} {x : PageFields} {m : MapSetId} {p : PageId}

/-- An accepted page, before its answer is placed. -/
theorem handlePage_accepted (hq : q.Spells body) (hx : q.fields = some x)
    (hm : m = x.mapSet.getD (s.stationCfg x.requester).defaultMapSet) (passes : NoFailure (pageChecks s x m)) (hp : s.page p = none)
    (lower : ∀ k, k < p → (s.page k).isSome = true) (starts : ¬ (pageOuts s x m = [] ∧ x.wait = some 0)) :
    handlePage body s = accept (s.acceptPage p (pageOf s x m))
      (putRef (some (s.refOf p)) ++ put1 (if pageOuts s x m = [] then PageState.waiting else .starting).code) :=
  (handlePage_passed hq hx hm passes).trans (startPage_accepted (freePage_of hp lower) starts)

theorem page_waits (ready : Ready s ⟨0x18, tag, body⟩ rest) (hq : q.Spells body) (hx : q.fields = some x)
    (hm : m = x.mapSet.getD (s.stationCfg x.requester).defaultMapSet) (passes : NoFailure (pageChecks s x m)) (hp : s.page p = none)
    (lower : ∀ k, k < p → (s.page k).isSome = true) (nothing : pageOuts s x m = []) (limit : x.wait ≠ some 0) :
    exec (.page tag body) s = .next ((((s.takeHead rest).updPageRec p fun k =>
      { k with page := some { pageOf s x m with waitDeadline := x.wait.map fun w => later s.now (seconds w) } }).advise
      (.pageState (s.refOf p) x.cls (.entered .waiting) (s.held p).length none)).answer ⟨0x18, tag, body⟩ .ok
        (putRef (some (s.refOf p)) ++ put1 0)) := by
  refine dispatch_served (row := .page) rfl ?_ (by exact ready.2.2) ready
  refine (handlePage_accepted (s := s.takeHead rest) hq hx hm passes hp lower fun h => limit h.2).trans ?_
  rw [acceptPage_waits (s := s.takeHead rest) (pg := pageOf (s.takeHead rest) x m) nothing,
    if_pos (show pageOuts (s.takeHead rest) x m = [] from nothing)]
  rfl

theorem page_takes (ready : Ready s ⟨0x18, tag, body⟩ rest) (hq : q.Spells body) (hx : q.fields = some x)
    (hm : m = x.mapSet.getD (s.stationCfg x.requester).defaultMapSet) (passes : NoFailure (pageChecks s x m)) (hp : s.page p = none)
    (lower : ∀ k, k < p → (s.page k).isSome = true) (something : pageOuts s x m ≠ []) :
    exec (.page tag body) s = .next (((((s.takeHead rest).updPageRec p fun k =>
      { k with page := some (pageOf s x m) }).takeSteps p (pageOuts s x m)).reviewPages).flush.answer ⟨0x18, tag, body⟩ .ok
        (putRef (some (s.refOf p)) ++ put1 1)) := by
  refine dispatch_flushed (row := .page) rfl ?_ ready
  refine (handlePage_accepted (s := s.takeHead rest) hq hx hm passes hp lower fun h => something h.1).trans ?_
  rw [acceptPage_takes (s := s.takeHead rest) (pg := pageOf (s.takeHead rest) x m) (outs := pageOuts s x m) rfl something,
    if_neg (show pageOuts (s.takeHead rest) x m ≠ [] from something)]
  rfl

/-- The page that starts while no page is in use and every output is FREE. -/
theorem page_begins {t v : State} (idle : ∀ k, s.page k = none) (free : ∀ o, (s.output o).state = .free)
    (ht : t = (s.takeHead rest).updPageRec p fun k => { k with page := some (pageOf s x m) })
    (b : Began t v p (pageOf s x m) (outputsOf (s.zoneOutputs m x.zones))) : v.reviewPages = v ∧
      v = { s.takeHead rest with pages := v.pages, outputs := v.outputs, stations := v.stations, link := v.link } ∧
      v.link = { ((s.takeHead rest).advise (.pageState (s.refOf p) x.cls (.entered .starting)
        (outputsOf (s.zoneOutputs m x.zones)).length none)).link with stationOrders := v.link.stationOrders } ∧
      v.pages[p] = { s.pages[p] with page := some { pageOf s x m with state := .starting, started := true } } ∧
      (∀ k : PageId, k ≠ p → v.pages[k] = s.pages[k]) ∧
      (∀ o, v.output o = if o ∈ outputsOf (s.zoneOutputs m x.zones) then
        { s.output o with state := .guard (s.refOf p) (later s.now s.cfg.guardInterval) } else s.output o) ∧
      StationsIn s v ((s.zoneDesks m x.zones).filter s.isIdle) (fun _ => .pageListen (s.refOf p)) := by
  have ref : t.refOf p = s.refOf p := by
    rw [ht]
    unfold State.refOf
    rw [State.pages_updPageRec_self]
    rfl
  have own : t.page p = some (pageOf s x m) := by
    rw [ht]
    unfold State.page
    rw [State.pages_updPageRec_self]
  have others : ∀ k : PageId, k ≠ p → t.pages[k] = s.pages[k] := fun k hk => by
    rw [ht]
    exact (s.takeHead rest).pages_updPageRec_ne hk _
  have alone : ∀ k, k ≠ p → t.page k = none := fun k hk => (page_congr (others k hk)).trans (idle k)
  have began : (pageOf s x m).begun = { pageOf s x m with state := .starting, started := true } := rfl
  have gen : t.pages[p].gen = s.pages[p].gen := congrArg PageRef.gen ref
  have bown := b.own
  have boutput := b.output
  have moves : ∀ i, Moves t (pageOf s x m) i ↔ i ∈ (s.zoneDesks m x.zones).filter s.isIdle := fun i => by
    rw [moves_only own alone rfl, List.mem_filter, ht]
    rfl
  have station : ∀ i, t.station i = s.station i := fun i => by rw [ht]; rfl
  rw [gen, began] at bown
  simp only [ref] at boutput
  refine ⟨?_, ?_, ?_, bown, fun k hk => (b.others k hk).trans (others k hk), fun o => ?_, fun i hi => ?_, fun i hi => ?_, fun i => ?_⟩
  · refine reviewPages_content (p := p) (pg := { pageOf s x m with state := .starting, started := true })
      (by unfold State.page; rw [bown]) (fun k hk => (page_congr (b.others k hk)).trans (alone k hk)) fun o ho => ?_
    rw [b.refOf, granted_holder b.output]
    exact if_pos ho
  · rw [b.stays, ht]
    rfl
  · rw [b.link, adviseStarting, if_pos (show (pageOf s x m).state = .waiting from rfl), ref,
      heldWith_free (fun o => by rw [ht]; exact free o), ht]
    rfl
  · rw [boutput, ht]
    rfl
  · rw [b.moved i ((moves i).2 hi), ref]
  · rw [b.unmoved i (mt (moves i).1 hi), station]
  · by_cases h : Moves t (pageOf s x m) i
    · rw [b.moved i h, station]
      exact ⟨rfl, rfl⟩
    · rw [b.unmoved i h, station]
      exact ⟨rfl, rfl⟩

end

/-- Settles O43, by the record of R116, the outputs a page may take, and what a take begins. -/
theorem acceptedPageStartsOrWaits : Obligations.AcceptedPageStartsOrWaits := by
  refine ⟨fun s m zs => ⟨zoneOutputs_getLsbD s m zs, zoneDesks_eq s m zs⟩, fun set => ⟨outputsOf_ascending set, mem_outputsOf set⟩,
    fun _ _ _ => rfl, fun _ _ => ⟨rfl, rfl, rfl⟩,
    fun s cls outs => ⟨grabbable_iff s cls, takeableOf_part s cls outs, takeableOf_whole s cls outs⟩,
    fun s p => ⟨pageAt_some_iff s, rfl, held_ascending s p, s.mem_held p, fun pg hp => by rw [State.joined, hp]⟩, ?_⟩
  rintro s tag body rest _ q x m p outs rfl ready hq hx hm passes hp lower houts
  obtain rfl : outs = pageOuts s x m := houts
  refine ⟨page_waits ready hq hx hm passes hp lower, page_takes ready hq hx hm passes hp lower, fun something idle free => ?_⟩
  have all : pageOuts s x m = outputsOf (s.zoneOutputs m x.zones) :=
    takeableOf_free (fun o => (grabbable_iff s x.cls o).2 fun r k hr => by rw [free] at hr; cases hr) _
  have takes := page_takes ready hq hx hm passes hp lower something
  rw [all] at takes ⊢
  generalize ht : ((s.takeHead rest).updPageRec p fun k => { k with page := some (pageOf s x m) }) = t at takes
  have own : t.page p = some (pageOf s x m) := by
    rw [← ht]
    unfold State.page
    rw [State.pages_updPageRec_self]
  rw [takeSteps_free (fun o => by rw [← ht]; exact free o)] at takes
  have b := began_takes own (outputsOf (s.zoneOutputs m x.zones))
  generalize beganBy t p (outputsOf (s.zoneOutputs m x.zones)) = v at takes b
  obtain ⟨settled, stays, link, page, others, output, stations⟩ := page_begins idle free ht.symm b
  refine ⟨v, ?_, stays, link, page, others, rfl, output, stations⟩
  rw [takes, settled, flush_none v (by rw [stays]; exact ready.2.2)]

end Sys2Proof.Machine
end

