-- ==== Sys2Proof/Proofs/PageEnds.lean ====
section
/-! SUPPORT. How a page ends: PAGE_END, its wait deadline, its chime; and what its end releases (R119, R124 to R126, R137, R142, R144, R145). -/

namespace Sys2Proof.Machine

/-! ## The held-back events while no call waits (R58, R124) -/

theorem flush_nobody {s : State} (hw : NoCallWaits s) : s.flush = { s with heldAvail := [] } := by
  by_cases h : s.heldAvail = []
  · rw [flush_none s h, ← h]
  · exact flush_once h (availAll_none (s := { s with heldAvail := [] }) hw _).symm rfl

/-! ## The end of the one page in use (R124, R126, R137) -/

section
variable {s t u : State} {p : PageId} {pg : Page} {why : EndReason}

theorem endPage_plain (hp : s.page p = some pg) (hg : pg.escGroup = none) (why : EndReason) : s.endPage p why =
    if s.held p = [] then s.endPageRecord p why else (s.endPageRecord p why).reviewPages := by
  rw [State.endPage, hp]
  dsimp only
  rw [hg]

/-- While no page is in use a review changes nothing. -/
theorem reviewPages_idle (h : ∀ q, s.page q = none) : s.reviewPages = s := by
  refine reviewPages_none fun q hq => ?_
  obtain ⟨x, hx, -⟩ := (mem_waitOrder q).1 hq
  rw [h q] at hx
  cases hx

/-- The end of the one page in use frees it and what it held; the availability events of its stations give them to no call. -/
theorem endPage_only (hp : s.page p = some pg) (hg : pg.escGroup = none) (only : OnlyPage s p) (hw : NoCallWaits s)
    (hh : s.heldAvail = []) (why : EndReason) : PageGone s (s.endPage p why).flush p pg why := by
  obtain ⟨u, gone, e⟩ := endPageRecord_gone hp why
  have idle : ∀ q, (s.endPageRecord p why).page q = none := fun q => by
    rw [e]
    by_cases k : q = p
    · subst k
      exact congrArg PageRec.page gone.2.2.1
    · refine (page_congr (gone.2.2.2.1 q k)).trans ?_
      have free := mt (only q).1 k
      simpa using free
  have ended : s.endPage p why = s.endPageRecord p why := by
    rw [endPage_plain hp hg, reviewPages_idle idle, ite_self]
  have stays := gone.1
  have groups : u.groups = s.groups := by rw [stays]
  have held : u.heldAvail = [] := by rw [stays]; exact hh
  have settled : (s.endPage p why).flush = u := by
    rw [ended, e, flush_nobody fun g => by rw [State.group, groups]; exact hw g, ← held]
  rw [settled]
  exact gone

/-- A page that holds nothing and that no station listens to: its record is FREE and its end is advised. -/
theorem endPage_bare (hp : s.page p = some pg) (hg : pg.escGroup = none) (hh : s.held p = []) (hj : s.joined p = []) (why : EndReason) :
    s.endPage p why = (s.updPageRec p fun k => { gen := k.gen + 1, page := none }).advise
      (.pageState (s.refOf p) pg.cls (.ended why) 0 none) := by
  have released : s.releaseJoined p = s := by simp [State.releaseJoined, hj, State.holdAvail]
  rw [endPage_plain hp hg, if_pos hh, endPageRecord_unheld hp hh, released, hg]

end

/-! ## PAGE_END (R125) -/

section
variable {s : State} {v : Nat} {gen : Octet}

theorem handlePageEnd_eq (hv : v < 256) : handlePageEnd (put1 v ++ [gen]) s = orBadValue s (finOf 16 v) fun p =>
    if (s.pageAt { id := p, gen := gen }).isSome then accept (s.endPage p .endedByHost) [] else refuse s .unknown := by
  have octet : gen = BitVec.ofNat 8 gen.toNat := by simp
  have read : StateT.run readPageEnd (put1 v ++ [gen]) = some ((v, gen.toNat), []) := by
    simp only [readPageEnd, run_bind_some readOctet_takes, run_pure_some]
    exact ⟨v, [gen], ⟨hv, rfl⟩, gen.toNat, [], ⟨gen.isLt, by rw [put1_eq, ← octet]; rfl⟩, rfl, rfl⟩
  refine (withBody_of read s _).trans ?_
  dsimp only
  rw [← octet]

end

/-! ## The chime (R142, R144, R145) -/

section
variable {s : State} {p : PageId} {pg : Page} {c : Chime}

theorem periodDue_of (hp : s.page p = some pg) (hc : pg.chime = some c) (due : s.now = later c.periodStart c.length) :
    s.periodDue p = true := by
  simp [State.periodDue, hp, hc, due]

theorem periodEnds_next (hp : s.page p = some pg) (hc : pg.chime = some c) (more : c.completed + 1 < s.cfg.patterns[c.pattern].repeats) :
    s.periodEnds p = s.updPage p fun x => { x with chime := some (s.chimePeriod c.pattern (c.completed + 1)) } := by
  rw [State.periodEnds, hp]
  dsimp only
  rw [hc]
  exact if_neg (not_le.2 more)

theorem periodEnds_last (hp : s.page p = some pg) (hc : pg.chime = some c) (done : s.cfg.patterns[c.pattern].repeats ≤ c.completed + 1) :
    s.periodEnds p = s.chimeComplete p pg := by
  rw [State.periodEnds, hp]
  dsimp only
  rw [hc]
  exact if_pos done

theorem updPage_updPage (s : State) (p : PageId) (f k : Page → Page) :
    (s.updPage p f).updPage p k = s.updPage p fun x => k (f x) :=
  (updPage_updPageRec s p _ k).trans (by simp only [Option.map_map]; rfl)

/-- A pre-announce that completes leaves its page LIVE (R145). -/
theorem chimeComplete_input {i : InputId} (hp : s.page p = some pg) (hs : pg.source = .input i) : s.chimeComplete p pg =
    (s.updPage p fun k => { k with state := .live, chime := none }).advise
      (.pageState (s.refOf p) pg.cls (.entered .live) (s.held p).length pg.escGroup) := by
  have live : (s.updPage p fun k => { k with state := .live, chime := none }).page p = some { pg with state := .live, chime := none } := by
    rw [State.page_updPage_self, hp]
    rfl
  have held : (s.updPage p fun k => { k with state := .live, chime := none }).held p = s.held p :=
    State.held_congr (fun _ => rfl) (s.refOf_updPage p p _)
  unfold State.chimeComplete
  rw [hs]
  dsimp only
  rw [updPage_updPage, advisePage_eq live, State.refOf_updPage, held]

/-- What the end of a page leaves does not depend on the chime it had in play. -/
theorem pageGone_chime {u : State} {why : EndReason} (hp : s.page p = some pg)
    (gone : PageGone (s.updPage p fun k => { k with chime := none }) u p { pg with chime := none } why) : PageGone s u p pg why := by
  have ref := s.refOf_updPage p p fun k => { k with chime := none }
  have joined : (s.updPage p fun k => { k with chime := none }).joined p = s.joined p :=
    joined_congr (by rw [State.page_updPage_self, hp]; rfl) ref fun _ => Iff.rfl
  obtain ⟨stays, link, freed, others, outputs, stations⟩ := gone
  rw [ref] at link outputs
  rw [joined] at stations
  refine ⟨stays, link, ?_, fun q hq => (others q hq).trans (s.pages_updPageRec_ne hq _), outputs, stations⟩
  rw [freed]
  exact congrArg (fun r : PageRef => PageRec.mk (r.gen + 1) none) ref

theorem onlyPage_updPage (only : OnlyPage s p) (f : Page → Page) : OnlyPage (s.updPage p f) p := fun q => by
  rw [← only q]
  by_cases e : q = p
  · rw [e, State.page_updPage_self, Option.isSome_map]
  · rw [s.page_updPage_ne e]

end

/-- Settles O46, by the end of the record, the review that finds no page, and the events that no call answers. -/
theorem pageEndsReleaseThePage : Obligations.PageEndsReleaseThePage := by
  refine ⟨?_, ?_⟩
  · rintro s tag v gen rest _ _ hv rfl rfl ready
    have handled := handlePageEnd_eq (gen := gen) (s := s.takeHead rest) hv
    refine ⟨fun big => ?_, ?_⟩
    · exact dispatch_answered (row := .pageEnd) rfl (by rw [handled, finOf_none_iff.2 big]; rfl) ready
    rintro p rfl
    rw [finOf_self, orBadValue_some] at handled
    refine ⟨fun unknown => ?_, fun pg hr => ?_⟩
    · exact dispatch_answered (row := .pageEnd) rfl
        (handled.trans (if_neg (by rw [show (s.takeHead rest).pageAt _ = _ from unknown]; simp))) ready
    · have ended : exec (.pageEnd tag (put1 p.val ++ [gen])) s =
          .next (((s.takeHead rest).endPage p .endedByHost).flush.answer ⟨0x19, tag, put1 p.val ++ [gen]⟩ .ok []) :=
        dispatch_flushed (row := .pageEnd) rfl
          (handled.trans (if_pos (by rw [show (s.takeHead rest).pageAt _ = _ from hr]; rfl))) ready
      refine ⟨ended, fun hg only hw => ⟨_, ended, ?_⟩⟩
      exact endPage_only (s := s.takeHead rest) ((State.pageAt_iff s _ pg).1 hr).2 hg only hw ready.2.2 _
  · rintro s p pg ⟨running, held⟩ hp
    refine ⟨fun waiting deadline => ?_, fun c hc due => ?_⟩
    · have due : s.pageWaitDue p = true := by simp [State.pageWaitDue, State.due, hp, waiting, deadline]
      have expires : exec (.pageWaitExpiry p) s = .next (s.endPage p .waitExpired).finish :=
        event_happens (e := fun s => s.endPage p .waitExpired) running due
      refine ⟨expires, fun hh hj hg => ?_⟩
      rw [expires, endPage_bare hp hg hh hj, finish_none _ (by exact held)]
    · have ends : exec (.chimePeriodEnd p) s = .next (s.periodEnds p).finish :=
        event_happens (e := fun s => s.periodEnds p) running (periodDue_of hp hc due)
      refine ⟨fun more => ?_, fun done => ⟨fun i hs => ?_, fun k hs => ?_⟩⟩
      · rw [ends, periodEnds_next hp hc more, finish_none _ (by exact held)]
        rfl
      · rw [ends, periodEnds_last hp hc done, chimeComplete_input hp hs, finish_none _ (by exact held)]
      · have complete : exec (.chimePeriodEnd p) s =
            .next ((s.updPage p fun k => { k with chime := none }).endPage p .complete).flush.transmitTake := by
          rw [ends, periodEnds_last hp hc done, State.chimeComplete, hs]
          rfl
        refine ⟨complete, fun hg only hw => ⟨_, complete, pageGone_chime hp ?_⟩⟩
        have silent : (s.updPage p fun k => { k with chime := none }).page p = some { pg with chime := none } := by
          rw [State.page_updPage_self, hp]
          rfl
        exact endPage_only silent hg (onlyPage_updPage only _) hw held _

end Sys2Proof.Machine
end
